-- ==== Sys2Proof/Word.lean ====
section
/-! DEFINITION. The real word of the core, an IEEE 754 binary64 value held by its 64 bits, its fields,
and the two stations. The arithmetic is in Machine/Float64.lean. -/

namespace Sys2Proof

/-- A binary64 value (00_scope.md R11), held by its interchange bits: 63 sign, 62:52 exponent,
51:0 fraction. No rule views it at another width (20_memory.md R84); the bits serve to compare and to
write values out. -/
structure F64 where
  bits : BitVec 64
deriving DecidableEq, Repr, Inhabited

/-- The sign: true is negative. -/
def F64.sign (a : F64) : Bool := a.bits.getLsbD 63

/-- The bits below the sign as a number: it grows with the magnitude of the value. -/
def F64.mag (a : F64) : Nat := a.bits.toNat % 2 ^ 63

/-- The biased exponent field. -/
def F64.expField (a : F64) : Nat := a.mag / 2 ^ 52

/-- The fraction field. -/
def F64.fracField (a : F64) : Nat := a.mag % 2 ^ 52

/-- The bits of +infinity. -/
def F64.infMag : Nat := 2047 * 2 ^ 52

def F64.isFinite (a : F64) : Bool := a.mag < F64.infMag
def F64.isInf (a : F64) : Bool := a.mag == F64.infMag
def F64.isNaN (a : F64) : Bool := F64.infMag < a.mag

/-- The value with a given sign and given bits below it. -/
def F64.pack (neg : Bool) (mag : Nat) : F64 :=
  ⟨BitVec.ofNat 64 (if neg then 2 ^ 63 + mag else mag)⟩

/-- +0.0, the reset value of every real element (70_reset_and_hazards.md R280). -/
def F64.zero : F64 := ⟨0#64⟩
/-- -0.0. -/
def F64.negZero : F64 := ⟨0x8000000000000000#64⟩
/-- +infinity (00_scope.md R12). -/
def F64.inf : F64 := ⟨0x7FF0000000000000#64⟩
/-- The quiet NaN every invalid operation gives. DESIGN CHOICE (notes/assumptions/11.md). -/
def F64.nan : F64 := ⟨0x7FF8000000000000#64⟩

/-- The two stations (00_scope.md R2): A is WWV, 1000 Hz; B is WWVH, 1200 Hz. -/
inductive Station where
  | a
  | b
deriving DecidableEq, Repr, Inhabited

/-- A pair of like things, one for each station. -/
structure ByStation (α : Type) where
  a : α
  b : α
deriving DecidableEq, Repr

/-- The element of one station. -/
def ByStation.get {α : Type} (p : ByStation α) : Station → α
  | .a => p.a
  | .b => p.b

/-- The pair with the element of one station replaced. -/
def ByStation.set {α : Type} (p : ByStation α) (st : Station) (v : α) : ByStation α :=
  match st with
  | .a => { p with a := v }
  | .b => { p with b := v }

end Sys2Proof
end

