-- ==== Sys2Proof/Machine/Float64.lean ====
section
/-! DEFINITION. Arithmetic: binary64 operations (00_scope.md R11, R12) by exact integers and one rounding,
and the integer notation of R10 and R13. Every finite binary64 value is an integer number of units of 2^-1074;
an operation computes its exact result in those units as a ratio of natural numbers and narrows it once. -/

namespace Sys2Proof

/-- The magnitude of a finite value in units of 2^-1074. -/
def F64.units (a : F64) : Nat :=
  if a.expField = 0 then a.fracField else (2 ^ 52 + a.fracField) <<< (a.expField - 1)

/-- A finite value as a signed number of units of 2^-1074. -/
def F64.toInt (a : F64) : Int := if a.sign then -(a.units : Int) else (a.units : Int)

/-- The bits below the sign of the binary64 value nearest to num/den units of 2^-1074, ties to even (R11);
the bits of infinity where the rounded value is out of range. -/
def F64.roundMag (num den : Nat) : Nat :=
  let whole := num / den
  let shift := whole.log2 - 52
  let unit := den <<< shift
  let q := num / unit
  let r := num % unit
  let q' := if unit < 2 * r ∨ (2 * r = unit ∧ q % 2 = 1) then q + 1 else q
  min (q' + shift * 2 ^ 52) F64.infMag

/-- The order of the non-NaN values as integers; the two zeros share the key 0. -/
def F64.key (a : F64) : Int := if a.sign then -(a.mag : Int) else (a.mag : Int)

/-- IEEE less-than: false where an operand is NaN (R12). -/
def F64.lt (a b : F64) : Bool := !a.isNaN && !b.isNaN && decide (a.key < b.key)
/-- IEEE less-or-equal. -/
def F64.le (a b : F64) : Bool := !a.isNaN && !b.isNaN && decide (a.key ≤ b.key)
/-- IEEE equality: the two zeros are equal. -/
def F64.feq (a b : F64) : Bool := !a.isNaN && !b.isNaN && decide (a.key = b.key)

theorem F64.lt_of_le_of_lt {x y z : F64} (h : x.le y = true) (h' : y.lt z = true) : x.lt z = true := by
  simp only [F64.le, F64.lt, Bool.and_eq_true, decide_eq_true_eq] at *
  exact ⟨⟨h.1.1, h'.1.2⟩, by omega⟩

def F64.neg (a : F64) : F64 := ⟨a.bits ^^^ 0x8000000000000000#64⟩

/-- IEEE addition. An exact zero sum is +0.0 unless both operands are negative. -/
def F64.add (a b : F64) : F64 :=
  if a.isNaN || b.isNaN then F64.nan
  else if a.isInf then (if b.isInf && (a.sign != b.sign) then F64.nan else a)
  else if b.isInf then b
  else
    let z := a.toInt + b.toInt
    if z = 0 then (if a.sign && b.sign then F64.negZero else F64.zero)
    else F64.pack (decide (z < 0)) (F64.roundMag z.natAbs 1)

/-- IEEE subtraction. -/
def F64.sub (a b : F64) : F64 := if b.isNaN then F64.nan else F64.add a b.neg

/-- IEEE multiplication. -/
def F64.mul (a b : F64) : F64 :=
  let neg := a.sign != b.sign
  if a.isNaN || b.isNaN then F64.nan
  else if a.isInf || b.isInf then
    (if a.mag = 0 ∨ b.mag = 0 then F64.nan else F64.pack neg F64.infMag)
  else F64.pack neg (F64.roundMag (a.units * b.units) (2 ^ 1074))

/-- IEEE division. -/
def F64.div (a b : F64) : F64 :=
  let neg := a.sign != b.sign
  if a.isNaN || b.isNaN then F64.nan
  else if a.isInf then (if b.isInf then F64.nan else F64.pack neg F64.infMag)
  else if b.isInf then F64.pack neg 0
  else if b.mag = 0 then (if a.mag = 0 then F64.nan else F64.pack neg F64.infMag)
  else F64.pack neg (F64.roundMag (a.units <<< 1074) b.units)

/-- The integer square root by bits: root extended by the bits below 2^k. -/
def isqrtFrom (n : Nat) : Nat → Nat → Nat
  | 0, root => root
  | k + 1, root =>
    if (root + 2 ^ k) * (root + 2 ^ k) ≤ n then isqrtFrom n k (root + 2 ^ k) else isqrtFrom n k root

/-- The largest r with r * r ≤ n. -/
def isqrt (n : Nat) : Nat := isqrtFrom n (n.log2 / 2 + 1) 0

/-- The magnitude bits of the correctly rounded square root of m * 2^e units squared, where e ≥ 1074
counts the units of the radicand: the root is taken to at least 60 bits and an inexact one is made odd. -/
def F64.sqrtMag (m e : Nat) : Nat :=
  let m2 := if e % 2 = 1 then 2 * m else m
  let scaled := m2 <<< 120
  let root := isqrt scaled
  let sticky := if root * root = scaled then 0 else 1
  F64.roundMag ((2 * root + sticky) <<< (e / 2 - 60)) 2

/-- IEEE square root. -/
def F64.sqrt (a : F64) : F64 :=
  if a.isNaN then F64.nan
  else if a.mag = 0 then a
  else if a.sign then F64.nan
  else if a.isInf then a
  else if a.expField = 0 then F64.pack false (F64.sqrtMag a.fracField 1074)
  else F64.pack false (F64.sqrtMag (2 ^ 52 + a.fracField) (a.expField + 1073))

/-- An integer of the core as a binary64 value. -/
def F64.ofInt (z : Int) : F64 := F64.pack (decide (z < 0)) (F64.roundMag (z.natAbs <<< 1074) 1)

/-- The larger of two values; the first where neither is larger (notes/assumptions/16.md). -/
def F64.max (a b : F64) : F64 := if a.lt b then b else a
/-- The smaller of two values; the first where neither is smaller. -/
def F64.min (a b : F64) : F64 := if b.lt a then b else a
/-- clamp of R10: min(max(v, lo), hi). -/
def F64.clamp (v lo hi : F64) : F64 := F64.min (F64.max v lo) hi

/-- `a mod m` of R10: the remainder in 0..m-1, also for negative a. -/
def imod (a : Int) (m : Nat) : Nat := (a % (m : Int)).toNat

/-- `wrapdiff_M(a, b)` of R10: the signed difference in -M/2..M/2-1. -/
def wrapdiff (m : Nat) (a b : Int) : Int := (imod (a - b + (m / 2 : Nat)) m : Int) - (m / 2 : Nat)

/-- `cdist_M(a, b)` of R10. -/
def cdist (m : Nat) (a b : Int) : Nat := (wrapdiff m a b).natAbs

/-- `median3` of R13: the middle of three, with no wrap. -/
def median3 (a b c : Nat) : Nat := max (min a b) (min (max a b) c)

end Sys2Proof
end

