-- ==== Sys2Proof/Config.lean ====
section
/-! DEFINITION. The fixed quantities of 00_scope.md R6, the configuration record of R7, and the
configuration function LOG10 of R11. -/

namespace Sys2Proof.Config

/-! Quantities fixed by the source (00_scope.md R6). -/
abbrev second : Nat := 8000
abbrev minute : Nat := 480000
abbrev datSiz : Nat := 1360
abbrev synSiz : Nat := 6400
abbrev tckSiz : Nat := 40
abbrev nStep : Nat := 80
abbrev nSin : Nat := 81
abbrev inc100 : Nat := 1
abbrev inc1000 : Nat := 10
abbrev inc1200 : Nat := 12
abbrev nChan : Nat := 5
abbrev aMin : Nat := 3
abbrev aMax : Nat := 6
abbrev jitGate : Nat := 400
abbrev sCmp : Nat := 10
abbrev epWin : Nat := 1
abbrev minAvg : Nat := 3
abbrev maxAvg : Nat := 7
abbrev dblRun : Nat := 4
abbrev bCmp : Nat := 5
abbrev maxErr : Nat := 30
abbrev pMin : Nat := 1360
abbrev p0 : Nat := 1600
abbrev p1 : Nat := 4000
abbrev p2 : Nat := 6400
abbrev wdAcq : Nat := 5
abbrev wdSs : Nat := 15
abbrev wdDs : Nat := 30
abbrev wdAbs : Nat := 5760
abbrev nDig : Nat := 9
abbrev nLike : Nat := 10
abbrev nMisc : Nat := 7
abbrev nProg : Nat := 61
/-- The saturation bound of jitcnt, cherr and errcnt (10_state.md R37 to R39). -/
abbrev sat8 : Nat := 255

/-! Real constants, each the binary64 value nearest to the decimal. -/
def one : F64 := ⟨0x3FF0000000000000#64⟩
def minusOne : F64 := ⟨0xBFF0000000000000#64⟩
def two : F64 := ⟨0x4000000000000000#64⟩
def ten : F64 := ⟨0x4024000000000000#64⟩
def twenty : F64 := ⟨0x4034000000000000#64⟩
/-- 100 = 10^2. -/
def hundred : F64 := ⟨0x4059000000000000#64⟩
def million : F64 := ⟨0x412E848000000000#64⟩
/-- MAXFREQ = 1.25e-4. -/
def maxFreq : F64 := ⟨0x3F20624DD2F1A9FC#64⟩
def minusMaxFreq : F64 := ⟨0xBF20624DD2F1A9FC#64⟩
/-- SNRGATE = 6 dB. -/
def snrGate : F64 := ⟨0x4018000000000000#64⟩
/-- DSNRCAP = 30 dB. -/
def dsnrCap : F64 := ⟨0x403E000000000000#64⟩

/-! LOG10, the configuration function of 00_scope.md R11. -/

/-- All that R11 assumes of LOG10: it is monotone non-decreasing on the positive values, and exact at the powers of ten
that 95_test_vectors.md uses, 10^0 (a ratio of 1 is 0 dB) and 10^2 (V2.4.5). -/
structure Log10Lawful (f : F64 → F64) : Prop where
  mono : ∀ x y : F64, F64.zero.lt x = true → x.le y = true → (f x).le (f y) = true
  one : (f one).feq .zero = true
  hundred : f hundred = two

/-- The step function 0 below 100 and 2 from 100 on. It serves only to show that R11's assumptions can be met; the model
never applies it. -/
def stepLog (x : F64) : F64 := if x.lt hundred then .zero else two

theorem stepLog_lawful : Log10Lawful stepLog where
  mono x y _ h := by
    unfold stepLog
    split
    · split <;> decide
    · rename_i hx
      rw [if_neg fun hy => hx (F64.lt_of_le_of_lt h hy)]
      decide
  one := by decide
  hundred := by decide

/-- A function that meets R11's assumptions. -/
structure Log10 where
  fn : F64 → F64 := stepLog
  lawful : Log10Lawful fn := by exact stepLog_lawful
deriving Inhabited

/-- The LOG10 of the implementation: some function that meets R11's assumptions. It has no body, so nothing but these
assumptions can be proved of its values (notes/assumptions/2.md). -/
opaque givenLog10 : Log10

/-- LOG10 (R11). -/
def log10 (x : F64) : F64 := givenLog10.fn x

/-- The five numerator coefficients of a filter, B[0..4]. -/
structure CoefB where
  b0 : F64
  b1 : F64
  b2 : F64
  b3 : F64
  b4 : F64
deriving DecidableEq, Repr

/-- The four denominator coefficients of a filter, A[1..4]. -/
structure CoefA where
  a1 : F64
  a2 : F64
  a3 : F64
  a4 : F64
deriving DecidableEq, Repr

/-- The configuration of 00_scope.md R7, latched by the host reset (10_state.md R31). -/
structure Cfg where
  lpfB : CoefB
  lpfA : CoefA
  bpfB : CoefB
  bpfA : CoefA
  combTc : F64
  sthr : F64
  athr : F64
  dthr : F64
  dsnr : F64
  maxamp : F64
  bitPol : Int
  likeTc : F64
  bthr : F64
  dgsnr : F64
  miscTc : F64
  mthr : F64
  propDelay : ByStation Nat
deriving DecidableEq, Repr

/-- The identity numerator [1, 0, 0, 0, 0]. -/
def identityB : CoefB := ⟨one, .zero, .zero, .zero, .zero⟩
/-- The denominator [0, 0, 0, 0]. -/
def identityA : CoefA := ⟨.zero, .zero, .zero, .zero⟩

/-- The configuration in State.reset: the example configuration of 95_test_vectors.md.
DESIGN CHOICE (notes/assumptions/1.md): the spec gives no default. -/
def exampleCfg : Cfg where
  lpfB := identityB
  lpfA := identityA
  bpfB := identityB
  bpfA := identityA
  combTc := ⟨0x4010000000000000#64⟩
  sthr := ⟨0x3F847AE147AE147B#64⟩
  athr := one
  dthr := ⟨0x3FB999999999999A#64⟩
  dsnr := ⟨0x4008000000000000#64⟩
  maxamp := one
  bitPol := 1
  likeTc := two
  bthr := ⟨0x3FE0000000000000#64⟩
  dgsnr := ⟨0x4008000000000000#64⟩
  miscTc := two
  mthr := ⟨0x3FD0000000000000#64⟩
  propDelay := ⟨80, 200⟩

end Sys2Proof.Config
end

