-- ==== Sys2Proof/Syntax.lean ====
section
/-! DEFINITION. The operations of the core: one constructor for each row of spec/opcode_table.json. -/

namespace Sys2Proof

/-- The twelve ROM rows (30_encoding.md R104, R108) and the seven events (R106). The operand kinds are those of
R102: `i` a coefficient index, `p` a digit position, `b` a misc bit. -/
inductive Instr where
  /-- IDLE (43_bcd_decoder.md R202). -/
  | idle
  /-- COEF i (R203). -/
  | coef (i : Nat)
  /-- COEFG i (R204). -/
  | coefg (i : Nat)
  /-- COEFZ i (R205). -/
  | coefz (i : Nat)
  /-- DECIM p (R207 to R210). -/
  | decim (p : Nat)
  /-- MSC b (R212). -/
  | msc (b : Nat)
  /-- MSCD p (R213). -/
  | mscd (p : Nat)
  /-- MSCQ b (R214). -/
  | mscq (b : Nat)
  /-- PEND (R217). -/
  | pend
  /-- MIN1 (R215). -/
  | min1
  /-- MIN2 (R218). -/
  | min2
  /-- A ROM word that is not legal (30_encoding.md R108). -/
  | reserved (w : BitVec 8)
  /-- Host reset (70_reset_and_hazards.md R280). -/
  | reset
  /-- One sample step (R285). -/
  | sample
  /-- Raw second (41_epoch_tracker_fll.md R152). -/
  | rawsec
  /-- Raw minute (42_station_acquisition.md R175). -/
  | rawmin
  /-- Transmitter second (44_clock_and_minute.md R240). -/
  | tsec
  /-- Receiver second (43_bcd_decoder.md R200). -/
  | rsec
  /-- Watchdog reset (60_exceptions.md R266). -/
  | wdreset
deriving DecidableEq, Repr

/-- A code word: an 8-bit ROM word (30_encoding.md R100) or a 4-bit event code (R106). The two spaces are
separate. -/
inductive CodeWord where
  | rom (w : BitVec 8)
  | event (c : BitVec 4)
deriving DecidableEq, Repr

end Sys2Proof
end

