-- ==== Sys2Proof/WellFormed.lean ====
section
/-! DEFINITION. Which operations are well formed: the operand ranges of 30_encoding.md R102 and R105. -/

namespace Sys2Proof

/-- The action tag w[7:4] (30_encoding.md R101). -/
def romOp (w : BitVec 8) : Nat := w.toNat / 16
/-- The argument w[3:0] (R101). -/
def romArg (w : BitVec 8) : Nat := w.toNat % 16

/-- The 48 legal ROM words (30_encoding.md R105). -/
def legalWord (w : BitVec 8) : Bool :=
  match romOp w with
  | 0 | 8 | 9 | 10 => romArg w == 0
  | 1 | 2 | 3 => decide (romArg w < 4)
  | 4 | 6 => decide (romArg w < Config.nDig)
  | 5 | 7 => decide (romArg w < Config.nMisc)
  | _ => false

/-- The operand constraints of 30_encoding.md R102; a reserved word is one that is not legal (R108). -/
def Instr.wellFormed : Instr → Bool
  | .coef i | .coefg i | .coefz i => decide (i < 4)
  | .decim p | .mscd p => decide (p < Config.nDig)
  | .msc b | .mscq b => decide (b < Config.nMisc)
  | .reserved w => !legalWord w
  | .idle | .pend | .min1 | .min2 => true
  | .reset | .sample | .rawsec | .rawmin | .tsec | .rsec | .wdreset => true

/-- Whether the operation is a ROM action (30_encoding.md R104, R108) and not an event (R106). -/
def Instr.isRom : Instr → Bool
  | .idle | .coef _ | .coefg _ | .coefz _ | .decim _ | .msc _ | .mscd _ | .mscq _ => true
  | .pend | .min1 | .min2 | .reserved _ => true
  | .reset | .sample | .rawsec | .rawmin | .tsec | .rsec | .wdreset => false

end Sys2Proof
end

