-- ==== Sys2Proof/Decode.lean ====
section
/-! DEFINITION. The decoder of ROM words and event codes (30_encoding.md R101 to R109), the encoder, the
host's reading of a table row, and the assembler text (R107, R110). -/

namespace Sys2Proof

/-- The operation of a ROM word (30_encoding.md R104, R105; 43_bcd_decoder.md R220). Total: a word that is not
legal decodes to `reserved` (R108). -/
def decodeRom (w : BitVec 8) : Instr :=
  let arg := romArg w
  match romOp w with
  | 0 => if arg = 0 then .idle else .reserved w
  | 1 => if arg < 4 then .coef arg else .reserved w
  | 2 => if arg < 4 then .coefg arg else .reserved w
  | 3 => if arg < 4 then .coefz arg else .reserved w
  | 4 => if arg < 9 then .decim arg else .reserved w
  | 5 => if arg < 7 then .msc arg else .reserved w
  | 6 => if arg < 9 then .mscd arg else .reserved w
  | 7 => if arg < 7 then .mscq arg else .reserved w
  | 8 => if arg = 0 then .pend else .reserved w
  | 9 => if arg = 0 then .min1 else .reserved w
  | 10 => if arg = 0 then .min2 else .reserved w
  | _ => .reserved w

/-- The event of a 4-bit code (30_encoding.md R106); codes 7..15 are unused. -/
def decodeEvent (c : BitVec 4) : Option Instr :=
  match c.toNat with
  | 0 => some .reset
  | 1 => some .sample
  | 2 => some .rawsec
  | 3 => some .rawmin
  | 4 => some .tsec
  | 5 => some .rsec
  | 6 => some .wdreset
  | _ => none

/-- Why a decoder answers no operation. -/
inductive DecodeError where
  /-- There is no word to read. -/
  | noWord
  /-- An event code that no input can raise (30_encoding.md R106). -/
  | unusedEvent (c : BitVec 4)
deriving DecidableEq, Repr

/-- The operation of a code word. -/
def decode : CodeWord → Except DecodeError Instr
  | .rom w => .ok (decodeRom w)
  | .event c =>
    match decodeEvent c with
    | some i => .ok i
    | none => .error (.unusedEvent c)

/-- The first operation of a list of ROM words and the words after it (30_encoding.md R109: one word each). -/
def decodeWords : List (BitVec 8) → Except DecodeError (Instr × List (BitVec 8))
  | [] => .error .noWord
  | w :: rest => .ok (decodeRom w, rest)

/-- The ROM word with a given tag and argument (30_encoding.md R101). -/
def romWord (op arg : Nat) : BitVec 8 := BitVec.ofNat 8 (op * 16 + arg)

/-- The code word of a well-formed operation (30_encoding.md R104, R106). -/
def encode : Instr → CodeWord
  | .idle => .rom (romWord 0 0)
  | .coef i => .rom (romWord 1 i)
  | .coefg i => .rom (romWord 2 i)
  | .coefz i => .rom (romWord 3 i)
  | .decim p => .rom (romWord 4 p)
  | .msc b => .rom (romWord 5 b)
  | .mscd p => .rom (romWord 6 p)
  | .mscq b => .rom (romWord 7 b)
  | .pend => .rom (romWord 8 0)
  | .min1 => .rom (romWord 9 0)
  | .min2 => .rom (romWord 10 0)
  | .reserved w => .rom w
  | .reset => .event 0
  | .sample => .event 1
  | .rawsec => .event 2
  | .rawmin => .event 3
  | .tsec => .event 4
  | .rsec => .event 5
  | .wdreset => .event 6

/-- The host's reading of a row of spec/opcode_table.json: below eight bits an event code, at eight bits a
ROM word. A 4-bit event code padded to a byte is read as the event where the table has no ROM row for
that byte (1..6; 0 is the row IDLE). DESIGN CHOICE (notes/assumptions/13.md). The machine itself
never uses this function: it fetches ROM words with `decodeRom`. -/
def decodeTableWord (nbits w : Nat) : Option Instr :=
  if nbits < 8 then (if w < 16 then decodeEvent (BitVec.ofNat 4 w) else none)
  else if w = 0 then some (decodeRom 0)
  else if w < 7 then decodeEvent (BitVec.ofNat 4 w)
  else if w < 256 then some (decodeRom (BitVec.ofNat 8 w))
  else none

/-! Assembler text (30_encoding.md R107, R110), as the list of its blank-separated words. -/

/-- The names of the digit positions 0..8 (R107). -/
def posNames : List String := ["MN0", "MN1", "HR0", "HR1", "DA0", "DA1", "DA2", "YR0", "YR1"]
/-- The names of the misc bits 0..6 (R107). -/
def miscNames : List String := ["DUT1", "DUT2", "DUT4", "DUTS", "DST1", "DST2", "LEPW"]
/-- The decimal forms of a digit position. -/
def posForms : List String := ["p=0", "p=1", "p=2", "p=3", "p=4", "p=5", "p=6", "p=7", "p=8"]
/-- The decimal forms of a misc bit. -/
def miscForms : List String := ["b=0", "b=1", "b=2", "b=3", "b=4", "b=5", "b=6"]
/-- The decimal digits of a coefficient index. -/
def coefForms : List String := ["0", "1", "2", "3"]

/-- The place of a name in a list of names, counted from k. -/
def nameIndex (t : String) : Nat → List String → Option Nat
  | _, [] => none
  | k, n :: rest => if t = n then some k else nameIndex t (k + 1) rest

/-- A digit position operand: a name or a decimal form. -/
def asmPos (t : String) : Option Nat := (nameIndex t 0 posNames).or (nameIndex t 0 posForms)
/-- A misc bit operand: a name or a decimal form. -/
def asmMisc (t : String) : Option Nat := (nameIndex t 0 miscNames).or (nameIndex t 0 miscForms)
/-- A coefficient index operand. -/
def asmCoef (t : String) : Option Nat := nameIndex t 0 coefForms

/-- The ROM word of an assembler line; a reserved combination is refused (30_encoding.md R107). `NOP` is `IDLE`
(R110). -/
def assemble : List String → Option (BitVec 8)
  | [m] =>
    if m = "IDLE" ∨ m = "NOP" then some (romWord 0 0)
    else if m = "PEND" then some (romWord 8 0)
    else if m = "MIN1" then some (romWord 9 0)
    else if m = "MIN2" then some (romWord 10 0)
    else none
  | [m, t] =>
    if m = "COEF" then (asmCoef t).map (romWord 1)
    else if m = "COEFG" then (asmCoef t).map (romWord 2)
    else if m = "COEFZ" then (asmCoef t).map (romWord 3)
    else if m = "DECIM" then (asmPos t).map (romWord 4)
    else if m = "MSC" then (asmMisc t).map (romWord 5)
    else if m = "MSCD" then (asmPos t).map (romWord 6)
    else if m = "MSCQ" then (asmMisc t).map (romWord 7)
    else none
  | _ => none

/-- The assembler text of a legal ROM action (30_encoding.md R107); none for a reserved word or an event. -/
def asmText : Instr → Option (List String)
  | .idle => some ["IDLE"]
  | .coef i => coefForms[i]?.map fun t => ["COEF", t]
  | .coefg i => coefForms[i]?.map fun t => ["COEFG", t]
  | .coefz i => coefForms[i]?.map fun t => ["COEFZ", t]
  | .decim p => posNames[p]?.map fun t => ["DECIM", t]
  | .msc b => miscNames[b]?.map fun t => ["MSC", t]
  | .mscd p => posNames[p]?.map fun t => ["MSCD", t]
  | .mscq b => miscNames[b]?.map fun t => ["MSCQ", t]
  | .pend => some ["PEND"]
  | .min1 => some ["MIN1"]
  | .min2 => some ["MIN2"]
  | .reserved _ => none
  | .reset | .sample | .rawsec | .rawmin | .tsec | .rsec | .wdreset => none

end Sys2Proof
end

