-- ==== Sys2Proof/Machine/Rom.lean ====
section
/-! DEFINITION. The two read-only memories (20_memory.md R81): the sine ROM, entry by entry from the hex column of
40_demodulator_bank.md R121, and the dispatch ROM, from 30_encoding.md R111. -/

namespace Sys2Proof.Machine

/-- SINTAB[0..19]. -/
def sinPart1 : List F64 := [
  ⟨0x0000000000000000#64⟩, ⟨0x3F9992DD4B243670#64⟩, ⟨0x3FA97EAEC0D1CB4B#64⟩, ⟨0x3FB305D8D0F3D0CB#64⟩, ⟨0x3FB92E540DD5DE4A#64⟩,
  ⟨0x3FBF2F10E3CE6D42#64⟩, ⟨0x3FC27F4AED10447F#64⟩, ⟨0x3FC549DB9360DB63#64⟩, ⟨0x3FC7F2D293F68B8B#64⟩, ⟨0x3FCA75FD26212034#64⟩,
  ⟨0x3FCCCF6429BE6621#64⟩, ⟨0x3FCEFB52696CE396#64⟩, ⟨0x3FD07B2D3A5A5BD4#64⟩, ⟨0x3FD15EAE047505C8#64⟩, ⟨0x3FD226C4801FA4E9#64⟩,
  ⟨0x3FD2D234DF9EC8C9#64⟩, ⟨0x3FD35FF08CD33517#64⟩, ⟨0x3FD3CF17D44CA7CB#64⟩, ⟨0x3FD41EFB465C7C50#64⟩, ⟨0x3FD44F1CCBFAE811#64⟩]

/-- SINTAB[20..39]. -/
def sinPart2 : List F64 := [
  ⟨0x3FD45F306DC9C883#64⟩, ⟨0x3FD44F1CCBFAE811#64⟩, ⟨0x3FD41EFB465C7C50#64⟩, ⟨0x3FD3CF17D44CA7CB#64⟩, ⟨0x3FD35FF08CD33517#64⟩,
  ⟨0x3FD2D234DF9EC8C9#64⟩, ⟨0x3FD226C4801FA4E9#64⟩, ⟨0x3FD15EAE047505C8#64⟩, ⟨0x3FD07B2D3A5A5BD4#64⟩, ⟨0x3FCEFB52696CE396#64⟩,
  ⟨0x3FCCCF6429BE6621#64⟩, ⟨0x3FCA75FD26212034#64⟩, ⟨0x3FC7F2D293F68B8B#64⟩, ⟨0x3FC549DB9360DB63#64⟩, ⟨0x3FC27F4AED10447F#64⟩,
  ⟨0x3FBF2F10E3CE6D42#64⟩, ⟨0x3FB92E540DD5DE4A#64⟩, ⟨0x3FB305D8D0F3D0CB#64⟩, ⟨0x3FA97EAEC0D1CB4B#64⟩, ⟨0x3F9992DD4B243670#64⟩]

/-- SINTAB[40..59]. -/
def sinPart3 : List F64 := [
  ⟨0x0000000000000000#64⟩, ⟨0xBF9992DD4B243670#64⟩, ⟨0xBFA97EAEC0D1CB4B#64⟩, ⟨0xBFB305D8D0F3D0CB#64⟩, ⟨0xBFB92E540DD5DE4A#64⟩,
  ⟨0xBFBF2F10E3CE6D42#64⟩, ⟨0xBFC27F4AED10447F#64⟩, ⟨0xBFC549DB9360DB63#64⟩, ⟨0xBFC7F2D293F68B8B#64⟩, ⟨0xBFCA75FD26212034#64⟩,
  ⟨0xBFCCCF6429BE6621#64⟩, ⟨0xBFCEFB52696CE396#64⟩, ⟨0xBFD07B2D3A5A5BD4#64⟩, ⟨0xBFD15EAE047505C8#64⟩, ⟨0xBFD226C4801FA4E9#64⟩,
  ⟨0xBFD2D234DF9EC8C9#64⟩, ⟨0xBFD35FF08CD33517#64⟩, ⟨0xBFD3CF17D44CA7CB#64⟩, ⟨0xBFD41EFB465C7C50#64⟩, ⟨0xBFD44F1CCBFAE811#64⟩]

/-- SINTAB[60..80]. -/
def sinPart4 : List F64 := [
  ⟨0xBFD45F306DC9C883#64⟩, ⟨0xBFD44F1CCBFAE811#64⟩, ⟨0xBFD41EFB465C7C50#64⟩, ⟨0xBFD3CF17D44CA7CB#64⟩, ⟨0xBFD35FF08CD33517#64⟩,
  ⟨0xBFD2D234DF9EC8C9#64⟩, ⟨0xBFD226C4801FA4E9#64⟩, ⟨0xBFD15EAE047505C8#64⟩, ⟨0xBFD07B2D3A5A5BD4#64⟩, ⟨0xBFCEFB52696CE396#64⟩,
  ⟨0xBFCCCF6429BE6621#64⟩, ⟨0xBFCA75FD26212034#64⟩, ⟨0xBFC7F2D293F68B8B#64⟩, ⟨0xBFC549DB9360DB63#64⟩, ⟨0xBFC27F4AED10447F#64⟩,
  ⟨0xBFBF2F10E3CE6D42#64⟩, ⟨0xBFB92E540DD5DE4A#64⟩, ⟨0xBFB305D8D0F3D0CB#64⟩, ⟨0xBFA97EAEC0D1CB4B#64⟩, ⟨0xBF9992DD4B243670#64⟩,
  ⟨0x0000000000000000#64⟩]

/-- The sine ROM SINTAB[0..80] (R121). -/
def sintab : List F64 := sinPart1 ++ sinPart2 ++ sinPart3 ++ sinPart4

/-- PROG[0..19]. -/
def progPart1 : List (BitVec 8) := [
  0x00#8, 0x80#8, 0x55#8, 0x56#8, 0x10#8, 0x11#8, 0x12#8, 0x13#8, 0x47#8, 0x00#8,
  0x20#8, 0x21#8, 0x22#8, 0x23#8, 0x40#8, 0x10#8, 0x11#8, 0x12#8, 0x33#8, 0x41#8]

/-- PROG[20..39]. -/
def progPart2 : List (BitVec 8) := [
  0x10#8, 0x11#8, 0x12#8, 0x13#8, 0x42#8, 0x10#8, 0x11#8, 0x32#8, 0x33#8, 0x43#8,
  0x10#8, 0x11#8, 0x12#8, 0x13#8, 0x44#8, 0x10#8, 0x11#8, 0x12#8, 0x13#8, 0x45#8]

/-- PROG[40..60]. -/
def progPart3 : List (BitVec 8) := [
  0x10#8, 0x11#8, 0x32#8, 0x33#8, 0x46#8, 0x00#8, 0x00#8, 0x00#8, 0x00#8, 0x00#8,
  0x53#8, 0x10#8, 0x11#8, 0x12#8, 0x13#8, 0x68#8, 0x50#8, 0x51#8, 0x72#8, 0x90#8,
  0xA0#8]

/-- The dispatch ROM PROG[0..60] (30_encoding.md R111). -/
def progRom : List (BitVec 8) := progPart1 ++ progPart2 ++ progPart3

end Sys2Proof.Machine
end

