-- ==== Sys2Proof/Machine/State.lean ====
section
/-! DEFINITION. The state of the core: every element of 10_state.md R34 to R45, the configuration (R31), the dispatch
ROM (20_memory.md R81) and the host's pending input cycles (60_exceptions.md R270); the outcomes a step can stop with; and
the state after a host reset (70_reset_and_hazards.md R280). -/

namespace Sys2Proof.Machine

/-- The model faults of 60_exceptions.md R260. Each is recorded in `State.fault` by `takeFault`: the faulting step
commits nothing else, and later strobes do nothing (R285). The step answers a next state, so no run ends with
`Host.Outcome.fault` (notes/assumptions/5.md). -/
inductive Fault where
  /-- Code 1: a reserved ROM word was executed at ROM index `s` (30_encoding.md R108). Raised by the action `reserved`.
  Safe: the spec asks for it. -/
  | reservedWord (s : Nat)
  /-- Code 2: an index outside its array (20_memory.md R82). Raised by every array access of Ops.lean. Safe: no
  state of a run from reset reaches it. -/
  | indexRange
  /-- Code 3: a value that is not finite (40_demodulator_bank.md R131; 93_implementation_defined.md). Raised by the
  check `finite` of Ops.lean. Safe: the model claims nothing of the run after it. -/
  | nonFinite
deriving DecidableEq, Repr

/-- Why an operation is refused. -/
inductive Refusal where
  /-- An operation without a meaning yet. No arm of exec raises it. Safe. -/
  | notModelled (mnemonic : String)
  /-- A host reset whose configuration breaks a constraint of 00_scope.md R7: rejected at reset, no sample step
  runs (70_reset_and_hazards.md R281). Raised by RESET. Safe: the spec asks for it. -/
  | configRefused
deriving DecidableEq, Repr

/-- An array of binary64 elements as (index, value) pairs in one canonical form: indices strictly rising, no listed
+0.0. An unlisted element is +0.0, its reset value (10_state.md R34; notes/assumptions/14.md). -/
structure RealArray where
  cells : List (Nat × F64)
deriving DecidableEq, Repr

/-- The array of all +0.0. -/
def RealArray.zeros : RealArray := ⟨[]⟩

/-- The four direct-form-II delay elements of a filter, w[1..4] (R34). -/
structure Delay4 where
  w1 : F64
  w2 : F64
  w3 : F64
  w4 : F64
deriving DecidableEq, Repr

/-- All four elements +0.0. -/
def Delay4.zeros : Delay4 := ⟨.zero, .zero, .zero, .zero⟩

/-- The filter bank (10_state.md R34). -/
structure Bank where
  lpfW : Delay4
  bpfW : Delay4
  ph100 : Nat
  ph1000 : Nat
  ph1200 : Nat
  dIBuf : RealArray
  dQBuf : RealArray
  dISum : F64
  dQSum : F64
  di : Nat
  tIBuf : ByStation RealArray
  tQBuf : ByStation RealArray
  tISum : ByStation F64
  tQSum : ByStation F64
  ti : Nat
  mIBuf : ByStation RealArray
  mQBuf : ByStation RealArray
  mISum : ByStation F64
  mQSum : ByStation F64
  mi : Nat
deriving DecidableEq, Repr

/-- The host-reset column of R34. -/
def Bank.atReset : Bank where
  lpfW := .zeros
  bpfW := .zeros
  ph100 := 0
  ph1000 := 0
  ph1200 := 0
  dIBuf := .zeros
  dQBuf := .zeros
  dISum := .zero
  dQSum := .zero
  di := 0
  tIBuf := ⟨.zeros, .zeros⟩
  tQBuf := ⟨.zeros, .zeros⟩
  tISum := ⟨.zero, .zero⟩
  tQSum := ⟨.zero, .zero⟩
  ti := 0
  mIBuf := ⟨.zeros, .zeros⟩
  mQBuf := ⟨.zeros, .zeros⟩
  mISum := ⟨.zero, .zero⟩
  mQSum := ⟨.zero, .zero⟩
  mi := 0

/-- The sample clock (10_state.md R36). -/
structure Clock where
  rphase : Nat
  facc : F64
  freq : F64
  mphase : Nat
deriving DecidableEq, Repr

/-- The host-reset column of R36. -/
def Clock.atReset : Clock := ⟨0, .zero, .zero, 0⟩

/-- The last three candidate epochs, oldest first (R37, `hist[0..2]`). -/
structure Hist where
  h0 : Nat
  h1 : Nat
  h2 : Nat
deriving DecidableEq, Repr

/-- The epoch tracker (10_state.md R37). -/
structure Epoch where
  comb : RealArray
  hist : Hist
  tepoch : Nat
  span : Nat
  jitcnt : Nat
  scmp : Nat
  k : Nat
  avgcnt : Nat
  avginc : Nat
  tepochRef : Nat
  rsecStart : Nat
  tsecStart : Nat
deriving DecidableEq, Repr

/-- The host-reset column of R37. -/
def Epoch.atReset : Epoch where
  comb := .zeros
  hist := ⟨0, 0, 0⟩
  tepoch := 0
  span := 0
  jitcnt := 0
  scmp := 0
  k := Config.minAvg
  avgcnt := 0
  avginc := 0
  tepochRef := 0
  rsecStart := 0
  tsecStart := 0

/-- A channel record (10_state.md R38, `chan[f][st]`). -/
structure ChanRec where
  amp : F64
  snr : F64
  jitter : Int
  pos : Nat
  count : Nat
deriving DecidableEq, Repr

/-- The reset value of a channel record. -/
def ChanRec.zeros : ChanRec := ⟨.zero, .zero, 0, 0, 0⟩

/-- The scan statistics of one station (R38, `ms[st]`). -/
structure Scan where
  emax : F64
  pos : Nat
  esum : F64
  n : Nat
deriving DecidableEq, Repr

/-- The reset value of a scan (42_station_acquisition.md R184). -/
def Scan.zeros : Scan := ⟨.zero, 0, .zero, 0⟩

/-- Station acquisition (10_state.md R38). `chan` and `cherr` hold one entry for each frequency index 0..4. -/
structure Acq where
  chan : List (ByStation ChanRec)
  cherr : List Nat
  pchan : Nat
  dchan : Nat
  win : Bool
  ms : ByStation Scan
deriving DecidableEq, Repr

/-- The host-reset column of R38. -/
def Acq.atReset : Acq where
  chan := List.replicate Config.nChan ⟨.zeros, .zeros⟩
  cherr := List.replicate Config.nChan 0
  pchan := 0
  dchan := 0
  win := false
  ms := ⟨.zeros, .zeros⟩

/-- A digit vector (10_state.md R45). Its radix is a constant of the position, `radix` of Operands.lean. -/
structure DigitVec where
  digit : Nat
  mldigit : Nat
  phase : Nat
  count : Nat
  locked : Bool
  like : RealArray
deriving DecidableEq, Repr

/-- The reset value of a digit vector (R45). -/
def DigitVec.zeros : DigitVec := ⟨0, 0, 0, 0, false, .zeros⟩

/-- The decoder (10_state.md R39). `digits` is the digit register D[0..8]. -/
structure Dec where
  rsec : Nat
  tsec : Nat
  dbuf : RealArray
  bcd : RealArray
  digits : List DigitVec
  miscp : RealArray
  misc : BitVec 7
  errcnt : Nat
  alarm : BitVec 16
deriving DecidableEq, Repr

/-- The host-reset column of R39. -/
def Dec.atReset : Dec where
  rsec := 0
  tsec := 0
  dbuf := .zeros
  bcd := .zeros
  digits := List.replicate Config.nDig .zeros
  miscp := .zeros
  misc := 0
  errcnt := 0
  alarm := 0

/-- The watchdog counters (10_state.md R43). -/
structure Watchdog where
  wAcq : Nat
  wSs : Nat
  wDs : Nat
  wAbs : Nat
deriving DecidableEq, Repr

/-- The reset value of the watchdog counters. -/
def Watchdog.zeros : Watchdog := ⟨0, 0, 0, 0⟩

/-- The time record (60_exceptions.md R271). -/
structure TimeRec where
  year : Nat
  day : Nat
  hour : Nat
  minute : Nat
  second : Nat
  ms : Nat
  dst : Nat
  lepw : Bool
  dut1 : Int
  insync : Bool
  quality : BitVec 4
  leap : Bool
  sinceSet : Nat
  station : Nat
  channel : Nat
  compare : Nat
  errcnt : Nat
  freqPpm : F64
  avgTime : Nat
  valid : Bool
deriving DecidableEq, Repr

/-- Every field 0 and valid = 0 (R44). -/
def TimeRec.zeros : TimeRec where
  year := 0
  day := 0
  hour := 0
  minute := 0
  second := 0
  ms := 0
  dst := 0
  lepw := false
  dut1 := 0
  insync := false
  quality := 0
  leap := false
  sinceSet := 0
  station := 0
  channel := 0
  compare := 0
  errcnt := 0
  freqPpm := .zero
  avgTime := 0
  valid := false

/-- The output registers (10_state.md R44) other than the fault register. -/
structure OutRegs where
  tune : Nat
  timerec : TimeRec
  timerecStrobe : Bool
  tuneErr : Bool
deriving DecidableEq, Repr

/-- The host-reset values of R44. -/
def OutRegs.atReset : OutRegs := ⟨0, .zeros, false, false⟩

/-- The input ports of one cycle (60_exceptions.md R270). -/
structure Pins where
  reset : Bool
  cfg : Config.Cfg
  strobe : Bool
  x : F64
  tuneFail : Bool
deriving DecidableEq, Repr

/-- The whole state. `prog` is the dispatch ROM, which no rule writes (notes/assumptions/3.md); `inputs` are the
cycles the host has yet to deliver, the model's own field (notes/assumptions/4.md). -/
structure State where
  bank : Bank
  clock : Clock
  epoch : Epoch
  acq : Acq
  dec : Dec
  status : BitVec 8
  wd : Watchdog
  out : OutRegs
  fault : Option Fault
  cfg : Config.Cfg
  prog : List (BitVec 8)
  inputs : List Pins
deriving DecidableEq, Repr

/-- The values of the station field SEL, status[6:5] (R40). Code 11 is never written; it is kept apart here so
that no rule reads it as a station (notes/assumptions/10.md). -/
inductive Sel where
  | none
  | a
  | b
  | illegal
deriving DecidableEq, Repr

/-- The names of the writable binary64 arrays (20_memory.md R87). -/
inductive ArrName where
  | dI
  | dQ
  | tI (st : Station)
  | tQ (st : Station)
  | mI (st : Station)
  | mQ (st : Station)
  | comb
  | dbuf
  | bcd
  | miscp
  | like (p : Nat)
deriving DecidableEq, Repr

/-- The state after a host reset that latched `cfg`, with a given ROM and given cycles to come
(70_reset_and_hazards.md R280). -/
def State.afterReset (cfg : Config.Cfg) (prog : List (BitVec 8)) (inputs : List Pins) : State where
  bank := .atReset
  clock := .atReset
  epoch := .atReset
  acq := .atReset
  dec := .atReset
  status := 0
  wd := .zeros
  out := .atReset
  fault := none
  cfg := cfg
  prog := prog
  inputs := inputs

/-- The machine right after reset: the fixed ROM, no pending cycle, and the example configuration
(notes/assumptions/1.md). -/
def State.reset : State := State.afterReset Config.exampleCfg progRom []

/-! Updates of one group of the state. Every meaning writes through them (Laws/State.lean has one lemma for each
field under each update). -/

def State.withBank (s : State) (v : Bank) : State := { s with bank := v }
def State.withClock (s : State) (v : Clock) : State := { s with clock := v }
def State.withEpoch (s : State) (v : Epoch) : State := { s with epoch := v }
def State.withAcq (s : State) (v : Acq) : State := { s with acq := v }
def State.withDec (s : State) (v : Dec) : State := { s with dec := v }
def State.withStatus (s : State) (v : BitVec 8) : State := { s with status := v }
def State.withWd (s : State) (v : Watchdog) : State := { s with wd := v }
def State.withOut (s : State) (v : OutRegs) : State := { s with out := v }
def State.withFault (s : State) (v : Option Fault) : State := { s with fault := v }
def State.withInputs (s : State) (v : List Pins) : State := { s with inputs := v }

end Sys2Proof.Machine
end

