-- ==== Sys2Proof/Machine/Ops.lean ====
section
/-! DEFINITION. The named operations over the arrays and registers: array access (20_memory.md R82, R94), the scans of
a whole array (00_scope.md R13, 43_bcd_decoder.md R200), the model faults (60_exceptions.md R260), the alarms (R262, R263)
and the host's input cycles. -/

namespace Sys2Proof.Machine

/-- The result of a rule: a value, or the model fault that ends the step (R260). -/
abbrev Res (α : Type) := Except Fault α

/-- The check of 40_demodulator_bank.md R131: a value that is not finite faults. Outside the demodulator bank it follows
93_implementation_defined.md (notes/assumptions/6.md). -/
def finite (v : F64) : Res F64 := if v.isFinite then .ok v else .error .nonFinite

/-! Real arrays. -/

/-- The element at an index of a list of cells; unlisted is +0.0. -/
def cellsRead : List (Nat × F64) → Nat → F64
  | [], _ => .zero
  | (j, v) :: rest, i => if i = j then v else cellsRead rest i

/-- Cells with one element replaced; +0.0 is never listed. -/
def cellsWrite : List (Nat × F64) → Nat → F64 → List (Nat × F64)
  | [], i, v => if v = .zero then [] else [(i, v)]
  | (j, w) :: rest, i, v =>
    if i < j then (if v = .zero then (j, w) :: rest else (i, v) :: (j, w) :: rest)
    else if i = j then (if v = .zero then rest else (i, v) :: rest)
    else (j, w) :: cellsWrite rest i v

/-- The canonical form from an index on: indices strictly rising, at least `lo`, below `n`, no +0.0. -/
def cellsWf (n : Nat) : Nat → List (Nat × F64) → Bool
  | _, [] => true
  | lo, (j, v) :: rest => decide (lo ≤ j) && decide (j < n) && decide (v ≠ .zero) && cellsWf n (j + 1) rest

/-- The canonical form of an array of n elements. -/
def RealArray.wf (n : Nat) (a : RealArray) : Bool := cellsWf n 0 a.cells

def RealArray.get (a : RealArray) (i : Nat) : F64 := cellsRead a.cells i
def RealArray.put (a : RealArray) (i : Nat) (v : F64) : RealArray := ⟨cellsWrite a.cells i v⟩

/-- MemRead of one element of an array of n elements; an index outside it faults (20_memory.md R82). -/
def arrRead (n : Nat) (a : RealArray) (i : Nat) : Res F64 :=
  if i < n then .ok (a.get i) else .error .indexRange

/-- MemWrite of one element of an array of n elements (R82). -/
def arrWrite (n : Nat) (a : RealArray) (i : Nat) (v : F64) : Res RealArray :=
  if i < n then .ok (a.put i v) else .error .indexRange

/-- `boxcar(buf, sum, idx, v)` on a buffer of n elements (20_memory.md R94): the new buffer and the new sum,
`(sum + v) - old` in this order. -/
def boxcar (n : Nat) (buf : RealArray) (sum : F64) (idx : Nat) (v : F64) : Res (RealArray × F64) := do
  let old ← arrRead n buf idx
  let sum' ← finite ((sum.add v).sub old)
  let buf' ← arrWrite n buf idx v
  return (buf', sum')

/-- The listed cells with the first unlisted index below n, which reads +0.0, put in its place: every value the array
holds is there, each at its lowest index (RealArray.profile). -/
def cellsProfile (n : Nat) : Nat → List (Nat × F64) → List (Nat × F64)
  | here, [] => if here < n then [(here, .zero)] else []
  | here, (j, v) :: rest =>
    if here < j then (here, .zero) :: (j, v) :: rest else (j, v) :: cellsProfile n (j + 1) rest

/-- The cells that decide a maximum or a minimum over all n elements. -/
def RealArray.profile (n : Nat) (a : RealArray) : List (Nat × F64) := cellsProfile n 0 a.cells

/-- The cell of the maximum among one cell and those after it: a later one only if it is larger, so the lowest index
wins (R13). -/
def bestFrom : Nat × F64 → List (Nat × F64) → Nat × F64
  | best, [] => best
  | best, c :: rest => if best.2.lt c.2 then bestFrom c rest else bestFrom best rest

/-- The minimum of one value and those of the cells after it. -/
def leastFrom : F64 → List (Nat × F64) → F64
  | least, [] => least
  | least, c :: rest => if c.2.lt least then leastFrom c.2 rest else leastFrom least rest

/-- The index and the value of the maximum of a list of cells, at its first place (00_scope.md R13). -/
def bestCell : List (Nat × F64) → Nat × F64
  | [] => (0, .zero)
  | c :: rest => bestFrom c rest

/-- The index and the value of the maximum over 0..n-1, at the lowest index (00_scope.md R13). -/
def RealArray.argmax (n : Nat) (a : RealArray) : Nat × F64 := bestCell (a.profile n)

/-- The minimum over 0..n-1. -/
def RealArray.minOver (n : Nat) (a : RealArray) : F64 :=
  match a.profile n with
  | [] => .zero
  | c :: rest => leastFrom c.2 rest

/-- How many of the n elements are at least h. -/
def RealArray.countGe (n : Nat) (a : RealArray) (h : F64) : Nat :=
  (a.cells.filter fun c => h.le c.2).length + (if h.le .zero then n - a.cells.length else 0)

/-! The arrays of the state by name (20_memory.md R82, R87). -/

/-- The number of elements of an array (R87). -/
def ArrName.size : ArrName → Nat
  | .dI | .dQ => Config.datSiz
  | .tI _ | .tQ _ => Config.tckSiz
  | .mI _ | .mQ _ => Config.synSiz
  | .comb | .dbuf => Config.second
  | .bcd => 4
  | .miscp => Config.nMisc
  | .like _ => Config.nLike

/-- An array of the state; none where a digit position has no vector. -/
def State.array (s : State) : ArrName → Option RealArray
  | .dI => some s.bank.dIBuf
  | .dQ => some s.bank.dQBuf
  | .tI st => some (s.bank.tIBuf.get st)
  | .tQ st => some (s.bank.tQBuf.get st)
  | .mI st => some (s.bank.mIBuf.get st)
  | .mQ st => some (s.bank.mQBuf.get st)
  | .comb => some s.epoch.comb
  | .dbuf => some s.dec.dbuf
  | .bcd => some s.dec.bcd
  | .miscp => some s.dec.miscp
  | .like p => (s.dec.digits[p]?).map DigitVec.like

/-- MemRead((A, i), 1) (R82). -/
def memRead (s : State) (A : ArrName) (i : Nat) : Res F64 :=
  match s.array A with
  | some a => arrRead A.size a i
  | none => .error .indexRange

/-- The canonical form of every array of the state. -/
def State.memWf (s : State) : Bool :=
  s.bank.dIBuf.wf Config.datSiz && s.bank.dQBuf.wf Config.datSiz &&
  s.bank.tIBuf.a.wf Config.tckSiz && s.bank.tIBuf.b.wf Config.tckSiz &&
  s.bank.tQBuf.a.wf Config.tckSiz && s.bank.tQBuf.b.wf Config.tckSiz &&
  s.bank.mIBuf.a.wf Config.synSiz && s.bank.mIBuf.b.wf Config.synSiz &&
  s.bank.mQBuf.a.wf Config.synSiz && s.bank.mQBuf.b.wf Config.synSiz &&
  s.epoch.comb.wf Config.second && s.dec.dbuf.wf Config.second &&
  s.dec.bcd.wf 4 && s.dec.miscp.wf Config.nMisc &&
  s.dec.digits.all fun d => d.like.wf Config.nLike

/-- SINTAB[i] (20_memory.md R81). -/
def sinRead (i : Nat) : Res F64 :=
  match sintab[i]? with
  | some v => .ok v
  | none => .error .indexRange

/-- The fetch MemRead((PROG, rsec), 1) (43_bcd_decoder.md R200). -/
def fetchWord (s : State) : Res (BitVec 8) :=
  match s.prog[s.dec.rsec]? with
  | some w => .ok w
  | none => .error .indexRange

/-- The digit vector D[p], p in 0..8. -/
def readDigit (s : State) (p : Nat) : Res DigitVec :=
  if p < Config.nDig then
    match s.dec.digits[p]? with
    | some d => .ok d
    | none => .error .indexRange
  else .error .indexRange

/-- The state with D[p] replaced; used after `readDigit` has found D[p]. -/
def writeDigit (s : State) (p : Nat) (d : DigitVec) : State :=
  s.withDec { s.dec with digits := s.dec.digits.set p d }

/-- The channel records of a frequency index. -/
def readChan (s : State) (f : Nat) : Res (ByStation ChanRec) :=
  match s.acq.chan[f]? with
  | some c => .ok c
  | none => .error .indexRange

/-- The state with the record chan[f][st] replaced; used after `readChan` has found chan[f]. -/
def writeChan (s : State) (f : Nat) (st : Station) (c : ChanRec) : State :=
  s.withAcq { s.acq with chan := s.acq.chan.modify f fun p => p.set st c }

/-! Model faults: the one way an abnormal condition ends a step (60_exceptions.md R260). -/

/-- Taking a model fault: the state before the operation with the fault recorded; nothing else is committed. There
is no handler and no return; only `hostReset` clears the fault. -/
def takeFault (s : State) (f : Fault) : State := s.withFault (some f)

/-- The outcome of an operation on `s` from the result of its rules. -/
def commit (s : State) : Res State → Host.Outcome State Fault Refusal
  | .ok t => .next t
  | .error f => .next (takeFault s f)

/-- A rule that runs only where a condition holds; else the state is left as it is. -/
def runIf (c : Bool) (rule : State → Res State) (s : State) : Res State := if c then rule s else .ok s

/-! Alarms (60_exceptions.md R261 to R263). -/

/-- `raise ALARM(c)` (R262): bit 4c of the alarm word. -/
def raiseAlarm (c : Nat) (s : State) : State :=
  s.withDec { s.dec with alarm := s.dec.alarm ||| (1#16 <<< (4 * c)) }

/-- Alarm ageing of the word (R263). -/
def ageWord (w : BitVec 16) : BitVec 16 := (w &&& ~~~0x8888#16) <<< 1

/-- Alarm ageing (R263). -/
def ageAlarm (s : State) : State := s.withDec { s.dec with alarm := ageWord s.dec.alarm }

/-- Whether a class was raised in this minute or the three before: its nibble is not zero (R41). -/
def nibbleSet (w : BitVec 16) (c : Nat) : Bool := (w >>> (4 * c)) &&& 0xF#16 != 0#16

/-- The quality nibble (R272). -/
def qualityOf (w : BitVec 16) : BitVec 4 :=
  (if nibbleSet w 0 then 1#4 else 0#4) ||| (if nibbleSet w 1 then 2#4 else 0#4) |||
  (if nibbleSet w 2 then 4#4 else 0#4) ||| (if nibbleSet w 3 then 8#4 else 0#4)

/-! The host's input cycles (60_exceptions.md R270; notes/assumptions/4.md). -/

/-- A cycle with no reset and no strobe. -/
def idlePins (cfg : Config.Cfg) : Pins := ⟨false, cfg, false, .zero, false⟩

/-- The input ports in this cycle: the first pending cycle, or an idle one. -/
def State.pins (s : State) : Pins := s.inputs.headD (idlePins s.cfg)

/-- The state with this cycle's inputs consumed. -/
def State.nextCycle (s : State) : State := s.withInputs s.inputs.tail

end Sys2Proof.Machine
end

