-- ==== Sys2Proof/Machine/Flags.lean ====
section
/-! DEFINITION. The status word (10_state.md R40) and the misc word (R42): their fields and how each is written. -/

namespace Sys2Proof.Machine

/-! Bit numbers of the status word (R40). -/
abbrev bitMsync : Nat := 0
abbrev bitSsync : Nat := 1
abbrev bitDsync : Nat := 2
abbrev bitInsync : Nat := 3
abbrev bitLeap : Nat := 4
abbrev bitDlock : Nat := 7

/-- A word with one bit written. -/
def putBit {n : Nat} (w : BitVec n) (b : Nat) (v : Bool) : BitVec n :=
  if v then w ||| (1#n <<< b) else w &&& ~~~(1#n <<< b)

/-- A bit of the status word. -/
def State.flag (s : State) (b : Nat) : Bool := s.status.getLsbD b

def State.msync (s : State) : Bool := s.flag bitMsync
def State.ssync (s : State) : Bool := s.flag bitSsync
def State.dsync (s : State) : Bool := s.flag bitDsync
def State.insync (s : State) : Bool := s.flag bitInsync
def State.leap (s : State) : Bool := s.flag bitLeap
def State.dlock (s : State) : Bool := s.flag bitDlock

/-- The status word with one bit written; every other bit is kept. -/
def setFlag (b : Nat) (v : Bool) (s : State) : State := s.withStatus (putBit s.status b v)

/-- The station field as a number, status[6:5] (R40; 60_exceptions.md R271 `station`). -/
def State.selCode (s : State) : Nat := (s.status.extractLsb' 5 2).toNat

/-- The selected station (R40). -/
def State.sel (s : State) : Sel :=
  match s.selCode with
  | 0 => .none
  | 1 => .a
  | 2 => .b
  | _ => .illegal

/-- The code of a selection (R40): 0 NONE, 1 A, 2 B. -/
def selBits : Option Station → BitVec 8
  | none => 0#8
  | some .a => 1#8
  | some .b => 2#8

/-- The status word with the station field written; every other bit is kept. -/
def setSel (st : Option Station) (s : State) : State :=
  s.withStatus ((s.status &&& ~~~0x60#8) ||| (selBits st <<< 5))

/-- The station a selection names; NONE and the code never written name none. -/
def Sel.station : Sel → Option Station
  | .a => Option.some .a
  | .b => Option.some .b
  | .none | .illegal => Option.none

/-- A bit of the misc word (R42). -/
def State.miscBit (s : State) (b : Nat) : Bool := s.dec.misc.getLsbD b

/-- The misc word with one bit written. -/
def setMisc (b : Nat) (v : Bool) (s : State) : State :=
  s.withDec { s.dec with misc := putBit s.dec.misc b v }

/-! Bit numbers of the misc word (R42). -/
abbrev bitDut1 : Nat := 0
abbrev bitDut2 : Nat := 1
abbrev bitDut4 : Nat := 2
abbrev bitDuts : Nat := 3
abbrev bitDst1 : Nat := 4
abbrev bitDst2 : Nat := 5
abbrev bitLepw : Nat := 6

end Sys2Proof.Machine
end

