-- ==== Sys2Proof/Machine/Operands.lean ====
section
/-! DEFINITION. The operand forms of the ROM actions (30_encoding.md R102) and the constant tables they select:
the digit radices (10_state.md R45), the codebook (43_bcd_decoder.md R206), the propagation delay of a station
(00_scope.md R7), and the data bit that the actions read (43_bcd_decoder.md R200, R201). -/

namespace Sys2Proof.Machine

/-- The radix of a digit position (10_state.md R45). -/
def radix : Nat → Nat
  | 1 => 6
  | 3 => 3
  | 6 => 4
  | _ => 10

/-- The codebook entry `cb_r[d][j]` (43_bcd_decoder.md R206): +1.0 where bit j of d is 1, else -1.0. -/
def codebook (d j : Nat) : F64 := if d.testBit j then Config.one else Config.minusOne

/-- BIT_POL as a binary64 value (00_scope.md R7). -/
def polarity (cfg : Config.Cfg) : F64 := F64.ofInt cfg.bitPol

/-- PROP_DELAY of the selected station. NONE and the station code never written select no element and fault
(notes/assumptions/10.md). -/
def selDelay (s : State) : Res Nat :=
  match s.sel.station with
  | some st => .ok (s.cfg.propDelay.get st)
  | none => .error .indexRange

/-! The measures of one receiver second and its bit (43_bcd_decoder.md R200, R201). They are step-local in the spec;
here they are functions of `dbuf` and the configuration (notes/assumptions/7.md). -/

/-- `emax`, which is also `datamp` (R200). -/
def State.emax (s : State) : F64 := (s.dec.dbuf.argmax Config.second).2

/-- `emin` (R200). -/
def State.emin (s : State) : F64 := s.dec.dbuf.minOver Config.second

/-- `len`, the half-maximum width in samples (R200). -/
def State.pulseLen (s : State) : Nat :=
  if F64.zero.lt s.emax then s.dec.dbuf.countGe Config.second (s.emax.div Config.two) else 0

/-- `datsnr` in dB (R200); +infinity where the minimum is zero and the maximum is not. DESIGN CHOICE
(notes/assumptions/19.md): an `emax / emin` that overflows to +infinity is passed to LOG10, and no fault is taken. -/
def State.datsnr (s : State) : F64 :=
  if s.emax.feq .zero then .zero
  else if s.emin.feq .zero then .inf
  else Config.twenty.mul (Config.log10 (s.emax.div s.emin))

/-- Whether the second is an erasure (R201). -/
def State.erased (s : State) : Bool :=
  s.emax.lt s.cfg.dthr || s.datsnr.lt s.cfg.dsnr || decide (s.pulseLen < Config.pMin)

/-- The metric `m` of a pulse length (R201). Differences of lengths are integers, converted before the division
(notes/assumptions/8.md). -/
def metric (len : Nat) : F64 :=
  if len < Config.p0 then Config.one
  else if len < Config.p1 then
    Config.one.sub ((F64.ofInt (len - Config.p0 : Int)).div (F64.ofInt (Config.p1 - Config.p0 : Nat)))
  else if len < Config.p2 then
    (F64.ofInt (-(len - Config.p1 : Int))).div (F64.ofInt (Config.p2 - Config.p1 : Nat))
  else Config.minusOne

/-- The value `wwv_data` returns, the `bit` of the actions (R201): +0.0 for an erasure, else
`BIT_POL * MAXAMP * m`. -/
def State.dataBit (s : State) : F64 :=
  if s.erased then .zero else ((polarity s.cfg).mul s.cfg.maxamp).mul (metric s.pulseLen)

end Sys2Proof.Machine
end

