-- ==== Sys2Proof/Machine/Demod.lean ====
section
/-! DEFINITION. The quadrature demodulator bank: 40_demodulator_bank.md R120 to R131. -/

namespace Sys2Proof.Machine

/-- The combinational outputs of one demodulator update (10_state.md R35; 40_demodulator_bank.md R129). -/
structure DemodOut where
  eData : F64
  e5 : ByStation F64
  em : ByStation F64
  eSel : F64
deriving DecidableEq, Repr

/-- The new first delay element of a direct-form-II filter (R122, R123), left to right. -/
def filterIn (a : Config.CoefA) (w : Delay4) (x : F64) : F64 :=
  (((x.sub (a.a1.mul w.w1)).sub (a.a2.mul w.w2)).sub (a.a3.mul w.w3)).sub (a.a4.mul w.w4)

/-- The output of a direct-form-II filter (R122, R123), left to right. -/
def filterOut (b : Config.CoefB) (w : Delay4) (w0 : F64) : F64 :=
  ((((b.b0.mul w0).add (b.b1.mul w.w1)).add (b.b2.mul w.w2)).add (b.b3.mul w.w3)).add (b.b4.mul w.w4)

/-- One sample through a direct-form-II filter: the output and the shifted delay elements (R122, R123). DESIGN CHOICE
(notes/assumptions/20.md): the formula is kept with identity coefficients too, so a sample -0.0 can give +0.0. -/
def filterStep (b : Config.CoefB) (a : Config.CoefA) (w : Delay4) (x : F64) : Res (F64 × Delay4) := do
  let w0 ← finite (filterIn a w x)
  let y ← finite (filterOut b w w0)
  return (y, ⟨w0, w.w1, w.w2, w.w3⟩)

/-- The six reference values of a sample (R124): sine and cosine at 100, 1000 and 1200 Hz. -/
structure Refs where
  s100 : F64
  c100 : F64
  s : ByStation F64
  c : ByStation F64
deriving DecidableEq, Repr

/-- The reference lookups (R124), before any phase advances. -/
def refLookup (b : Bank) : Res Refs := do
  let s100 ← sinRead b.ph100
  let c100 ← sinRead ((b.ph100 + 20) % Config.nStep)
  let sA ← sinRead b.ph1000
  let cA ← sinRead ((b.ph1000 + 20) % Config.nStep)
  let sB ← sinRead b.ph1200
  let cB ← sinRead ((b.ph1200 + 20) % Config.nStep)
  return ⟨s100, c100, ⟨sA, sB⟩, ⟨cA, cB⟩⟩

/-- The phase advances (R124) and the delay-line indices (R130 step 9). -/
def advanceIndices (b : Bank) : Bank :=
  { b with
    di := (b.di + 1) % Config.datSiz
    ti := (b.ti + 1) % Config.tckSiz
    mi := (b.mi + 1) % Config.synSiz
    ph100 := (b.ph100 + Config.inc100) % Config.nStep
    ph1000 := (b.ph1000 + Config.inc1000) % Config.nStep
    ph1200 := (b.ph1200 + Config.inc1200) % Config.nStep }

/-- The sum of squares of an I/Q pair (R127, R128). -/
def energy (i q : F64) : F64 := (i.mul i).add (q.mul q)

/-- The data detector (R125) and the data envelope (R126). -/
def dataDetect (r : Refs) (lp : F64) (b : Bank) : Res (F64 × Bank) := do
  let (dI, dISum) ← boxcar Config.datSiz b.dIBuf b.dISum b.di (lp.mul r.s100)
  let (dQ, dQSum) ← boxcar Config.datSiz b.dQBuf b.dQSum b.di (lp.mul r.c100)
  let e ← finite (energy dISum dQSum).sqrt
  return (e, { b with dIBuf := dI, dISum := dISum, dQBuf := dQ, dQSum := dQSum })

/-- The 5 ms tick matched filter of one station (R127). -/
def tickDetect (st : Station) (r : Refs) (bp : F64) (b : Bank) : Res (F64 × Bank) := do
  let (tI, tISum) ← boxcar Config.tckSiz (b.tIBuf.get st) (b.tISum.get st) b.ti (bp.mul (r.s.get st))
  let (tQ, tQSum) ← boxcar Config.tckSiz (b.tQBuf.get st) (b.tQSum.get st) b.ti (bp.mul (r.c.get st))
  let e ← finite (energy tISum tQSum)
  return (e, { b with
    tIBuf := b.tIBuf.set st tI, tISum := b.tISum.set st tISum
    tQBuf := b.tQBuf.set st tQ, tQSum := b.tQSum.set st tQSum })

/-- The 800 ms minute-sync detector of one station (R128). -/
def minuteDetect (st : Station) (r : Refs) (bp : F64) (b : Bank) : Res (F64 × Bank) := do
  let (mI, mISum) ← boxcar Config.synSiz (b.mIBuf.get st) (b.mISum.get st) b.mi (bp.mul (r.s.get st))
  let (mQ, mQSum) ← boxcar Config.synSiz (b.mQBuf.get st) (b.mQSum.get st) b.mi (bp.mul (r.c.get st))
  let e ← finite (energy mISum mQSum)
  return (e, { b with
    mIBuf := b.mIBuf.set st mI, mISum := b.mISum.set st mISum
    mQBuf := b.mQBuf.set st mQ, mQSum := b.mQSum.set st mQSum })

/-- The epoch comb sample (R129): station B's tick energy when B is selected, else station A's. -/
def combSample (sel : Sel) (e5 : ByStation F64) : F64 := if sel = .b then e5.b else e5.a

/-- One demodulator update in the order of R130, on a sample that R131 requires to be finite. -/
def demodUpdate (cfg : Config.Cfg) (sel : Sel) (x : F64) (b : Bank) : Res (DemodOut × Bank) := do
  let x ← finite x
  let (lp, lpfW) ← filterStep cfg.lpfB cfg.lpfA b.lpfW x
  let (bp, bpfW) ← filterStep cfg.bpfB cfg.bpfA b.bpfW x
  let r ← refLookup b
  let b := { b with lpfW := lpfW, bpfW := bpfW }
  let (eData, b) ← dataDetect r lp b
  let (tA, b) ← tickDetect .a r bp b
  let (tB, b) ← tickDetect .b r bp b
  let (mA, b) ← minuteDetect .a r bp b
  let (mB, b) ← minuteDetect .b r bp b
  return (⟨eData, ⟨tA, tB⟩, ⟨mA, mB⟩, combSample sel ⟨tA, tB⟩⟩, advanceIndices b)

end Sys2Proof.Machine
end

