-- ==== Sys2Proof/Machine/Reset.lean ====
section
/-! DEFINITION. The two resets: the host reset (70_reset_and_hazards.md R280, R281) and the watchdog reset (60_exceptions.md
R266), and the watchdog counters (R265). -/

namespace Sys2Proof.Machine

/-- The numerator coefficients are finite. -/
def coefBFinite (c : Config.CoefB) : Bool :=
  c.b0.isFinite && c.b1.isFinite && c.b2.isFinite && c.b3.isFinite && c.b4.isFinite

/-- The denominator coefficients are finite. -/
def coefAFinite (c : Config.CoefA) : Bool :=
  c.a1.isFinite && c.a2.isFinite && c.a3.isFinite && c.a4.isFinite

/-- The constraints of 00_scope.md R7 on a configuration; the real parameters must be finite
(notes/assumptions/9.md). -/
def cfgValid (c : Config.Cfg) : Bool :=
  coefBFinite c.lpfB && coefAFinite c.lpfA && coefBFinite c.bpfB && coefAFinite c.bpfA &&
  c.combTc.isFinite && Config.one.le c.combTc &&
  c.sthr.isFinite && F64.zero.le c.sthr &&
  c.athr.isFinite && F64.zero.le c.athr &&
  c.dthr.isFinite && F64.zero.le c.dthr &&
  c.dsnr.isFinite &&
  c.maxamp.isFinite && F64.zero.lt c.maxamp &&
  (c.bitPol == 1 || c.bitPol == -1) &&
  c.likeTc.isFinite && Config.one.le c.likeTc &&
  c.bthr.isFinite && c.dgsnr.isFinite &&
  c.miscTc.isFinite && Config.one.le c.miscTc &&
  c.mthr.isFinite && F64.zero.lt c.mthr &&
  decide (c.propDelay.a < Config.second) && decide (c.propDelay.b < Config.second)

/-- The host reset (R280): every element at its host-reset value, the configuration latched from its port. The ROM is
not affected, and the host's cycles are not state of the core. -/
def hostReset (s : State) : State := State.afterReset s.pins.cfg s.prog s.inputs

/-- RESET (R280, R281): a configuration outside the constraints of R7 is refused and no step runs. -/
def execReset (s : State) : Host.Outcome State Fault Refusal :=
  if cfgValid s.pins.cfg then .next (hostReset s) else .refused .configRefused

/-- The watchdog reset (R266), by the watchdog-reset columns of 10_state.md R34 to R45: the bank, `rphase`, `mphase`,
`comb`, `dbuf`, `pchan`, `dchan`, `timerec` and `tune_err` are kept, `tune` becomes the kept `pchan`, and every other element
of the decode returns to its host-reset value. -/
def watchdogReset (s : State) : State :=
  s.withClock { s.clock with facc := .zero, freq := .zero }
  |>.withEpoch { Epoch.atReset with comb := s.epoch.comb }
  |>.withAcq { Acq.atReset with pchan := s.acq.pchan, dchan := s.acq.dchan }
  |>.withDec { Dec.atReset with dbuf := s.dec.dbuf }
  |>.withStatus 0
  |>.withWd .zeros
  |>.withOut { s.out with tune := s.acq.pchan }

/-- WDRESET (R266). -/
def execWdreset (s : State) : Host.Outcome State Fault Refusal := commit s (.ok (watchdogReset s))

/-- The counters after one raw minute (R265). -/
def watchdogCount (s : State) : Watchdog where
  wAcq := if s.msync then 0 else s.wd.wAcq + 1
  wSs := if s.ssync then 0 else s.wd.wSs + 1
  wDs := if s.dsync then 0 else s.wd.wDs + 1
  wAbs := s.wd.wAbs + 1

/-- Whether a watchdog limit is exceeded (R265). -/
def watchdogExpired (w : Watchdog) : Bool :=
  decide (Config.wdAcq < w.wAcq) || decide (Config.wdSs < w.wSs) || decide (Config.wdDs < w.wDs) ||
  decide (Config.wdAbs < w.wAbs)

/-- The watchdog update (R265). -/
def watchdogUpdate (s : State) : State :=
  let s := s.withWd (watchdogCount s)
  if watchdogExpired s.wd then watchdogReset s else s

end Sys2Proof.Machine
end

