-- ==== Sys2Proof/Machine/Acquire.lean ====
section
/-! DEFINITION. Station acquisition and mitigation: 42_station_acquisition.md R175 to R192. -/

namespace Sys2Proof.Machine

/-- The scan position `q` of this sample; none when nothing is accumulated (R176). -/
def scanPos (s : State) : Option Nat :=
  if !s.msync then some (s.clock.mphase * Config.second + s.clock.rphase)
  else if s.acq.win then
    some ((s.dec.rsec * Config.second + imod (s.clock.rphase - s.epoch.rsecStart) Config.second) % Config.minute)
  else none

/-- One station's scan with one sample accumulated (R176). -/
def scanAdd (em : F64) (q : Nat) (m : Scan) : Res Scan := do
  let esum ← finite (m.esum.add em)
  let m := if m.emax.lt em then { m with emax := em, pos := q } else m
  return { m with esum := esum, n := m.n + 1 }

/-- Scan accumulation (R176). -/
def scanAccumulate (em : ByStation F64) (s : State) : Res State :=
  match scanPos s with
  | none => .ok s
  | some q => do
    let mA ← scanAdd em.a q s.acq.ms.a
    let mB ← scanAdd em.b q s.acq.ms.b
    return s.withAcq { s.acq with ms := ⟨mA, mB⟩ }

/-- Scan reset (R184). -/
def scanReset (s : State) : State := s.withAcq { s.acq with ms := ⟨.zeros, .zeros⟩ }

/-- The start of a pulse whose largest output is at `pos` (R177). -/
def pulseStart (pos : Nat) : Nat := imod (pos - (Config.synSiz - 1 : Nat)) Config.minute

/-- The measures of a pulse (R178). -/
structure Measures where
  amp : F64
  snr : F64
  jitter : Int
deriving DecidableEq, Repr

/-- The scan mean (R178). -/
def scanMean (m : Scan) : F64 := if 0 < m.n then m.esum.div (F64.ofInt m.n) else .zero

/-- The pulse SNR in dB (R178). DESIGN CHOICE: an overflowed ratio is passed to LOG10 (notes/assumptions/19.md), and the
formula is kept where the rounded mean exceeds the peak, so that the SNR falls below 0 (notes/assumptions/20.md). -/
def scanSnr (m : Scan) : F64 :=
  if F64.zero.lt (scanMean m) then Config.ten.mul (Config.log10 (m.emax.div (scanMean m))) else .zero

/-- The pulse measures of a scan against a channel record (R178). -/
def measure (m : Scan) (c : ChanRec) : Res Measures := do
  let amp ← finite m.emax.sqrt
  let snr ← finite (scanSnr m)
  return ⟨amp, snr, wrapdiff Config.minute m.pos c.pos⟩

/-- The channel gate (R179), with the record's count before the update. -/
def gate (cfg : Config.Cfg) (m : Measures) (c : ChanRec) : Bool :=
  cfg.athr.le m.amp && Config.snrGate.lt m.snr &&
    (c.count == 0 || decide (m.jitter.natAbs < Config.jitGate))

/-- A passing count goes up, clamped at AMAX (R180, R186). -/
def countUp (n : Nat) : Nat := min (n + 1) Config.aMax

/-- The update of chan[pchan][st] from its scan, and whether the gate passed; `down` gives the count after a failed
gate (R180, R186). -/
def updateChan (down : Nat → Nat) (st : Station) (s : State) : Res (State × Bool) := do
  let pair ← readChan s s.acq.pchan
  let scan := s.acq.ms.get st
  let c := pair.get st
  let m ← measure scan c
  let pass := gate s.cfg m c
  let c' : ChanRec :=
    { amp := m.amp, snr := m.snr, jitter := m.jitter, pos := scan.pos
      count := if pass then countUp c.count else down c.count }
  return (writeChan s s.acq.pchan st c', pass)

/-! Initial acquisition. -/

/-- The acquisition winner (R181). -/
def winner (cA cB : Nat) : Option Station :=
  if Config.aMin ≤ cA ∧ cB ≤ cA then some .a else if Config.aMin ≤ cB then some .b else none

/-- Acceptance of station w from its pulse position (R182). -/
def acceptStation (w : Station) (pos : Nat) (s : State) : State :=
  let start := pulseStart pos
  let tstart := imod (start - (s.cfg.propDelay.get w : Int)) Config.minute
  let qnow := s.clock.mphase * Config.second + s.clock.rphase
  let s := setFlag bitMsync true (setSel (some w) s)
  s.withAcq { s.acq with dchan := s.acq.pchan }
  |>.withDec { s.dec with
      rsec := imod (qnow - start) Config.minute / Config.second
      tsec := imod (qnow - tstart) Config.minute / Config.second }
  |>.withEpoch { s.epoch with rsecStart := start % Config.second, tsecStart := tstart % Config.second }
  |>.withOut { s.out with tune := s.acq.pchan }

/-- Probe advance (R183). -/
def probeAdvance (s : State) : State :=
  let p := (s.acq.pchan + 1) % Config.nChan
  s.withAcq { s.acq with pchan := p } |>.withOut { s.out with tune := p }

/-- Acceptance of the winner, or the probe advance when no candidate is left (R181 to R183). -/
def acceptOrAdvance (pair : ByStation ChanRec) (s : State) : State :=
  match winner pair.a.count pair.b.count with
  | some w => acceptStation w (pair.get w).pos s
  | none => if pair.a.count = 0 ∧ pair.b.count = 0 then probeAdvance s else s

/-- The acquisition step of a raw minute (R180 to R183). -/
def acquisition (s : State) : Res State := do
  let (s, _) ← updateChan (fun _ => 0) .a s
  let (s, _) ← updateChan (fun _ => 0) .b s
  let pair ← readChan s s.acq.pchan
  return acceptOrAdvance pair s

/-- Event RAWMIN (R175). -/
def rawMinute (s : State) : Res State := do
  let t ← runIf (!s.msync) (fun s => (acquisition s).map scanReset) s
  let u := watchdogUpdate t
  return (if s.msync then u else ageAlarm u)

/-- RAWMIN (R175). -/
def execRawmin (s : State) : Host.Outcome State Fault Refusal := commit s (rawMinute s)

/-! Ongoing mitigation. -/

/-- Probe window open (R185). -/
def probeOpen (s : State) : State :=
  let s := scanReset s
  s.withAcq { s.acq with win := true } |>.withOut { s.out with tune := s.acq.pchan }

/-- The per-channel error counter (R187). -/
def channelErrors (bothFailed : Bool) (s : State) : Res State :=
  match s.acq.cherr[s.acq.pchan]? with
  | none => .error .indexRange
  | some n =>
    let n' := if bothFailed then min (n + 1) Config.sat8 else 0
    .ok (s.withAcq { s.acq with cherr := s.acq.cherr.set s.acq.pchan n' })

/-- The order in which R188 looks at the channels. -/
def selectionOrder : List (Nat × Station) :=
  [(4, .a), (4, .b), (3, .a), (3, .b), (2, .a), (2, .b), (1, .a), (1, .b), (0, .a), (0, .b)]

/-- The channel with the highest count, the first in the order on ties, and its count (R188). -/
def bestChannel (s : State) : List (Nat × Station) → Option (Nat × Station × Nat) → Res (Option (Nat × Station × Nat))
  | [], best => .ok best
  | (f, st) :: rest, best => do
    let pair ← readChan s f
    let n := (pair.get st).count
    bestChannel s rest <|
      match best with
      | none => some (f, st, n)
      | some (f', st', n') => if n' < n then some (f, st, n) else some (f', st', n')

/-- Loss of all stations (R189). -/
def loseStations (s : State) : State :=
  scanReset (setFlag bitSsync false (setFlag bitMsync false (setSel none s)))

/-- The selection applied (R190). -/
def applySelection (f : Nat) (st : Station) (s : State) : State :=
  if f = s.acq.dchan ∧ s.sel.station = some st then s
  else
    let s := setSel (some st) s
    s.withAcq { s.acq with dchan := f }
    |>.withEpoch { s.epoch with
        tsecStart := imod (s.epoch.rsecStart - (s.cfg.propDelay.get st : Int)) Config.second }

/-- What follows from the best channel (R189, R190). -/
def useBest (s : State) : Option (Nat × Station × Nat) → State
  | none => s
  | some (f, st, n) => if n = 0 then loseStations s else applySelection f st s

/-- End-of-rotation selection (R188 to R190), at pchan = 4. -/
def endOfRotation (s : State) : Res State :=
  if s.acq.pchan = 4 then (bestChannel s selectionOrder none).map (useBest s) else .ok s

/-- Probe rotation (R191) and the tuning output (R192). -/
def rotateProbe (s : State) : State :=
  let p := (s.acq.pchan + 1) % Config.nChan
  s.withAcq { s.acq with pchan := p }
  |>.withOut { s.out with tune := if s.msync then s.acq.dchan else p }

/-- Probe window close, count update, selection and rotation (R186 to R192). -/
def probeClose (s : State) : Res State := do
  let s := s.withAcq { s.acq with win := false }
  let (s, okA) ← updateChan (· - 1) .a s
  let (s, okB) ← updateChan (· - 1) .b s
  let s ← channelErrors (!okA && !okB) s
  let s ← endOfRotation s
  return rotateProbe s

/-- PEND (43_bcd_decoder.md R217). -/
def execPend (s : State) : Host.Outcome State Fault Refusal := commit s (probeClose s)

end Sys2Proof.Machine
end

