-- ==== Sys2Proof/Machine/Minute.lean ====
section
/-! DEFINITION. The transmitter second, the clock advance, the leap second and the minute end:
44_clock_and_minute.md R240 to R251, 43_bcd_decoder.md R215 and R218, and the time record, 60_exceptions.md R271. -/

namespace Sys2Proof.Machine

/-- The clock fields (R250). -/
structure ClockFields where
  minute : Nat
  hour : Nat
  day : Nat
  year : Nat
deriving DecidableEq, Repr

/-- The clock fields of the digit register (R250). -/
def clockFields (s : State) : Res ClockFields := do
  let d0 ← readDigit s 0
  let d1 ← readDigit s 1
  let d2 ← readDigit s 2
  let d3 ← readDigit s 3
  let d4 ← readDigit s 4
  let d5 ← readDigit s 5
  let d6 ← readDigit s 6
  let d7 ← readDigit s 7
  let d8 ← readDigit s 8
  return {
    minute := 10 * d1.digit + d0.digit
    hour := 10 * d3.digit + d2.digit
    day := 100 * d6.digit + 10 * d5.digit + d4.digit
    year := 10 * d8.digit + d7.digit }

/-- Whether a day of a year is a leap-second day, by the source's numbers (R243). -/
def leapDay (year day : Nat) : Bool :=
  if year % 4 = 0 then day == 183 || day == 366 else day == 182 || day == 365

/-- Whether a leap second follows this minute (R243). -/
def leapDue (s : State) (c : ClockFields) : Bool :=
  s.miscBit bitLepw && c.hour == 23 && c.minute == 59 && leapDay c.year c.day

/-- Leap-second set (R243). -/
def leapCheck (s : State) : Res State :=
  (clockFields s).map fun c => if leapDue s c then setFlag bitLeap true s else s

/-! Carry and clock advance. -/

/-- The array with its first r elements turned one place up: element (d + 1) mod r is the old element d (R244). -/
def rotateFrom (old : RealArray) (r : Nat) : Nat → RealArray → RealArray
  | 0, a => a
  | d + 1, a => (rotateFrom old r d a).put ((d + 1) % r) (old.get d)

/-- A digit vector of radix r after one carry (R244); phase, count and locked are kept. -/
def carryDigit (r : Nat) (d : DigitVec) : DigitVec :=
  { d with
    digit := (d.digit + 1) % r
    mldigit := (d.mldigit + 1) % r
    like := rotateFrom d.like r r d.like }

/-- `carry(p)` and its carry-out (R244). -/
def carry (p : Nat) (s : State) : Res (State × Bool) := do
  let d ← readDigit s p
  let d' := carryDigit (radix p) d
  return (writeDigit s p d', d'.digit == 0)

/-- Carries into a list of positions while the carry-out and DSYNC last (R245). -/
def carryChain : List Nat → Bool → State → Res State
  | [], _, s => .ok s
  | p :: rest, c, s => if c && s.dsync then carry p s >>= fun (t, c') => carryChain rest c' t else .ok s

/-- Clock advance (R245): the minute units always, the other positions by carry once DSYNC is held. -/
def clockAdvance (s : State) : Res State := do
  let (s, c) ← carry 0 s
  carryChain [1, 2, 3, 4, 5, 6, 7, 8] c s

/-- The state with `tsec` written. -/
def setTsec (n : Nat) (s : State) : State := s.withDec { s.dec with tsec := n }

/-- The end of transmitter second 59 after the leap check (R241). -/
def endSecond59 (s : State) : State := setTsec (if s.leap then 60 else 0) s

/-- The new transmitter second (R240 to R242). -/
def tsecNext (s : State) : Res State :=
  if s.dec.tsec = 59 then (leapCheck s).map endSecond59
  else if s.dec.tsec = 60 then .ok (setTsec 0 s)
  else .ok (setTsec (s.dec.tsec + 1) s)

/-- Event TSEC (R240 to R242): the clock advances when the transmitter second wraps to 0. -/
def transmitterSecond (s : State) : Res State := do
  let t ← tsecNext s
  runIf (t.dec.tsec == 0) clockAdvance t

/-- TSEC (R240). -/
def execTsec (s : State) : Host.Outcome State Fault Refusal := commit s (transmitterSecond s)

/-! Minute end. -/

/-- Digits synced (R247). -/
def declareDsync (s : State) : State := if s.dlock then setFlag bitDsync true s else s

/-- Whether every position is locked (R248). -/
def allLocked (s : State) : Bool :=
  decide (s.dec.digits.length = Config.nDig) && s.dec.digits.all DigitVec.locked

/-- In sync (R248): alarm bits 12 and 13 are the not-synchronized class in this and the previous minute. -/
def declareInsync (s : State) : State :=
  setFlag bitInsync (allLocked s && ((s.dec.alarm >>> 12) &&& 3#16 == 0#16)) s

/-- Absolute watchdog restart (R249). -/
def restartAbs (s : State) : State := if s.insync then s.withWd { s.wd with wAbs := 0 } else s

/-- DUT1 in deciseconds: the magnitude from bits 0..2 of misc, positive where DUTS = 1 (60_exceptions.md R271). -/
def dut1Of (s : State) : Int :=
  let m : Int := (s.miscBit bitDut1).toNat + 2 * (s.miscBit bitDut2).toNat + 4 * (s.miscBit bitDut4).toNat
  if s.miscBit bitDuts then m else -m

/-- The compare count of the working channel; 0 when no station is selected (R271). -/
def compareCount (s : State) : Res Nat :=
  match s.sel with
  | .none => .ok 0
  | .a => (readChan s s.acq.dchan).map (·.a.count)
  | .b => (readChan s s.acq.dchan).map (·.b.count)
  | .illegal => .error .indexRange

/-- The time record of this minute (R271). -/
def timeRecord (s : State) : Res TimeRec := do
  let c ← clockFields s
  let compare ← compareCount s
  return {
    year := c.year
    day := c.day
    hour := c.hour
    minute := c.minute
    second := 0
    ms := 0
    dst := 2 * (s.miscBit bitDst1).toNat + (s.miscBit bitDst2).toNat
    lepw := s.miscBit bitLepw
    dut1 := dut1Of s
    insync := s.insync
    quality := qualityOf s.dec.alarm
    leap := s.leap
    sinceSet := s.wd.wAbs
    station := s.selCode
    channel := s.acq.dchan
    compare := compare
    errcnt := s.dec.errcnt
    freqPpm := s.clock.freq.mul Config.million
    avgTime := 2 ^ s.epoch.k
    valid := true }

/-- The emission of the time record (R271). -/
def emitRecord (s : State) : Res State := do
  let r ← timeRecord s
  return s.withOut { s.out with timerec := r, timerecStrobe := true }

/-- Bit-error count restart (R251). -/
def restartErrors (s : State) : State := s.withDec { s.dec with errcnt := 0 }

/-- The minute end (R246). -/
def minuteEnd (s : State) : Res State := do
  let s ← emitRecord (restartAbs (declareInsync (declareDsync s)))
  return restartErrors (ageAlarm s)

/-- MIN1: the minute end unless a leap second follows (43_bcd_decoder.md R215). -/
def minuteOne (s : State) : Res State := if s.leap then .ok s else minuteEnd s

/-- MIN1 (R215). -/
def execMin1 (s : State) : Host.Outcome State Fault Refusal := commit s (minuteOne s)

/-- MIN2: the minute end, then LEAP is cleared (43_bcd_decoder.md R218). -/
def minuteTwo (s : State) : Res State := (minuteEnd s).map (setFlag bitLeap false)

/-- MIN2 (R218). -/
def execMin2 (s : State) : Host.Outcome State Fault Refusal := commit s (minuteTwo s)

end Sys2Proof.Machine
end

