-- ==== Sys2Proof/Machine/Bcd.lean ====
section
/-! DEFINITION. The per-second BCD decoder: the envelope buffer, the bit errors and the ROM actions IDLE to MSCQ and
reserved, 43_bcd_decoder.md R201 to R214 and R219, 30_encoding.md R108. -/

namespace Sys2Proof.Machine

/-- The envelope-buffer write (R219). -/
def envelopeWrite (eData : F64) (s : State) : Res State := do
  let dbuf ← arrWrite Config.second s.dec.dbuf
    (imod (s.clock.rphase - s.epoch.rsecStart) Config.second) eData
  return s.withDec { s.dec with dbuf := dbuf }

/-- What `wwv_data` writes (R201): an erasure counts a bit error, and from the 31st of the minute on raises MODERR. Its
value is `State.dataBit`. -/
def countErasure (s : State) : State :=
  if s.erased then
    let n := min (s.dec.errcnt + 1) Config.sat8
    let s := s.withDec { s.dec with errcnt := n }
    if Config.maxErr < n then raiseAlarm 2 s else s
  else s

/-! Coefficient actions. -/

/-- IDLE (R202): no effect. -/
def execIdle (s : State) : Host.Outcome State Fault Refusal := commit s (.ok s)

/-- `bcd[i] <- v`. -/
def storeBcd (i : Nat) (v : F64) (s : State) : Res State := do
  let bcd ← arrWrite 4 s.dec.bcd i v
  return s.withDec { s.dec with bcd := bcd }

/-- COEF i (R203). -/
def coefAction (i : Nat) (s : State) : Res State := storeBcd i s.dataBit s

def execCoef (i : Nat) (s : State) : Host.Outcome State Fault Refusal := commit s (coefAction i s)

/-- COEFG i (R204): gated on DSYNC. -/
def coefgAction (i : Nat) (s : State) : Res State :=
  storeBcd i (if s.dsync then s.dataBit else .zero) s

def execCoefg (i : Nat) (s : State) : Host.Outcome State Fault Refusal := commit s (coefgAction i s)

/-- COEFZ i (R205). -/
def coefzAction (i : Nat) (s : State) : Res State := storeBcd i .zero s

def execCoefz (i : Nat) (s : State) : Host.Outcome State Fault Refusal := commit s (coefzAction i s)

/-! Digit decode. -/

/-- The correlation of `bcd` with the codebook row of digit d (R206, R207). -/
def score (bcd : RealArray) (d : Nat) : F64 :=
  ((((bcd.get 0).mul (codebook d 0)).add ((bcd.get 1).mul (codebook d 1))).add
    ((bcd.get 2).mul (codebook d 2))).add ((bcd.get 3).mul (codebook d 3))

/-- The smoothed likelihood of digit d (R207). -/
def likeNext (cfg : Config.Cfg) (bcd : RealArray) (d : Nat) (old : F64) : F64 :=
  old.add (((score bcd d).sub old).div cfg.likeTc)

/-- The likelihood vector with digits 0..r-1 smoothed in turn (R207). -/
def smoothLikes (cfg : Config.Cfg) (bcd : RealArray) : Nat → RealArray → Res RealArray
  | 0, a => .ok a
  | d + 1, a => do
    let a ← smoothLikes cfg bcd d a
    let v ← finite (likeNext cfg bcd d (a.get d))
    return a.put d v

/-- The likelihoods of digits 0..r-1 with their digits. -/
def likeCells (r : Nat) (like : RealArray) : List (Nat × F64) := (List.range r).map fun d => (d, like.get d)

/-- What the digit decode finds (R208): the maximum-likelihood digit, its likelihood and its SNR in dB. -/
structure MlDigit where
  ml : Nat
  top : F64
  snr : F64
deriving DecidableEq, Repr

/-- The maximum-likelihood digit and its SNR (R208). DESIGN CHOICE (notes/assumptions/19.md): a `top / next` that
overflows to +infinity is passed to LOG10, and no fault is taken. -/
def mlOf (r : Nat) (like : RealArray) : MlDigit :=
  let cells := likeCells r like
  let best := bestCell cells
  let next := (bestCell (cells.filter fun c => c.1 != best.1)).2
  let snr :=
    if best.2.le .zero then .zero
    else if next.le .zero then Config.dsnrCap
    else F64.min Config.dsnrCap (Config.twenty.mul (Config.log10 (best.2.div next)))
  ⟨best.1, best.2, snr⟩

/-- The phase difference of the ML digit and the clock digit (R209). -/
def phaseOf (r : Nat) (m : MlDigit) (d : DigitVec) : Nat := imod (m.ml - d.digit) r

/-- The compare counter and the stored phase after a comparison (R209). -/
def comparePhase (ph : Nat) (d : DigitVec) : Nat × Nat :=
  if ph = d.phase then (min (d.count + 1) Config.bCmp, d.phase) else (1, ph)

/-- Whether the clock digit snaps to the ML digit (R209). -/
def snaps (cfg : Config.Cfg) (count : Nat) (m : MlDigit) : Bool :=
  decide (Config.bCmp ≤ count) && cfg.bthr.le m.top && cfg.dgsnr.le m.snr

/-- The digit vector after the decode, and whether it snapped (R208, R209). -/
def decodeDigit (cfg : Config.Cfg) (r : Nat) (like : RealArray) (d : DigitVec) : DigitVec × Bool :=
  let m := mlOf r like
  let (count, phase) := comparePhase (phaseOf r m d) d
  if snaps cfg count m then
    ({ digit := m.ml, mldigit := m.ml, phase := 0, count := count, locked := true, like := like }, true)
  else
    ({ digit := d.digit, mldigit := m.ml, phase := phase, count := count, locked := false, like := like }, false)

/-- DECIM p (R207 to R210). -/
def decimAction (p : Nat) (s : State) : Res State := do
  let d ← readDigit s p
  let r := radix p
  let like ← smoothLikes s.cfg s.dec.bcd r d.like
  let (d', snapped) := decodeDigit s.cfg r like d
  let s := writeDigit s p d'
  let s := if snapped then setFlag bitDlock true s else s
  return (if phaseOf r (mlOf r like) d ≠ 0 then raiseAlarm 0 s else s)

def execDecim (p : Nat) (s : State) : Host.Outcome State Fault Refusal := commit s (decimAction p s)

/-! Miscellaneous bits. -/

/-- The smoothed probability of misc bit b with this second's bit (R211). -/
def miscNext (s : State) (b : Nat) : F64 :=
  let old := s.dec.miscp.get b
  old.add ((s.dataBit.sub old).div s.cfg.miscTc)

/-- The decision on misc bit b from its smoothed probability (R211). -/
def miscDecide (b : Nat) (v : F64) (s : State) : State :=
  if s.cfg.mthr.lt v then setMisc b true s
  else if v.lt s.cfg.mthr.neg then setMisc b false s
  else raiseAlarm 1 s

/-- `misc_update(b)` (R211). -/
def miscUpdate (b : Nat) (s : State) : Res State := do
  let _ ← arrRead Config.nMisc s.dec.miscp b
  let v ← finite (miscNext s b)
  let miscp ← arrWrite Config.nMisc s.dec.miscp b v
  return miscDecide b v (s.withDec { s.dec with miscp := miscp })

/-- MSC b (R212). -/
def execMsc (b : Nat) (s : State) : Host.Outcome State Fault Refusal := commit s (miscUpdate b s)

/-- MSCD p (R213): DECIM p, then the update of DST1. -/
def mscdAction (p : Nat) (s : State) : Res State := do
  let s ← decimAction p s
  miscUpdate bitDst1 s

def execMscd (p : Nat) (s : State) : Host.Outcome State Fault Refusal := commit s (mscdAction p s)

/-- MSCQ b (R214): misc_update(b), then the probe-window open. -/
def mscqAction (b : Nat) (s : State) : Res State := (miscUpdate b s).map probeOpen

def execMscq (b : Nat) (s : State) : Host.Outcome State Fault Refusal := commit s (mscqAction b s)

/-- A reserved word (30_encoding.md R108): the model fault ReservedWord of the ROM index. -/
def reservedAction (_w : BitVec 8) (s : State) : Res State := .error (.reservedWord s.dec.rsec)

def execReserved (w : BitVec 8) (s : State) : Host.Outcome State Fault Refusal := commit s (reservedAction w s)

end Sys2Proof.Machine
end

