-- ==== Sys2Proof/Machine/Tracker.lean ====
section
/-! DEFINITION. The epoch tracker and the sample-clock FLL: 41_epoch_tracker_fll.md R150 to R161, and the
not-synchronized alarm, 60_exceptions.md R264. -/

namespace Sys2Proof.Machine

/-- Comb update (R150). DESIGN CHOICE (notes/assumptions/20.md): the formula, rounded at each operation (00_scope.md R11),
is kept with COMB_TC = 1 too, so the bin is then the sample up to rounding only. -/
def combUpdate (eSel : F64) (s : State) : Res State := do
  let old ← arrRead Config.second s.epoch.comb s.clock.rphase
  let v ← finite (old.add ((eSel.sub old).div s.cfg.combTc))
  let comb ← arrWrite Config.second s.epoch.comb s.clock.rphase v
  return s.withEpoch { s.epoch with comb := comb }

/-- The step-local values of a clock advance (R151). -/
structure Advance where
  old : Nat
  adv : Nat
  wrapped : Bool
deriving DecidableEq, Repr

/-- The slip accumulator and the number of positions the clock moves: hold, skip or go on (R151). -/
def slip (facc freq : F64) : F64 × Nat :=
  let f := facc.add freq
  if Config.one.le f then (f.sub Config.one, 0)
  else if f.le Config.minusOne then (f.add Config.one, 2)
  else (f, 1)

/-- The step-local values of the clock advance of a clock (R151). -/
def advanceOf (c : Clock) : Advance :=
  let adv := (slip c.facc c.freq).2
  ⟨c.rphase, adv, decide (Config.second ≤ c.rphase + adv)⟩

/-- Sample-clock advance (R151). -/
def clockStep (s : State) : State :=
  let (facc, adv) := slip s.clock.facc s.clock.freq
  s.withClock { s.clock with facc := facc, rphase := (s.clock.rphase + adv) % Config.second }

/-- Crossing test (R157): some j in 1..adv has (old + j) mod 8000 = o. -/
def Advance.crossed (a : Advance) (o : Nat) : Bool :=
  (List.range a.adv).any fun j => (a.old + (j + 1)) % Config.second == o

/-! Raw second: the epoch update. -/

/-- The history with a new candidate (R153). -/
def histPush (h : Hist) (cand : Nat) : Hist := ⟨h.h1, h.h2, cand⟩

/-- The median of the history (R153). -/
def histMedian (h : Hist) : Nat := median3 h.h0 h.h1 h.h2

/-- The largest minus the smallest of the history (R153). -/
def histSpan (h : Hist) : Nat := max (max h.h0 h.h1) h.h2 - min (min h.h0 h.h1) h.h2

/-- Signal loss (R153): SSYNC, jitcnt and scmp cleared. -/
def dropSecondSync (s : State) : State :=
  setFlag bitSsync false (s.withEpoch { s.epoch with jitcnt := 0, scmp := 0 })

/-- Whether a median is accepted as the epoch (R154). -/
def epochAccepted (e : Epoch) (med : Nat) : Bool :=
  decide (cdist Config.second med e.tepoch ≤ Config.epWin) || decide (2 ^ e.k < e.jitcnt)

/-- The tracker after the acceptance test and the run count (R154, R155). -/
def epochStep (e : Epoch) (med : Nat) : Epoch :=
  if epochAccepted e med then
    { e with
      scmp := if med = e.tepoch then min (e.scmp + 1) Config.sCmp else 1
      tepoch := med
      jitcnt := 0 }
  else { e with jitcnt := min (e.jitcnt + 1) Config.sat8, scmp := 0 }

/-- Second sync and offset latch (R156). -/
def latchOffsets (s : State) : Res State := do
  let delay ← selDelay s
  let rs := imod (s.epoch.tepoch - (Config.tckSiz - 1 : Nat)) Config.second
  let s := setFlag bitSsync true s
  return s.withEpoch { s.epoch with rsecStart := rs, tsecStart := imod (rs - delay) Config.second }

/-- The epoch update of a raw second (R153 to R156). -/
def epochUpdate (s : State) : Res State :=
  let best := s.epoch.comb.argmax Config.second
  let hist := histPush s.epoch.hist best.1
  let med := histMedian hist
  let s := s.withEpoch { s.epoch with hist := hist, span := histSpan hist }
  if best.2.lt s.cfg.sthr || s.sel = .none then .ok (dropSecondSync s)
  else
    let accepted := epochAccepted s.epoch med
    let s := s.withEpoch (epochStep s.epoch med)
    if accepted && decide (Config.sCmp ≤ s.epoch.scmp) then latchOffsets s else .ok s

/-! Raw second: the averaging interval. -/

/-- The drift of an interval in samples (R159). -/
def driftOf (e : Epoch) : Int := wrapdiff Config.second e.tepoch e.tepochRef

/-- The clamped frequency after an interval (R160). -/
def freqNext (drift : Int) (k : Nat) (freq : F64) : F64 :=
  let y := (F64.ofInt drift).div (F64.ofInt (2 ^ k * Config.second : Nat))
  let gain := (F64.ofInt (2 ^ k : Nat)).div (F64.ofInt 1024)
  F64.clamp (freq.add (y.mul gain)) Config.minusMaxFreq Config.maxFreq

/-- Frequency update (R160). -/
def frequencyUpdate (drift : Int) (s : State) : Res State :=
  if s.ssync then
    (finite (freqNext drift s.epoch.k s.clock.freq)).map fun f => s.withClock { s.clock with freq := f }
  else .ok s

/-- Interval doubling (R161). -/
def intervalDoubling (drift : Int) (s : State) : State :=
  let inc := if s.ssync && decide (drift.natAbs ≤ 1) then min (s.epoch.avginc + 1) Config.dblRun else 0
  if Config.dblRun ≤ inc ∧ s.epoch.k < Config.maxAvg then
    s.withEpoch { s.epoch with k := s.epoch.k + 1, avginc := 0 }
  else s.withEpoch { s.epoch with avginc := inc }

/-- The end of an averaging interval (R159 to R161). -/
def intervalEnd (s : State) : Res State := do
  let drift := driftOf s.epoch
  let s := s.withEpoch { s.epoch with tepochRef := s.epoch.tepoch }
  let s ← frequencyUpdate drift s
  return intervalDoubling drift s

/-- Interval counter (R158). -/
def intervalStep (s : State) : Res State :=
  let n := s.epoch.avgcnt + 1
  if 2 ^ s.epoch.k ≤ n then intervalEnd (s.withEpoch { s.epoch with avgcnt := 0 })
  else .ok (s.withEpoch { s.epoch with avgcnt := n })

/-- Not-synchronized check (60_exceptions.md R264). -/
def syncCheck (s : State) : State := if !s.ssync || !s.msync then raiseAlarm 3 s else s

/-- Event RAWSEC (R152). -/
def rawSecond (s : State) : Res State := do
  let mwrapped := s.clock.mphase + 1 == 60
  let s := s.withClock { s.clock with mphase := (s.clock.mphase + 1) % 60 }
  let s ← epochUpdate s
  let s ← intervalStep s
  runIf mwrapped rawMinute (syncCheck s)

/-- RAWSEC (R152). -/
def execRawsec (s : State) : Host.Outcome State Fault Refusal := commit s (rawSecond s)

end Sys2Proof.Machine
end

