-- ==== Sys2Proof/Machine/Events.lean ====
section
/-! DEFINITION. The receiver-second event with the dispatch of its ROM word (43_bcd_decoder.md R200, R216, R220), and
the sample step (70_reset_and_hazards.md R285). -/

namespace Sys2Proof.Machine

/-- `execute w` (R220): the rule of a decoded ROM action. A ROM word never decodes to an event. -/
def romAction : Instr → State → Res State
  | .idle, s => .ok s
  | .coef i, s => coefAction i s
  | .coefg i, s => coefgAction i s
  | .coefz i, s => coefzAction i s
  | .decim p, s => decimAction p s
  | .msc b, s => miscUpdate b s
  | .mscd p, s => mscdAction p s
  | .mscq b, s => mscqAction b s
  | .pend, s => probeClose s
  | .min1, s => minuteOne s
  | .min2, s => minuteTwo s
  | .reserved w, s => reservedAction w s
  | .reset, s | .sample, s | .rawsec, s | .rawmin, s | .tsec, s | .rsec, s | .wdreset, s =>
    .error (.reservedWord s.dec.rsec)

/-- Receiver-second advance (R216). -/
def rsecAdvance (s : State) : State :=
  s.withDec { s.dec with
    rsec := if s.dec.rsec = 59 then (if s.leap then 60 else 0) else if s.dec.rsec = 60 then 0 else s.dec.rsec + 1 }

/-- Event RSEC (R200): the bit of the second ends in `countErasure`, then fetch, execute and advance. -/
def receiverSecond (s : State) : Res State := do
  let s := countErasure s
  let w ← fetchWord s
  let s ← romAction (decodeRom w) s
  return rsecAdvance s

/-- RSEC (R200). -/
def execRsec (s : State) : Host.Outcome State Fault Refusal := commit s (receiverSecond s)

/-- Tuner failure (60_exceptions.md R273). -/
def tunerFailure (fail : Bool) (s : State) : State :=
  if fail then s.withOut { s.out with tuneErr := true } else s

/-- The signal part of a sample step, steps 1 to 4 of R285. The strobe of the time record starts at 0 (step 10:
only R271 sets it). -/
def signalStep (s : State) : Res State := do
  let s := s.withOut { s.out with timerecStrobe := false }
  let (o, bank) ← demodUpdate s.cfg s.sel s.pins.x s.bank
  let s := s.withBank bank
  let s ← envelopeWrite o.eData s
  let s ← scanAccumulate o.em s
  combUpdate o.eSel s

/-- Steps 6 to 8 of R285 after the clock advance `a`, with `m0`, `t0` and `r0` from the start of the step. -/
def eventStep (a : Advance) (m0 : Bool) (t0 r0 : Nat) (s : State) : Res State := do
  let s ← runIf a.wrapped rawSecond s
  let s ← runIf (m0 && s.msync && a.crossed t0) transmitterSecond s
  runIf (m0 && s.msync && a.crossed r0) receiverSecond s

/-- The sample step (R285) of a core that is not faulted. -/
def sampleStep (s : State) : Res State := do
  let t ← signalStep s
  let a := advanceOf t.clock
  let t ← eventStep a s.msync s.epoch.tsecStart s.epoch.rsecStart (clockStep t)
  return tunerFailure s.pins.tuneFail t

/-- SAMPLE (R285): a strobe of a faulted core does nothing (R260). -/
def execSample (s : State) : Host.Outcome State Fault Refusal :=
  match s.fault with
  | none => commit s (sampleStep s)
  | some _ => .next s

/-! The cycle: which operation the input ports ask for (70_reset_and_hazards.md R280, R285). -/

/-- The operation of this cycle: a host reset replaces the sample step; without a strobe there is none. -/
def currentOp (s : State) : Option Instr :=
  if s.pins.reset then some .reset else if s.pins.strobe then some .sample else none

/-- The outcome of a cycle whose operation is done: its inputs are consumed. -/
def finishCycle : Host.Outcome State Fault Refusal → Host.Outcome State Fault Refusal
  | .next t => .next t.nextCycle
  | .fault f => .fault f
  | .refused r => .refused r

/-! Arming the next step for one operation (notes/assumptions/4.md). -/

/-- A strobe of the sample +0.0. -/
def strobePins (cfg : Config.Cfg) : Pins := ⟨false, cfg, true, .zero, false⟩

/-- A host reset with a given configuration. -/
def resetPins (cfg : Config.Cfg) : Pins := ⟨true, cfg, false, .zero, false⟩

/-- The state with a strobe as its next cycle, no fault, and the sample clock at a position from which this
sample moves by one. -/
def armStrobe (rphase : Nat) (s : State) : State :=
  s.withFault none
  |>.withInputs (strobePins s.cfg :: s.inputs)
  |>.withClock { s.clock with rphase := rphase, facc := .zero, freq := .zero }

/-- The state with minute sync held and the two second boundaries at given offsets. -/
def armSeconds (rsecStart tsecStart : Nat) (s : State) : State :=
  (setFlag bitMsync true s).withEpoch { s.epoch with rsecStart := rsecStart, tsecStart := tsecStart }

/-- The state with a raw-second counter. -/
def armMphase (mphase : Nat) (s : State) : State := s.withClock { s.clock with mphase := mphase }

/-- The state whose next step is a sample step in which a receiver second ends and ROM word w is fetched: w stands in
PROG at the index `rsec`. -/
def armRom (w : BitVec 8) (s : State) : State :=
  let s := armSeconds 1 0 (armStrobe 0 s)
  { s with prog := s.prog.set s.dec.rsec w }

/-- The state whose next step runs a given operation as its own event, or as the ROM word fetched. -/
def armInstr (s : State) : Instr → State
  | .reset => s.withInputs (resetPins s.cfg :: s.inputs)
  | .sample => armStrobe 0 s
  | .rawsec => armMphase 0 (armStrobe 7999 s)
  | .rawmin => armMphase 59 (armStrobe 7999 s)
  | .tsec => armSeconds 0 1 (armStrobe 0 s)
  | .rsec => armSeconds 1 0 (armStrobe 0 s)
  | .wdreset =>
    let s := armMphase 59 (armStrobe 7999 s)
    s.withWd { s.wd with wAbs := Config.wdAbs }
  | i =>
    match encode i with
    | .rom w => armRom w s
    | .event _ => s

end Sys2Proof.Machine
end

