-- ==== Sys2Proof/Machine/Dispatch.lean ====
section
/-! DEFINITION. The dispatch: one arm per operation, each one direct call of its meaning. -/

namespace Sys2Proof.Machine

def exec (i : Instr) (s : State) : Host.Outcome State Fault Refusal :=
  match i with
  | .idle => Sys2Proof.Machine.execIdle s
  | .coef n => Sys2Proof.Machine.execCoef n s
  | .coefg n => Sys2Proof.Machine.execCoefg n s
  | .coefz n => Sys2Proof.Machine.execCoefz n s
  | .decim p => Sys2Proof.Machine.execDecim p s
  | .msc b => Sys2Proof.Machine.execMsc b s
  | .mscd p => Sys2Proof.Machine.execMscd p s
  | .mscq b => Sys2Proof.Machine.execMscq b s
  | .pend => Sys2Proof.Machine.execPend s
  | .min1 => Sys2Proof.Machine.execMin1 s
  | .min2 => Sys2Proof.Machine.execMin2 s
  | .reserved w => Sys2Proof.Machine.execReserved w s
  | .reset => Sys2Proof.Machine.execReset s
  | .sample => Sys2Proof.Machine.execSample s
  | .rawsec => Sys2Proof.Machine.execRawsec s
  | .rawmin => Sys2Proof.Machine.execRawmin s
  | .tsec => Sys2Proof.Machine.execTsec s
  | .rsec => Sys2Proof.Machine.execRsec s
  | .wdreset => Sys2Proof.Machine.execWdreset s

end Sys2Proof.Machine
end

