-- ==== Sys2Proof/Machine/Step.lean ====
section
/-! DEFINITION. One step of the machine: one cycle of the host's input ports (60_exceptions.md R270), and the state armed
for the host's question which operation a table row runs. -/

namespace Sys2Proof.Machine

/-- One cycle: the operation the input ports ask for (70_reset_and_hazards.md R280, R285), then the cycle's inputs are
consumed. A cycle with neither reset nor strobe changes nothing else (R285). -/
def step (s : State) : Host.Outcome State Fault Refusal :=
  match currentOp s with
  | none => .next s.nextCycle
  | some i => finishCycle (exec i s)

/-- The state whose very next step runs the operation a table row stands for, a ROM word by fetching it from PROG at
the end of a receiver second, an event by its own trigger (notes/assumptions/4.md). -/
def State.withFetchWord (s : State) (nbits w : Nat) : State :=
  match decodeTableWord nbits w with
  | some i => armInstr s i
  | none => s

end Sys2Proof.Machine
end

