-- ==== Sys2Proof/Safety.lean ====
section
/-! DEFINITION. What claims speak of: the invariants of 10_state.md R46, the ranges of R34 to R45, and when a run is
safe. -/

namespace Sys2Proof.Machine

/-! The invariants of 10_state.md R46, clause by clause. -/

/-- R46(a): every clock digit and every ML digit is below the radix of its position. -/
abbrev State.DigitsInRange (s : State) : Prop :=
  ∀ (p : Nat) (d : DigitVec), s.dec.digits[p]? = some d → d.digit < radix p ∧ d.mldigit < radix p

/-- R46(b): `rsec` and `tsec` are in 0..60. -/
abbrev State.SecondsInRange (s : State) : Prop := s.dec.rsec ≤ 60 ∧ s.dec.tsec ≤ 60

/-- R46(c): the station field is not 11. -/
abbrev State.SelLegal (s : State) : Prop := s.sel ≠ .illegal

/-- R46(d): receiver second 60 is in progress only with LEAP set. -/
abbrev State.LeapSecondFlagged (s : State) : Prop := s.dec.rsec = 60 → s.leap = true

/-- R46(e): the FLL frequency is finite and within the clamp. -/
abbrev State.FreqInRange (s : State) : Prop :=
  s.clock.freq.isFinite = true ∧ Config.minusMaxFreq.le s.clock.freq = true ∧
    s.clock.freq.le Config.maxFreq = true

/-- R46(f): every compare count is at most AMAX. -/
abbrev State.CountsInRange (s : State) : Prop :=
  ∀ (f : Nat) (pair : ByStation ChanRec) (st : Station), s.acq.chan[f]? = some pair → (pair.get st).count ≤ Config.aMax

/-- The six invariants of R46 together. -/
structure State.StatedInv (s : State) : Prop where
  digits : s.DigitsInRange
  seconds : s.SecondsInRange
  sel : s.SelLegal
  leap : s.LeapSecondFlagged
  freq : s.FreqInRange
  counts : s.CountsInRange

/-! The ranges of the integer registers (10_state.md R34 to R45). -/

/-- The ranges of R34: the reference phases and the delay-line indices. -/
abbrev Bank.InRange (b : Bank) : Prop :=
  b.ph100 < Config.nStep ∧ b.ph1000 < Config.nStep ∧ b.ph1200 < Config.nStep ∧
    b.di < Config.datSiz ∧ b.ti < Config.tckSiz ∧ b.mi < Config.synSiz

/-- The ranges of R36: the sample clock. -/
abbrev Clock.InRange (c : Clock) : Prop := c.rphase < Config.second ∧ c.mphase < 60

/-- The ranges of R37: the epoch tracker. -/
structure Epoch.InRange (e : Epoch) : Prop where
  hist : e.hist.h0 < Config.second ∧ e.hist.h1 < Config.second ∧ e.hist.h2 < Config.second
  tepoch : e.tepoch < Config.second
  span : e.span < Config.second
  jitcnt : e.jitcnt ≤ Config.sat8
  scmp : e.scmp ≤ Config.sCmp
  k : Config.minAvg ≤ e.k ∧ e.k ≤ Config.maxAvg
  avgcnt : e.avgcnt < 2 ^ Config.maxAvg
  avginc : e.avginc ≤ Config.dblRun
  tepochRef : e.tepochRef < Config.second
  rsecStart : e.rsecStart < Config.second
  tsecStart : e.tsecStart < Config.second

/-- The ranges of one channel record (R38). -/
abbrev ChanRec.InRange (c : ChanRec) : Prop :=
  -240000 ≤ c.jitter ∧ c.jitter ≤ 239999 ∧ c.pos < Config.minute ∧ c.count ≤ Config.aMax

/-- The ranges of R38: station acquisition. -/
structure Acq.InRange (a : Acq) : Prop where
  chanLength : a.chan.length = Config.nChan
  chan : ∀ (f : Nat) (pair : ByStation ChanRec) (st : Station), a.chan[f]? = some pair → (pair.get st).InRange
  cherrLength : a.cherr.length = Config.nChan
  cherr : ∀ n ∈ a.cherr, n ≤ Config.sat8
  pchan : a.pchan < Config.nChan
  dchan : a.dchan < Config.nChan
  scanPos : a.ms.a.pos < Config.minute ∧ a.ms.b.pos < Config.minute

/-- The ranges of R39 and R45: the decoder. -/
structure Dec.InRange (d : Dec) : Prop where
  rsec : d.rsec ≤ 60
  tsec : d.tsec ≤ 60
  digitsLength : d.digits.length = Config.nDig
  digits : ∀ (p : Nat) (v : DigitVec), d.digits[p]? = some v →
    v.digit < radix p ∧ v.mldigit < radix p ∧ v.phase < radix p ∧ v.count ≤ Config.bCmp
  errcnt : d.errcnt ≤ Config.sat8

/-- The watchdog counters between steps: an exceeded limit has already caused the reset (R43, R265). -/
abbrev Watchdog.InRange (w : Watchdog) : Prop :=
  w.wAcq ≤ Config.wdAcq ∧ w.wSs ≤ Config.wdSs ∧ w.wDs ≤ Config.wdDs ∧ w.wAbs ≤ Config.wdAbs

/-- Every integer register in its stated range but the sample counts `ms.n` (notes/assumptions/12.md), every array in its canonical form, 61 ROM words, a legal station field. -/
structure State.InRange (s : State) : Prop where
  mem : s.memWf = true
  bank : s.bank.InRange
  clock : s.clock.InRange
  epoch : s.epoch.InRange
  acq : s.acq.InRange
  dec : s.dec.InRange
  wd : s.wd.InRange
  tune : s.out.tune < Config.nChan
  sel : s.SelLegal
  prog : s.prog.length = Config.nProg

/-- The real registers to which 10_state.md gives a range: `facc` and `freq` (R36), the pulse amplitudes and the scans
(R38), and the envelope buffer (R39). -/
structure State.RealsInRange (s : State) : Prop where
  facc : Config.minusOne.lt s.clock.facc = true ∧ s.clock.facc.lt Config.one = true
  freq : s.FreqInRange
  amp : ∀ (f : Nat) (pair : ByStation ChanRec) (st : Station), s.acq.chan[f]? = some pair →
    F64.zero.le (pair.get st).amp = true
  scan : ∀ st, F64.zero.le (s.acq.ms.get st).emax = true ∧ F64.zero.le (s.acq.ms.get st).esum = true
  dbuf : ∀ j, F64.zero.le (s.dec.dbuf.get j) = true

/-- A safe state: no model fault is recorded (60_exceptions.md R260). -/
abbrev State.Safe (s : State) : Prop := s.fault = none

/-- Both values a probe-window or acquisition update stores from a scan are finite (42_station_acquisition.md R178). -/
abbrev Scan.Measurable (m : Scan) : Prop := m.emax.sqrt.isFinite = true ∧ (scanSnr m).isFinite = true

/-! Rounding (00_scope.md R11). -/

/-- `r` holds the bits below the sign of num/den units of 2^-1074 rounded to nearest, ties to even: infinity exactly from
half a unit in the last place above the largest finite value; else no finite magnitude is nearer, and of two at the same
distance `r` is the even one. -/
structure NearestMag (num den r : Nat) : Prop where
  bound : r ≤ F64.infMag
  inf : r = F64.infMag ↔ (2 ^ 54 - 1) * 2 ^ 2044 * den ≤ num
  nearest : r < F64.infMag → ∀ m, m < F64.infMag →
    let far := fun k : Nat => ((num : Int) - den * (F64.pack false k).units).natAbs
    far r ≤ far m ∧ (far r = far m → m ≠ r → r % 2 = 0)

/-- `v` is the binary64 value of the exact result `z`/den units of 2^-1074, its sign `neg` where the result is zero. -/
structure RoundsTo (neg : Bool) (z : Int) (den : Nat) (v : F64) : Prop where
  sign : v.sign = if z = 0 then neg else decide (z < 0)
  mag : NearestMag z.natAbs den v.mag

/-! The values of one demodulator update, rule by rule (40_demodulator_bank.md R121 to R128), written without the checks
of R131. -/

/-- SINTAB[i] (R121). -/
def sinAt (i : Nat) : F64 := sintab.getD i .zero

/-- The running sum of a delay line after it takes v (20_memory.md R94). -/
def slideSum (buf : RealArray) (sum : F64) (i : Nat) (v : F64) : F64 := (sum.add v).sub (buf.get i)

/-- The lowpass and the bandpass output (R122, R123). -/
def Bank.lp (cfg : Config.Cfg) (b : Bank) (x : F64) : F64 := filterOut cfg.lpfB b.lpfW (filterIn cfg.lpfA b.lpfW x)
def Bank.bp (cfg : Config.Cfg) (b : Bank) (x : F64) : F64 := filterOut cfg.bpfB b.bpfW (filterIn cfg.bpfA b.bpfW x)

/-- The reference phase of a station's sync tone (R124). -/
def Bank.phase (b : Bank) : Station → Nat
  | .a => b.ph1000
  | .b => b.ph1200

/-- The sine and cosine references of a station (R124). -/
def Bank.sinRef (b : Bank) (st : Station) : F64 := sinAt (b.phase st)
def Bank.cosRef (b : Bank) (st : Station) : F64 := sinAt ((b.phase st + 20) % 80)

/-- The data I/Q sums (R125), the tick sums (R127) and the minute-sync sums (R128) after the sample. -/
def Bank.dI (cfg : Config.Cfg) (b : Bank) (x : F64) : F64 :=
  slideSum b.dIBuf b.dISum b.di ((b.lp cfg x).mul (sinAt b.ph100))
def Bank.dQ (cfg : Config.Cfg) (b : Bank) (x : F64) : F64 :=
  slideSum b.dQBuf b.dQSum b.di ((b.lp cfg x).mul (sinAt ((b.ph100 + 20) % 80)))
def Bank.tI (cfg : Config.Cfg) (b : Bank) (x : F64) (st : Station) : F64 :=
  slideSum (b.tIBuf.get st) (b.tISum.get st) b.ti ((b.bp cfg x).mul (b.sinRef st))
def Bank.tQ (cfg : Config.Cfg) (b : Bank) (x : F64) (st : Station) : F64 :=
  slideSum (b.tQBuf.get st) (b.tQSum.get st) b.ti ((b.bp cfg x).mul (b.cosRef st))
def Bank.mI (cfg : Config.Cfg) (b : Bank) (x : F64) (st : Station) : F64 :=
  slideSum (b.mIBuf.get st) (b.mISum.get st) b.mi ((b.bp cfg x).mul (b.sinRef st))
def Bank.mQ (cfg : Config.Cfg) (b : Bank) (x : F64) (st : Station) : F64 :=
  slideSum (b.mQBuf.get st) (b.mQSum.get st) b.mi ((b.bp cfg x).mul (b.cosRef st))

/-- The data envelope (R126), the tick energy (R127) and the minute-sync energy (R128). -/
def Bank.eData (cfg : Config.Cfg) (b : Bank) (x : F64) : F64 :=
  (((b.dI cfg x).mul (b.dI cfg x)).add ((b.dQ cfg x).mul (b.dQ cfg x))).sqrt
def Bank.e5 (cfg : Config.Cfg) (b : Bank) (x : F64) (st : Station) : F64 :=
  ((b.tI cfg x st).mul (b.tI cfg x st)).add ((b.tQ cfg x st).mul (b.tQ cfg x st))
def Bank.em (cfg : Config.Cfg) (b : Bank) (x : F64) (st : Station) : F64 :=
  ((b.mI cfg x st).mul (b.mI cfg x st)).add ((b.mQ cfg x st).mul (b.mQ cfg x st))

/-- No value that an update computes is an infinity or a NaN (R131). -/
structure Bank.FiniteAt (cfg : Config.Cfg) (b : Bank) (x : F64) : Prop where
  input : x.isFinite = true
  w0 : (filterIn cfg.lpfA b.lpfW x).isFinite = true
  lp : (b.lp cfg x).isFinite = true
  v0 : (filterIn cfg.bpfA b.bpfW x).isFinite = true
  bp : (b.bp cfg x).isFinite = true
  dI : (b.dI cfg x).isFinite = true
  dQ : (b.dQ cfg x).isFinite = true
  eData : (b.eData cfg x).isFinite = true
  tI : ∀ st, (b.tI cfg x st).isFinite = true
  tQ : ∀ st, (b.tQ cfg x st).isFinite = true
  e5 : ∀ st, (b.e5 cfg x st).isFinite = true
  mI : ∀ st, (b.mI cfg x st).isFinite = true
  mQ : ∀ st, (b.mQ cfg x st).isFinite = true
  em : ∀ st, (b.em cfg x st).isFinite = true

/-- The epoch comb sample of an update (R129). -/
def Bank.eSel (cfg : Config.Cfg) (b : Bank) (x : F64) (sel : Sel) : F64 :=
  if sel = .b then b.e5 cfg x .b else b.e5 cfg x .a

/-- The comb bin after an update (41_epoch_tracker_fll.md R150). -/
def State.combNext (s : State) : F64 :=
  let old := s.epoch.comb.get s.clock.rphase
  old.add (((s.bank.eSel s.cfg s.pins.x s.sel).sub old).div s.cfg.combTc)

/-! The score of a pulse against a channel record (42_station_acquisition.md R178 to R180, R186). -/

/-- The channel gate on a scan and a record (R179). -/
def ChanRec.passes (cfg : Config.Cfg) (m : Scan) (c : ChanRec) : Bool :=
  cfg.athr.le m.emax.sqrt && Config.snrGate.lt (scanSnr m) &&
    (c.count == 0 || decide ((wrapdiff 480000 m.pos c.pos).natAbs < 400))

/-- The record after its scan is scored; `fall` is the count after a failed gate. -/
def ChanRec.scored (cfg : Config.Cfg) (m : Scan) (c : ChanRec) (fall : Nat) : ChanRec where
  amp := m.emax.sqrt
  snr := scanSnr m
  jitter := wrapdiff 480000 m.pos c.pos
  pos := m.pos
  count := if c.passes cfg m then min (c.count + 1) 6 else fall

/-- The count of a channel; 0 where there is no such channel. -/
def State.chanCount (s : State) (f : Nat) (st : Station) : Nat :=
  match s.acq.chan[f]? with
  | some pair => (pair.get st).count
  | none => 0

/-! The clock digits (44_clock_and_minute.md R244, R245, R250). -/

/-- The clock digit of a position. -/
def State.digitAt (s : State) (p : Nat) : Nat := (s.dec.digits.getD p .zeros).digit

/-- The value of the nine clock digits as one mixed-radix number, the minute units lowest. -/
def State.clockValue (s : State) : Nat :=
  s.digitAt 0 + 10 * (s.digitAt 1 + 6 * (s.digitAt 2 + 10 * (s.digitAt 3 + 3 * (s.digitAt 4 + 10 *
    (s.digitAt 5 + 10 * (s.digitAt 6 + 4 * (s.digitAt 7 + 10 * s.digitAt 8)))))))

/-- The clock fields (R250). -/
def State.minuteField (s : State) : Nat := 10 * s.digitAt 1 + s.digitAt 0
def State.hourField (s : State) : Nat := 10 * s.digitAt 3 + s.digitAt 2
def State.dayField (s : State) : Nat := 100 * s.digitAt 6 + 10 * s.digitAt 5 + s.digitAt 4
def State.yearField (s : State) : Nat := 10 * s.digitAt 8 + s.digitAt 7

/-- Whether LEAP is set at the end of transmitter second 59 (R243). -/
def State.leapSet (s : State) : Bool :=
  s.miscBit bitLepw && s.hourField == 23 && s.minuteField == 59 &&
    (if s.yearField % 4 = 0 then s.dayField == 183 || s.dayField == 366
     else s.dayField == 182 || s.dayField == 365)

/-- Whether position p is carried into by a clock advance (R245): the minute units always, another position once DSYNC
is held and every lower digit wraps. -/
def State.carriesInto (s : State) (p : Nat) : Bool :=
  p == 0 || (s.dsync && (List.range p).all fun q => (s.digitAt q + 1) % radix q == 0)

/-! What a minute end leaves (44_clock_and_minute.md R246 to R251, 60_exceptions.md R271). -/

/-- The DUT1 field in deciseconds (R271). -/
def State.dut1Field (s : State) : Int :=
  let m : Int := (if s.miscBit 0 then 1 else 0) + (if s.miscBit 1 then 2 else 0) + (if s.miscBit 2 then 4 else 0)
  if s.miscBit 3 then m else -m

/-- The compare field (R271). -/
def State.compareField (s : State) : Nat :=
  match s.sel.station with
  | some st => s.chanCount s.acq.dchan st
  | none => 0

/-- The time record that the minute end writes from the state `s` before it, with INSYNC and `w_abs` as it has just set
them (R271). -/
def State.recordOf (s : State) (insync : Bool) (wAbs : Nat) : TimeRec where
  year := s.yearField
  day := s.dayField
  hour := s.hourField
  minute := s.minuteField
  second := 0
  ms := 0
  dst := (if s.miscBit 4 then 2 else 0) + (if s.miscBit 5 then 1 else 0)
  lepw := s.miscBit 6
  dut1 := s.dut1Field
  insync := insync
  quality := qualityOf s.dec.alarm
  leap := s.leap
  sinceSet := wAbs
  station := s.selCode
  channel := s.acq.dchan
  compare := s.compareField
  errcnt := s.dec.errcnt
  freqPpm := s.clock.freq.mul ⟨0x412E848000000000#64⟩
  avgTime := 2 ^ s.epoch.k
  valid := true

/-- The state `t` is the state `s` after a minute end, LEAP apart (R246). -/
structure MinuteEnded (s t : State) : Prop where
  /-- R247: DSYNC is set if some digit has locked. -/
  dsync : t.dsync = (s.dsync || s.dlock)
  /-- R248: INSYNC is recomputed. -/
  insync : t.insync = ((List.range 9).all (fun p => (s.dec.digits.getD p .zeros).locked) &&
    !s.dec.alarm.getLsbD 12 && !s.dec.alarm.getLsbD 13)
  /-- Every status bit but DSYNC, INSYNC and LEAP is kept. -/
  status : ∀ b, b ≠ bitDsync → b ≠ bitInsync → b ≠ bitLeap → t.flag b = s.flag b
  /-- R249: `w_abs` restarts where INSYNC is declared. -/
  wd : t.wd = { s.wd with wAbs := if t.insync then 0 else s.wd.wAbs }
  /-- R271: the record is written whole, with its strobe. -/
  out : t.out = { s.out with timerec := s.recordOf t.insync t.wd.wAbs, timerecStrobe := true }
  /-- R263 and R251: the alarms age, the error count restarts. -/
  dec : t.dec = { s.dec with alarm := (s.dec.alarm &&& ~~~0x8888#16) <<< 1, errcnt := 0 }
  /-- Nothing else is written. -/
  rest : t = ((((s.withStatus t.status).withWd t.wd).withOut t.out).withDec t.dec)

/-! A delay line fed with a list of inputs (20_memory.md R94). -/

/-- The delay line after each input in turn, its index advancing by one modulo n. -/
def boxcarRun (n : Nat) : List F64 → RealArray → F64 → Nat → Res (RealArray × F64)
  | [], buf, sum, _ => .ok (buf, sum)
  | v :: rest, buf, sum, i => boxcar n buf sum i v >>= fun (buf', sum') => boxcarRun n rest buf' sum' ((i + 1) % n)

end Sys2Proof.Machine
end

