-- ==== Sys2Proof/Certificates/Slice0/Obligations.lean ====
section
/-! DEFINITION. The statements for the provers, each a proposition about the model, from the numbered rules of spec/. -/

open Sys2Proof Sys2Proof.Machine

/-! Encoding. -/

/-- 30_encoding.md R101, R102, R104 to R106: decoding is the inverse of encoding, both ways, in both code spaces. -/
def Obligations.DecodeAndEncodeAgree : Prop :=
  (∀ i : Instr, i.wellFormed = true → decode (encode i) = .ok i) ∧
  (∀ w : BitVec 8, encode (decodeRom w) = .rom w ∧ (decodeRom w).wellFormed = true ∧ (decodeRom w).isRom = true) ∧
  (∀ (c : BitVec 4) (i : Instr), decodeEvent c = some i → encode i = .event c ∧ i.isRom = false)

/-- 30_encoding.md R104 to R106: one word of each ROM action and each event code decode to their operation; 48 of the 256
words are legal. -/
def Obligations.WrittenWordsDecode : Prop :=
  ((List.range 256).filter fun n => legalWord (BitVec.ofNat 8 n)).length = 48 ∧
  decodeRom 0b00000000#8 = .idle ∧ decodeRom 0b00010010#8 = .coef 2 ∧ decodeRom 0b00100011#8 = .coefg 3 ∧
  decodeRom 0b00110011#8 = .coefz 3 ∧ decodeRom 0b01000111#8 = .decim 7 ∧ decodeRom 0b01010110#8 = .msc 6 ∧
  decodeRom 0b01101000#8 = .mscd 8 ∧ decodeRom 0b01110010#8 = .mscq 2 ∧ decodeRom 0b10000000#8 = .pend ∧
  decodeRom 0b10010000#8 = .min1 ∧ decodeRom 0b10100000#8 = .min2 ∧ decodeRom 0b10110000#8 = .reserved 0xB0#8 ∧
  decodeEvent 0x0#4 = some .reset ∧ decodeEvent 0x1#4 = some .sample ∧ decodeEvent 0x2#4 = some .rawsec ∧
  decodeEvent 0x3#4 = some .rawmin ∧ decodeEvent 0x4#4 = some .tsec ∧ decodeEvent 0x5#4 = some .rsec ∧
  decodeEvent 0x6#4 = some .wdreset ∧ decodeEvent 0x7#4 = none

/-- 30_encoding.md R107, R110: the assembler text of an operation assembles to its word, and no text assembles to a
reserved word. -/
def Obligations.AssemblerAgreesWithTheEncoding : Prop :=
  (∀ (i : Instr) (text : List String), i.wellFormed = true → asmText i = some text →
    ∃ w, assemble text = some w ∧ encode i = .rom w) ∧
  (∀ (text : List String) (w : BitVec 8), assemble text = some w → legalWord w = true) ∧
  assemble ["DECIM", "HR1"] = some 0x43#8 ∧ assemble ["NOP"] = some 0x00#8

/-! The cycle, the fetch and the model faults. -/

/-- 70_reset_and_hazards.md R280, R285: a cycle runs the host reset if it is asserted, else the sample step on a strobe, else
nothing, and consumes the cycle's inputs. -/
def Obligations.CycleRunsItsOperation : Prop :=
  ∀ s : State,
    (s.pins.reset = true → step s = finishCycle (exec .reset s)) ∧
    (s.pins.reset = false → s.pins.strobe = true → step s = finishCycle (exec .sample s)) ∧
    (s.pins.reset = false → s.pins.strobe = false → step s = .next s.nextCycle)

/-- 43_bcd_decoder.md R200, 70_reset_and_hazards.md R285: a sample step in which only the receiver second ends runs the
decoded ROM word at PROG[rsec], between the count of an erasure and the advance of rsec. -/
def Obligations.StepRunsTheFetchedWord : Prop :=
  ∀ (s u v : State) (w : BitVec 8), s.pins.reset = false → s.pins.strobe = true → s.fault = none →
    signalStep s = .ok u → (advanceOf u.clock).wrapped = false → s.msync = true →
    (advanceOf u.clock).crossed s.epoch.tsecStart = false →
    (advanceOf u.clock).crossed s.epoch.rsecStart = true →
    s.prog[s.dec.rsec]? = some w →
    exec (decodeRom w) (countErasure (clockStep u)) = .next v → v.fault = none →
    step s = .next (tunerFailure s.pins.tuneFail (rsecAdvance v)).nextCycle

/-- 70_reset_and_hazards.md R285, R291: the order of a sample step: the signal part, the clock advance, then RAWSEC on a wrap,
TSEC and RSEC on a crossing of their offset as it stood at the start, with MSYNC held then and still, then the tuning
failure. -/
def Obligations.SampleStepOrder : Prop :=
  ∀ s u v w z : State, s.pins.reset = false → s.pins.strobe = true → s.fault = none → signalStep s = .ok u →
    (if (advanceOf u.clock).wrapped then exec .rawsec (clockStep u) = .next v ∧ v.fault = none
      else v = clockStep u) →
    (if s.msync && v.msync && (advanceOf u.clock).crossed s.epoch.tsecStart then
      exec .tsec v = .next w ∧ w.fault = none else w = v) →
    (if s.msync && w.msync && (advanceOf u.clock).crossed s.epoch.rsecStart then
      exec .rsec w = .next z ∧ z.fault = none else z = w) →
    step s = .next (tunerFailure s.pins.tuneFail z).nextCycle

/-- 43_bcd_decoder.md R200, R220: RSEC counts an erasure, fetches PROG[rsec], executes it and advances. -/
def Obligations.ReceiverSecondRunsTheFetchedWord : Prop :=
  ∀ (s t : State) (w : BitVec 8), s.fault = none → s.prog[s.dec.rsec]? = some w →
    exec (decodeRom w) (countErasure s) = .next t → t.fault = none → exec .rsec s = .next (rsecAdvance t)

/-- 30_encoding.md R108: which words are reserved, that PROG holds none, the fault a reserved word takes, and that the
fault stops the model for good. -/
def Obligations.ReservedWordFaults : Prop :=
  (∀ w : BitVec 8, legalWord w = false ↔ decodeRom w = .reserved w) ∧
  (∀ i, i < 61 → ∃ w, progRom[i]? = some w ∧ legalWord w = true) ∧
  (∀ (s : State) (w : BitVec 8), legalWord w = false →
    exec (decodeRom w) s = .next (takeFault s (.reservedWord s.dec.rsec))) ∧
  (∀ (s : State) (w : BitVec 8), s.prog[s.dec.rsec]? = some w → legalWord w = false →
    exec .rsec s = .next (takeFault s (.reservedWord s.dec.rsec))) ∧
  (∀ (s : State) (n : Nat), s.fault = some (.reservedWord n) → s.pins.reset = false → step s = .next s.nextCycle)

/-- 60_exceptions.md R260, 70_reset_and_hazards.md R285: a faulting step commits no write, its state is the one before it plus
the fault; a faulted core then changes only by a host reset, which clears the fault. -/
def Obligations.ModelFaultsStopTheCore : Prop :=
  (∀ (s t : State) (f : Fault), s.fault = none → step s = .next t → t.fault = some f →
    t = (takeFault s f).nextCycle) ∧
  (∀ (s t : State) (f : Fault), s.fault = some f → step s = .next t →
    (s.pins.reset = false ∧ t = s.nextCycle) ∨ (s.pins.reset = true ∧ t.fault = none))

/-- 40_demodulator_bank.md R131 with the table of 93_implementation_defined.md: a sample, or a value that R122 to R128
compute from it, that is not finite takes the fault NonFinite. That a comb bin, a scan sum, a pulse measure, the
frequency, a probability or a likelihood that is not finite takes it too is notes/assumptions/6.md. -/
def Obligations.NonFiniteValuesFault : Prop :=
  (∀ s : State, s.fault = none → s.pins.x.isFinite = false → exec .sample s = .next (takeFault s .nonFinite)) ∧
  (∀ s : State, s.fault = none → s.bank.InRange → s.clock.rphase < 8000 →
    ¬s.bank.FiniteAt s.cfg s.pins.x ∨ s.combNext.isFinite = false ∨
      ((s.msync = false ∨ s.acq.win = true) ∧
        ∃ st, ((s.acq.ms.get st).esum.add (s.bank.em s.cfg s.pins.x st)).isFinite = false) →
    exec .sample s = .next (takeFault s .nonFinite)) ∧
  (∀ s u : State, epochUpdate (s.withClock { s.clock with mphase := (s.clock.mphase + 1) % 60 }) = .ok u →
    u.ssync = true → 2 ^ u.epoch.k ≤ u.epoch.avgcnt + 1 →
    (freqNext (driftOf u.epoch) u.epoch.k u.clock.freq).isFinite = false →
    exec .rawsec s = .next (takeFault s .nonFinite)) ∧
  (∀ (s : State) (pair : ByStation ChanRec), s.acq.chan[s.acq.pchan]? = some pair →
    ¬(s.acq.ms.a.Measurable ∧ s.acq.ms.b.Measurable) →
    exec .pend s = .next (takeFault s .nonFinite) ∧
      (s.msync = false → exec .rawmin s = .next (takeFault s .nonFinite))) ∧
  (∀ (s : State) (b : Nat), b < 7 → (miscNext s b).isFinite = false →
    exec (.msc b) s = .next (takeFault s .nonFinite) ∧ exec (.mscq b) s = .next (takeFault s .nonFinite)) ∧
  (∀ (s : State) (p : Nat) (d : DigitVec), p < 9 → s.dec.digits[p]? = some d →
    ((miscNext s 4).isFinite = false → exec (.mscd p) s = .next (takeFault s .nonFinite)) ∧
    ∀ j, d.like.wf 10 = true → j < radix p → (likeNext s.cfg s.dec.bcd j (d.like.get j)).isFinite = false →
      exec (.decim p) s = .next (takeFault s .nonFinite) ∧ exec (.mscd p) s = .next (takeFault s .nonFinite))

/-- 30_encoding.md R108, 43_bcd_decoder.md R200: with the fixed ROM no step takes the fault ReservedWord. -/
def Obligations.FixedRomNeverTakesReservedWord : Prop :=
  ∀ (s t : State) (n : Nat), s.prog = progRom → s.fault = none → step s = .next t →
    t.fault ≠ some (.reservedWord n)

/-- 20_memory.md R82: from a state whose registers are in range no step forms an index outside its array. -/
def Obligations.NoIndexFaultInRange : Prop :=
  ∀ s t : State, s.InRange → s.fault = none → step s = .next t → t.fault ≠ some .indexRange

/-! Resets. -/

/-- 70_reset_and_hazards.md R280: the host reset completes on a valid configuration, latches it, and leaves every register
at its host-reset value and every array element +0.0. -/
def Obligations.HostResetValues : Prop :=
  ∀ s : State, cfgValid s.pins.cfg = true →
    ∃ t, exec .reset s = .next t ∧ t.cfg = s.pins.cfg ∧ t.prog = s.prog ∧ t.inputs = s.inputs ∧ t.fault = none ∧
      t.status = 0 ∧ t.wd = ⟨0, 0, 0, 0⟩ ∧ t.clock = ⟨0, .zero, .zero, 0⟩ ∧
      t.epoch = { comb := .zeros, hist := ⟨0, 0, 0⟩, tepoch := 0, span := 0, jitcnt := 0, scmp := 0, k := 3,
                  avgcnt := 0, avginc := 0, tepochRef := 0, rsecStart := 0, tsecStart := 0 } ∧
      (t.bank.ph100 = 0 ∧ t.bank.ph1000 = 0 ∧ t.bank.ph1200 = 0 ∧ t.bank.di = 0 ∧ t.bank.ti = 0 ∧ t.bank.mi = 0) ∧
      (t.bank.lpfW = ⟨.zero, .zero, .zero, .zero⟩ ∧ t.bank.bpfW = ⟨.zero, .zero, .zero, .zero⟩) ∧
      (t.bank.dISum = .zero ∧ t.bank.dQSum = .zero) ∧
      (∀ st, t.bank.tISum.get st = .zero ∧ t.bank.tQSum.get st = .zero ∧ t.bank.mISum.get st = .zero ∧
        t.bank.mQSum.get st = .zero) ∧
      (t.acq.chan.length = 5 ∧ ∀ f st, f < 5 → ∃ pair, t.acq.chan[f]? = some pair ∧
        pair.get st = ⟨.zero, .zero, 0, 0, 0⟩) ∧
      t.acq.cherr = [0, 0, 0, 0, 0] ∧ t.acq.pchan = 0 ∧ t.acq.dchan = 0 ∧ t.acq.win = false ∧
      (∀ st, t.acq.ms.get st = ⟨.zero, 0, .zero, 0⟩) ∧
      t.dec.rsec = 0 ∧ t.dec.tsec = 0 ∧ t.dec.misc = 0 ∧ t.dec.errcnt = 0 ∧ t.dec.alarm = 0 ∧
      (t.dec.digits.length = 9 ∧ ∀ p, p < 9 → ∃ d, t.dec.digits[p]? = some d ∧ d.digit = 0 ∧ d.mldigit = 0 ∧
        d.phase = 0 ∧ d.count = 0 ∧ d.locked = false) ∧
      t.out.tune = 0 ∧ t.out.timerecStrobe = false ∧ t.out.tuneErr = false ∧
      t.out.timerec = { year := 0, day := 0, hour := 0, minute := 0, second := 0, ms := 0, dst := 0, lepw := false,
                        dut1 := 0, insync := false, quality := 0, leap := false, sinceSet := 0, station := 0,
                        channel := 0, compare := 0, errcnt := 0, freqPpm := .zero, avgTime := 0, valid := false } ∧
      (∀ (A : ArrName) (i : Nat), (∀ p, A = .like p → p < 9) → i < A.size → memRead t A i = .ok .zero)

/-- 70_reset_and_hazards.md R281 with 00_scope.md R7: a configuration outside a constraint of R7 is refused. -/
def Obligations.HostResetRefusesABadConfiguration : Prop :=
  ∀ (s : State) (c : Config.Cfg), s.pins.cfg = c →
    (c.combTc.lt ⟨0x3FF0000000000000#64⟩ = true ∨ c.likeTc.lt ⟨0x3FF0000000000000#64⟩ = true ∨
      c.miscTc.lt ⟨0x3FF0000000000000#64⟩ = true ∨ c.sthr.lt .zero = true ∨ c.athr.lt .zero = true ∨
      c.dthr.lt .zero = true ∨ c.maxamp.le .zero = true ∨ c.mthr.le .zero = true ∨
      (c.bitPol ≠ 1 ∧ c.bitPol ≠ -1) ∨ 8000 ≤ c.propDelay.a ∨ 8000 ≤ c.propDelay.b) →
    exec .reset s = .refused .configRefused

/-- 60_exceptions.md R266: the watchdog reset completes in every state and leaves each element at the value of the
watchdog-reset columns of 10_state.md R34 to R45. That it keeps the fault register and the tuning-failure report, and the
record's strobe, is notes/assumptions/15.md. -/
def Obligations.WatchdogResetValues : Prop :=
  ∀ s : State, ∃ t, exec .wdreset s = .next t ∧
    t.bank = s.bank ∧ t.clock = { s.clock with facc := .zero, freq := .zero } ∧
    t.epoch = { comb := s.epoch.comb, hist := ⟨0, 0, 0⟩, tepoch := 0, span := 0, jitcnt := 0, scmp := 0, k := 3,
                avgcnt := 0, avginc := 0, tepochRef := 0, rsecStart := 0, tsecStart := 0 } ∧
    (t.acq.chan.length = 5 ∧ ∀ f st, f < 5 → ∃ pair, t.acq.chan[f]? = some pair ∧
      pair.get st = ⟨.zero, .zero, 0, 0, 0⟩) ∧
    t.acq.cherr = [0, 0, 0, 0, 0] ∧ t.acq.pchan = s.acq.pchan ∧ t.acq.dchan = s.acq.dchan ∧ t.acq.win = false ∧
    (∀ st, t.acq.ms.get st = ⟨.zero, 0, .zero, 0⟩) ∧
    t.dec.rsec = 0 ∧ t.dec.tsec = 0 ∧ t.dec.misc = 0 ∧ t.dec.errcnt = 0 ∧ t.dec.alarm = 0 ∧
    (t.dec.digits.length = 9 ∧ ∀ p, p < 9 → ∃ d, t.dec.digits[p]? = some d ∧ d.digit = 0 ∧ d.mldigit = 0 ∧
      d.phase = 0 ∧ d.count = 0 ∧ d.locked = false) ∧
    t.status = 0 ∧ t.wd = ⟨0, 0, 0, 0⟩ ∧ t.out = { s.out with tune := s.acq.pchan } ∧
    t.fault = s.fault ∧ t.cfg = s.cfg ∧ t.prog = s.prog ∧ t.inputs = s.inputs ∧
    (∀ (A : ArrName) (i : Nat), A ≠ .bcd → A ≠ .miscp → (∀ p, A ≠ .like p) → memRead t A i = memRead s A i) ∧
    (∀ i, i < 4 → memRead t .bcd i = .ok .zero) ∧ (∀ i, i < 7 → memRead t .miscp i = .ok .zero) ∧
    (∀ p i, p < 9 → i < 10 → memRead t (.like p) i = .ok .zero)

/-! Invariants. -/

/-- 10_state.md R46: the six invariants hold after every step from a state in which they hold. -/
def Obligations.StepKeepsTheStatedInvariants : Prop :=
  ∀ s t : State, s.StatedInv → step s = .next t → t.StatedInv

/-- 10_state.md R34 to R46, 70_reset_and_hazards.md R280: right after reset the six invariants hold and every register that
StepKeepsTheRanges speaks of is in range. -/
def Obligations.ResetMeetsTheInvariants : Prop :=
  State.reset.StatedInv ∧ State.reset.InRange ∧ State.reset.RealsInRange

/-- 10_state.md R34 to R45, 20_memory.md R82: every step keeps every integer register but the sample counts ms.n in its
range and every array in its canonical form; and with these the real registers that have a range, facc and freq among
them. It leaves out ms.n, to which R38 gives 0..480000: a held sample can take it past 480000, and the model lets it grow
(notes/assumptions/12.md). -/
def Obligations.StepKeepsTheRanges : Prop :=
  ∀ s t : State, s.InRange → step s = .next t → t.InRange ∧ (s.RealsInRange → t.RealsInRange)

/-- 10_state.md R31, 20_memory.md R81, R92: no step writes PROG; only a host reset writes the configuration. -/
def Obligations.RomAndConfigurationAreReadOnly : Prop :=
  ∀ s t : State, step s = .next t → t.prog = s.prog ∧ (s.pins.reset = false → t.cfg = s.cfg)

/-- 44_clock_and_minute.md R247, 60_exceptions.md R266: a step that clears DSYNC is a host reset or holds a watchdog reset, whose
values it leaves. -/
def Obligations.OnlyAResetClearsDsync : Prop :=
  ∀ s t : State, step s = .next t → s.dsync = true → t.dsync = false → s.pins.reset = false →
    t.status = 0 ∧ t.wd = ⟨0, 0, 0, 0⟩ ∧ t.dec = { Dec.atReset with dbuf := t.dec.dbuf } ∧ t.out.tune = t.acq.pchan ∧
      t.clock.freq = .zero ∧ t.epoch.k = 3

/-- 43_bcd_decoder.md R200, R221, 44_clock_and_minute.md R240: without minute sync at its start, a step runs no receiver
second and no transmitter second. Of the decoder it changes one element of dbuf; where the sample clock wraps also the
alarm word, and, at the end of a raw minute, the second numbers where minute sync is acquired, or all of the decoder
but dbuf where a watchdog expires. It writes no time record. -/
def Obligations.NoDecodeWithoutMinuteSync : Prop :=
  ∀ s t : State, s.pins.reset = false → s.msync = false → step s = .next t →
    t.out.timerec = s.out.timerec ∧
    (∀ j, s.dec.dbuf.wf 8000 = true →
      j ≠ (((s.clock.rphase : Int) - s.epoch.rsecStart) % 8000).toNat → t.dec.dbuf.get j = s.dec.dbuf.get j) ∧
    ((advanceOf s.clock).wrapped = false → t.dec = { s.dec with dbuf := t.dec.dbuf } ∧ t.status = s.status) ∧
    ((t.dec = { s.dec with dbuf := t.dec.dbuf, alarm := t.dec.alarm, rsec := t.dec.rsec, tsec := t.dec.tsec } ∧
        (t.msync = false → t.dec.rsec = s.dec.rsec ∧ t.dec.tsec = s.dec.tsec) ∧
        (t.msync = true → s.clock.mphase = 59) ∧
        (∀ b ∈ [2, 3, 4, 7], t.flag b = s.flag b)) ∨
      (s.clock.mphase = 59 ∧ t.dec = { Dec.atReset with dbuf := t.dec.dbuf } ∧ t.status = 0))

/-- 60_exceptions.md R273: a tuning failure is reported in the step that sees it and stays until a host reset. -/
def Obligations.TunerFailureIsSticky : Prop :=
  ∀ s t : State, s.pins.reset = false → step s = .next t →
    (s.out.tuneErr = true → t.out.tuneErr = true) ∧
    (s.pins.strobe = true → s.fault = none → t.fault = none → t.out.tuneErr = (s.out.tuneErr || s.pins.tuneFail))

/-- 10_state.md R44, 70_reset_and_hazards.md R285: a sample step that does not set the record's strobe leaves the record
as it was, and one that sets it writes a valid record. -/
def Obligations.StrobeMarksTheRecord : Prop :=
  ∀ s t : State, s.pins.reset = false → s.pins.strobe = true → s.fault = none → step s = .next t → t.fault = none →
    (t.out.timerecStrobe = false → t.out.timerec = s.out.timerec) ∧
    (t.out.timerecStrobe = true → t.out.timerec.valid = true)

/-! Arrays and arithmetic. -/

/-- 20_memory.md R82, R86: a write changes the element written and no other; an index outside the array faults. -/
def Obligations.ArrayReadAfterWrite : Prop :=
  ∀ (n : Nat) (a : RealArray) (i : Nat) (v : F64), a.wf n = true →
    (i < n → ∃ b, arrWrite n a i v = .ok b ∧ b.wf n = true ∧
      ∀ j, arrRead n b j = if j = i then .ok v else arrRead n a j) ∧
    (n ≤ i → arrWrite n a i v = .error .indexRange ∧ arrRead n a i = .error .indexRange)

/-- 20_memory.md R94: after at most W inputs from all-zero reset, the delay line holds them in order and the sum is their
running sum in the order of the rule. -/
def Obligations.DelayLineSumsItsInputs : Prop :=
  ∀ (n : Nat) (vs : List F64) (buf : RealArray) (sum : F64), vs.length ≤ n →
    boxcarRun n vs .zeros .zero 0 = .ok (buf, sum) →
    buf.wf n = true ∧ (∀ j, buf.get j = vs.getD j .zero) ∧
      sum = vs.foldl (fun acc v => (acc.add v).sub .zero) .zero

/-- 00_scope.md R11: a rounded magnitude is the binary64 magnitude nearest to num/den units of 2^-1074, the even one of
two at the same distance; and the sum, the difference, the product and the quotient of finite values are the exact result
so rounded, a zero result with the sign of IEEE 754. -/
def Obligations.RoundingIsNearestEven : Prop :=
  (∀ num den : Nat, 0 < den → NearestMag num den (F64.roundMag num den)) ∧
  (∀ a b : F64, a.isFinite = true → b.isFinite = true →
    RoundsTo (a.sign && b.sign) (a.toInt + b.toInt) 1 (a.add b) ∧
    RoundsTo (a.sign && !b.sign) (a.toInt - b.toInt) 1 (a.sub b) ∧
    RoundsTo (a.sign != b.sign) (a.toInt * b.toInt) (2 ^ 1074) (a.mul b) ∧
    (b.toInt ≠ 0 →
      RoundsTo (a.sign != b.sign) ((if b.sign then -a.toInt else a.toInt) * 2 ^ 1074) b.units (a.div b)))

/-- 00_scope.md R11: the square root of a finite positive value is the finite value nearest to the real root: no midpoint
with another finite value lies between them. -/
def Obligations.SquareRootIsNearest : Prop :=
  ∀ a b : F64, a.isFinite = true → a.sign = false → b.isFinite = true →
    a.sqrt.isFinite = true ∧ a.sqrt.sign = false ∧
    (a.sqrt.units < b.units → 4 * (a.units * 2 ^ 1074) ≤ (a.sqrt.units + b.units) ^ 2) ∧
    (b.units < a.sqrt.units → (a.sqrt.units + b.units) ^ 2 ≤ 4 * (a.units * 2 ^ 1074))

/-- 00_scope.md R13: argmax is the lowest index that holds the maximum; median3 is the middle value. -/
def Obligations.ArgmaxAndMedian : Prop :=
  (∀ (n : Nat) (a : RealArray), 0 < n → a.wf n = true → (∀ i, i < n → (a.get i).isNaN = false) →
    (a.argmax n).1 < n ∧ (a.argmax n).2 = a.get (a.argmax n).1 ∧
      (∀ i, i < n → (a.get i).le (a.argmax n).2 = true) ∧
      (∀ i, i < (a.argmax n).1 → (a.get i).lt (a.argmax n).2 = true)) ∧
  (∀ a b c : Nat, ∃ lo hi, lo ≤ median3 a b c ∧ median3 a b c ≤ hi ∧ [lo, median3 a b c, hi].Perm [a, b, c])

/-- 40_demodulator_bank.md R122, R123: with identity coefficients a filter passes a finite sample unchanged and shifts its
delay elements. -/
def Obligations.IdentityFilterPassesTheSample : Prop :=
  ∀ (x : F64) (w : Delay4), x.isFinite = true → w.w1.isFinite = true → w.w2.isFinite = true →
    w.w3.isFinite = true → w.w4.isFinite = true →
    ∃ y w0, filterStep Config.identityB Config.identityA w x = .ok (y, ⟨w0, w.w1, w.w2, w.w3⟩) ∧
      y.feq x = true ∧ w0.feq x = true ∧ (x.feq .zero = false → y = x ∧ w0 = x)

/-! The sample step. -/

/-- 40_demodulator_bank.md R120 to R130: one demodulator update whose values are all finite: its outputs, the sums, each
delay line element by element, the filters, the indices and the phases. -/
def Obligations.DemodulatorUpdate : Prop :=
  ∀ (cfg : Config.Cfg) (sel : Sel) (x : F64) (b : Bank), b.InRange → b.FiniteAt cfg x →
    (b.dIBuf.wf 1360 = true ∧ b.dQBuf.wf 1360 = true ∧ ∀ st, (b.tIBuf.get st).wf 40 = true ∧
      (b.tQBuf.get st).wf 40 = true ∧ (b.mIBuf.get st).wf 6400 = true ∧ (b.mQBuf.get st).wf 6400 = true) →
    ∃ o b', demodUpdate cfg sel x b = .ok (o, b') ∧
      o.eData = b.eData cfg x ∧ (∀ st, o.e5.get st = b.e5 cfg x st ∧ o.em.get st = b.em cfg x st) ∧
      o.eSel = b.eSel cfg x sel ∧
      b'.lpfW = ⟨filterIn cfg.lpfA b.lpfW x, b.lpfW.w1, b.lpfW.w2, b.lpfW.w3⟩ ∧
      b'.bpfW = ⟨filterIn cfg.bpfA b.bpfW x, b.bpfW.w1, b.bpfW.w2, b.bpfW.w3⟩ ∧
      b'.dISum = b.dI cfg x ∧ b'.dQSum = b.dQ cfg x ∧
      (∀ j, b'.dIBuf.get j = if j = b.di then (b.lp cfg x).mul (sinAt b.ph100) else b.dIBuf.get j) ∧
      (∀ j, b'.dQBuf.get j = if j = b.di then (b.lp cfg x).mul (sinAt ((b.ph100 + 20) % 80)) else b.dQBuf.get j) ∧
      (∀ st, b'.tISum.get st = b.tI cfg x st ∧ b'.tQSum.get st = b.tQ cfg x st ∧
        b'.mISum.get st = b.mI cfg x st ∧ b'.mQSum.get st = b.mQ cfg x st) ∧
      (∀ st j, (b'.tIBuf.get st).get j = if j = b.ti then (b.bp cfg x).mul (b.sinRef st) else (b.tIBuf.get st).get j) ∧
      (∀ st j, (b'.tQBuf.get st).get j = if j = b.ti then (b.bp cfg x).mul (b.cosRef st) else (b.tQBuf.get st).get j) ∧
      (∀ st j, (b'.mIBuf.get st).get j = if j = b.mi then (b.bp cfg x).mul (b.sinRef st) else (b.mIBuf.get st).get j) ∧
      (∀ st j, (b'.mQBuf.get st).get j = if j = b.mi then (b.bp cfg x).mul (b.cosRef st) else (b.mQBuf.get st).get j) ∧
      b'.di = (b.di + 1) % 1360 ∧ b'.ti = (b.ti + 1) % 40 ∧ b'.mi = (b.mi + 1) % 6400 ∧
      b'.ph100 = (b.ph100 + 1) % 80 ∧ b'.ph1000 = (b.ph1000 + 10) % 80 ∧ b'.ph1200 = (b.ph1200 + 12) % 80

/-- 41_epoch_tracker_fll.md R151, R157: the slip accumulator, the hold and the skip, and which offsets a step crosses. -/
def Obligations.SampleClockAdvance : Prop :=
  ∀ s : State,
    let f := s.clock.facc.add s.clock.freq
    let one : F64 := ⟨0x3FF0000000000000#64⟩
    let minusOne : F64 := ⟨0xBFF0000000000000#64⟩
    let adv := if one.le f then 0 else if f.le minusOne then 2 else 1
    (clockStep s).clock =
      { s.clock with
        rphase := (s.clock.rphase + adv) % 8000
        facc := if one.le f then f.sub one else if f.le minusOne then f.add one else f } ∧
    (clockStep s).withClock s.clock = s ∧
    advanceOf s.clock = ⟨s.clock.rphase, adv, decide (8000 ≤ s.clock.rphase + adv)⟩ ∧
    ∀ o, (advanceOf s.clock).crossed o = true ↔ ∃ j, 1 ≤ j ∧ j ≤ adv ∧ (s.clock.rphase + j) % 8000 = o

/-- 70_reset_and_hazards.md R285 with 43_bcd_decoder.md R219, 42_station_acquisition.md R176, 41_epoch_tracker_fll.md R150 and R151: a sample
step that wraps nothing and crosses no boundary of a held minute. Its values are finite, so it completes. -/
def Obligations.SampleBetweenSeconds : Prop :=
  ∀ s : State, s.InRange → s.fault = none → s.bank.FiniteAt s.cfg s.pins.x → s.combNext.isFinite = true →
    let place := ((s.clock.rphase : Int) - s.epoch.rsecStart) % 8000
    let scan : Option Nat :=
      if s.msync = false then some (s.clock.mphase * 8000 + s.clock.rphase)
      else if s.acq.win then some ((s.dec.rsec * 8000 + place.toNat) % 480000) else none
    (∀ st, scan ≠ none → ((s.acq.ms.get st).esum.add (s.bank.em s.cfg s.pins.x st)).isFinite = true) →
    (advanceOf s.clock).wrapped = false →
    (s.msync = true → (advanceOf s.clock).crossed s.epoch.tsecStart = false ∧
      (advanceOf s.clock).crossed s.epoch.rsecStart = false) →
    ∃ t o, exec .sample s = .next t ∧ demodUpdate s.cfg s.sel s.pins.x s.bank = .ok (o, t.bank) ∧
      memRead t .dbuf place.toNat = .ok (s.bank.eData s.cfg s.pins.x) ∧
      (∀ j, j ≠ place.toNat → memRead t .dbuf j = memRead s .dbuf j) ∧
      memRead t .comb s.clock.rphase = .ok s.combNext ∧
      (∀ j, j ≠ s.clock.rphase → memRead t .comb j = memRead s .comb j) ∧
      (∀ (A : ArrName) (j : Nat), (A = .bcd ∨ A = .miscp ∨ ∃ p, A = .like p) → memRead t A j = memRead s A j) ∧
      (∀ st, t.acq.ms.get st = match scan with
        | none => s.acq.ms.get st
        | some q =>
          let m := s.acq.ms.get st
          let e := s.bank.em s.cfg s.pins.x st
          { emax := if m.emax.lt e then e else m.emax
            pos := if m.emax.lt e then q else m.pos
            esum := m.esum.add e
            n := m.n + 1 }) ∧
      t.clock = (clockStep s).clock ∧
      t.out = { s.out with timerecStrobe := false, tuneErr := s.out.tuneErr || s.pins.tuneFail } ∧
      t = (((((s.withBank t.bank).withClock t.clock).withEpoch { s.epoch with comb := t.epoch.comb }).withAcq
        { s.acq with ms := t.acq.ms }).withDec { s.dec with dbuf := t.dec.dbuf }).withOut t.out

/-! The ROM actions. -/

/-- 43_bcd_decoder.md R202: IDLE has no effect. -/
def Obligations.IdleHasNoEffect : Prop :=
  decodeRom 0x00#8 = .idle ∧ ∀ s : State, exec .idle s = .next s

/-- 43_bcd_decoder.md R203: COEF i stores the bit in bcd[i] and changes nothing else; an erased second stores +0.0. -/
def Obligations.CoefStoresTheBit : Prop :=
  ∀ (s : State) (i : Nat), i < 4 → s.dec.bcd.wf 4 = true →
    decodeRom (0x10#8 ||| BitVec.ofNat 8 i) = .coef i ∧
    ∃ t, exec (.coef i) s = .next t ∧ memRead t .bcd i = .ok s.dataBit ∧
      (s.erased = true → memRead t .bcd i = .ok .zero) ∧
      (∀ (A : ArrName) (j : Nat), ¬(A = .bcd ∧ j = i) → memRead t A j = memRead s A j) ∧
      t = s.withDec { s.dec with bcd := t.dec.bcd }

/-- 43_bcd_decoder.md R204: COEFG i stores the bit in bcd[i] where DSYNC is 1, else +0.0, and changes nothing else. -/
def Obligations.CoefgIsGatedOnDsync : Prop :=
  ∀ (s : State) (i : Nat), i < 4 → s.dec.bcd.wf 4 = true →
    decodeRom (0x20#8 ||| BitVec.ofNat 8 i) = .coefg i ∧
    ∃ t, exec (.coefg i) s = .next t ∧ memRead t .bcd i = .ok (if s.dsync then s.dataBit else .zero) ∧
      (∀ (A : ArrName) (j : Nat), ¬(A = .bcd ∧ j = i) → memRead t A j = memRead s A j) ∧
      t = s.withDec { s.dec with bcd := t.dec.bcd }

/-- 43_bcd_decoder.md R205: COEFZ i stores +0.0 in bcd[i] and changes nothing else. -/
def Obligations.CoefzStoresZero : Prop :=
  ∀ (s : State) (i : Nat), i < 4 → s.dec.bcd.wf 4 = true →
    decodeRom (0x30#8 ||| BitVec.ofNat 8 i) = .coefz i ∧
    ∃ t, exec (.coefz i) s = .next t ∧ memRead t .bcd i = .ok .zero ∧
      (∀ (A : ArrName) (j : Nat), ¬(A = .bcd ∧ j = i) → memRead t A j = memRead s A j) ∧
      t = s.withDec { s.dec with bcd := t.dec.bcd }

/-- 43_bcd_decoder.md R208: the maximum-likelihood digit is the lowest digit of the largest likelihood, and its SNR follows
from the runner-up. -/
def Obligations.MlDigitIsTheLowestMaximum : Prop :=
  ∀ (r : Nat) (like : RealArray), 2 ≤ r → (∀ d, d < r → (like.get d).isNaN = false) →
    let m := mlOf r like
    m.ml < r ∧ m.top = like.get m.ml ∧ (∀ d, d < r → (like.get d).le m.top = true) ∧
      (∀ d, d < m.ml → (like.get d).lt m.top = true) ∧
      ∃ n, n < r ∧ n ≠ m.ml ∧ (∀ d, d < r → d ≠ m.ml → (like.get d).le (like.get n) = true) ∧
        m.snr =
          if m.top.le .zero then .zero
          else if (like.get n).le .zero then ⟨0x403E000000000000#64⟩
          else F64.min ⟨0x403E000000000000#64⟩
            ((⟨0x4034000000000000#64⟩ : F64).mul (Config.log10 (m.top.div (like.get n))))

/-- 43_bcd_decoder.md R207, R209, R210 (and R208 by MlDigitIsTheLowestMaximum): DECIM p smooths the r likelihoods, compares the
ML digit with the clock digit, snaps it after BCMP equal comparisons, and raises DECERR on a phase; it changes nothing
else. -/
def Obligations.DecimDecodesADigit : Prop :=
  ∀ (s : State) (p : Nat) (d : DigitVec), p < 9 → s.dec.digits[p]? = some d → d.like.wf 10 = true →
    let r := radix p
    let cb := fun (j k : Nat) =>
      if j.testBit k then (⟨0x3FF0000000000000#64⟩ : F64) else (⟨0xBFF0000000000000#64⟩ : F64)
    let c := fun k => s.dec.bcd.get k
    let score := fun j => ((((c 0).mul (cb j 0)).add ((c 1).mul (cb j 1))).add ((c 2).mul (cb j 2))).add
      ((c 3).mul (cb j 3))
    let new := fun j => (d.like.get j).add (((score j).sub (d.like.get j)).div s.cfg.likeTc)
    (∀ j, j < r → (new j).isFinite = true) →
    decodeRom (0x40#8 ||| BitVec.ofNat 8 p) = .decim p ∧
    ∃ t v, exec (.decim p) s = .next t ∧ t.dec.digits[p]? = some v ∧
      (∀ j, v.like.get j = if j < r then new j else d.like.get j) ∧
      (let m := mlOf r v.like
       let ph := (((m.ml : Int) - d.digit) % r).toNat
       let count := if ph = d.phase then min (d.count + 1) 5 else 1
       let snap := decide (5 ≤ count) && s.cfg.bthr.le m.top && s.cfg.dgsnr.le m.snr
       v.mldigit = m.ml ∧ v.count = count ∧ v.digit = (if snap then m.ml else d.digit) ∧
         v.phase = (if snap then 0 else ph) ∧ v.locked = snap ∧
         (∀ b, t.flag b = (s.flag b || (b == 7 && snap))) ∧
         (∀ b, t.dec.alarm.getLsbD b = (s.dec.alarm.getLsbD b || (b == 0 && ph != 0)))) ∧
      (∀ q, q ≠ p → t.dec.digits[q]? = s.dec.digits[q]?) ∧
      (∀ (A : ArrName) (j : Nat), A ≠ .like p → memRead t A j = memRead s A j) ∧
      t = (s.withDec { s.dec with digits := t.dec.digits, alarm := t.dec.alarm }).withStatus t.status

/-- 43_bcd_decoder.md R211, R212: MSC b smooths the probability of misc bit b with the second's bit and sets it, clears it
or raises SYMERR; it changes nothing else. -/
def Obligations.MscDecidesAMiscBit : Prop :=
  ∀ (s : State) (b : Nat), b < 7 → s.dec.miscp.wf 7 = true →
    let new := (s.dec.miscp.get b).add ((s.dataBit.sub (s.dec.miscp.get b)).div s.cfg.miscTc)
    let set := s.cfg.mthr.lt new
    let clear := new.lt s.cfg.mthr.neg
    new.isFinite = true →
    decodeRom (0x50#8 ||| BitVec.ofNat 8 b) = .msc b ∧ decodeRom 0x56#8 = .msc bitLepw ∧
    ∃ t, exec (.msc b) s = .next t ∧ memRead t .miscp b = .ok new ∧
      (∀ (A : ArrName) (j : Nat), ¬(A = .miscp ∧ j = b) → memRead t A j = memRead s A j) ∧
      (∀ j, t.miscBit j = if j = b then (if set then true else if clear then false else s.miscBit b) else s.miscBit j) ∧
      (∀ j, t.dec.alarm.getLsbD j = (s.dec.alarm.getLsbD j || (j == 4 && !set && !clear))) ∧
      t = s.withDec { s.dec with miscp := t.dec.miscp, misc := t.dec.misc, alarm := t.dec.alarm }

/-- 43_bcd_decoder.md R213: MSCD p is DECIM p, then the update of DST1; it changes nothing else. -/
def Obligations.MscdDecodesThenUpdatesDst1 : Prop :=
  ∀ (s : State) (p : Nat) (d : DigitVec), p < 9 → s.dec.digits[p]? = some d →
    (∀ j, j < radix p → (likeNext s.cfg s.dec.bcd j (d.like.get j)).isFinite = true) →
    d.like.wf 10 = true → (miscNext s 4).isFinite = true →
    decodeRom (0x60#8 ||| BitVec.ofNat 8 p) = .mscd p ∧
    ∃ u t, exec (.decim p) s = .next u ∧ u.fault = s.fault ∧ exec (.msc 4) u = .next t ∧ t.fault = s.fault ∧
      exec (.mscd p) s = .next t ∧
      (∀ (A : ArrName) (j : Nat), A ≠ .like p → A ≠ .miscp → memRead t A j = memRead s A j) ∧
      t = (s.withDec { s.dec with digits := t.dec.digits, miscp := t.dec.miscp, misc := t.dec.misc,
                                  alarm := t.dec.alarm }).withStatus t.status

/-- 43_bcd_decoder.md R214 with 42_station_acquisition.md R184, R185: MSCQ b updates misc bit b, then resets both scans, opens
the probe window and tunes to the probe channel; it changes nothing else. -/
def Obligations.MscqOpensTheProbeWindow : Prop :=
  ∀ (s : State) (b : Nat), b < 7 → (miscNext s b).isFinite = true →
    decodeRom (0x70#8 ||| BitVec.ofNat 8 b) = .mscq b ∧
    ∃ u t, exec (.msc b) s = .next u ∧ u.fault = s.fault ∧ exec (.mscq b) s = .next t ∧
      t.acq = { s.acq with ms := ⟨⟨.zero, 0, .zero, 0⟩, ⟨.zero, 0, .zero, 0⟩⟩, win := true } ∧
      t.out = { s.out with tune := s.acq.pchan } ∧ t = (u.withAcq t.acq).withOut t.out

/-- 43_bcd_decoder.md R217 with 42_station_acquisition.md R186, R187, R191, R192: PEND on a probe channel below 4 closes the window,
scores both stations of the probe channel, counts its errors, rotates the probe and retunes; it changes nothing else. -/
def Obligations.PendRotatesTheProbe : Prop :=
  ∀ (s : State) (pair : ByStation ChanRec) (n : Nat), s.acq.pchan < 4 → s.acq.chan[s.acq.pchan]? = some pair →
    s.acq.cherr[s.acq.pchan]? = some n → s.acq.ms.a.Measurable → s.acq.ms.b.Measurable →
    decodeRom 0x80#8 = .pend ∧
    ∃ t, exec .pend s = .next t ∧
      t.acq.chan[s.acq.pchan]? = some
        ⟨pair.a.scored s.cfg s.acq.ms.a (pair.a.count - 1), pair.b.scored s.cfg s.acq.ms.b (pair.b.count - 1)⟩ ∧
      (∀ f, f ≠ s.acq.pchan → t.acq.chan[f]? = s.acq.chan[f]? ∧ t.acq.cherr[f]? = s.acq.cherr[f]?) ∧
      t.acq.cherr[s.acq.pchan]? = some
        (if pair.a.passes s.cfg s.acq.ms.a || pair.b.passes s.cfg s.acq.ms.b then 0 else min (n + 1) 255) ∧
      t.acq = { s.acq with chan := t.acq.chan, cherr := t.acq.cherr, win := false, pchan := s.acq.pchan + 1 } ∧
      t.out = { s.out with tune := if s.msync then s.acq.dchan else s.acq.pchan + 1 } ∧
      (∀ (A : ArrName) (j : Nat), memRead t A j = memRead s A j) ∧ t = (s.withAcq t.acq).withOut t.out

/-- 42_station_acquisition.md R186 to R192: PEND on probe channel 4 scores and counts errors as on every other,
and selects: the channel of the highest count, on ties the highest frequency and then station A, or the loss of all
stations where every count is 0. -/
def Obligations.PendSelectsAtTheEndOfARotation : Prop :=
  ∀ (s : State) (pair : ByStation ChanRec) (n : Nat), s.acq.pchan = 4 → s.acq.chan.length = 5 →
    s.acq.chan[4]? = some pair → s.acq.cherr[4]? = some n → s.acq.ms.a.Measurable → s.acq.ms.b.Measurable →
    ∃ (t : State) (f : Nat) (st : Station), exec .pend s = .next t ∧
      t.acq.chan[4]? = some
        ⟨pair.a.scored s.cfg s.acq.ms.a (pair.a.count - 1), pair.b.scored s.cfg s.acq.ms.b (pair.b.count - 1)⟩ ∧
      (∀ g, g ≠ 4 → t.acq.chan[g]? = s.acq.chan[g]? ∧ t.acq.cherr[g]? = s.acq.cherr[g]?) ∧
      t.acq.cherr[4]? = some
        (if pair.a.passes s.cfg s.acq.ms.a || pair.b.passes s.cfg s.acq.ms.b then 0 else min (n + 1) 255) ∧
      t.acq.pchan = 0 ∧ t.acq.win = false ∧
      f < 5 ∧ (∀ g sg, g < 5 → t.chanCount g sg ≤ t.chanCount f st) ∧
      (∀ g sg, g < 5 → t.chanCount g sg = t.chanCount f st →
        g < f ∨ (g = f ∧ (sg = st ∨ (st = .a ∧ sg = .b)))) ∧
      (t.chanCount f st = 0 →
        t.sel = .none ∧ t.msync = false ∧ t.ssync = false ∧
        t.acq = { s.acq with chan := t.acq.chan, cherr := t.acq.cherr, win := false, pchan := 0,
                             ms := ⟨⟨.zero, 0, .zero, 0⟩, ⟨.zero, 0, .zero, 0⟩⟩ } ∧
        t.epoch = s.epoch ∧ t.out = { s.out with tune := 0 } ∧
        (∀ b, b ≠ 0 → b ≠ 1 → b ≠ 5 → b ≠ 6 → t.flag b = s.flag b)) ∧
      (t.chanCount f st ≠ 0 →
        t.sel = (match st with | .a => .a | .b => .b) ∧
        t.acq = { s.acq with chan := t.acq.chan, cherr := t.acq.cherr, win := false, pchan := 0, dchan := f } ∧
        t.epoch = { s.epoch with
          tsecStart := if f = s.acq.dchan ∧ s.sel.station = some st then s.epoch.tsecStart
            else (((s.epoch.rsecStart : Int) - s.cfg.propDelay.get st) % 8000).toNat } ∧
        t.out = { s.out with tune := if s.msync then f else 0 } ∧
        (∀ b, b ≠ 5 → b ≠ 6 → t.flag b = s.flag b)) ∧
      (∀ (A : ArrName) (j : Nat), memRead t A j = memRead s A j) ∧
      t = (((s.withAcq t.acq).withEpoch t.epoch).withOut t.out).withStatus t.status

/-- 43_bcd_decoder.md R215: MIN1 does nothing with LEAP set, and runs the minute end without it. -/
def Obligations.Min1EndsTheMinute : Prop :=
  ∀ s : State, s.dec.digits.length = 9 → s.acq.chan.length = 5 → s.acq.dchan < 5 → s.SelLegal →
    decodeRom 0x90#8 = .min1 ∧ (s.leap = true → exec .min1 s = .next s) ∧
    (s.leap = false → ∃ t, exec .min1 s = .next t ∧ MinuteEnded s t ∧ t.leap = false ∧
      ∀ (A : ArrName) (j : Nat), memRead t A j = memRead s A j)

/-- 43_bcd_decoder.md R218: MIN2 runs the minute end, then clears LEAP. -/
def Obligations.Min2EndsTheLeapMinute : Prop :=
  ∀ s : State, s.dec.digits.length = 9 → s.acq.chan.length = 5 → s.acq.dchan < 5 → s.SelLegal →
    decodeRom 0xA0#8 = .min2 ∧
    ∃ t, exec .min2 s = .next t ∧ MinuteEnded s t ∧ t.leap = false ∧
      ∀ (A : ArrName) (j : Nat), memRead t A j = memRead s A j

/-! The receiver second. -/

/-- 43_bcd_decoder.md R200: the measures of a second: the maximum, the minimum, the half-maximum width and the SNR of
dbuf. -/
def Obligations.MeasuresOfASecond : Prop :=
  ∀ s : State, s.dec.dbuf.wf 8000 = true → (∀ j, j < 8000 → (s.dec.dbuf.get j).isNaN = false) →
    (∃ j, j < 8000 ∧ s.emax = s.dec.dbuf.get j) ∧ (∀ j, j < 8000 → (s.dec.dbuf.get j).le s.emax = true) ∧
    (∃ j, j < 8000 ∧ s.emin = s.dec.dbuf.get j) ∧ (∀ j, j < 8000 → s.emin.le (s.dec.dbuf.get j) = true) ∧
    s.pulseLen = (if F64.zero.lt s.emax then
      ((List.range 8000).filter fun j => (s.emax.div ⟨0x4000000000000000#64⟩).le (s.dec.dbuf.get j)).length else 0) ∧
    s.datsnr = (if s.emax.feq .zero then .zero else if s.emin.feq .zero then .inf
      else (⟨0x4034000000000000#64⟩ : F64).mul (Config.log10 (s.emax.div s.emin)))

/-- 43_bcd_decoder.md R201: the bit of a second, and the count and alarm of an erasure, which changes nothing else. -/
def Obligations.BitOfASecond : Prop :=
  ∀ s : State,
    let erasure := s.emax.lt s.cfg.dthr || s.datsnr.lt s.cfg.dsnr || decide (s.pulseLen < 1360)
    let n := min (s.dec.errcnt + 1) 255
    let real := fun z : Int => F64.ofInt z
    let m : F64 :=
      if s.pulseLen < 1600 then real 1
      else if s.pulseLen < 4000 then (real 1).sub ((real (s.pulseLen - 1600)).div (real 2400))
      else if s.pulseLen < 6400 then (real (-(s.pulseLen - 4000))).div (real 2400)
      else real (-1)
    (erasure = true → s.dataBit = .zero ∧
      (countErasure s).dec.errcnt = n ∧
      (∀ b, (countErasure s).dec.alarm.getLsbD b = (s.dec.alarm.getLsbD b || (b == 8 && decide (30 < n)))) ∧
      countErasure s = s.withDec { s.dec with errcnt := n, alarm := (countErasure s).dec.alarm }) ∧
    (erasure = false → s.dataBit = ((real s.cfg.bitPol).mul s.cfg.maxamp).mul m ∧ countErasure s = s)

/-- 43_bcd_decoder.md R216: rsec advances by one, from 59 to 60 where LEAP is set and else to 0, from 60 to 0; it reads
LEAP as the action of the second left it. -/
def Obligations.ReceiverSecondAdvances : Prop :=
  ∀ s t : State, s.fault = none → exec .rsec s = .next t → t.fault = none →
    t.dec.rsec = if s.dec.rsec = 59 then (if t.leap then 60 else 0) else if s.dec.rsec = 60 then 0 else s.dec.rsec + 1

/-- 43_bcd_decoder.md R200, R202, R216: RSEC completes on an IDLE word: it counts an erasure, advances rsec, and changes
nothing else. -/
def Obligations.ReceiverSecondOnIdle : Prop :=
  ∀ s : State, s.prog[s.dec.rsec]? = some 0x00#8 →
    ∃ t, exec .rsec s = .next t ∧
      t.dec = { (countErasure s).dec with
        rsec := if s.dec.rsec = 59 then (if s.leap then 60 else 0) else if s.dec.rsec = 60 then 0 else s.dec.rsec + 1 } ∧
      (∀ (A : ArrName) (j : Nat), memRead t A j = memRead s A j) ∧ t = s.withDec t.dec

/-! The raw second and the raw minute. -/

/-- 41_epoch_tracker_fll.md R152, R153, R158, 60_exceptions.md R264: a raw second with no signal or no station, which ends no
interval and no raw minute. -/
def Obligations.RawSecondWithoutSignal : Prop :=
  ∀ s : State, s.clock.mphase ≠ 59 → s.epoch.avgcnt + 1 < 2 ^ s.epoch.k →
    (s.epoch.comb.argmax 8000).2.lt s.cfg.sthr = true ∨ s.sel = .none →
    let h : Hist := ⟨s.epoch.hist.h1, s.epoch.hist.h2, (s.epoch.comb.argmax 8000).1⟩
    ∃ t, exec .rawsec s = .next t ∧
      t.clock = { s.clock with mphase := (s.clock.mphase + 1) % 60 } ∧
      t.epoch = { s.epoch with
        hist := h
        span := max (max h.h0 h.h1) h.h2 - min (min h.h0 h.h1) h.h2
        jitcnt := 0
        scmp := 0
        avgcnt := s.epoch.avgcnt + 1 } ∧
      (∀ b, t.flag b = (s.flag b && b != 1)) ∧
      (∀ b, t.dec.alarm.getLsbD b = (s.dec.alarm.getLsbD b || b == 12)) ∧
      (∀ (A : ArrName) (j : Nat), memRead t A j = memRead s A j) ∧
      t = (((s.withClock t.clock).withEpoch t.epoch).withStatus t.status).withDec { s.dec with alarm := t.dec.alarm }

/-- 41_epoch_tracker_fll.md R152 to R156, R158, 60_exceptions.md R264: a raw second with signal and a station, which ends no
interval and no raw minute: the median, its acceptance, the run count, second sync and the latched offsets. -/
def Obligations.RawSecondTracksTheEpoch : Prop :=
  ∀ (s : State) (st : Station), s.clock.mphase ≠ 59 → s.epoch.avgcnt + 1 < 2 ^ s.epoch.k →
    (s.epoch.comb.argmax 8000).2.lt s.cfg.sthr = false → s.sel.station = some st →
    let h : Hist := ⟨s.epoch.hist.h1, s.epoch.hist.h2, (s.epoch.comb.argmax 8000).1⟩
    let med := median3 h.h0 h.h1 h.h2
    let accepted := decide (cdist 8000 med s.epoch.tepoch ≤ 1) || decide (2 ^ s.epoch.k < s.epoch.jitcnt)
    let run := if accepted then (if med = s.epoch.tepoch then min (s.epoch.scmp + 1) 10 else 1) else 0
    let latch := accepted && decide (10 ≤ run)
    let start := (((med : Int) - 39) % 8000).toNat
    ∃ t, exec .rawsec s = .next t ∧
      t.clock = { s.clock with mphase := (s.clock.mphase + 1) % 60 } ∧
      t.epoch = { s.epoch with
        hist := h
        span := max (max h.h0 h.h1) h.h2 - min (min h.h0 h.h1) h.h2
        tepoch := if accepted then med else s.epoch.tepoch
        jitcnt := if accepted then 0 else min (s.epoch.jitcnt + 1) 255
        scmp := run
        avgcnt := s.epoch.avgcnt + 1
        rsecStart := if latch then start else s.epoch.rsecStart
        tsecStart := if latch then (((start : Int) - s.cfg.propDelay.get st) % 8000).toNat else s.epoch.tsecStart } ∧
      (∀ b, t.flag b = (s.flag b || (b == 1 && latch))) ∧
      (∀ b, t.dec.alarm.getLsbD b = (s.dec.alarm.getLsbD b || (b == 12 && !(t.ssync && s.msync)))) ∧
      (∀ (A : ArrName) (j : Nat), memRead t A j = memRead s A j) ∧
      t = (((s.withClock t.clock).withEpoch t.epoch).withStatus t.status).withDec { s.dec with alarm := t.dec.alarm }

/-- 41_epoch_tracker_fll.md R158 to R161: the interval counter, and at the end of an interval the drift, the frequency and the
doubling. -/
def Obligations.IntervalEndUpdatesTheFll : Prop :=
  ∀ s : State,
    (s.epoch.avgcnt + 1 < 2 ^ s.epoch.k →
      intervalStep s = .ok (s.withEpoch { s.epoch with avgcnt := s.epoch.avgcnt + 1 })) ∧
    (2 ^ s.epoch.k ≤ s.epoch.avgcnt + 1 →
      let drift : Int := ((s.epoch.tepoch : Int) - s.epoch.tepochRef + 4000) % 8000 - 4000
      let y := (F64.ofInt drift).div (F64.ofInt (2 ^ s.epoch.k * 8000))
      let f := F64.clamp (s.clock.freq.add (y.mul ((F64.ofInt (2 ^ s.epoch.k)).div (F64.ofInt 1024))))
        ⟨0xBF20624DD2F1A9FC#64⟩ ⟨0x3F20624DD2F1A9FC#64⟩
      let quiet := if s.ssync && decide (drift.natAbs ≤ 1) then min (s.epoch.avginc + 1) 4 else 0
      let double := decide (4 ≤ quiet) && decide (s.epoch.k < 7)
      (s.ssync = true → f.isFinite = true) →
      intervalStep s = .ok
        ((s.withClock { s.clock with freq := if s.ssync then f else s.clock.freq }).withEpoch
          { s.epoch with
            avgcnt := 0
            tepochRef := s.epoch.tepoch
            k := if double then s.epoch.k + 1 else s.epoch.k
            avginc := if double then 0 else quiet }))

/-- 41_epoch_tracker_fll.md R152: the order of a raw second, and that the raw minute runs inside it exactly where mphase
wraps. -/
def Obligations.RawSecondOrder : Prop :=
  ∀ s u v t : State, s.fault = none →
    epochUpdate (s.withClock { s.clock with mphase := (s.clock.mphase + 1) % 60 }) = .ok u → intervalStep u = .ok v →
    (s.clock.mphase ≠ 59 → exec .rawsec s = .next (syncCheck v)) ∧
    (s.clock.mphase = 59 → exec .rawmin (syncCheck v) = .next t → t.fault = none → exec .rawsec s = .next t)

/-- 42_station_acquisition.md R175, 60_exceptions.md R265, R266: a raw minute with minute sync held counts the watchdogs and changes
nothing else, unless a limit is exceeded: then it is the watchdog reset. -/
def Obligations.RawMinuteCountsTheWatchdogs : Prop :=
  ∀ s : State, s.msync = true →
    let w : Watchdog :=
      { wAcq := 0
        wSs := if s.ssync then 0 else s.wd.wSs + 1
        wDs := if s.dsync then 0 else s.wd.wDs + 1
        wAbs := s.wd.wAbs + 1 }
    (w.wSs ≤ 15 ∧ w.wDs ≤ 30 ∧ w.wAbs ≤ 5760 → exec .rawmin s = .next (s.withWd w)) ∧
    (¬(w.wSs ≤ 15 ∧ w.wDs ≤ 30 ∧ w.wAbs ≤ 5760) → exec .rawmin s = exec .wdreset s)

/-- 42_station_acquisition.md R175, R180 to R184, 60_exceptions.md R263, R265, R266: a raw minute of acquisition: the scores, the
winner, its acceptance or the probe advance, the scan reset, the watchdogs and the alarm ageing. Where a watchdog limit
is exceeded it is the watchdog reset, on the channels the acquisition left. -/
def Obligations.RawMinuteAcquires : Prop :=
  ∀ (s : State) (pair : ByStation ChanRec), s.msync = false → s.acq.chan[s.acq.pchan]? = some pair →
    s.acq.ms.a.Measurable → s.acq.ms.b.Measurable →
    let a := pair.a.scored s.cfg s.acq.ms.a 0
    let b := pair.b.scored s.cfg s.acq.ms.b 0
    let win : Option Station :=
      if 3 ≤ a.count ∧ b.count ≤ a.count then some .a else if 3 ≤ b.count then some .b else none
    let stalled := win = none ∧ a.count = 0 ∧ b.count = 0
    let pchan := if stalled then (s.acq.pchan + 1) % 5 else s.acq.pchan
    let dchan := if win = none then s.acq.dchan else s.acq.pchan
    let wd : Watchdog :=
      { wAcq := if win = none then s.wd.wAcq + 1 else 0
        wSs := if s.ssync then 0 else s.wd.wSs + 1
        wDs := if s.dsync then 0 else s.wd.wDs + 1
        wAbs := s.wd.wAbs + 1 }
    let within := wd.wAcq ≤ 5 ∧ wd.wSs ≤ 15 ∧ wd.wDs ≤ 30 ∧ wd.wAbs ≤ 5760
    (within → ∃ t, exec .rawmin s = .next t ∧ t.acq.chan[s.acq.pchan]? = some ⟨a, b⟩ ∧
      (∀ f, f ≠ s.acq.pchan → t.acq.chan[f]? = s.acq.chan[f]?) ∧
      t.acq = { s.acq with
        chan := t.acq.chan
        ms := ⟨⟨.zero, 0, .zero, 0⟩, ⟨.zero, 0, .zero, 0⟩⟩
        pchan := pchan
        dchan := dchan } ∧
      t.wd = wd ∧ t.dec.alarm = (s.dec.alarm &&& ~~~0x8888#16) <<< 1 ∧
      t.msync = decide (win ≠ none) ∧ (∀ f, f ≠ 0 → f ≠ 5 → f ≠ 6 → t.flag f = s.flag f) ∧
      t.out = { s.out with tune := if stalled then pchan else if win = none then s.out.tune else dchan } ∧
      (win = none → t.sel = s.sel ∧ t.epoch = s.epoch ∧ t.dec = { s.dec with alarm := t.dec.alarm }) ∧
      (∀ w, win = some w →
        let start : Int := (((if w = .a then s.acq.ms.a.pos else s.acq.ms.b.pos : Nat) : Int) - 6399) % 480000
        let tstart : Int := (start - s.cfg.propDelay.get w) % 480000
        let qnow : Int := (s.clock.mphase * 8000 + s.clock.rphase : Nat)
        t.sel = (match w with | .a => .a | .b => .b) ∧
        t.dec = { s.dec with alarm := t.dec.alarm
                             rsec := ((qnow - start) % 480000 / 8000).toNat
                             tsec := ((qnow - tstart) % 480000 / 8000).toNat } ∧
        t.epoch = { s.epoch with rsecStart := (start % 8000).toNat, tsecStart := (tstart % 8000).toNat }) ∧
      (∀ (A : ArrName) (j : Nat), memRead t A j = memRead s A j) ∧
      t = (((((s.withAcq t.acq).withWd t.wd).withDec t.dec).withStatus t.status).withOut t.out).withEpoch t.epoch) ∧
    (¬within → exec .rawmin s = exec .wdreset (s.withAcq { s.acq with pchan := pchan, dchan := dchan }))

/-! The transmitter second. -/

/-- 44_clock_and_minute.md R244: the carry primitive on a digit vector of radix r: the digit, the ML digit and the
likelihoods turn by one, the rest is kept; r carries restore the vector, with exactly one carry-out on the way. -/
def Obligations.CarryTurnsADigit : Prop :=
  (∀ (s : State) (p : Nat) (d : DigitVec), p < 9 → s.dec.digits[p]? = some d →
    ∃ t c, carry p s = .ok (t, c) ∧ t.dec.digits[p]? = some (carryDigit (radix p) d) ∧
      c = decide ((d.digit + 1) % radix p = 0) ∧ (∀ q, q ≠ p → t.dec.digits[q]? = s.dec.digits[q]?) ∧
      t = s.withDec { s.dec with digits := t.dec.digits }) ∧
  (∀ (r : Nat) (d : DigitVec), 0 < r → r ≤ 10 → d.like.wf 10 = true → d.digit < r → d.mldigit < r →
    let v := carryDigit r d
    v.digit = (d.digit + 1) % r ∧ v.mldigit = (d.mldigit + 1) % r ∧ v.phase = d.phase ∧ v.count = d.count ∧
      v.locked = d.locked ∧ v.like.wf 10 = true ∧
      (∀ j, j < r → v.like.get ((j + 1) % r) = d.like.get j) ∧ (∀ j, r ≤ j → v.like.get j = d.like.get j) ∧
      (carryDigit r)^[r] d = d ∧
      ((List.range r).filter fun n => ((carryDigit r)^[n + 1] d).digit == 0).length = 1)

/-- 44_clock_and_minute.md R240 to R245: TSEC completes with nine digits: the new transmitter second, the leap check at
second 59, and the clock advance where it wraps to 0; it changes nothing else. -/
def Obligations.TransmitterSecondAdvances : Prop :=
  ∀ s : State, s.dec.digits.length = 9 →
    let leap := if s.dec.tsec = 59 then s.leap || s.leapSet else s.leap
    let next := if s.dec.tsec = 59 then (if leap then 60 else 0) else if s.dec.tsec = 60 then 0 else s.dec.tsec + 1
    ∃ t, exec .tsec s = .next t ∧ t.dec.tsec = next ∧
      (∀ p, t.dec.digits[p]? = (s.dec.digits[p]?).map fun d =>
        if next = 0 ∧ s.carriesInto p = true then carryDigit (radix p) d else d) ∧
      (∀ b, t.flag b = if b = 4 then leap else s.flag b) ∧
      (∀ (A : ArrName) (j : Nat), (∀ p, A ≠ .like p) → memRead t A j = memRead s A j) ∧
      t = (s.withDec { s.dec with tsec := next, digits := t.dec.digits }).withStatus t.status

/-- 44_clock_and_minute.md R245: with DSYNC held, a clock advance counts the nine clock digits up by one as a mixed-radix
number, modulo the product of the radices. -/
def Obligations.ClockAdvanceCounts : Prop :=
  ∀ s : State, s.dec.digits.length = 9 → s.DigitsInRange → s.dsync = true →
    ∃ t, clockAdvance s = .ok t ∧ t.clockValue = (s.clockValue + 1) % 72000000

/-! The alarm word. -/

/-- 60_exceptions.md R262: raising a class sets its current-minute bit and nothing else; raising it again has no further
effect. -/
def Obligations.RaisingAnAlarm : Prop :=
  ∀ (s : State) (c : Nat), c < 4 →
    (∀ b, (raiseAlarm c s).dec.alarm.getLsbD b = (s.dec.alarm.getLsbD b || b == 4 * c)) ∧
    raiseAlarm c s = s.withDec { s.dec with alarm := (raiseAlarm c s).dec.alarm } ∧
    raiseAlarm c (raiseAlarm c s) = raiseAlarm c s

/-- 60_exceptions.md R263, R272: a class raised now is seen in the quality nibble for this ageing period and three more, and
the fourth ageing clears the word. -/
def Obligations.AlarmMemoryLastsFourMinutes : Prop :=
  (∀ (w : BitVec 16) (c n : Nat), c < 4 → w.getLsbD (4 * c) = true → n < 4 →
    (qualityOf (ageWord^[n] w)).getLsbD c = true) ∧
  (∀ w : BitVec 16, ageWord^[4] w = 0) ∧
  (∀ (w : BitVec 16) (c : Nat), c < 4 → ((qualityOf w).getLsbD c = true ↔ (w.toNat / 16 ^ c) % 16 ≠ 0))
end

