-- ==== Sys2Proof/Laws/State.lean ====
section
/-! SUPPORT. One lemma for each field of State under each update of Machine/State.lean, all true by rfl, and the two laws
of an update written over an update of the same group. -/

namespace Sys2Proof.Machine

section
variable (s : State) (v w : Bank)
@[simp] theorem withBank_bank : (s.withBank v).bank = v := rfl
@[simp] theorem withBank_clock : (s.withBank v).clock = s.clock := rfl
@[simp] theorem withBank_epoch : (s.withBank v).epoch = s.epoch := rfl
@[simp] theorem withBank_acq : (s.withBank v).acq = s.acq := rfl
@[simp] theorem withBank_dec : (s.withBank v).dec = s.dec := rfl
@[simp] theorem withBank_status : (s.withBank v).status = s.status := rfl
@[simp] theorem withBank_wd : (s.withBank v).wd = s.wd := rfl
@[simp] theorem withBank_out : (s.withBank v).out = s.out := rfl
@[simp] theorem withBank_fault : (s.withBank v).fault = s.fault := rfl
@[simp] theorem withBank_cfg : (s.withBank v).cfg = s.cfg := rfl
@[simp] theorem withBank_prog : (s.withBank v).prog = s.prog := rfl
@[simp] theorem withBank_inputs : (s.withBank v).inputs = s.inputs := rfl
@[simp] theorem withBank_withBank : (s.withBank v).withBank w = s.withBank w := rfl
@[simp] theorem withBank_self : s.withBank s.bank = s := rfl
end

section
variable (s : State) (v w : Clock)
@[simp] theorem withClock_bank : (s.withClock v).bank = s.bank := rfl
@[simp] theorem withClock_clock : (s.withClock v).clock = v := rfl
@[simp] theorem withClock_epoch : (s.withClock v).epoch = s.epoch := rfl
@[simp] theorem withClock_acq : (s.withClock v).acq = s.acq := rfl
@[simp] theorem withClock_dec : (s.withClock v).dec = s.dec := rfl
@[simp] theorem withClock_status : (s.withClock v).status = s.status := rfl
@[simp] theorem withClock_wd : (s.withClock v).wd = s.wd := rfl
@[simp] theorem withClock_out : (s.withClock v).out = s.out := rfl
@[simp] theorem withClock_fault : (s.withClock v).fault = s.fault := rfl
@[simp] theorem withClock_cfg : (s.withClock v).cfg = s.cfg := rfl
@[simp] theorem withClock_prog : (s.withClock v).prog = s.prog := rfl
@[simp] theorem withClock_inputs : (s.withClock v).inputs = s.inputs := rfl
@[simp] theorem withClock_withClock : (s.withClock v).withClock w = s.withClock w := rfl
@[simp] theorem withClock_self : s.withClock s.clock = s := rfl
end

section
variable (s : State) (v w : Epoch)
@[simp] theorem withEpoch_bank : (s.withEpoch v).bank = s.bank := rfl
@[simp] theorem withEpoch_clock : (s.withEpoch v).clock = s.clock := rfl
@[simp] theorem withEpoch_epoch : (s.withEpoch v).epoch = v := rfl
@[simp] theorem withEpoch_acq : (s.withEpoch v).acq = s.acq := rfl
@[simp] theorem withEpoch_dec : (s.withEpoch v).dec = s.dec := rfl
@[simp] theorem withEpoch_status : (s.withEpoch v).status = s.status := rfl
@[simp] theorem withEpoch_wd : (s.withEpoch v).wd = s.wd := rfl
@[simp] theorem withEpoch_out : (s.withEpoch v).out = s.out := rfl
@[simp] theorem withEpoch_fault : (s.withEpoch v).fault = s.fault := rfl
@[simp] theorem withEpoch_cfg : (s.withEpoch v).cfg = s.cfg := rfl
@[simp] theorem withEpoch_prog : (s.withEpoch v).prog = s.prog := rfl
@[simp] theorem withEpoch_inputs : (s.withEpoch v).inputs = s.inputs := rfl
@[simp] theorem withEpoch_withEpoch : (s.withEpoch v).withEpoch w = s.withEpoch w := rfl
@[simp] theorem withEpoch_self : s.withEpoch s.epoch = s := rfl
end

section
variable (s : State) (v w : Acq)
@[simp] theorem withAcq_bank : (s.withAcq v).bank = s.bank := rfl
@[simp] theorem withAcq_clock : (s.withAcq v).clock = s.clock := rfl
@[simp] theorem withAcq_epoch : (s.withAcq v).epoch = s.epoch := rfl
@[simp] theorem withAcq_acq : (s.withAcq v).acq = v := rfl
@[simp] theorem withAcq_dec : (s.withAcq v).dec = s.dec := rfl
@[simp] theorem withAcq_status : (s.withAcq v).status = s.status := rfl
@[simp] theorem withAcq_wd : (s.withAcq v).wd = s.wd := rfl
@[simp] theorem withAcq_out : (s.withAcq v).out = s.out := rfl
@[simp] theorem withAcq_fault : (s.withAcq v).fault = s.fault := rfl
@[simp] theorem withAcq_cfg : (s.withAcq v).cfg = s.cfg := rfl
@[simp] theorem withAcq_prog : (s.withAcq v).prog = s.prog := rfl
@[simp] theorem withAcq_inputs : (s.withAcq v).inputs = s.inputs := rfl
@[simp] theorem withAcq_withAcq : (s.withAcq v).withAcq w = s.withAcq w := rfl
@[simp] theorem withAcq_self : s.withAcq s.acq = s := rfl
end

section
variable (s : State) (v w : Dec)
@[simp] theorem withDec_bank : (s.withDec v).bank = s.bank := rfl
@[simp] theorem withDec_clock : (s.withDec v).clock = s.clock := rfl
@[simp] theorem withDec_epoch : (s.withDec v).epoch = s.epoch := rfl
@[simp] theorem withDec_acq : (s.withDec v).acq = s.acq := rfl
@[simp] theorem withDec_dec : (s.withDec v).dec = v := rfl
@[simp] theorem withDec_status : (s.withDec v).status = s.status := rfl
@[simp] theorem withDec_wd : (s.withDec v).wd = s.wd := rfl
@[simp] theorem withDec_out : (s.withDec v).out = s.out := rfl
@[simp] theorem withDec_fault : (s.withDec v).fault = s.fault := rfl
@[simp] theorem withDec_cfg : (s.withDec v).cfg = s.cfg := rfl
@[simp] theorem withDec_prog : (s.withDec v).prog = s.prog := rfl
@[simp] theorem withDec_inputs : (s.withDec v).inputs = s.inputs := rfl
@[simp] theorem withDec_withDec : (s.withDec v).withDec w = s.withDec w := rfl
@[simp] theorem withDec_self : s.withDec s.dec = s := rfl
end

section
variable (s : State) (v w : BitVec 8)
@[simp] theorem withStatus_bank : (s.withStatus v).bank = s.bank := rfl
@[simp] theorem withStatus_clock : (s.withStatus v).clock = s.clock := rfl
@[simp] theorem withStatus_epoch : (s.withStatus v).epoch = s.epoch := rfl
@[simp] theorem withStatus_acq : (s.withStatus v).acq = s.acq := rfl
@[simp] theorem withStatus_dec : (s.withStatus v).dec = s.dec := rfl
@[simp] theorem withStatus_status : (s.withStatus v).status = v := rfl
@[simp] theorem withStatus_wd : (s.withStatus v).wd = s.wd := rfl
@[simp] theorem withStatus_out : (s.withStatus v).out = s.out := rfl
@[simp] theorem withStatus_fault : (s.withStatus v).fault = s.fault := rfl
@[simp] theorem withStatus_cfg : (s.withStatus v).cfg = s.cfg := rfl
@[simp] theorem withStatus_prog : (s.withStatus v).prog = s.prog := rfl
@[simp] theorem withStatus_inputs : (s.withStatus v).inputs = s.inputs := rfl
@[simp] theorem withStatus_withStatus : (s.withStatus v).withStatus w = s.withStatus w := rfl
@[simp] theorem withStatus_self : s.withStatus s.status = s := rfl
end

section
variable (s : State) (v w : Watchdog)
@[simp] theorem withWd_bank : (s.withWd v).bank = s.bank := rfl
@[simp] theorem withWd_clock : (s.withWd v).clock = s.clock := rfl
@[simp] theorem withWd_epoch : (s.withWd v).epoch = s.epoch := rfl
@[simp] theorem withWd_acq : (s.withWd v).acq = s.acq := rfl
@[simp] theorem withWd_dec : (s.withWd v).dec = s.dec := rfl
@[simp] theorem withWd_status : (s.withWd v).status = s.status := rfl
@[simp] theorem withWd_wd : (s.withWd v).wd = v := rfl
@[simp] theorem withWd_out : (s.withWd v).out = s.out := rfl
@[simp] theorem withWd_fault : (s.withWd v).fault = s.fault := rfl
@[simp] theorem withWd_cfg : (s.withWd v).cfg = s.cfg := rfl
@[simp] theorem withWd_prog : (s.withWd v).prog = s.prog := rfl
@[simp] theorem withWd_inputs : (s.withWd v).inputs = s.inputs := rfl
@[simp] theorem withWd_withWd : (s.withWd v).withWd w = s.withWd w := rfl
@[simp] theorem withWd_self : s.withWd s.wd = s := rfl
end

section
variable (s : State) (v w : OutRegs)
@[simp] theorem withOut_bank : (s.withOut v).bank = s.bank := rfl
@[simp] theorem withOut_clock : (s.withOut v).clock = s.clock := rfl
@[simp] theorem withOut_epoch : (s.withOut v).epoch = s.epoch := rfl
@[simp] theorem withOut_acq : (s.withOut v).acq = s.acq := rfl
@[simp] theorem withOut_dec : (s.withOut v).dec = s.dec := rfl
@[simp] theorem withOut_status : (s.withOut v).status = s.status := rfl
@[simp] theorem withOut_wd : (s.withOut v).wd = s.wd := rfl
@[simp] theorem withOut_out : (s.withOut v).out = v := rfl
@[simp] theorem withOut_fault : (s.withOut v).fault = s.fault := rfl
@[simp] theorem withOut_cfg : (s.withOut v).cfg = s.cfg := rfl
@[simp] theorem withOut_prog : (s.withOut v).prog = s.prog := rfl
@[simp] theorem withOut_inputs : (s.withOut v).inputs = s.inputs := rfl
@[simp] theorem withOut_withOut : (s.withOut v).withOut w = s.withOut w := rfl
@[simp] theorem withOut_self : s.withOut s.out = s := rfl
end

section
variable (s : State) (v w : Option Fault)
@[simp] theorem withFault_bank : (s.withFault v).bank = s.bank := rfl
@[simp] theorem withFault_clock : (s.withFault v).clock = s.clock := rfl
@[simp] theorem withFault_epoch : (s.withFault v).epoch = s.epoch := rfl
@[simp] theorem withFault_acq : (s.withFault v).acq = s.acq := rfl
@[simp] theorem withFault_dec : (s.withFault v).dec = s.dec := rfl
@[simp] theorem withFault_status : (s.withFault v).status = s.status := rfl
@[simp] theorem withFault_wd : (s.withFault v).wd = s.wd := rfl
@[simp] theorem withFault_out : (s.withFault v).out = s.out := rfl
@[simp] theorem withFault_fault : (s.withFault v).fault = v := rfl
@[simp] theorem withFault_cfg : (s.withFault v).cfg = s.cfg := rfl
@[simp] theorem withFault_prog : (s.withFault v).prog = s.prog := rfl
@[simp] theorem withFault_inputs : (s.withFault v).inputs = s.inputs := rfl
@[simp] theorem withFault_withFault : (s.withFault v).withFault w = s.withFault w := rfl
@[simp] theorem withFault_self : s.withFault s.fault = s := rfl
end

section
variable (s : State) (v w : List Pins)
@[simp] theorem withInputs_bank : (s.withInputs v).bank = s.bank := rfl
@[simp] theorem withInputs_clock : (s.withInputs v).clock = s.clock := rfl
@[simp] theorem withInputs_epoch : (s.withInputs v).epoch = s.epoch := rfl
@[simp] theorem withInputs_acq : (s.withInputs v).acq = s.acq := rfl
@[simp] theorem withInputs_dec : (s.withInputs v).dec = s.dec := rfl
@[simp] theorem withInputs_status : (s.withInputs v).status = s.status := rfl
@[simp] theorem withInputs_wd : (s.withInputs v).wd = s.wd := rfl
@[simp] theorem withInputs_out : (s.withInputs v).out = s.out := rfl
@[simp] theorem withInputs_fault : (s.withInputs v).fault = s.fault := rfl
@[simp] theorem withInputs_cfg : (s.withInputs v).cfg = s.cfg := rfl
@[simp] theorem withInputs_prog : (s.withInputs v).prog = s.prog := rfl
@[simp] theorem withInputs_inputs : (s.withInputs v).inputs = v := rfl
@[simp] theorem withInputs_withInputs : (s.withInputs v).withInputs w = s.withInputs w := rfl
@[simp] theorem withInputs_self : s.withInputs s.inputs = s := rfl
end

/-! An update that touches no array leaves every array as it was. -/

section
variable (s : State)
@[simp] theorem array_withClock (v : Clock) (A : ArrName) : (s.withClock v).array A = s.array A := by cases A <;> rfl
@[simp] theorem array_withAcq (v : Acq) (A : ArrName) : (s.withAcq v).array A = s.array A := by cases A <;> rfl
@[simp] theorem array_withStatus (v : BitVec 8) (A : ArrName) : (s.withStatus v).array A = s.array A := by cases A <;> rfl
@[simp] theorem array_withWd (v : Watchdog) (A : ArrName) : (s.withWd v).array A = s.array A := by cases A <;> rfl
@[simp] theorem array_withOut (v : OutRegs) (A : ArrName) : (s.withOut v).array A = s.array A := by cases A <;> rfl
@[simp] theorem array_withFault (v : Option Fault) (A : ArrName) : (s.withFault v).array A = s.array A := by cases A <;> rfl
@[simp] theorem array_withInputs (v : List Pins) (A : ArrName) : (s.withInputs v).array A = s.array A := by cases A <;> rfl

@[simp] theorem memRead_withClock (v : Clock) (A : ArrName) (i : Nat) :
    memRead (s.withClock v) A i = memRead s A i := by simp [memRead]
@[simp] theorem memRead_withAcq (v : Acq) (A : ArrName) (i : Nat) :
    memRead (s.withAcq v) A i = memRead s A i := by simp [memRead]
@[simp] theorem memRead_withStatus (v : BitVec 8) (A : ArrName) (i : Nat) :
    memRead (s.withStatus v) A i = memRead s A i := by simp [memRead]
@[simp] theorem memRead_withWd (v : Watchdog) (A : ArrName) (i : Nat) :
    memRead (s.withWd v) A i = memRead s A i := by simp [memRead]
@[simp] theorem memRead_withOut (v : OutRegs) (A : ArrName) (i : Nat) :
    memRead (s.withOut v) A i = memRead s A i := by simp [memRead]
@[simp] theorem memRead_withFault (v : Option Fault) (A : ArrName) (i : Nat) :
    memRead (s.withFault v) A i = memRead s A i := by simp [memRead]
@[simp] theorem memRead_withInputs (v : List Pins) (A : ArrName) (i : Nat) :
    memRead (s.withInputs v) A i = memRead s A i := by simp [memRead]
end

/-! The pair of one station. -/

@[simp] theorem byStation_get_set_same {α : Type} (p : ByStation α) (st : Station) (v : α) : (p.set st v).get st = v := by
  cases st <;> rfl

theorem byStation_get_set_ne {α : Type} (p : ByStation α) {st st' : Station} (h : st' ≠ st) (v : α) :
    (p.set st v).get st' = p.get st' := by
  cases st <;> cases st' <;> first | rfl | exact absurd rfl h

end Sys2Proof.Machine
end

