-- ==== Sys2Proof/Laws/Arrays.lean ====
section
/-! SUPPORT. The laws of the real arrays: read after write, the canonical form, its uniqueness, and what each access
can answer. -/

namespace Sys2Proof.Machine

/-! Results of rules. -/

theorem res_bind_ok {α β : Type} {x : Res α} {f : α → Res β} {r : β} :
    (x >>= f) = .ok r ↔ ∃ a, x = .ok a ∧ f a = .ok r := by
  cases x with
  | error e => simp [bind, Except.bind]
  | ok a => simp [bind, Except.bind]

theorem res_map_ok {α β : Type} {x : Res α} {f : α → β} {r : β} :
    x.map f = .ok r ↔ ∃ a, x = .ok a ∧ f a = r := by
  cases x with
  | error e => simp [Except.map]
  | ok a => simp [Except.map]

/-- A value passes the check exactly if it is finite, unchanged. -/
theorem finite_ok {v w : F64} : finite v = .ok w ↔ v.isFinite = true ∧ w = v := by
  unfold finite
  by_cases h : v.isFinite = true
  · rw [if_pos h]
    exact ⟨fun e => ⟨h, (Except.ok.inj e).symm⟩, fun e => by rw [e.2]⟩
  · rw [if_neg h]
    exact ⟨fun e => (nomatch e), fun e => absurd e.1 h⟩

/-! Cells. -/

theorem cellsRead_below {n lo i : Nat} {l : List (Nat × F64)} (h : cellsWf n lo l = true) (hi : i < lo) :
    cellsRead l i = .zero := by
  induction l generalizing lo with
  | nil => rfl
  | cons c rest ih =>
    obtain ⟨j, v⟩ := c
    simp only [cellsWf, Bool.and_eq_true, decide_eq_true_eq] at h
    have hne : i ≠ j := by omega
    simp only [cellsRead, hne, if_false]
    exact ih h.2 (by omega)

theorem cellsWf_mono {n lo lo' : Nat} {l : List (Nat × F64)} (h : cellsWf n lo l = true) (hl : lo' ≤ lo) :
    cellsWf n lo' l = true := by
  cases l with
  | nil => rfl
  | cons c rest =>
    obtain ⟨j, v⟩ := c
    simp only [cellsWf, Bool.and_eq_true, decide_eq_true_eq] at h ⊢
    exact ⟨⟨⟨by omega, h.1.1.2⟩, h.1.2⟩, h.2⟩

/-- Read after write: the written element holds the value, every other element is as before. -/
theorem cellsRead_cellsWrite {n lo : Nat} {l : List (Nat × F64)} (h : cellsWf n lo l = true) (i j : Nat) (v : F64) :
    cellsRead (cellsWrite l i v) j = if j = i then v else cellsRead l j := by
  induction l generalizing lo with
  | nil =>
    unfold cellsWrite
    split
    · next hv => subst hv; simp [cellsRead]
    · simp [cellsRead]
  | cons c rest ih =>
    obtain ⟨k, w⟩ := c
    simp only [cellsWf, Bool.and_eq_true, decide_eq_true_eq] at h
    simp only [cellsWrite]
    split
    · next hik =>
      split
      · next hv =>
        subst hv
        split
        · next hj =>
          subst hj
          have : j ≠ k := by omega
          simp only [cellsRead, this, if_false]
          exact cellsRead_below h.2 (by omega)
        · rfl
      · simp only [cellsRead]
    · split
      · next hik =>
        subst hik
        split
        · next hv =>
          subst hv
          split
          · next hj => subst hj; exact cellsRead_below h.2 (by omega)
          · next hj => simp [cellsRead, hj]
        · simp only [cellsRead]; split <;> simp_all
      · next hik =>
        simp only [cellsRead, ih h.2]
        split
        · next hj =>
          subst hj
          have : j ≠ i := by omega
          simp [this]
        · rfl

/-- A write keeps the canonical form. -/
theorem cellsWf_cellsWrite {n lo : Nat} {l : List (Nat × F64)} (h : cellsWf n lo l = true) {i : Nat} (hlo : lo ≤ i)
    (hi : i < n) (v : F64) : cellsWf n lo (cellsWrite l i v) = true := by
  induction l generalizing lo with
  | nil =>
    unfold cellsWrite
    split <;> simp_all [cellsWf]
  | cons c rest ih =>
    obtain ⟨k, w⟩ := c
    simp only [cellsWrite]
    simp only [cellsWf, Bool.and_eq_true, decide_eq_true_eq] at h
    split
    · split
      · simp only [cellsWf, Bool.and_eq_true, decide_eq_true_eq]; exact h
      · simp only [cellsWf, Bool.and_eq_true, decide_eq_true_eq]
        exact ⟨⟨⟨hlo, hi⟩, by assumption⟩, ⟨⟨by omega, h.1.1.2⟩, h.1.2⟩, h.2⟩
    · split
      · split
        · exact cellsWf_mono h.2 (by omega)
        · simp only [cellsWf, Bool.and_eq_true, decide_eq_true_eq]
          subst_vars
          exact ⟨⟨⟨hlo, hi⟩, by assumption⟩, h.2⟩
      · simp only [cellsWf, Bool.and_eq_true, decide_eq_true_eq]
        exact ⟨h.1, ih h.2 (by omega)⟩

/-- Two canonical lists that read alike are equal: equal arrays are equal data. -/
theorem cells_ext {n lo : Nat} {l l' : List (Nat × F64)} (h : cellsWf n lo l = true) (h' : cellsWf n lo l' = true)
    (heq : ∀ i, cellsRead l i = cellsRead l' i) : l = l' := by
  induction l generalizing lo l' with
  | nil =>
    cases l' with
    | nil => rfl
    | cons c rest =>
      obtain ⟨j, v⟩ := c
      simp only [cellsWf, Bool.and_eq_true, decide_eq_true_eq] at h'
      have := heq j
      simp only [cellsRead, if_true] at this
      exact absurd this.symm h'.1.2
  | cons c rest ih =>
    obtain ⟨j, v⟩ := c
    simp only [cellsWf, Bool.and_eq_true, decide_eq_true_eq] at h
    cases l' with
    | nil =>
      have := heq j
      simp only [cellsRead, if_true] at this
      exact absurd this h.1.2
    | cons c' rest' =>
      obtain ⟨j', v'⟩ := c'
      simp only [cellsWf, Bool.and_eq_true, decide_eq_true_eq] at h'
      have hjj : j = j' := by
        rcases Nat.lt_trichotomy j j' with hlt | heq' | hgt
        · have := heq j
          have hne : j ≠ j' := by omega
          simp only [cellsRead, if_true, hne, if_false] at this
          rw [cellsRead_below h'.2 (by omega)] at this
          exact absurd this h.1.2
        · exact heq'
        · have := heq j'
          have hne : j' ≠ j := by omega
          simp only [cellsRead, if_true, hne, if_false] at this
          rw [cellsRead_below h.2 (by omega)] at this
          exact absurd this.symm h'.1.2
      subst hjj
      have hv : v = v' := by simpa [cellsRead] using heq j
      subst hv
      have hr : rest = rest' := by
        refine ih h.2 h'.2 fun i => ?_
        rcases Nat.lt_or_ge i (j + 1) with hi | hi
        · rw [cellsRead_below h.2 hi, cellsRead_below h'.2 hi]
        · have := heq i
          have hne : i ≠ j := by omega
          simpa only [cellsRead, hne, if_false] using this
      rw [hr]

/-! Arrays. -/

@[simp] theorem zeros_get (i : Nat) : RealArray.zeros.get i = .zero := rfl
@[simp] theorem zeros_wf (n : Nat) : RealArray.zeros.wf n = true := rfl

theorem get_put {n : Nat} {a : RealArray} (h : a.wf n = true) (i j : Nat) (v : F64) :
    (a.put i v).get j = if j = i then v else a.get j := cellsRead_cellsWrite h i j v

theorem get_put_same {n : Nat} {a : RealArray} (h : a.wf n = true) (i : Nat) (v : F64) : (a.put i v).get i = v := by
  simp [get_put h]

theorem get_put_ne {n : Nat} {a : RealArray} (h : a.wf n = true) {i j : Nat} (hne : j ≠ i) (v : F64) :
    (a.put i v).get j = a.get j := by simp [get_put h, hne]

theorem put_wf {n : Nat} {a : RealArray} (h : a.wf n = true) {i : Nat} (hi : i < n) (v : F64) :
    (a.put i v).wf n = true := cellsWf_cellsWrite h (Nat.zero_le i) hi v

theorem array_ext {n : Nat} {a b : RealArray} (ha : a.wf n = true) (hb : b.wf n = true)
    (h : ∀ i, a.get i = b.get i) : a = b := by
  cases a; cases b
  exact congrArg RealArray.mk (cells_ext ha hb h)

/-- What an array read can answer. -/
theorem arrRead_ok {n : Nat} {a : RealArray} {i : Nat} {v : F64} : arrRead n a i = .ok v ↔ i < n ∧ v = a.get i := by
  unfold arrRead; split <;> simp_all [eq_comm]

/-- An array read faults exactly outside the array. -/
theorem arrRead_error {n : Nat} {a : RealArray} {i : Nat} {f : Fault} :
    arrRead n a i = .error f ↔ n ≤ i ∧ f = .indexRange := by
  unfold arrRead; split
  · simp; omega
  · simp [eq_comm]; omega

/-- What an array write can answer. -/
theorem arrWrite_ok {n : Nat} {a b : RealArray} {i : Nat} {v : F64} :
    arrWrite n a i v = .ok b ↔ i < n ∧ b = a.put i v := by
  unfold arrWrite; split <;> simp_all [eq_comm]

/-- An array write faults exactly outside the array. -/
theorem arrWrite_error {n : Nat} {a : RealArray} {i : Nat} {v : F64} {f : Fault} :
    arrWrite n a i v = .error f ↔ n ≤ i ∧ f = .indexRange := by
  unfold arrWrite; split
  · simp; omega
  · simp [eq_comm]; omega

/-- What the delay line access can answer (20_memory.md R94). -/
theorem boxcar_ok {n : Nat} {buf buf' : RealArray} {sum sum' v : F64} {idx : Nat} :
    boxcar n buf sum idx v = .ok (buf', sum') ↔
      idx < n ∧ ((sum.add v).sub (buf.get idx)).isFinite = true ∧
        sum' = (sum.add v).sub (buf.get idx) ∧ buf' = buf.put idx v := by
  unfold boxcar
  simp only [res_bind_ok, arrRead_ok, finite_ok, arrWrite_ok]
  constructor
  · rintro ⟨old, ⟨hi, rfl⟩, s, ⟨hf, rfl⟩, b, ⟨-, rfl⟩, h⟩
    injection h with h
    injection h with h1 h2
    exact ⟨hi, hf, h2.symm, h1.symm⟩
  · rintro ⟨hi, hf, rfl, rfl⟩
    exact ⟨_, ⟨hi, rfl⟩, _, ⟨hf, rfl⟩, _, ⟨hi, rfl⟩, rfl⟩

/-! Every array operation keeps the canonical form. -/

theorem arrWrite_wf {n : Nat} {a b : RealArray} {i : Nat} {v : F64} (h : a.wf n = true)
    (hw : arrWrite n a i v = .ok b) : b.wf n = true := by
  obtain ⟨hi, rfl⟩ := arrWrite_ok.mp hw
  exact put_wf h hi v

theorem boxcar_wf {n : Nat} {buf buf' : RealArray} {sum sum' v : F64} {idx : Nat} (h : buf.wf n = true)
    (hb : boxcar n buf sum idx v = .ok (buf', sum')) : buf'.wf n = true := by
  obtain ⟨hi, -, -, rfl⟩ := boxcar_ok.mp hb
  exact put_wf h hi v

/-- The arrays of the state right after reset are in canonical form. -/
theorem reset_memWf : State.reset.memWf = true := rfl

/-! The arrays of the state by name. -/

/-- What a named read can answer. -/
theorem memRead_ok {s : State} {A : ArrName} {i : Nat} {v : F64} :
    memRead s A i = .ok v ↔ ∃ a, s.array A = some a ∧ i < A.size ∧ v = a.get i := by
  unfold memRead
  cases h : s.array A <;> simp [arrRead_ok]

/-! The cells that decide a maximum (00_scope.md R13). -/

/-- A cell of the profile is an element of the array with its value. -/
theorem cellsProfile_sound {n here : Nat} {l : List (Nat × F64)} (h : cellsWf n here l = true) {c : Nat × F64}
    (hc : c ∈ cellsProfile n here l) : here ≤ c.1 ∧ c.1 < n ∧ c.2 = cellsRead l c.1 := by
  induction l generalizing here with
  | nil =>
    unfold cellsProfile at hc
    split at hc
    · simp only [List.mem_singleton] at hc
      subst hc
      exact ⟨Nat.le_refl _, by assumption, rfl⟩
    · simp at hc
  | cons k rest ih =>
    obtain ⟨j, v⟩ := k
    have h0 := h
    simp only [cellsWf, Bool.and_eq_true, decide_eq_true_eq] at h
    have hrest : ∀ d ∈ rest, here ≤ d.1 ∧ d.1 < n ∧ d.2 = cellsRead ((j, v) :: rest) d.1 := by
      clear hc ih h0
      intro d hd
      have key : ∀ (m : Nat) (r : List (Nat × F64)), cellsWf n m r = true → ∀ d ∈ r,
          m ≤ d.1 ∧ d.1 < n ∧ d.2 = cellsRead r d.1 := by
        intro m r
        induction r generalizing m with
        | nil => intro _ d hd; simp at hd
        | cons q qs ihq =>
          obtain ⟨a, b⟩ := q
          intro hw d hd
          simp only [cellsWf, Bool.and_eq_true, decide_eq_true_eq] at hw
          rcases List.mem_cons.mp hd with rfl | hd
          · exact ⟨hw.1.1.1, hw.1.1.2, by simp [cellsRead]⟩
          · obtain ⟨h1, h2, h3⟩ := ihq (a + 1) hw.2 d hd
            have hne : d.1 ≠ a := by omega
            exact ⟨by omega, h2, by simpa [cellsRead, hne] using h3⟩
      obtain ⟨h1, h2, h3⟩ := key (j + 1) rest h.2 d hd
      have hne : d.1 ≠ j := by omega
      exact ⟨by omega, h2, by simpa [cellsRead, hne] using h3⟩
    simp only [cellsProfile] at hc
    split at hc
    · next hlt =>
      rcases List.mem_cons.mp hc with rfl | hc
      · have hne : here ≠ j := by omega
        refine ⟨Nat.le_refl _, by have := h.1.1.2; omega, ?_⟩
        simp only [cellsRead, hne, if_false]
        exact (cellsRead_below h.2 (by omega)).symm
      · rcases List.mem_cons.mp hc with rfl | hc
        · exact ⟨by have := h.1.1.1; simpa using this, h.1.1.2, by simp [cellsRead]⟩
        · exact hrest c hc
    · next hlt =>
      rcases List.mem_cons.mp hc with rfl | hc
      · exact ⟨by have := h.1.1.1; simpa using this, h.1.1.2, by simp [cellsRead]⟩
      · obtain ⟨h1, h2, h3⟩ := ih h.2 hc
        have hne : c.1 ≠ j := by omega
        exact ⟨by have := h.1.1.1; omega, h2, by simpa [cellsRead, hne] using h3⟩

/-- Every element of the array has its value in the profile, at an index that is not later. -/
theorem cellsProfile_complete {n here i : Nat} {l : List (Nat × F64)} (h : cellsWf n here l = true) (hl : here ≤ i)
    (hi : i < n) : ∃ c ∈ cellsProfile n here l, c.1 ≤ i ∧ c.2 = cellsRead l i := by
  induction l generalizing here with
  | nil =>
    have : here < n := by omega
    exact ⟨(here, .zero), by simp [cellsProfile, this], hl, rfl⟩
  | cons k rest ih =>
    obtain ⟨j, v⟩ := k
    simp only [cellsWf, Bool.and_eq_true, decide_eq_true_eq] at h
    simp only [cellsProfile]
    by_cases hlt : here < j
    · simp only [hlt, if_true]
      by_cases hz : cellsRead ((j, v) :: rest) i = .zero
      · exact ⟨(here, .zero), by simp, hl, hz.symm⟩
      · refine ⟨(i, cellsRead ((j, v) :: rest) i), ?_, Nat.le_refl _, rfl⟩
        refine List.mem_cons_of_mem _ ?_
        clear ih h
        have key : ∀ (r : List (Nat × F64)), cellsRead r i ≠ .zero → (i, cellsRead r i) ∈ r := by
          intro r
          induction r with
          | nil => intro hr; exact absurd rfl hr
          | cons q qs ihq =>
            obtain ⟨a, b⟩ := q
            intro hr
            by_cases ha : i = a
            · subst ha; simp [cellsRead]
            · simp only [cellsRead, ha, if_false] at hr ⊢
              exact List.mem_cons_of_mem _ (ihq hr)
        exact key _ hz
    · simp only [hlt, if_false]
      have hj : here = j := by have := h.1.1.1; omega
      by_cases hij : i = j
      · subst hij
        exact ⟨(i, v), by simp, Nat.le_refl _, by simp [cellsRead]⟩
      · obtain ⟨c, hc, h1, h2⟩ := ih h.2 (by omega)
        exact ⟨c, List.mem_cons_of_mem _ hc, h1, by simpa [cellsRead, hij] using h2⟩

/-- The largest cell is one of those looked at. -/
theorem bestFrom_mem (b : Nat × F64) (l : List (Nat × F64)) : bestFrom b l ∈ b :: l := by
  induction l generalizing b with
  | nil => simp [bestFrom]
  | cons c rest ih =>
    unfold bestFrom
    split
    · exact List.mem_cons_of_mem _ (ih c)
    · rcases List.mem_cons.mp (ih b) with h | h
      · rw [h]; exact List.mem_cons_self
      · exact List.mem_cons_of_mem _ (List.mem_cons_of_mem _ h)

/-- The least value is one of those looked at. -/
theorem leastFrom_mem (v : F64) (l : List (Nat × F64)) : leastFrom v l ∈ v :: l.map Prod.snd := by
  induction l generalizing v with
  | nil => simp [leastFrom]
  | cons c rest ih =>
    unfold leastFrom
    split
    · exact List.mem_cons_of_mem _ (ih c.2)
    · rcases List.mem_cons.mp (ih v) with h | h
      · rw [h]; exact List.mem_cons_self
      · exact List.mem_cons_of_mem _ (List.mem_cons_of_mem _ h)

end Sys2Proof.Machine
end

