-- ==== Sys2Proof/Laws/Ops.lean ====
section
/-! SUPPORT. The shared operations: what each one leaves unchanged, what it writes, and what it can answer. A proof
cites these lemmas and does not unfold the operation. -/

namespace Sys2Proof.Machine

section
variable (s : State)

/-! Frames, by group of the state. -/

@[simp] theorem setFlag_bank (b : Nat) (v : Bool) : (setFlag b v s).bank = s.bank := rfl
@[simp] theorem setFlag_clock (b : Nat) (v : Bool) : (setFlag b v s).clock = s.clock := rfl
@[simp] theorem setFlag_epoch (b : Nat) (v : Bool) : (setFlag b v s).epoch = s.epoch := rfl
@[simp] theorem setFlag_acq (b : Nat) (v : Bool) : (setFlag b v s).acq = s.acq := rfl
@[simp] theorem setFlag_dec (b : Nat) (v : Bool) : (setFlag b v s).dec = s.dec := rfl
@[simp] theorem setFlag_wd (b : Nat) (v : Bool) : (setFlag b v s).wd = s.wd := rfl
@[simp] theorem setFlag_out (b : Nat) (v : Bool) : (setFlag b v s).out = s.out := rfl
@[simp] theorem setFlag_fault (b : Nat) (v : Bool) : (setFlag b v s).fault = s.fault := rfl
@[simp] theorem setFlag_cfg (b : Nat) (v : Bool) : (setFlag b v s).cfg = s.cfg := rfl
@[simp] theorem setFlag_prog (b : Nat) (v : Bool) : (setFlag b v s).prog = s.prog := rfl
@[simp] theorem setFlag_inputs (b : Nat) (v : Bool) : (setFlag b v s).inputs = s.inputs := rfl

@[simp] theorem setSel_bank (st : Option Station) : (setSel st s).bank = s.bank := rfl
@[simp] theorem setSel_clock (st : Option Station) : (setSel st s).clock = s.clock := rfl
@[simp] theorem setSel_epoch (st : Option Station) : (setSel st s).epoch = s.epoch := rfl
@[simp] theorem setSel_acq (st : Option Station) : (setSel st s).acq = s.acq := rfl
@[simp] theorem setSel_dec (st : Option Station) : (setSel st s).dec = s.dec := rfl
@[simp] theorem setSel_wd (st : Option Station) : (setSel st s).wd = s.wd := rfl
@[simp] theorem setSel_out (st : Option Station) : (setSel st s).out = s.out := rfl
@[simp] theorem setSel_fault (st : Option Station) : (setSel st s).fault = s.fault := rfl
@[simp] theorem setSel_cfg (st : Option Station) : (setSel st s).cfg = s.cfg := rfl
@[simp] theorem setSel_prog (st : Option Station) : (setSel st s).prog = s.prog := rfl
@[simp] theorem setSel_inputs (st : Option Station) : (setSel st s).inputs = s.inputs := rfl

@[simp] theorem raiseAlarm_bank (c : Nat) : (raiseAlarm c s).bank = s.bank := rfl
@[simp] theorem raiseAlarm_clock (c : Nat) : (raiseAlarm c s).clock = s.clock := rfl
@[simp] theorem raiseAlarm_epoch (c : Nat) : (raiseAlarm c s).epoch = s.epoch := rfl
@[simp] theorem raiseAlarm_acq (c : Nat) : (raiseAlarm c s).acq = s.acq := rfl
@[simp] theorem raiseAlarm_status (c : Nat) : (raiseAlarm c s).status = s.status := rfl
@[simp] theorem raiseAlarm_wd (c : Nat) : (raiseAlarm c s).wd = s.wd := rfl
@[simp] theorem raiseAlarm_out (c : Nat) : (raiseAlarm c s).out = s.out := rfl
@[simp] theorem raiseAlarm_fault (c : Nat) : (raiseAlarm c s).fault = s.fault := rfl
@[simp] theorem raiseAlarm_cfg (c : Nat) : (raiseAlarm c s).cfg = s.cfg := rfl
@[simp] theorem raiseAlarm_prog (c : Nat) : (raiseAlarm c s).prog = s.prog := rfl
@[simp] theorem raiseAlarm_inputs (c : Nat) : (raiseAlarm c s).inputs = s.inputs := rfl

@[simp] theorem ageAlarm_bank : (ageAlarm s).bank = s.bank := rfl
@[simp] theorem ageAlarm_clock : (ageAlarm s).clock = s.clock := rfl
@[simp] theorem ageAlarm_epoch : (ageAlarm s).epoch = s.epoch := rfl
@[simp] theorem ageAlarm_acq : (ageAlarm s).acq = s.acq := rfl
@[simp] theorem ageAlarm_status : (ageAlarm s).status = s.status := rfl
@[simp] theorem ageAlarm_wd : (ageAlarm s).wd = s.wd := rfl
@[simp] theorem ageAlarm_out : (ageAlarm s).out = s.out := rfl
@[simp] theorem ageAlarm_fault : (ageAlarm s).fault = s.fault := rfl
@[simp] theorem ageAlarm_cfg : (ageAlarm s).cfg = s.cfg := rfl
@[simp] theorem ageAlarm_prog : (ageAlarm s).prog = s.prog := rfl
@[simp] theorem ageAlarm_inputs : (ageAlarm s).inputs = s.inputs := rfl

@[simp] theorem setMisc_bank (b : Nat) (v : Bool) : (setMisc b v s).bank = s.bank := rfl
@[simp] theorem setMisc_clock (b : Nat) (v : Bool) : (setMisc b v s).clock = s.clock := rfl
@[simp] theorem setMisc_epoch (b : Nat) (v : Bool) : (setMisc b v s).epoch = s.epoch := rfl
@[simp] theorem setMisc_acq (b : Nat) (v : Bool) : (setMisc b v s).acq = s.acq := rfl
@[simp] theorem setMisc_status (b : Nat) (v : Bool) : (setMisc b v s).status = s.status := rfl
@[simp] theorem setMisc_wd (b : Nat) (v : Bool) : (setMisc b v s).wd = s.wd := rfl
@[simp] theorem setMisc_out (b : Nat) (v : Bool) : (setMisc b v s).out = s.out := rfl
@[simp] theorem setMisc_fault (b : Nat) (v : Bool) : (setMisc b v s).fault = s.fault := rfl
@[simp] theorem setMisc_cfg (b : Nat) (v : Bool) : (setMisc b v s).cfg = s.cfg := rfl
@[simp] theorem setMisc_prog (b : Nat) (v : Bool) : (setMisc b v s).prog = s.prog := rfl
@[simp] theorem setMisc_inputs (b : Nat) (v : Bool) : (setMisc b v s).inputs = s.inputs := rfl

@[simp] theorem writeDigit_bank (p : Nat) (d : DigitVec) : (writeDigit s p d).bank = s.bank := rfl
@[simp] theorem writeDigit_clock (p : Nat) (d : DigitVec) : (writeDigit s p d).clock = s.clock := rfl
@[simp] theorem writeDigit_epoch (p : Nat) (d : DigitVec) : (writeDigit s p d).epoch = s.epoch := rfl
@[simp] theorem writeDigit_acq (p : Nat) (d : DigitVec) : (writeDigit s p d).acq = s.acq := rfl
@[simp] theorem writeDigit_status (p : Nat) (d : DigitVec) : (writeDigit s p d).status = s.status := rfl
@[simp] theorem writeDigit_wd (p : Nat) (d : DigitVec) : (writeDigit s p d).wd = s.wd := rfl
@[simp] theorem writeDigit_out (p : Nat) (d : DigitVec) : (writeDigit s p d).out = s.out := rfl
@[simp] theorem writeDigit_fault (p : Nat) (d : DigitVec) : (writeDigit s p d).fault = s.fault := rfl
@[simp] theorem writeDigit_cfg (p : Nat) (d : DigitVec) : (writeDigit s p d).cfg = s.cfg := rfl
@[simp] theorem writeDigit_prog (p : Nat) (d : DigitVec) : (writeDigit s p d).prog = s.prog := rfl
@[simp] theorem writeDigit_inputs (p : Nat) (d : DigitVec) : (writeDigit s p d).inputs = s.inputs := rfl

@[simp] theorem setTsec_bank (n : Nat) : (setTsec n s).bank = s.bank := rfl
@[simp] theorem setTsec_clock (n : Nat) : (setTsec n s).clock = s.clock := rfl
@[simp] theorem setTsec_epoch (n : Nat) : (setTsec n s).epoch = s.epoch := rfl
@[simp] theorem setTsec_acq (n : Nat) : (setTsec n s).acq = s.acq := rfl
@[simp] theorem setTsec_status (n : Nat) : (setTsec n s).status = s.status := rfl
@[simp] theorem setTsec_wd (n : Nat) : (setTsec n s).wd = s.wd := rfl
@[simp] theorem setTsec_out (n : Nat) : (setTsec n s).out = s.out := rfl
@[simp] theorem setTsec_fault (n : Nat) : (setTsec n s).fault = s.fault := rfl
@[simp] theorem setTsec_cfg (n : Nat) : (setTsec n s).cfg = s.cfg := rfl
@[simp] theorem setTsec_prog (n : Nat) : (setTsec n s).prog = s.prog := rfl
@[simp] theorem setTsec_inputs (n : Nat) : (setTsec n s).inputs = s.inputs := rfl

@[simp] theorem restartErrors_bank : (restartErrors s).bank = s.bank := rfl
@[simp] theorem restartErrors_clock : (restartErrors s).clock = s.clock := rfl
@[simp] theorem restartErrors_epoch : (restartErrors s).epoch = s.epoch := rfl
@[simp] theorem restartErrors_acq : (restartErrors s).acq = s.acq := rfl
@[simp] theorem restartErrors_status : (restartErrors s).status = s.status := rfl
@[simp] theorem restartErrors_wd : (restartErrors s).wd = s.wd := rfl
@[simp] theorem restartErrors_out : (restartErrors s).out = s.out := rfl
@[simp] theorem restartErrors_fault : (restartErrors s).fault = s.fault := rfl
@[simp] theorem restartErrors_cfg : (restartErrors s).cfg = s.cfg := rfl
@[simp] theorem restartErrors_prog : (restartErrors s).prog = s.prog := rfl
@[simp] theorem restartErrors_inputs : (restartErrors s).inputs = s.inputs := rfl

@[simp] theorem rsecAdvance_bank : (rsecAdvance s).bank = s.bank := rfl
@[simp] theorem rsecAdvance_clock : (rsecAdvance s).clock = s.clock := rfl
@[simp] theorem rsecAdvance_epoch : (rsecAdvance s).epoch = s.epoch := rfl
@[simp] theorem rsecAdvance_acq : (rsecAdvance s).acq = s.acq := rfl
@[simp] theorem rsecAdvance_status : (rsecAdvance s).status = s.status := rfl
@[simp] theorem rsecAdvance_wd : (rsecAdvance s).wd = s.wd := rfl
@[simp] theorem rsecAdvance_out : (rsecAdvance s).out = s.out := rfl
@[simp] theorem rsecAdvance_fault : (rsecAdvance s).fault = s.fault := rfl
@[simp] theorem rsecAdvance_cfg : (rsecAdvance s).cfg = s.cfg := rfl
@[simp] theorem rsecAdvance_prog : (rsecAdvance s).prog = s.prog := rfl
@[simp] theorem rsecAdvance_inputs : (rsecAdvance s).inputs = s.inputs := rfl

@[simp] theorem writeChan_bank (f : Nat) (st : Station) (c : ChanRec) : (writeChan s f st c).bank = s.bank := rfl
@[simp] theorem writeChan_clock (f : Nat) (st : Station) (c : ChanRec) : (writeChan s f st c).clock = s.clock := rfl
@[simp] theorem writeChan_epoch (f : Nat) (st : Station) (c : ChanRec) : (writeChan s f st c).epoch = s.epoch := rfl
@[simp] theorem writeChan_dec (f : Nat) (st : Station) (c : ChanRec) : (writeChan s f st c).dec = s.dec := rfl
@[simp] theorem writeChan_status (f : Nat) (st : Station) (c : ChanRec) : (writeChan s f st c).status = s.status := rfl
@[simp] theorem writeChan_wd (f : Nat) (st : Station) (c : ChanRec) : (writeChan s f st c).wd = s.wd := rfl
@[simp] theorem writeChan_out (f : Nat) (st : Station) (c : ChanRec) : (writeChan s f st c).out = s.out := rfl
@[simp] theorem writeChan_fault (f : Nat) (st : Station) (c : ChanRec) : (writeChan s f st c).fault = s.fault := rfl
@[simp] theorem writeChan_cfg (f : Nat) (st : Station) (c : ChanRec) : (writeChan s f st c).cfg = s.cfg := rfl
@[simp] theorem writeChan_prog (f : Nat) (st : Station) (c : ChanRec) : (writeChan s f st c).prog = s.prog := rfl
@[simp] theorem writeChan_inputs (f : Nat) (st : Station) (c : ChanRec) : (writeChan s f st c).inputs = s.inputs := rfl

@[simp] theorem scanReset_bank : (scanReset s).bank = s.bank := rfl
@[simp] theorem scanReset_clock : (scanReset s).clock = s.clock := rfl
@[simp] theorem scanReset_epoch : (scanReset s).epoch = s.epoch := rfl
@[simp] theorem scanReset_dec : (scanReset s).dec = s.dec := rfl
@[simp] theorem scanReset_status : (scanReset s).status = s.status := rfl
@[simp] theorem scanReset_wd : (scanReset s).wd = s.wd := rfl
@[simp] theorem scanReset_out : (scanReset s).out = s.out := rfl
@[simp] theorem scanReset_fault : (scanReset s).fault = s.fault := rfl
@[simp] theorem scanReset_cfg : (scanReset s).cfg = s.cfg := rfl
@[simp] theorem scanReset_prog : (scanReset s).prog = s.prog := rfl
@[simp] theorem scanReset_inputs : (scanReset s).inputs = s.inputs := rfl

@[simp] theorem clockStep_bank : (clockStep s).bank = s.bank := rfl
@[simp] theorem clockStep_epoch : (clockStep s).epoch = s.epoch := rfl
@[simp] theorem clockStep_acq : (clockStep s).acq = s.acq := rfl
@[simp] theorem clockStep_dec : (clockStep s).dec = s.dec := rfl
@[simp] theorem clockStep_status : (clockStep s).status = s.status := rfl
@[simp] theorem clockStep_wd : (clockStep s).wd = s.wd := rfl
@[simp] theorem clockStep_out : (clockStep s).out = s.out := rfl
@[simp] theorem clockStep_fault : (clockStep s).fault = s.fault := rfl
@[simp] theorem clockStep_cfg : (clockStep s).cfg = s.cfg := rfl
@[simp] theorem clockStep_prog : (clockStep s).prog = s.prog := rfl
@[simp] theorem clockStep_inputs : (clockStep s).inputs = s.inputs := rfl

@[simp] theorem takeFault_bank (f : Fault) : (takeFault s f).bank = s.bank := rfl
@[simp] theorem takeFault_clock (f : Fault) : (takeFault s f).clock = s.clock := rfl
@[simp] theorem takeFault_epoch (f : Fault) : (takeFault s f).epoch = s.epoch := rfl
@[simp] theorem takeFault_acq (f : Fault) : (takeFault s f).acq = s.acq := rfl
@[simp] theorem takeFault_dec (f : Fault) : (takeFault s f).dec = s.dec := rfl
@[simp] theorem takeFault_status (f : Fault) : (takeFault s f).status = s.status := rfl
@[simp] theorem takeFault_wd (f : Fault) : (takeFault s f).wd = s.wd := rfl
@[simp] theorem takeFault_out (f : Fault) : (takeFault s f).out = s.out := rfl
@[simp] theorem takeFault_cfg (f : Fault) : (takeFault s f).cfg = s.cfg := rfl
@[simp] theorem takeFault_prog (f : Fault) : (takeFault s f).prog = s.prog := rfl
@[simp] theorem takeFault_inputs (f : Fault) : (takeFault s f).inputs = s.inputs := rfl

@[simp] theorem nextCycle_bank : (s.nextCycle).bank = s.bank := rfl
@[simp] theorem nextCycle_clock : (s.nextCycle).clock = s.clock := rfl
@[simp] theorem nextCycle_epoch : (s.nextCycle).epoch = s.epoch := rfl
@[simp] theorem nextCycle_acq : (s.nextCycle).acq = s.acq := rfl
@[simp] theorem nextCycle_dec : (s.nextCycle).dec = s.dec := rfl
@[simp] theorem nextCycle_status : (s.nextCycle).status = s.status := rfl
@[simp] theorem nextCycle_wd : (s.nextCycle).wd = s.wd := rfl
@[simp] theorem nextCycle_out : (s.nextCycle).out = s.out := rfl
@[simp] theorem nextCycle_fault : (s.nextCycle).fault = s.fault := rfl
@[simp] theorem nextCycle_cfg : (s.nextCycle).cfg = s.cfg := rfl
@[simp] theorem nextCycle_prog : (s.nextCycle).prog = s.prog := rfl

@[simp] theorem watchdogReset_bank : (watchdogReset s).bank = s.bank := rfl
@[simp] theorem watchdogReset_fault : (watchdogReset s).fault = s.fault := rfl
@[simp] theorem watchdogReset_cfg : (watchdogReset s).cfg = s.cfg := rfl
@[simp] theorem watchdogReset_prog : (watchdogReset s).prog = s.prog := rfl
@[simp] theorem watchdogReset_inputs : (watchdogReset s).inputs = s.inputs := rfl

@[simp] theorem probeAdvance_bank : (probeAdvance s).bank = s.bank := rfl
@[simp] theorem probeAdvance_clock : (probeAdvance s).clock = s.clock := rfl
@[simp] theorem probeAdvance_epoch : (probeAdvance s).epoch = s.epoch := rfl
@[simp] theorem probeAdvance_dec : (probeAdvance s).dec = s.dec := rfl
@[simp] theorem probeAdvance_status : (probeAdvance s).status = s.status := rfl
@[simp] theorem probeAdvance_wd : (probeAdvance s).wd = s.wd := rfl
@[simp] theorem probeAdvance_fault : (probeAdvance s).fault = s.fault := rfl
@[simp] theorem probeAdvance_cfg : (probeAdvance s).cfg = s.cfg := rfl
@[simp] theorem probeAdvance_prog : (probeAdvance s).prog = s.prog := rfl
@[simp] theorem probeAdvance_inputs : (probeAdvance s).inputs = s.inputs := rfl

@[simp] theorem rotateProbe_bank : (rotateProbe s).bank = s.bank := rfl
@[simp] theorem rotateProbe_clock : (rotateProbe s).clock = s.clock := rfl
@[simp] theorem rotateProbe_epoch : (rotateProbe s).epoch = s.epoch := rfl
@[simp] theorem rotateProbe_dec : (rotateProbe s).dec = s.dec := rfl
@[simp] theorem rotateProbe_status : (rotateProbe s).status = s.status := rfl
@[simp] theorem rotateProbe_wd : (rotateProbe s).wd = s.wd := rfl
@[simp] theorem rotateProbe_fault : (rotateProbe s).fault = s.fault := rfl
@[simp] theorem rotateProbe_cfg : (rotateProbe s).cfg = s.cfg := rfl
@[simp] theorem rotateProbe_prog : (rotateProbe s).prog = s.prog := rfl
@[simp] theorem rotateProbe_inputs : (rotateProbe s).inputs = s.inputs := rfl

@[simp] theorem probeOpen_bank : (probeOpen s).bank = s.bank := rfl
@[simp] theorem probeOpen_clock : (probeOpen s).clock = s.clock := rfl
@[simp] theorem probeOpen_epoch : (probeOpen s).epoch = s.epoch := rfl
@[simp] theorem probeOpen_dec : (probeOpen s).dec = s.dec := rfl
@[simp] theorem probeOpen_status : (probeOpen s).status = s.status := rfl
@[simp] theorem probeOpen_wd : (probeOpen s).wd = s.wd := rfl
@[simp] theorem probeOpen_fault : (probeOpen s).fault = s.fault := rfl
@[simp] theorem probeOpen_cfg : (probeOpen s).cfg = s.cfg := rfl
@[simp] theorem probeOpen_prog : (probeOpen s).prog = s.prog := rfl
@[simp] theorem probeOpen_inputs : (probeOpen s).inputs = s.inputs := rfl

@[simp] theorem acceptStation_bank (w : Station) (pos : Nat) : (acceptStation w pos s).bank = s.bank := rfl
@[simp] theorem acceptStation_clock (w : Station) (pos : Nat) : (acceptStation w pos s).clock = s.clock := rfl
@[simp] theorem acceptStation_wd (w : Station) (pos : Nat) : (acceptStation w pos s).wd = s.wd := rfl
@[simp] theorem acceptStation_fault (w : Station) (pos : Nat) : (acceptStation w pos s).fault = s.fault := rfl
@[simp] theorem acceptStation_cfg (w : Station) (pos : Nat) : (acceptStation w pos s).cfg = s.cfg := rfl
@[simp] theorem acceptStation_prog (w : Station) (pos : Nat) : (acceptStation w pos s).prog = s.prog := rfl
@[simp] theorem acceptStation_inputs (w : Station) (pos : Nat) : (acceptStation w pos s).inputs = s.inputs := rfl

@[simp] theorem loseStations_bank : (loseStations s).bank = s.bank := rfl
@[simp] theorem loseStations_clock : (loseStations s).clock = s.clock := rfl
@[simp] theorem loseStations_epoch : (loseStations s).epoch = s.epoch := rfl
@[simp] theorem loseStations_dec : (loseStations s).dec = s.dec := rfl
@[simp] theorem loseStations_wd : (loseStations s).wd = s.wd := rfl
@[simp] theorem loseStations_out : (loseStations s).out = s.out := rfl
@[simp] theorem loseStations_fault : (loseStations s).fault = s.fault := rfl
@[simp] theorem loseStations_cfg : (loseStations s).cfg = s.cfg := rfl
@[simp] theorem loseStations_prog : (loseStations s).prog = s.prog := rfl
@[simp] theorem loseStations_inputs : (loseStations s).inputs = s.inputs := rfl

@[simp] theorem dropSecondSync_bank : (dropSecondSync s).bank = s.bank := rfl
@[simp] theorem dropSecondSync_clock : (dropSecondSync s).clock = s.clock := rfl
@[simp] theorem dropSecondSync_acq : (dropSecondSync s).acq = s.acq := rfl
@[simp] theorem dropSecondSync_dec : (dropSecondSync s).dec = s.dec := rfl
@[simp] theorem dropSecondSync_wd : (dropSecondSync s).wd = s.wd := rfl
@[simp] theorem dropSecondSync_out : (dropSecondSync s).out = s.out := rfl
@[simp] theorem dropSecondSync_fault : (dropSecondSync s).fault = s.fault := rfl
@[simp] theorem dropSecondSync_cfg : (dropSecondSync s).cfg = s.cfg := rfl
@[simp] theorem dropSecondSync_prog : (dropSecondSync s).prog = s.prog := rfl
@[simp] theorem dropSecondSync_inputs : (dropSecondSync s).inputs = s.inputs := rfl
end

/-! Operations that choose between two states keep a group if both do. -/

section
variable (s : State)
@[simp] theorem declareDsync_bank : (declareDsync s).bank = s.bank := by unfold declareDsync; split <;> rfl
@[simp] theorem declareDsync_clock : (declareDsync s).clock = s.clock := by unfold declareDsync; split <;> rfl
@[simp] theorem declareDsync_epoch : (declareDsync s).epoch = s.epoch := by unfold declareDsync; split <;> rfl
@[simp] theorem declareDsync_acq : (declareDsync s).acq = s.acq := by unfold declareDsync; split <;> rfl
@[simp] theorem declareDsync_dec : (declareDsync s).dec = s.dec := by unfold declareDsync; split <;> rfl
@[simp] theorem declareDsync_wd : (declareDsync s).wd = s.wd := by unfold declareDsync; split <;> rfl
@[simp] theorem declareDsync_out : (declareDsync s).out = s.out := by unfold declareDsync; split <;> rfl
@[simp] theorem declareDsync_fault : (declareDsync s).fault = s.fault := by unfold declareDsync; split <;> rfl
@[simp] theorem declareDsync_cfg : (declareDsync s).cfg = s.cfg := by unfold declareDsync; split <;> rfl
@[simp] theorem declareDsync_prog : (declareDsync s).prog = s.prog := by unfold declareDsync; split <;> rfl
@[simp] theorem declareDsync_inputs : (declareDsync s).inputs = s.inputs := by unfold declareDsync; split <;> rfl
@[simp] theorem restartAbs_bank : (restartAbs s).bank = s.bank := by unfold restartAbs; split <;> rfl
@[simp] theorem restartAbs_clock : (restartAbs s).clock = s.clock := by unfold restartAbs; split <;> rfl
@[simp] theorem restartAbs_epoch : (restartAbs s).epoch = s.epoch := by unfold restartAbs; split <;> rfl
@[simp] theorem restartAbs_acq : (restartAbs s).acq = s.acq := by unfold restartAbs; split <;> rfl
@[simp] theorem restartAbs_dec : (restartAbs s).dec = s.dec := by unfold restartAbs; split <;> rfl
@[simp] theorem restartAbs_status : (restartAbs s).status = s.status := by unfold restartAbs; split <;> rfl
@[simp] theorem restartAbs_out : (restartAbs s).out = s.out := by unfold restartAbs; split <;> rfl
@[simp] theorem restartAbs_fault : (restartAbs s).fault = s.fault := by unfold restartAbs; split <;> rfl
@[simp] theorem restartAbs_cfg : (restartAbs s).cfg = s.cfg := by unfold restartAbs; split <;> rfl
@[simp] theorem restartAbs_prog : (restartAbs s).prog = s.prog := by unfold restartAbs; split <;> rfl
@[simp] theorem restartAbs_inputs : (restartAbs s).inputs = s.inputs := by unfold restartAbs; split <;> rfl
@[simp] theorem declareInsync_bank : (declareInsync s).bank = s.bank := rfl
@[simp] theorem declareInsync_clock : (declareInsync s).clock = s.clock := rfl
@[simp] theorem declareInsync_epoch : (declareInsync s).epoch = s.epoch := rfl
@[simp] theorem declareInsync_acq : (declareInsync s).acq = s.acq := rfl
@[simp] theorem declareInsync_dec : (declareInsync s).dec = s.dec := rfl
@[simp] theorem declareInsync_wd : (declareInsync s).wd = s.wd := rfl
@[simp] theorem declareInsync_out : (declareInsync s).out = s.out := rfl
@[simp] theorem declareInsync_fault : (declareInsync s).fault = s.fault := rfl
@[simp] theorem declareInsync_cfg : (declareInsync s).cfg = s.cfg := rfl
@[simp] theorem declareInsync_prog : (declareInsync s).prog = s.prog := rfl
@[simp] theorem declareInsync_inputs : (declareInsync s).inputs = s.inputs := rfl
@[simp] theorem syncCheck_bank : (syncCheck s).bank = s.bank := by unfold syncCheck; split <;> rfl
@[simp] theorem syncCheck_clock : (syncCheck s).clock = s.clock := by unfold syncCheck; split <;> rfl
@[simp] theorem syncCheck_epoch : (syncCheck s).epoch = s.epoch := by unfold syncCheck; split <;> rfl
@[simp] theorem syncCheck_acq : (syncCheck s).acq = s.acq := by unfold syncCheck; split <;> rfl
@[simp] theorem syncCheck_status : (syncCheck s).status = s.status := by unfold syncCheck; split <;> rfl
@[simp] theorem syncCheck_wd : (syncCheck s).wd = s.wd := by unfold syncCheck; split <;> rfl
@[simp] theorem syncCheck_out : (syncCheck s).out = s.out := by unfold syncCheck; split <;> rfl
@[simp] theorem syncCheck_fault : (syncCheck s).fault = s.fault := by unfold syncCheck; split <;> rfl
@[simp] theorem syncCheck_cfg : (syncCheck s).cfg = s.cfg := by unfold syncCheck; split <;> rfl
@[simp] theorem syncCheck_prog : (syncCheck s).prog = s.prog := by unfold syncCheck; split <;> rfl
@[simp] theorem syncCheck_inputs : (syncCheck s).inputs = s.inputs := by unfold syncCheck; split <;> rfl
@[simp] theorem tunerFailure_bank (b : Bool) : (tunerFailure b s).bank = s.bank := by unfold tunerFailure; split <;> rfl
@[simp] theorem tunerFailure_clock (b : Bool) : (tunerFailure b s).clock = s.clock := by unfold tunerFailure; split <;> rfl
@[simp] theorem tunerFailure_epoch (b : Bool) : (tunerFailure b s).epoch = s.epoch := by unfold tunerFailure; split <;> rfl
@[simp] theorem tunerFailure_acq (b : Bool) : (tunerFailure b s).acq = s.acq := by unfold tunerFailure; split <;> rfl
@[simp] theorem tunerFailure_dec (b : Bool) : (tunerFailure b s).dec = s.dec := by unfold tunerFailure; split <;> rfl
@[simp] theorem tunerFailure_status (b : Bool) : (tunerFailure b s).status = s.status := by unfold tunerFailure; split <;> rfl
@[simp] theorem tunerFailure_wd (b : Bool) : (tunerFailure b s).wd = s.wd := by unfold tunerFailure; split <;> rfl
@[simp] theorem tunerFailure_fault (b : Bool) : (tunerFailure b s).fault = s.fault := by unfold tunerFailure; split <;> rfl
@[simp] theorem tunerFailure_cfg (b : Bool) : (tunerFailure b s).cfg = s.cfg := by unfold tunerFailure; split <;> rfl
@[simp] theorem tunerFailure_prog (b : Bool) : (tunerFailure b s).prog = s.prog := by unfold tunerFailure; split <;> rfl
@[simp] theorem tunerFailure_inputs (b : Bool) : (tunerFailure b s).inputs = s.inputs := by unfold tunerFailure; split <;> rfl
@[simp] theorem applySelection_bank (f : Nat) (st : Station) : (applySelection f st s).bank = s.bank := by unfold applySelection; split <;> rfl
@[simp] theorem applySelection_clock (f : Nat) (st : Station) : (applySelection f st s).clock = s.clock := by unfold applySelection; split <;> rfl
@[simp] theorem applySelection_dec (f : Nat) (st : Station) : (applySelection f st s).dec = s.dec := by unfold applySelection; split <;> rfl
@[simp] theorem applySelection_wd (f : Nat) (st : Station) : (applySelection f st s).wd = s.wd := by unfold applySelection; split <;> rfl
@[simp] theorem applySelection_out (f : Nat) (st : Station) : (applySelection f st s).out = s.out := by unfold applySelection; split <;> rfl
@[simp] theorem applySelection_fault (f : Nat) (st : Station) : (applySelection f st s).fault = s.fault := by unfold applySelection; split <;> rfl
@[simp] theorem applySelection_cfg (f : Nat) (st : Station) : (applySelection f st s).cfg = s.cfg := by unfold applySelection; split <;> rfl
@[simp] theorem applySelection_prog (f : Nat) (st : Station) : (applySelection f st s).prog = s.prog := by unfold applySelection; split <;> rfl
@[simp] theorem applySelection_inputs (f : Nat) (st : Station) : (applySelection f st s).inputs = s.inputs := by unfold applySelection; split <;> rfl

theorem countErasure_cases : countErasure s = s ∨ ∃ n, countErasure s = s.withDec { s.dec with errcnt := n } ∨
    countErasure s = raiseAlarm 2 (s.withDec { s.dec with errcnt := n }) := by
  unfold countErasure
  split
  · refine .inr ⟨min (s.dec.errcnt + 1) Config.sat8, ?_⟩
    dsimp only
    split
    · exact .inr rfl
    · exact .inl rfl
  · exact .inl rfl

theorem miscDecide_cases (b : Nat) (v : F64) : miscDecide b v s = setMisc b true s ∨
    miscDecide b v s = setMisc b false s ∨ miscDecide b v s = raiseAlarm 1 s := by
  unfold miscDecide
  split
  · exact .inl rfl
  · split
    · exact .inr (.inl rfl)
    · exact .inr (.inr rfl)

theorem intervalDoubling_cases (d : Int) : ∃ inc, intervalDoubling d s = s.withEpoch { s.epoch with avginc := inc } ∨
    (s.epoch.k < Config.maxAvg ∧
      intervalDoubling d s = s.withEpoch { s.epoch with k := s.epoch.k + 1, avginc := 0 }) := by
  unfold intervalDoubling
  generalize (if (s.ssync && decide (d.natAbs ≤ 1)) = true then min (s.epoch.avginc + 1) Config.dblRun else 0) = inc
  dsimp only
  by_cases h : Config.dblRun ≤ inc ∧ s.epoch.k < Config.maxAvg
  · rw [if_pos h]; exact ⟨0, .inr ⟨h.2, rfl⟩⟩
  · rw [if_neg h]; exact ⟨inc, .inl rfl⟩

/-- What the watchdog update can do (60_exceptions.md R265). -/
theorem watchdogUpdate_cases :
    (watchdogExpired (watchdogCount s) = false ∧ watchdogUpdate s = s.withWd (watchdogCount s)) ∨
    (watchdogExpired (watchdogCount s) = true ∧ watchdogUpdate s = watchdogReset (s.withWd (watchdogCount s))) := by
  unfold watchdogUpdate
  cases h : watchdogExpired (watchdogCount s) <;> simp [h]
end

/-! Bits. -/

/-- A bit of a word after one bit is written. -/
theorem getLsbD_putBit {n : Nat} (w : BitVec n) {b : Nat} (hb : b < n) (v : Bool) (j : Nat) :
    (putBit w b v).getLsbD j = if j = b then v else w.getLsbD j := by
  have h1 : (1#n <<< b).getLsbD j = decide (j = b) := by
    simp only [BitVec.getLsbD_shiftLeft, BitVec.getLsbD_one]
    by_cases h : j = b
    · subst h
      have : 0 < n := by omega
      simp [hb, this]
    · by_cases hlt : j < b
      · simp [h, hlt]
      · have : j - b ≠ 0 := by omega
        simp [h, this]
  unfold putBit
  cases v
  · simp only [Bool.false_eq_true, if_false, BitVec.getLsbD_and, BitVec.getLsbD_not, h1]
    by_cases h : j = b
    · simp [h]
    · simp only [h, decide_false, Bool.not_false, if_false, Bool.and_true]
      by_cases hj : j < n
      · simp [hj]
      · simp [hj, BitVec.getLsbD_of_ge w j (by omega)]
  · simp only [if_true, BitVec.getLsbD_or, h1]
    by_cases h : j = b <;> simp [h]

/-- A status bit after a status bit is written. -/
theorem flag_setFlag (s : State) {b : Nat} (hb : b < 8) (v : Bool) (j : Nat) :
    (setFlag b v s).flag j = if j = b then v else s.flag j := getLsbD_putBit s.status hb v j

/-- A misc bit after a misc bit is written. -/
theorem miscBit_setMisc (s : State) {b : Nat} (hb : b < 7) (v : Bool) (j : Nat) :
    (setMisc b v s).miscBit j = if j = b then v else s.miscBit j := getLsbD_putBit s.dec.misc hb v j

/-- A bit of the alarm word after an alarm is raised (60_exceptions.md R262). -/
theorem alarm_raiseAlarm (s : State) {c : Nat} (hc : c < 4) (j : Nat) :
    (raiseAlarm c s).dec.alarm.getLsbD j = (decide (j = 4 * c) || s.dec.alarm.getLsbD j) := by
  have h := getLsbD_putBit s.dec.alarm (b := 4 * c) (by omega) true j
  simp only [putBit, if_true] at h
  show (s.dec.alarm ||| 1#16 <<< (4 * c)).getLsbD j = _
  rw [h]
  by_cases hj : j = 4 * c <;> simp [hj]

/-- The station field after it is written (10_state.md R40). -/
@[simp] theorem sel_setSel (s : State) (st : Option Station) :
    (setSel st s).sel = (match st with | none => Sel.none | some .a => Sel.a | some .b => Sel.b) := by
  have k0 : ∀ w : BitVec 8, ((((w &&& ~~~0x60#8) ||| (0#8 <<< 5)).extractLsb' 5 2).toNat) = 0 := by decide +kernel
  have k1 : ∀ w : BitVec 8, ((((w &&& ~~~0x60#8) ||| (1#8 <<< 5)).extractLsb' 5 2).toNat) = 1 := by decide +kernel
  have k2 : ∀ w : BitVec 8, ((((w &&& ~~~0x60#8) ||| (2#8 <<< 5)).extractLsb' 5 2).toNat) = 2 := by decide +kernel
  unfold State.sel State.selCode setSel
  rw [withStatus_status]
  cases st with
  | none => simp only [selBits, k0]
  | some x => cases x <;> simp only [selBits, k1, k2]

/-- Writing the station field keeps every flag. -/
theorem flag_setSel (s : State) (st : Option Station) {j : Nat} (h5 : j ≠ 5) (h6 : j ≠ 6) :
    (setSel st s).flag j = s.flag j := by
  have k0 : ∀ w : BitVec 8, ∀ j : Fin 8, j.val ≠ 5 → j.val ≠ 6 →
      ((w &&& ~~~0x60#8) ||| (0#8 <<< 5)).getLsbD j.val = w.getLsbD j.val := by decide +kernel
  have k1 : ∀ w : BitVec 8, ∀ j : Fin 8, j.val ≠ 5 → j.val ≠ 6 →
      ((w &&& ~~~0x60#8) ||| (1#8 <<< 5)).getLsbD j.val = w.getLsbD j.val := by decide +kernel
  have k2 : ∀ w : BitVec 8, ∀ j : Fin 8, j.val ≠ 5 → j.val ≠ 6 →
      ((w &&& ~~~0x60#8) ||| (2#8 <<< 5)).getLsbD j.val = w.getLsbD j.val := by decide +kernel
  show (((s.status &&& ~~~0x60#8) ||| (selBits st <<< 5))).getLsbD j = s.status.getLsbD j
  by_cases hj : j < 8
  · cases st with
    | none => exact k0 s.status ⟨j, hj⟩ h5 h6
    | some x => cases x with
      | a => exact k1 s.status ⟨j, hj⟩ h5 h6
      | b => exact k2 s.status ⟨j, hj⟩ h5 h6
  · rw [BitVec.getLsbD_of_ge _ j (by omega), BitVec.getLsbD_of_ge _ j (by omega)]

/-- Writing a flag keeps the station field. -/
theorem sel_setFlag (s : State) {b : Nat} (hb : b < 8) (h5 : b ≠ 5) (h6 : b ≠ 6) (v : Bool) :
    (setFlag b v s).sel = s.sel := by
  have key : ∀ w : BitVec 8, ∀ b : Fin 8, b.val ≠ 5 → b.val ≠ 6 → ∀ v : Bool,
      (putBit w b.val v).extractLsb' 5 2 = w.extractLsb' 5 2 := by decide +kernel
  have h := key s.status ⟨b, hb⟩ h5 h6 v
  unfold State.sel State.selCode setFlag
  rw [withStatus_status]
  simp only at h
  rw [h]

/-! What an outcome or a rule can answer. -/

/-- The two ways an operation answers a next state (60_exceptions.md R260). -/
theorem commit_next {s t : State} {r : Res State} :
    commit s r = .next t ↔ r = .ok t ∨ ∃ f, r = .error f ∧ t = takeFault s f := by
  cases r with
  | ok u => simp [commit]
  | error f => simp [commit, eq_comm]

/-- A committed operation always answers a next state. -/
theorem commit_cases (s : State) (r : Res State) : ∃ t, commit s r = .next t := by
  cases r <;> exact ⟨_, rfl⟩

/-- Every ROM action is the commit of its rule (43_bcd_decoder.md R220). -/
theorem exec_romAction {i : Instr} (h : i.isRom = true) (s : State) : exec i s = commit s (romAction i s) := by
  cases i <;> first | rfl | simp [Instr.isRom] at h

theorem storeBcd_ok {i : Nat} {v : F64} {s t : State} :
    storeBcd i v s = .ok t ↔ i < 4 ∧ t = s.withDec { s.dec with bcd := s.dec.bcd.put i v } := by
  unfold storeBcd
  simp only [res_bind_ok, arrWrite_ok]
  constructor
  · rintro ⟨a, ⟨h, rfl⟩, e⟩; exact ⟨h, (Except.ok.inj e).symm⟩
  · rintro ⟨h, rfl⟩; exact ⟨_, ⟨h, rfl⟩, rfl⟩

theorem readDigit_ok {s : State} {p : Nat} {d : DigitVec} :
    readDigit s p = .ok d ↔ p < Config.nDig ∧ s.dec.digits[p]? = some d := by
  unfold readDigit
  by_cases hp : p < Config.nDig
  · rw [if_pos hp]; cases h : s.dec.digits[p]? <;> simp [hp]
  · rw [if_neg hp]; simp [hp]

theorem readChan_ok {s : State} {f : Nat} {c : ByStation ChanRec} :
    readChan s f = .ok c ↔ s.acq.chan[f]? = some c := by
  unfold readChan; cases s.acq.chan[f]? <;> simp

theorem sinRead_ok {i : Nat} {v : F64} : sinRead i = .ok v ↔ sintab[i]? = some v := by
  unfold sinRead; cases sintab[i]? <;> simp

theorem fetchWord_ok {s : State} {w : BitVec 8} : fetchWord s = .ok w ↔ s.prog[s.dec.rsec]? = some w := by
  unfold fetchWord; cases s.prog[s.dec.rsec]? <;> simp

/-- What a misc update can answer (43_bcd_decoder.md R211). -/
theorem miscUpdate_ok {b : Nat} {s t : State} :
    miscUpdate b s = .ok t ↔ b < Config.nMisc ∧ (miscNext s b).isFinite = true ∧
      t = miscDecide b (miscNext s b)
        (s.withDec { s.dec with miscp := s.dec.miscp.put b (miscNext s b) }) := by
  unfold miscUpdate
  simp only [res_bind_ok, arrRead_ok, arrWrite_ok, finite_ok]
  constructor
  · rintro ⟨_, ⟨h, -⟩, v, ⟨hf, rfl⟩, a, ⟨-, rfl⟩, e⟩; exact ⟨h, hf, (Except.ok.inj e).symm⟩
  · rintro ⟨h, hf, rfl⟩; exact ⟨_, ⟨h, rfl⟩, _, ⟨hf, rfl⟩, _, ⟨h, rfl⟩, rfl⟩

/-- What a digit decode can answer (R207 to R210). -/
theorem decimAction_ok {p : Nat} {s t : State} :
    decimAction p s = .ok t ↔ ∃ d like, readDigit s p = .ok d ∧
      smoothLikes s.cfg s.dec.bcd (radix p) d.like = .ok like ∧
      t = (let r := decodeDigit s.cfg (radix p) like d
           let u := writeDigit s p r.1
           let u := if r.2 then setFlag bitDlock true u else u
           if phaseOf (radix p) (mlOf (radix p) like) d ≠ 0 then raiseAlarm 0 u else u) := by
  unfold decimAction
  simp only [res_bind_ok]
  constructor
  · rintro ⟨d, hd, like, hl, e⟩; exact ⟨d, like, hd, hl, (Except.ok.inj e).symm⟩
  · rintro ⟨d, like, hd, hl, rfl⟩; exact ⟨d, hd, like, hl, rfl⟩

/-- Smoothing the likelihoods keeps the canonical form. -/
theorem smoothLikes_wf {cfg : Config.Cfg} {bcd a : RealArray} {n r : Nat} {b : RealArray} (hr : r ≤ n)
    (h : a.wf n = true) (hs : smoothLikes cfg bcd r a = .ok b) : b.wf n = true := by
  induction r generalizing b with
  | zero =>
    simp only [smoothLikes, Except.ok.injEq] at hs
    exact hs ▸ h
  | succ d ih =>
    simp only [smoothLikes, res_bind_ok] at hs
    obtain ⟨c, hc, v, -, e⟩ := hs
    cases e
    exact put_wf (ih (by omega) hc) (by omega) v

/-- Turning the likelihoods keeps the canonical form. -/
theorem rotateFrom_wf {old a : RealArray} {n r : Nat} (hr : 0 < r) (hn : r ≤ n) (d : Nat) (h : a.wf n = true) :
    (rotateFrom old r d a).wf n = true := by
  induction d with
  | zero => exact h
  | succ d ih => exact put_wf ih (Nat.lt_of_lt_of_le (Nat.mod_lt _ hr) hn) _

/-- What a carry can answer (44_clock_and_minute.md R244). -/
theorem carry_ok {p : Nat} {s t : State} {c : Bool} :
    carry p s = .ok (t, c) ↔ ∃ d, readDigit s p = .ok d ∧ t = writeDigit s p (carryDigit (radix p) d) ∧
      c = ((carryDigit (radix p) d).digit == 0) := by
  unfold carry
  simp only [res_bind_ok]
  constructor
  · rintro ⟨d, hd, e⟩
    have := Except.ok.inj e
    injection this with h1 h2
    exact ⟨d, hd, h1.symm, h2.symm⟩
  · rintro ⟨d, hd, rfl, rfl⟩; exact ⟨d, hd, rfl⟩

/-- What the measures of a pulse can be (42_station_acquisition.md R178). -/
theorem measure_ok {m : Scan} {c : ChanRec} {x : Measures} :
    measure m c = .ok x ↔ m.Measurable ∧ x = ⟨m.emax.sqrt, scanSnr m, wrapdiff Config.minute m.pos c.pos⟩ := by
  unfold measure
  simp only [res_bind_ok, finite_ok]
  constructor
  · rintro ⟨_, ⟨h1, rfl⟩, _, ⟨h2, rfl⟩, e⟩; exact ⟨⟨h1, h2⟩, (Except.ok.inj e).symm⟩
  · rintro ⟨⟨h1, h2⟩, rfl⟩; exact ⟨_, ⟨h1, rfl⟩, _, ⟨h2, rfl⟩, rfl⟩

/-- What the update of a channel record can answer (R180, R186). -/
theorem updateChan_ok {down : Nat → Nat} {st : Station} {s t : State} {pass : Bool} :
    updateChan down st s = .ok (t, pass) ↔ ∃ pair m, s.acq.chan[s.acq.pchan]? = some pair ∧
      measure (s.acq.ms.get st) (pair.get st) = .ok m ∧ pass = gate s.cfg m (pair.get st) ∧
      t = writeChan s s.acq.pchan st
        { amp := m.amp, snr := m.snr, jitter := m.jitter, pos := (s.acq.ms.get st).pos
          count := if pass then countUp (pair.get st).count else down (pair.get st).count } := by
  unfold updateChan
  simp only [res_bind_ok, readChan_ok]
  constructor
  · rintro ⟨pair, hp, m, hm, e⟩
    have := Except.ok.inj e
    injection this with h1 h2
    exact ⟨pair, m, hp, hm, h2.symm, by rw [← h1, ← h2]⟩
  · rintro ⟨pair, m, hp, hm, rfl, rfl⟩; exact ⟨pair, hp, m, hm, rfl⟩

/-- What the minute end can answer (44_clock_and_minute.md R246). -/
theorem minuteEnd_ok {s t : State} :
    minuteEnd s = .ok t ↔ ∃ r, timeRecord (restartAbs (declareInsync (declareDsync s))) = .ok r ∧
      t = restartErrors (ageAlarm ((restartAbs (declareInsync (declareDsync s))).withOut
        { s.out with timerec := r, timerecStrobe := true })) := by
  unfold minuteEnd emitRecord
  simp only [res_bind_ok]
  constructor
  · rintro ⟨_, ⟨r, hr, e⟩, e'⟩
    have h1 := Except.ok.inj e
    subst h1
    exact ⟨r, hr, by simpa using (Except.ok.inj e').symm⟩
  · rintro ⟨r, hr, rfl⟩
    exact ⟨_, ⟨r, hr, rfl⟩, by simp [pure, Except.pure]⟩

/-- What a receiver second can answer (43_bcd_decoder.md R200). -/
theorem receiverSecond_ok {s t : State} :
    receiverSecond s = .ok t ↔ ∃ w u, fetchWord (countErasure s) = .ok w ∧
      romAction (decodeRom w) (countErasure s) = .ok u ∧ t = rsecAdvance u := by
  unfold receiverSecond
  simp only [res_bind_ok]
  constructor
  · rintro ⟨w, hw, u, hu, e⟩; exact ⟨w, u, hw, hu, (Except.ok.inj e).symm⟩
  · rintro ⟨w, u, hw, hu, rfl⟩; exact ⟨w, hw, u, hu, rfl⟩

/-- What a conditional rule can answer. -/
theorem runIf_ok {c : Bool} {rule : State → Res State} {s t : State} :
    runIf c rule s = .ok t ↔ (c = true ∧ rule s = .ok t) ∨ (c = false ∧ t = s) := by
  cases c <;> simp [runIf, eq_comm]

/-- What a raw minute can answer (42_station_acquisition.md R175). -/
theorem rawMinute_ok {s t : State} :
    rawMinute s = .ok t ↔ (s.msync = true ∧ t = watchdogUpdate s) ∨
      (s.msync = false ∧ ∃ u, acquisition s = .ok u ∧ t = ageAlarm (watchdogUpdate (scanReset u))) := by
  unfold rawMinute
  simp only [res_bind_ok, runIf_ok, res_map_ok]
  cases s.msync
  · constructor
    · rintro ⟨_, ⟨-, u, hu, rfl⟩ | ⟨h, -⟩, e⟩
      · exact .inr ⟨rfl, u, hu, (Except.ok.inj e).symm⟩
      · cases h
    · rintro (⟨h, -⟩ | ⟨-, u, hu, rfl⟩)
      · cases h
      · exact ⟨_, .inl ⟨rfl, u, hu, rfl⟩, rfl⟩
  · constructor
    · rintro ⟨_, ⟨h, -⟩ | ⟨-, rfl⟩, e⟩
      · cases h
      · exact .inl ⟨rfl, (Except.ok.inj e).symm⟩
    · rintro (⟨-, rfl⟩ | ⟨h, -⟩)
      · exact ⟨s, .inr ⟨rfl, rfl⟩, rfl⟩
      · cases h

/-- What the acquisition step can answer (R180 to R183). -/
theorem acquisition_ok {s t : State} :
    acquisition s = .ok t ↔ ∃ u pA v pB pair, updateChan (fun _ => 0) .a s = .ok (u, pA) ∧
      updateChan (fun _ => 0) .b u = .ok (v, pB) ∧ v.acq.chan[v.acq.pchan]? = some pair ∧
      t = acceptOrAdvance pair v := by
  unfold acquisition
  simp only [res_bind_ok, readChan_ok, Prod.exists]
  constructor
  · rintro ⟨u, pA, hu, v, pB, hv, pair, hp, e⟩
    exact ⟨u, pA, v, pB, pair, hu, hv, hp, (Except.ok.inj e).symm⟩
  · rintro ⟨u, pA, v, pB, pair, hu, hv, hp, rfl⟩
    exact ⟨u, pA, hu, v, pB, hv, pair, hp, rfl⟩

/-- What follows from the two counts of the probed frequency (R181 to R183). -/
theorem acceptOrAdvance_cases (pair : ByStation ChanRec) (s : State) :
    (∃ w, winner pair.a.count pair.b.count = some w ∧
      acceptOrAdvance pair s = acceptStation w (pair.get w).pos s) ∨
    (winner pair.a.count pair.b.count = none ∧ pair.a.count = 0 ∧ pair.b.count = 0 ∧
      acceptOrAdvance pair s = probeAdvance s) ∨
    (winner pair.a.count pair.b.count = none ∧ ¬(pair.a.count = 0 ∧ pair.b.count = 0) ∧
      acceptOrAdvance pair s = s) := by
  unfold acceptOrAdvance
  cases winner pair.a.count pair.b.count with
  | some w => exact .inl ⟨w, rfl, rfl⟩
  | none =>
    by_cases hc : pair.a.count = 0 ∧ pair.b.count = 0
    · exact .inr (.inl ⟨rfl, hc.1, hc.2, if_pos hc⟩)
    · exact .inr (.inr ⟨rfl, hc, if_neg hc⟩)

/-- What the close of a probe window can answer (R186 to R192). -/
theorem probeClose_ok {s t : State} :
    probeClose s = .ok t ↔ ∃ u pA v pB w x,
      updateChan (· - 1) .a (s.withAcq { s.acq with win := false }) = .ok (u, pA) ∧
      updateChan (· - 1) .b u = .ok (v, pB) ∧ channelErrors (!pA && !pB) v = .ok w ∧
      endOfRotation w = .ok x ∧ t = rotateProbe x := by
  unfold probeClose
  simp only [res_bind_ok, Prod.exists]
  constructor
  · rintro ⟨u, pA, hu, v, pB, hv, w, hw, x, hx, e⟩
    exact ⟨u, pA, v, pB, w, x, hu, hv, hw, hx, (Except.ok.inj e).symm⟩
  · rintro ⟨u, pA, v, pB, w, x, hu, hv, hw, hx, rfl⟩
    exact ⟨u, pA, hu, v, pB, hv, w, hw, x, hx, rfl⟩

/-- What the per-channel error counter can answer (R187). -/
theorem channelErrors_ok {both : Bool} {s t : State} :
    channelErrors both s = .ok t ↔ ∃ n, s.acq.cherr[s.acq.pchan]? = some n ∧
      t = s.withAcq { s.acq with
        cherr := s.acq.cherr.set s.acq.pchan (if both then min (n + 1) Config.sat8 else 0) } := by
  unfold channelErrors
  cases s.acq.cherr[s.acq.pchan]? <;> simp [eq_comm]

/-- What the end of a rotation can answer (R188 to R190). -/
theorem endOfRotation_ok {s t : State} :
    endOfRotation s = .ok t ↔ (s.acq.pchan = 4 ∧ ∃ b, bestChannel s selectionOrder none = .ok b ∧ t = useBest s b) ∨
      (s.acq.pchan ≠ 4 ∧ t = s) := by
  unfold endOfRotation
  by_cases h : s.acq.pchan = 4
  · rw [if_pos h, res_map_ok]
    constructor
    · rintro ⟨b, hb, rfl⟩; exact .inl ⟨h, b, hb, rfl⟩
    · rintro (⟨-, b, hb, rfl⟩ | ⟨h', -⟩)
      · exact ⟨b, hb, rfl⟩
      · exact absurd h h'
  · rw [if_neg h]
    constructor
    · intro e; exact .inr ⟨h, (Except.ok.inj e).symm⟩
    · rintro (⟨h', -⟩ | ⟨-, rfl⟩)
      · exact absurd h' h
      · rfl

/-- What a raw second can answer (41_epoch_tracker_fll.md R152). -/
theorem rawSecond_ok {s t : State} :
    rawSecond s = .ok t ↔ ∃ u v,
      epochUpdate (s.withClock { s.clock with mphase := (s.clock.mphase + 1) % 60 }) = .ok u ∧
      intervalStep u = .ok v ∧
      ((s.clock.mphase + 1 = 60 ∧ rawMinute (syncCheck v) = .ok t) ∨
       (s.clock.mphase + 1 ≠ 60 ∧ t = syncCheck v)) := by
  unfold rawSecond
  simp only [res_bind_ok, runIf_ok, beq_iff_eq, beq_eq_false_iff_ne]
  constructor
  · rintro ⟨u, hu, v, hv, h⟩; exact ⟨u, v, hu, hv, h⟩
  · rintro ⟨u, v, hu, hv, h⟩; exact ⟨u, hu, v, hv, h⟩

/-- What the epoch update can answer (R153 to R156): signal loss, an acceptance or rejection without a latch, or a latch. -/
theorem epochUpdate_ok {s t : State} :
    epochUpdate s = .ok t ↔ ∃ best hist u, best = s.epoch.comb.argmax Config.second ∧
      hist = histPush s.epoch.hist best.1 ∧
      u = s.withEpoch { s.epoch with hist := hist, span := histSpan hist } ∧
      (((best.2.lt s.cfg.sthr = true ∨ s.sel = .none) ∧ t = dropSecondSync u) ∨
       (¬(best.2.lt s.cfg.sthr = true ∨ s.sel = .none) ∧ ∃ v, v = u.withEpoch (epochStep u.epoch (histMedian hist)) ∧
         ((epochAccepted u.epoch (histMedian hist) = true ∧ Config.sCmp ≤ v.epoch.scmp ∧ latchOffsets v = .ok t) ∨
          (¬(epochAccepted u.epoch (histMedian hist) = true ∧ Config.sCmp ≤ v.epoch.scmp) ∧ t = v)))) := by
  unfold epochUpdate
  constructor
  · intro h
    refine ⟨_, _, _, rfl, rfl, rfl, ?_⟩
    dsimp only at h
    split at h
    · next hc =>
      rw [Bool.or_eq_true, decide_eq_true_eq] at hc
      exact .inl ⟨hc, (Except.ok.inj h).symm⟩
    · next hc =>
      rw [Bool.or_eq_true, decide_eq_true_eq] at hc
      refine .inr ⟨hc, _, rfl, ?_⟩
      split at h
      · next ha =>
        rw [Bool.and_eq_true, decide_eq_true_eq] at ha
        exact .inl ⟨ha.1, ha.2, h⟩
      · next ha =>
        rw [Bool.and_eq_true, decide_eq_true_eq] at ha
        exact .inr ⟨ha, (Except.ok.inj h).symm⟩
  · rintro ⟨best, hist, u, rfl, rfl, rfl, h⟩
    dsimp only
    rcases h with ⟨hc, rfl⟩ | ⟨hc, v, rfl, h⟩
    · rw [if_pos (by rw [Bool.or_eq_true, decide_eq_true_eq]; exact hc)]
    · rw [if_neg (by rw [Bool.or_eq_true, decide_eq_true_eq]; exact hc)]
      rcases h with ⟨h1, h2, h3⟩ | ⟨h1, rfl⟩
      · rw [if_pos (by rw [Bool.and_eq_true, decide_eq_true_eq]; exact ⟨h1, h2⟩)]; exact h3
      · rw [if_neg (by rw [Bool.and_eq_true, decide_eq_true_eq]; exact h1)]

/-- What the offset latch can answer (R156). -/
theorem latchOffsets_ok {s t : State} :
    latchOffsets s = .ok t ↔ ∃ delay, selDelay s = .ok delay ∧
      t = (setFlag bitSsync true s).withEpoch { s.epoch with
        rsecStart := imod (s.epoch.tepoch - (Config.tckSiz - 1 : Nat)) Config.second
        tsecStart := imod (imod (s.epoch.tepoch - (Config.tckSiz - 1 : Nat)) Config.second - delay)
          Config.second } := by
  unfold latchOffsets
  simp only [res_bind_ok]
  constructor
  · rintro ⟨d, hd, e⟩; exact ⟨d, hd, (Except.ok.inj e).symm⟩
  · rintro ⟨d, hd, rfl⟩; exact ⟨d, hd, rfl⟩

/-- What the frequency update can answer (R160). -/
theorem frequencyUpdate_ok {d : Int} {s t : State} :
    frequencyUpdate d s = .ok t ↔
      (s.ssync = true ∧ (freqNext d s.epoch.k s.clock.freq).isFinite = true ∧
        t = s.withClock { s.clock with freq := freqNext d s.epoch.k s.clock.freq }) ∨
      (s.ssync = false ∧ t = s) := by
  unfold frequencyUpdate
  cases s.ssync
  · constructor
    · intro e; exact .inr ⟨rfl, (Except.ok.inj e).symm⟩
    · rintro (⟨h, -⟩ | ⟨-, rfl⟩)
      · cases h
      · rfl
  · simp only [if_true, res_map_ok, finite_ok]
    constructor
    · rintro ⟨f, ⟨hf, rfl⟩, rfl⟩; exact .inl ⟨trivial, hf, rfl⟩
    · rintro (⟨-, hf, rfl⟩ | ⟨h, -⟩)
      · exact ⟨_, ⟨hf, rfl⟩, rfl⟩
      · cases h

/-- What the interval counter can answer (R158 to R161). -/
theorem intervalStep_ok {s t : State} :
    intervalStep s = .ok t ↔
      (2 ^ s.epoch.k ≤ s.epoch.avgcnt + 1 ∧ intervalEnd (s.withEpoch { s.epoch with avgcnt := 0 }) = .ok t) ∨
      (¬ 2 ^ s.epoch.k ≤ s.epoch.avgcnt + 1 ∧ t = s.withEpoch { s.epoch with avgcnt := s.epoch.avgcnt + 1 }) := by
  unfold intervalStep
  by_cases h : 2 ^ s.epoch.k ≤ s.epoch.avgcnt + 1 <;> simp [h, eq_comm]

/-- What the end of an averaging interval can answer (R159 to R161). -/
theorem intervalEnd_ok {s t : State} :
    intervalEnd s = .ok t ↔ ∃ u, frequencyUpdate (driftOf s.epoch)
      (s.withEpoch { s.epoch with tepochRef := s.epoch.tepoch }) = .ok u ∧
      t = intervalDoubling (driftOf s.epoch) u := by
  unfold intervalEnd
  simp only [res_bind_ok]
  constructor
  · rintro ⟨u, hu, e⟩; exact ⟨u, hu, (Except.ok.inj e).symm⟩
  · rintro ⟨u, hu, rfl⟩; exact ⟨u, hu, rfl⟩

/-- What a transmitter second can answer (44_clock_and_minute.md R240). -/
theorem transmitterSecond_ok {s t : State} :
    transmitterSecond s = .ok t ↔ ∃ u, tsecNext s = .ok u ∧
      ((u.dec.tsec = 0 ∧ clockAdvance u = .ok t) ∨ (u.dec.tsec ≠ 0 ∧ t = u)) := by
  unfold transmitterSecond
  simp only [res_bind_ok, runIf_ok, beq_iff_eq, beq_eq_false_iff_ne, ne_eq]

/-- What the new transmitter second can be (R240 to R243). -/
theorem tsecNext_ok {s t : State} :
    tsecNext s = .ok t ↔
      (s.dec.tsec = 59 ∧ ∃ c, clockFields s = .ok c ∧
        t = endSecond59 (if leapDue s c then setFlag bitLeap true s else s)) ∨
      (s.dec.tsec = 60 ∧ t = setTsec 0 s) ∨
      (s.dec.tsec ≠ 59 ∧ s.dec.tsec ≠ 60 ∧ t = setTsec (s.dec.tsec + 1) s) := by
  unfold tsecNext leapCheck
  by_cases h : s.dec.tsec = 59
  · simp only [h, if_true, res_map_ok]
    constructor
    · rintro ⟨_, ⟨c, hc, rfl⟩, rfl⟩; exact .inl ⟨trivial, c, hc, rfl⟩
    · rintro (⟨-, c, hc, rfl⟩ | ⟨h', -⟩ | ⟨h', -⟩)
      · exact ⟨_, ⟨c, hc, rfl⟩, rfl⟩
      · omega
      · exact absurd rfl h'
  · rw [if_neg h]
    by_cases h' : s.dec.tsec = 60
    · rw [if_pos h']
      constructor
      · intro e; exact .inr (.inl ⟨h', (Except.ok.inj e).symm⟩)
      · rintro (⟨e, -⟩ | ⟨-, rfl⟩ | ⟨-, e, -⟩)
        · exact absurd e h
        · rfl
        · exact absurd h' e
    · rw [if_neg h']
      constructor
      · intro e; exact .inr (.inr ⟨h, h', (Except.ok.inj e).symm⟩)
      · rintro (⟨e, -⟩ | ⟨e, -⟩ | ⟨-, -, rfl⟩)
        · exact absurd e h
        · exact absurd e h'
        · rfl

/-- What the clock advance can answer (R245). -/
theorem clockAdvance_ok {s t : State} :
    clockAdvance s = .ok t ↔ ∃ u c, carry 0 s = .ok (u, c) ∧ carryChain [1, 2, 3, 4, 5, 6, 7, 8] c u = .ok t := by
  unfold clockAdvance
  simp only [res_bind_ok, Prod.exists]

/-- What one link of the carry chain can answer (R245). -/
theorem carryChain_cons_ok {p : Nat} {rest : List Nat} {c : Bool} {s t : State} :
    carryChain (p :: rest) c s = .ok t ↔
      (c = true ∧ s.dsync = true ∧ ∃ u c', carry p s = .ok (u, c') ∧ carryChain rest c' u = .ok t) ∨
      (¬(c = true ∧ s.dsync = true) ∧ t = s) := by
  rw [carryChain]
  by_cases h : c = true ∧ s.dsync = true
  · rw [if_pos (by simpa using h)]
    simp only [res_bind_ok, Prod.exists, h.1, h.2, true_and, not_true_eq_false, false_and, or_false]
  · rw [if_neg (by simpa using h)]
    constructor
    · intro e; exact .inr ⟨h, (Except.ok.inj e).symm⟩
    · rintro (⟨h1, h2, -⟩ | ⟨-, rfl⟩)
      · exact absurd ⟨h1, h2⟩ h
      · rfl

/-- What the scan accumulation can answer (42_station_acquisition.md R176). -/
theorem scanAccumulate_ok {em : ByStation F64} {s t : State} :
    scanAccumulate em s = .ok t ↔ (scanPos s = none ∧ t = s) ∨
      (∃ q mA mB, scanPos s = some q ∧ scanAdd em.a q s.acq.ms.a = .ok mA ∧ scanAdd em.b q s.acq.ms.b = .ok mB ∧
        t = s.withAcq { s.acq with ms := ⟨mA, mB⟩ }) := by
  unfold scanAccumulate
  cases h : scanPos s with
  | none => simp [eq_comm]
  | some q =>
    simp only [res_bind_ok]
    constructor
    · rintro ⟨a, ha, b, hb, e⟩; exact .inr ⟨q, a, b, rfl, ha, hb, (Except.ok.inj e).symm⟩
    · rintro (⟨h', -⟩ | ⟨q', a, b, hq, ha, hb, rfl⟩)
      · cases h'
      · cases hq; exact ⟨a, ha, b, hb, rfl⟩

/-- What the accumulation of one scan can answer (R176). -/
theorem scanAdd_ok {em : F64} {q : Nat} {m m' : Scan} :
    scanAdd em q m = .ok m' ↔ (m.esum.add em).isFinite = true ∧
      m' = { emax := if m.emax.lt em then em else m.emax
             pos := if m.emax.lt em then q else m.pos
             esum := m.esum.add em
             n := m.n + 1 } := by
  unfold scanAdd
  simp only [res_bind_ok, finite_ok]
  constructor
  · rintro ⟨_, ⟨hf, rfl⟩, e⟩
    refine ⟨hf, ?_⟩
    rw [← Except.ok.inj e]
    cases m.emax.lt em <;> rfl
  · rintro ⟨hf, rfl⟩
    refine ⟨_, ⟨hf, rfl⟩, ?_⟩
    cases m.emax.lt em <;> rfl

/-- What the comb update can answer (41_epoch_tracker_fll.md R150). -/
theorem combUpdate_ok {e : F64} {s t : State} :
    combUpdate e s = .ok t ↔ s.clock.rphase < Config.second ∧
      ((s.epoch.comb.get s.clock.rphase).add
        ((e.sub (s.epoch.comb.get s.clock.rphase)).div s.cfg.combTc)).isFinite = true ∧
      t = s.withEpoch { s.epoch with
        comb := (s.epoch.comb.put s.clock.rphase
          ((s.epoch.comb.get s.clock.rphase).add
            ((e.sub (s.epoch.comb.get s.clock.rphase)).div s.cfg.combTc))) } := by
  unfold combUpdate
  simp only [res_bind_ok, arrRead_ok, arrWrite_ok, finite_ok]
  constructor
  · rintro ⟨_, ⟨h, rfl⟩, _, ⟨hf, rfl⟩, _, ⟨-, rfl⟩, e⟩; exact ⟨h, hf, (Except.ok.inj e).symm⟩
  · rintro ⟨h, hf, rfl⟩; exact ⟨_, ⟨h, rfl⟩, _, ⟨hf, rfl⟩, _, ⟨h, rfl⟩, rfl⟩

/-- What the envelope-buffer write can answer (43_bcd_decoder.md R219). -/
theorem envelopeWrite_ok {e : F64} {s t : State} :
    envelopeWrite e s = .ok t ↔ imod (s.clock.rphase - s.epoch.rsecStart) Config.second < Config.second ∧
      t = s.withDec { s.dec with
        dbuf := s.dec.dbuf.put (imod (s.clock.rphase - s.epoch.rsecStart) Config.second) e } := by
  unfold envelopeWrite
  simp only [res_bind_ok, arrWrite_ok]
  constructor
  · rintro ⟨_, ⟨h, rfl⟩, e⟩; exact ⟨h, (Except.ok.inj e).symm⟩
  · rintro ⟨h, rfl⟩; exact ⟨_, ⟨h, rfl⟩, rfl⟩

/-- What the signal part of a sample step can answer (70_reset_and_hazards.md R285, steps 1 to 4). -/
theorem signalStep_ok {s t : State} :
    signalStep s = .ok t ↔ ∃ o bank u v,
      demodUpdate s.cfg s.sel s.pins.x s.bank = .ok (o, bank) ∧
      envelopeWrite o.eData ((s.withOut { s.out with timerecStrobe := false }).withBank bank) = .ok u ∧
      scanAccumulate o.em u = .ok v ∧ combUpdate o.eSel v = .ok t := by
  unfold signalStep
  simp only [res_bind_ok, Prod.exists]
  constructor
  · rintro ⟨o, bank, hd, u, hu, v, hv, h⟩; exact ⟨o, bank, u, v, hd, hu, hv, h⟩
  · rintro ⟨o, bank, u, v, hd, hu, hv, h⟩; exact ⟨o, bank, hd, u, hu, v, hv, h⟩

/-- What a sample step can answer (70_reset_and_hazards.md R285). -/
theorem sampleStep_ok {s t : State} :
    sampleStep s = .ok t ↔ ∃ u v, signalStep s = .ok u ∧
      eventStep (advanceOf u.clock) s.msync s.epoch.tsecStart s.epoch.rsecStart (clockStep u) = .ok v ∧
      t = tunerFailure s.pins.tuneFail v := by
  unfold sampleStep
  simp only [res_bind_ok]
  constructor
  · rintro ⟨u, hu, v, hv, e⟩; exact ⟨u, v, hu, hv, (Except.ok.inj e).symm⟩
  · rintro ⟨u, v, hu, hv, rfl⟩; exact ⟨u, hu, v, hv, rfl⟩

/-- What the events of a sample step can answer: each of the three either runs or leaves the state (R285, R291). -/
theorem eventStep_ok {a : Advance} {m0 : Bool} {t0 r0 : Nat} {s t : State} :
    eventStep a m0 t0 r0 s = .ok t ↔ ∃ u v, runIf a.wrapped rawSecond s = .ok u ∧
      runIf (m0 && u.msync && a.crossed t0) transmitterSecond u = .ok v ∧
      runIf (m0 && v.msync && a.crossed r0) receiverSecond v = .ok t := by
  unfold eventStep
  simp only [res_bind_ok]
  constructor
  · rintro ⟨u, hu, v, hv, e⟩; exact ⟨u, v, hu, hv, e⟩
  · rintro ⟨u, v, hu, hv, e⟩; exact ⟨u, hu, v, hv, e⟩

/-- What one step can answer (R280, R285): nothing happens, a host reset, a faulted core that stays as it is, a
sample step, or a model fault. -/
theorem step_next {s t : State} (h : step s = .next t) :
    (s.pins.reset = false ∧ s.pins.strobe = false ∧ t = s.nextCycle) ∨
    (s.pins.reset = true ∧ cfgValid s.pins.cfg = true ∧ t = (hostReset s).nextCycle) ∨
    (s.pins.reset = false ∧ s.pins.strobe = true ∧ s.fault ≠ none ∧ t = s.nextCycle) ∨
    (s.pins.reset = false ∧ s.pins.strobe = true ∧ s.fault = none ∧ ∃ u, sampleStep s = .ok u ∧ t = u.nextCycle) ∨
    (s.pins.reset = false ∧ s.pins.strobe = true ∧ s.fault = none ∧
      ∃ f, sampleStep s = .error f ∧ t = (takeFault s f).nextCycle) := by
  unfold step currentOp at h
  cases hr : s.pins.reset
  · cases hs : s.pins.strobe
    · simp only [hr, hs, Bool.false_eq_true, if_false, Host.Outcome.next.injEq] at h
      exact .inl ⟨rfl, rfl, h.symm⟩
    · simp only [hr, hs, Bool.false_eq_true, if_false, if_true, exec, execSample] at h
      cases hf : s.fault with
      | some f =>
        simp only [hf, finishCycle, Host.Outcome.next.injEq] at h
        exact .inr (.inr (.inl ⟨rfl, rfl, by simp, h.symm⟩))
      | none =>
        simp only [hf] at h
        cases hx : sampleStep s with
        | ok u =>
          simp only [hx, commit, finishCycle, Host.Outcome.next.injEq] at h
          exact .inr (.inr (.inr (.inl ⟨rfl, rfl, rfl, u, rfl, h.symm⟩)))
        | error f =>
          simp only [hx, commit, finishCycle, Host.Outcome.next.injEq] at h
          exact .inr (.inr (.inr (.inr ⟨rfl, rfl, rfl, f, rfl, h.symm⟩)))
  · simp only [hr, if_true, exec, execReset] at h
    split at h
    · next hv =>
      simp only [finishCycle, Host.Outcome.next.injEq] at h
      exact .inr (.inl ⟨rfl, hv, h.symm⟩)
    · simp [finishCycle] at h

end Sys2Proof.Machine
end

