-- ==== Sys2Proof/Laws/Frames.lean ====
section
/-! SUPPORT. What no rule writes: the fault register, the configuration, the dispatch ROM and the host's cycles. One
lemma for each rule. -/

namespace Sys2Proof.Machine

/-- The fault register, the configuration, the ROM and the host's cycles of one state are those of another. -/
structure Kept (s t : State) : Prop where
  fault : t.fault = s.fault
  cfg : t.cfg = s.cfg
  prog : t.prog = s.prog
  inputs : t.inputs = s.inputs

theorem Kept.refl (s : State) : Kept s s := ⟨rfl, rfl, rfl, rfl⟩

theorem Kept.trans {s t u : State} (h : Kept s t) (h' : Kept t u) : Kept s u :=
  ⟨h'.fault.trans h.fault, h'.cfg.trans h.cfg, h'.prog.trans h.prog, h'.inputs.trans h.inputs⟩

/-- The same with the later step first. -/
theorem Kept.after {s t u : State} (h' : Kept t u) (h : Kept s t) : Kept s u := h.trans h'

section
variable {s t : State}

theorem storeBcd_kept {i : Nat} {v : F64} (h : storeBcd i v s = .ok t) : Kept s t := by
  obtain ⟨-, rfl⟩ := storeBcd_ok.mp h
  exact ⟨rfl, rfl, rfl, rfl⟩

theorem miscDecide_kept (b : Nat) (v : F64) (s : State) : Kept s (miscDecide b v s) := by
  rcases miscDecide_cases s b v with h | h | h <;> rw [h] <;> exact ⟨rfl, rfl, rfl, rfl⟩

theorem miscUpdate_kept {b : Nat} (h : miscUpdate b s = .ok t) : Kept s t := by
  obtain ⟨-, -, rfl⟩ := miscUpdate_ok.mp h
  exact (miscDecide_kept _ _ _).after ⟨rfl, rfl, rfl, rfl⟩

theorem decimAction_kept {p : Nat} (h : decimAction p s = .ok t) : Kept s t := by
  obtain ⟨d, like, -, -, rfl⟩ := decimAction_ok.mp h
  dsimp only
  split_ifs <;> exact ⟨rfl, rfl, rfl, rfl⟩

theorem mscdAction_kept {p : Nat} (h : mscdAction p s = .ok t) : Kept s t := by
  obtain ⟨u, hu, ht⟩ := res_bind_ok.mp h
  exact (decimAction_kept hu).trans (miscUpdate_kept ht)

theorem mscqAction_kept {b : Nat} (h : mscqAction b s = .ok t) : Kept s t := by
  obtain ⟨u, hu, rfl⟩ := res_map_ok.mp h
  exact (miscUpdate_kept hu).trans ⟨rfl, rfl, rfl, rfl⟩

theorem updateChan_kept {down : Nat → Nat} {st : Station} {pass : Bool} (h : updateChan down st s = .ok (t, pass)) :
    Kept s t := by
  obtain ⟨_, _, -, -, -, rfl⟩ := updateChan_ok.mp h
  exact ⟨rfl, rfl, rfl, rfl⟩

theorem useBest_kept (s : State) (b : Option (Nat × Station × Nat)) : Kept s (useBest s b) := by
  unfold useBest applySelection
  split
  · exact .refl _
  · split_ifs <;> exact ⟨rfl, rfl, rfl, rfl⟩

theorem endOfRotation_kept (h : endOfRotation s = .ok t) : Kept s t := by
  rcases endOfRotation_ok.mp h with ⟨-, b, -, rfl⟩ | ⟨-, rfl⟩
  · exact useBest_kept _ b
  · exact .refl _

theorem probeClose_kept (h : probeClose s = .ok t) : Kept s t := by
  obtain ⟨u, _, v, _, w, x, hu, hv, hw, hx, rfl⟩ := probeClose_ok.mp h
  obtain ⟨_, -, rfl⟩ := channelErrors_ok.mp hw
  have h1 : Kept s v := (updateChan_kept hv).after ((updateChan_kept hu).after ⟨rfl, rfl, rfl, rfl⟩)
  have h2 : Kept v x := (endOfRotation_kept hx).after ⟨rfl, rfl, rfl, rfl⟩
  exact (h1.trans h2).trans ⟨rfl, rfl, rfl, rfl⟩

theorem minuteEnd_kept (h : minuteEnd s = .ok t) : Kept s t := by
  obtain ⟨r, -, rfl⟩ := minuteEnd_ok.mp h
  exact ⟨by simp, by simp, by simp, by simp⟩

theorem minuteOne_kept (h : minuteOne s = .ok t) : Kept s t := by
  unfold minuteOne at h
  split at h
  · rw [← Except.ok.inj h]; exact .refl s
  · exact minuteEnd_kept h

theorem minuteTwo_kept (h : minuteTwo s = .ok t) : Kept s t := by
  obtain ⟨u, hu, rfl⟩ := res_map_ok.mp h
  exact (minuteEnd_kept hu).trans ⟨rfl, rfl, rfl, rfl⟩

/-- No ROM action writes the kept registers. -/
theorem romAction_kept {i : Instr} (h : romAction i s = .ok t) : Kept s t := by
  cases i with
  | idle => rw [← Except.ok.inj h]; exact .refl s
  | coef i => exact storeBcd_kept h
  | coefg i => exact storeBcd_kept h
  | coefz i => exact storeBcd_kept h
  | decim p => exact decimAction_kept h
  | msc b => exact miscUpdate_kept h
  | mscd p => exact mscdAction_kept h
  | mscq b => exact mscqAction_kept h
  | pend => exact probeClose_kept h
  | min1 => exact minuteOne_kept h
  | min2 => exact minuteTwo_kept h
  | _ => exact nomatch h

theorem countErasure_kept (s : State) : Kept s (countErasure s) := by
  rcases countErasure_cases s with h | ⟨_, h | h⟩ <;> rw [h] <;> exact ⟨rfl, rfl, rfl, rfl⟩

theorem receiverSecond_kept (h : receiverSecond s = .ok t) : Kept s t := by
  obtain ⟨w, u, -, hu, rfl⟩ := receiverSecond_ok.mp h
  exact ((countErasure_kept s).trans (romAction_kept hu)).trans ⟨rfl, rfl, rfl, rfl⟩

theorem carry_kept {p : Nat} {c : Bool} (h : carry p s = .ok (t, c)) : Kept s t := by
  obtain ⟨d, -, rfl, -⟩ := carry_ok.mp h
  exact ⟨rfl, rfl, rfl, rfl⟩

theorem carryChain_kept {l : List Nat} {c : Bool} (h : carryChain l c s = .ok t) : Kept s t := by
  induction l generalizing c s with
  | nil => rw [← Except.ok.inj h]; exact .refl s
  | cons p rest ih =>
    rcases carryChain_cons_ok.mp h with ⟨-, -, u, c', hu, ht⟩ | ⟨-, rfl⟩
    · exact (carry_kept hu).trans (ih ht)
    · exact .refl _

theorem tsecNext_kept (h : tsecNext s = .ok t) : Kept s t := by
  rcases tsecNext_ok.mp h with ⟨-, c, -, rfl⟩ | ⟨-, rfl⟩ | ⟨-, -, rfl⟩
  · unfold endSecond59; split <;> exact ⟨rfl, rfl, rfl, rfl⟩
  · exact ⟨rfl, rfl, rfl, rfl⟩
  · exact ⟨rfl, rfl, rfl, rfl⟩

theorem transmitterSecond_kept (h : transmitterSecond s = .ok t) : Kept s t := by
  obtain ⟨u, hu, ⟨-, ht⟩ | ⟨-, rfl⟩⟩ := transmitterSecond_ok.mp h
  · obtain ⟨v, c, hv, hw⟩ := clockAdvance_ok.mp ht
    exact ((tsecNext_kept hu).trans (carry_kept hv)).trans (carryChain_kept hw)
  · exact tsecNext_kept hu

theorem acceptOrAdvance_kept (pair : ByStation ChanRec) (s : State) : Kept s (acceptOrAdvance pair s) := by
  rcases acceptOrAdvance_cases pair s with ⟨w, -, h⟩ | ⟨-, -, -, h⟩ | ⟨-, -, h⟩ <;> rw [h] <;>
    exact ⟨rfl, rfl, rfl, rfl⟩

theorem acquisition_kept (h : acquisition s = .ok t) : Kept s t := by
  obtain ⟨u, _, v, _, pair, hu, hv, -, rfl⟩ := acquisition_ok.mp h
  exact ((updateChan_kept hu).trans (updateChan_kept hv)).trans (acceptOrAdvance_kept pair v)

theorem watchdogUpdate_kept (s : State) : Kept s (watchdogUpdate s) := by
  rcases watchdogUpdate_cases s with ⟨-, h⟩ | ⟨-, h⟩ <;> rw [h] <;> exact ⟨rfl, rfl, rfl, rfl⟩

theorem rawMinute_kept (h : rawMinute s = .ok t) : Kept s t := by
  rcases rawMinute_ok.mp h with ⟨-, rfl⟩ | ⟨-, u, hu, rfl⟩
  · exact watchdogUpdate_kept s
  · have h1 : Kept s (scanReset u) := (acquisition_kept hu).trans ⟨rfl, rfl, rfl, rfl⟩
    have h2 := h1.trans (watchdogUpdate_kept _)
    exact h2.trans ⟨rfl, rfl, rfl, rfl⟩

theorem epochUpdate_kept (h : epochUpdate s = .ok t) : Kept s t := by
  obtain ⟨best, hist, u, -, -, rfl, ⟨-, rfl⟩ | ⟨-, v, rfl, ⟨-, -, hl⟩ | ⟨-, rfl⟩⟩⟩ := epochUpdate_ok.mp h
  · exact ⟨rfl, rfl, rfl, rfl⟩
  · obtain ⟨d, -, rfl⟩ := latchOffsets_ok.mp hl
    exact ⟨rfl, rfl, rfl, rfl⟩
  · exact ⟨rfl, rfl, rfl, rfl⟩

theorem intervalDoubling_kept (d : Int) (s : State) : Kept s (intervalDoubling d s) := by
  obtain ⟨_, h | ⟨-, h⟩⟩ := intervalDoubling_cases s d <;> rw [h] <;> exact ⟨rfl, rfl, rfl, rfl⟩

theorem intervalStep_kept (h : intervalStep s = .ok t) : Kept s t := by
  rcases intervalStep_ok.mp h with ⟨-, h⟩ | ⟨-, rfl⟩
  · obtain ⟨u, hu, rfl⟩ := intervalEnd_ok.mp h
    rcases frequencyUpdate_ok.mp hu with ⟨-, -, rfl⟩ | ⟨-, rfl⟩
    · exact (intervalDoubling_kept _ _).after ⟨rfl, rfl, rfl, rfl⟩
    · exact (intervalDoubling_kept _ _).after ⟨rfl, rfl, rfl, rfl⟩
  · exact ⟨rfl, rfl, rfl, rfl⟩

theorem syncCheck_kept (s : State) : Kept s (syncCheck s) := ⟨by simp, by simp, by simp, by simp⟩

theorem rawSecond_kept (h : rawSecond s = .ok t) : Kept s t := by
  obtain ⟨u, v, hu, hv, ht⟩ := rawSecond_ok.mp h
  have h0 : Kept s u := (epochUpdate_kept hu).after ⟨rfl, rfl, rfl, rfl⟩
  have hk := (h0.trans (intervalStep_kept hv)).trans (syncCheck_kept v)
  rcases ht with ⟨-, ht⟩ | ⟨-, rfl⟩
  · exact hk.trans (rawMinute_kept ht)
  · exact hk

theorem runIf_kept {c : Bool} {rule : State → Res State} (hr : ∀ s t, rule s = .ok t → Kept s t)
    (h : runIf c rule s = .ok t) : Kept s t := by
  rcases runIf_ok.mp h with ⟨-, h⟩ | ⟨-, rfl⟩
  · exact hr _ _ h
  · exact .refl _

theorem eventStep_kept {a : Advance} {m0 : Bool} {t0 r0 : Nat} (h : eventStep a m0 t0 r0 s = .ok t) : Kept s t := by
  obtain ⟨u, v, hu, hv, ht⟩ := eventStep_ok.mp h
  exact ((runIf_kept (fun _ _ => rawSecond_kept) hu).trans (runIf_kept (fun _ _ => transmitterSecond_kept) hv)).trans
    (runIf_kept (fun _ _ => receiverSecond_kept) ht)

theorem envelopeWrite_kept {e : F64} (h : envelopeWrite e s = .ok t) : Kept s t := by
  obtain ⟨-, rfl⟩ := envelopeWrite_ok.mp h
  exact ⟨rfl, rfl, rfl, rfl⟩

theorem scanAccumulate_kept {em : ByStation F64} (h : scanAccumulate em s = .ok t) : Kept s t := by
  rcases scanAccumulate_ok.mp h with ⟨-, rfl⟩ | ⟨_, _, _, -, -, -, rfl⟩
  · exact .refl _
  · exact ⟨rfl, rfl, rfl, rfl⟩

theorem combUpdate_kept {e : F64} (h : combUpdate e s = .ok t) : Kept s t := by
  obtain ⟨-, -, rfl⟩ := combUpdate_ok.mp h
  exact ⟨rfl, rfl, rfl, rfl⟩

theorem signalStep_kept (h : signalStep s = .ok t) : Kept s t := by
  obtain ⟨o, bank, u, v, -, hu, hv, ht⟩ := signalStep_ok.mp h
  have h0 : Kept s u := (envelopeWrite_kept hu).after ⟨rfl, rfl, rfl, rfl⟩
  exact (h0.trans (scanAccumulate_kept hv)).trans (combUpdate_kept ht)

/-- No sample step writes the kept registers. -/
theorem sampleStep_kept (h : sampleStep s = .ok t) : Kept s t := by
  obtain ⟨u, v, hu, hv, rfl⟩ := sampleStep_ok.mp h
  exact ((signalStep_kept hu).trans ((eventStep_kept hv).after ⟨rfl, rfl, rfl, rfl⟩)).trans
    ⟨by simp, by simp, by simp, by simp⟩

end

end Sys2Proof.Machine
end

