-- ==== Sys2Proof/Laws/Log10.lean ====
section
/-! SUPPORT. What is known of LOG10 (00_scope.md R11), and the order of binary64 values that it rests on. A proof cites
these and nothing else about LOG10. -/

namespace Sys2Proof

theorem F64.le_trans {x y z : F64} (h : x.le y = true) (h' : y.le z = true) : x.le z = true := by
  simp only [F64.le, Bool.and_eq_true, decide_eq_true_eq] at *
  exact ⟨⟨h.1.1, h'.1.2⟩, by omega⟩

theorem F64.le_of_feq {x y : F64} (h : x.feq y = true) : x.le y = true ∧ y.le x = true := by
  simp only [F64.feq, F64.le, Bool.and_eq_true, decide_eq_true_eq] at *
  exact ⟨⟨h.1, by omega⟩, ⟨h.1.2, h.1.1⟩, by omega⟩

/-- A value equal to zero is one of the two zeros. -/
theorem F64.zero_of_feq {x : F64} (h : x.feq .zero = true) : x = .zero ∨ x = .negZero := by
  have hz : F64.zero.key = 0 := by decide
  have hm : x.mag = 0 := by
    simp only [F64.feq, Bool.and_eq_true, decide_eq_true_eq, hz] at h
    have := h.2
    unfold F64.key at this
    split at this <;> omega
  obtain ⟨b⟩ := x
  have hb : b.toNat = 0 ∨ b.toNat = 2 ^ 63 := by
    have := b.isLt
    simp only [F64.mag] at hm
    omega
  exact hb.imp (fun h => congrArg F64.mk (BitVec.eq_of_toNat_eq h)) fun h => congrArg F64.mk (BitVec.eq_of_toNat_eq h)

namespace Config

/-- R11: LOG10 is monotone non-decreasing. -/
theorem log10_mono {x y : F64} (hx : F64.zero.lt x = true) (h : x.le y = true) : (log10 x).le (log10 y) = true :=
  givenLog10.lawful.mono x y hx h

/-- R11: LOG10(1) = 0. -/
theorem log10_one : (log10 one).feq .zero = true := givenLog10.lawful.one

/-- R11: LOG10(100) = 2. -/
theorem log10_hundred : log10 hundred = two := givenLog10.lawful.hundred

/-- The LOG10 of a positive value is no NaN. -/
theorem log10_isNaN {x : F64} (hx : F64.zero.lt x = true) : (log10 x).isNaN = false := by
  have h : x.le x = true := by simp only [F64.lt, F64.le, Bool.and_eq_true] at *; simp [hx.1.2]
  have := log10_mono hx h
  simp only [F64.le, Bool.and_eq_true, Bool.not_eq_true'] at this
  exact this.1.1

/-- A ratio of at least 1 is at least 0 dB. -/
theorem log10_nonneg {x : F64} (h : one.le x = true) : F64.zero.le (log10 x) = true :=
  F64.le_trans (F64.le_of_feq log10_one).2 (log10_mono (by decide) h)

/-- From a ratio of 100 on, LOG10 is at least 2, that of an overflowed ratio (notes/assumptions/19.md) too. -/
theorem two_le_log10 {x : F64} (h : hundred.le x = true) : two.le (log10 x) = true :=
  log10_hundred ▸ log10_mono (by decide) h

end Config

namespace Machine

/-- A scan whose ratio of peak to mean is 100 has an SNR of 20 dB (42_station_acquisition.md R178). -/
theorem scanSnr_hundred {m : Scan} (hp : F64.zero.lt (scanMean m) = true)
    (hr : m.emax.div (scanMean m) = Config.hundred) : scanSnr m = Config.twenty := by
  rw [scanSnr, if_pos hp, hr, Config.log10_hundred]
  decide +kernel

/-- A scan whose ratio of peak to mean is 1 has an SNR of 0 dB (R178). -/
theorem scanSnr_one {m : Scan} (hp : F64.zero.lt (scanMean m) = true) (hr : m.emax.div (scanMean m) = Config.one) :
    (scanSnr m).feq .zero = true := by
  rw [scanSnr, if_pos hp, hr]
  have h := Config.log10_one
  rcases F64.zero_of_feq h with h | h <;> rw [h] <;> decide +kernel

end Machine

end Sys2Proof
end

