-- ==== Sys2Proof/Laws/PerInstr.lean ====
section
/-! SUPPORT. The family CodeSpace: the code word of every operation lies in the space of its kind, a ROM word for a ROM
action (30_encoding.md R100) and an event code below 7 for an event (R106). One lemma for each operation. -/

namespace Sys2Proof.Laws.CodeSpace

/-- The code word of an operation is a ROM word exactly where it is a ROM action; an event code is one of 0..6. -/
def Statement (i : Instr) : Prop :=
  match encode i with
  | .rom _ => i.isRom = true
  | .event c => i.isRom = false ∧ c.toNat < 7

theorem idle : Statement .idle := rfl
theorem coef (n : Nat) : Statement (.coef n) := rfl
theorem coefg (n : Nat) : Statement (.coefg n) := rfl
theorem coefz (n : Nat) : Statement (.coefz n) := rfl
theorem decim (p : Nat) : Statement (.decim p) := rfl
theorem msc (b : Nat) : Statement (.msc b) := rfl
theorem mscd (p : Nat) : Statement (.mscd p) := rfl
theorem mscq (b : Nat) : Statement (.mscq b) := rfl
theorem pend : Statement .pend := rfl
theorem min1 : Statement .min1 := rfl
theorem min2 : Statement .min2 := rfl
theorem reserved (w : BitVec 8) : Statement (.reserved w) := rfl
theorem reset : Statement .reset := ⟨rfl, by decide⟩
theorem sample : Statement .sample := ⟨rfl, by decide⟩
theorem rawsec : Statement .rawsec := ⟨rfl, by decide⟩
theorem rawmin : Statement .rawmin := ⟨rfl, by decide⟩
theorem tsec : Statement .tsec := ⟨rfl, by decide⟩
theorem rsec : Statement .rsec := ⟨rfl, by decide⟩
theorem wdreset : Statement .wdreset := ⟨rfl, by decide⟩

end Sys2Proof.Laws.CodeSpace
end

