-- ==== Sys2Proof/Tests/Slice0.lean ====
section
/-! SUPPORT. The model's own tests: ill-formed operations are refused, written-out words decode, single steps give the
values of 95_test_vectors.md or of hand calculation from the rules, and every statement with hypotheses has a concrete
state and operands that meet them. -/

namespace Sys2Proof.Tests

open Sys2Proof.Machine

set_option Elab.async false

/-! Helpers: values, input cycles and small states. -/

def one : F64 := ⟨0x3FF0000000000000#64⟩
def two : F64 := ⟨0x4000000000000000#64⟩
def half : F64 := ⟨0x3FE0000000000000#64⟩
def minusOne : F64 := ⟨0xBFF0000000000000#64⟩
def hundred : F64 := ⟨0x4059000000000000#64⟩

/-- A cycle with a strobe of the sample x. -/
def strobe (x : F64) : Pins := ⟨false, Config.exampleCfg, true, x, false⟩

/-- Right after reset, with one strobed cycle to come. -/
def fresh : State := State.reset.withInputs [strobe one]

/-- The status word with minute and second sync and station A. -/
def heldStatus : BitVec 8 := 0b00100011#8

/-- Both syncs held on station A, in the middle of a second, at given receiver and transmitter seconds. -/
def held (rsec tsec : Nat) : State :=
  ((fresh.withStatus heldStatus).withDec { Dec.atReset with rsec := rsec, tsec := tsec }).withEpoch
    { Epoch.atReset with rsecStart := 100, tsecStart := 20 }

/-- The state with its sample clock at a place of the second and of the raw minute. -/
def atClock (s : State) (rphase mphase : Nat) : State :=
  s.withClock { s.clock with rphase := rphase, mphase := mphase }

/-- The state with an envelope of n samples at 1.0, the rest +0.0. -/
def withPulse (s : State) (n : Nat) : State :=
  s.withDec { s.dec with dbuf := ⟨(List.range n).map fun j => (j, one)⟩ }

/-- The state with a configuration at its port and reset asserted. -/
def offering (c : Config.Cfg) : State := State.reset.withInputs [⟨true, c, false, .zero, false⟩]

/-- Whether a rule answers a value that has a property. -/
def okWith {α : Type} (r : Res α) (p : α → Bool) : Bool :=
  match r with
  | .ok v => p v
  | .error _ => false

/-- Whether an outcome is a next state that has a property. -/
def nextWith (o : Host.Outcome State Fault Refusal) (p : State → Bool) : Bool :=
  match o with
  | .next t => p t
  | .fault _ => false
  | .refused _ => false

/-- Whether an outcome is the refusal of a configuration. -/
def isConfigRefused (o : Host.Outcome State Fault Refusal) : Bool :=
  match o with
  | .refused .configRefused => true
  | .refused (.notModelled _) => false
  | .next _ => false
  | .fault _ => false

theorem okWith_ok {α : Type} {r : Res α} {p : α → Bool} (h : okWith r p = true) : ∃ v, r = .ok v ∧ p v = true := by
  cases r with
  | ok v => exact ⟨v, rfl, h⟩
  | error f => simp [okWith] at h

theorem nextWith_next {o : Host.Outcome State Fault Refusal} {p : State → Bool} (h : nextWith o p = true) :
    ∃ t, o = .next t ∧ p t = true := by
  cases o with
  | next t => exact ⟨t, rfl, h⟩
  | fault f => simp [nextWith] at h
  | refused r => simp [nextWith] at h

/-! Ill-formed operations, one for each check (30_encoding.md R102, R105). -/

theorem test_coef_4_refused : (Instr.coef 4).wellFormed = false := by decide
theorem test_coefg_4_refused : (Instr.coefg 4).wellFormed = false := by decide
theorem test_coefz_4_refused : (Instr.coefz 4).wellFormed = false := by decide
theorem test_decim_9_refused : (Instr.decim 9).wellFormed = false := by decide
theorem test_msc_7_refused : (Instr.msc 7).wellFormed = false := by decide
theorem test_mscd_9_refused : (Instr.mscd 9).wellFormed = false := by decide
theorem test_mscq_7_refused : (Instr.mscq 7).wellFormed = false := by decide
theorem test_reserved_legal_word_refused : (Instr.reserved 0x43#8).wellFormed = false := by decide
theorem test_bad_argument_is_reserved :
    decodeRom 0x01#8 = .reserved 0x01#8 ∧ decodeRom 0x14#8 = .reserved 0x14#8 ∧
    decodeRom 0x49#8 = .reserved 0x49#8 ∧ decodeRom 0x57#8 = .reserved 0x57#8 ∧
    decodeRom 0x81#8 = .reserved 0x81#8 := by decide
theorem test_unused_event_refused : decode (.event 0x7#4) = .error (.unusedEvent 0x7#4) := by decide
theorem test_no_word_refused : decodeWords [] = .error .noWord := by decide

/-! Written-out words, op w[7:4] and arg w[3:0] bit by bit (30_encoding.md R101, R104), and event codes (R106). -/

theorem test_decode_idle : decodeRom 0b0000_0000#8 = .idle := by decide
theorem test_decode_coef : decodeRom 0b0001_0011#8 = .coef 3 := by decide
theorem test_decode_coefg : decodeRom 0b0010_0001#8 = .coefg 1 := by decide
theorem test_decode_coefz : decodeRom 0b0011_0010#8 = .coefz 2 := by decide
theorem test_decode_decim : decodeRom 0b0100_1000#8 = .decim 8 := by decide
theorem test_decode_msc : decodeRom 0b0101_0011#8 = .msc 3 := by decide
theorem test_decode_mscd : decodeRom 0b0110_1000#8 = .mscd 8 := by decide
theorem test_decode_mscq : decodeRom 0b0111_0010#8 = .mscq 2 := by decide
theorem test_decode_pend : decodeRom 0b1000_0000#8 = .pend := by decide
theorem test_decode_min1 : decodeRom 0b1001_0000#8 = .min1 := by decide
theorem test_decode_min2 : decodeRom 0b1010_0000#8 = .min2 := by decide
theorem test_decode_reserved : decodeRom 0b1111_1111#8 = .reserved 0xFF#8 := by decide
theorem test_decode_reset : decodeEvent 0b0000#4 = some .reset := by decide
theorem test_decode_sample : decodeEvent 0b0001#4 = some .sample := by decide
theorem test_decode_rawsec : decodeEvent 0b0010#4 = some .rawsec := by decide
theorem test_decode_rawmin : decodeEvent 0b0011#4 = some .rawmin := by decide
theorem test_decode_tsec : decodeEvent 0b0100#4 = some .tsec := by decide
theorem test_decode_rsec : decodeEvent 0b0101#4 = some .rsec := by decide
theorem test_decode_wdreset : decodeEvent 0b0110#4 = some .wdreset := by decide
theorem test_table_word_rom : decodeTableWord 8 0x72 = some (.mscq 2) := by decide
theorem test_table_word_event : decodeTableWord 4 3 = some .rawmin := by decide
theorem test_fetched_word_runs :
    nextWith (step (State.reset.withFetchWord 8 0x80)) (fun t => t.acq.pchan == 1 && t.dec.rsec == 1) = true := by
  decide +kernel
theorem test_armed_event_runs :
    nextWith (step (State.reset.withFetchWord 4 6)) (fun t => t.wd == Watchdog.zeros && t.clock.mphase == 0) = true := by
  decide +kernel

/-! Arithmetic (00_scope.md R11; the decimals of 95_test_vectors.md as binary64 bits). -/

/-- 0.5 * 0.5 and 1.0 / 3.0 rounded to nearest. -/
theorem test_mul_and_div : half.mul half = ⟨0x3FD0000000000000#64⟩ ∧
    one.div ⟨0x4008000000000000#64⟩ = ⟨0x3FD5555555555555#64⟩ := by decide +kernel
/-- V2.3.3: (0.99995 + 1.0e-4) - 1.0. -/
theorem test_sum_rounds : ((⟨0x3FEFFF972474538F#64⟩ : F64).add ⟨0x3F1A36E2EB1C432D#64⟩).sub one =
    ⟨0x3F0A36E2EB1C8000#64⟩ := by decide +kernel
/-- The square root of 2.0. -/
theorem test_sqrt_of_two : two.sqrt = ⟨0x3FF6A09E667F3BCD#64⟩ := by decide +kernel

/-! Single operations. -/

/-- V2.2.1: the first step with x = 1.0 gives dQ_sum = 0.3183098861837907 and dI_sum = 0.0. -/
theorem test_sample_first_step : nextWith (exec .sample fresh) (fun t =>
    t.bank.dQSum == ⟨0x3FD45F306DC9C883#64⟩ && t.bank.dISum == .zero && t.bank.ph1200 == 12) = true := by
  decide +kernel
/-- V2.2.9: an infinite sample faults and the step commits nothing. -/
theorem test_sample_infinite : nextWith (exec .sample (State.reset.withInputs [strobe .inf])) (fun t =>
    decide (t = takeFault (State.reset.withInputs [strobe .inf]) .nonFinite)) = true := by decide +kernel
/-- V2.5.5 and R203: 1500 samples at 1.0 give the bit 1.0; COEF 2 stores it. -/
theorem test_coef_stores : nextWith (exec (.coef 2) (withPulse fresh 1500)) (fun t =>
    t.dec.bcd.get 2 == one && t.dec.bcd.get 1 == .zero) = true := by decide +kernel
/-- V2.5.11: with DSYNC = 0, COEFG 1 stores +0.0 over an old value. -/
theorem test_coefg_gated : nextWith (exec (.coefg 1) (fresh.withDec { Dec.atReset with bcd := ⟨[(1, two)]⟩ })) (fun t =>
    t.dec.bcd.get 1 == .zero) = true := by decide +kernel
/-- V2.5.12. -/
theorem test_coefz_clears : nextWith (exec (.coefz 3) (fresh.withDec { Dec.atReset with bcd := ⟨[(3, one)]⟩ })) (fun t =>
    t.dec.bcd == RealArray.zeros) = true := by decide +kernel
/-- V2.5.15, P1: year units 6 gives like[6] = 2.0, like[9] = -2.0, ml 6, phase 6, count 1, DECERR. -/
theorem test_decim_year_units : nextWith (exec (.decim 7) (fresh.withDec { Dec.atReset with
      bcd := ⟨[(0, minusOne), (1, one), (2, one), (3, minusOne)]⟩ })) (fun t =>
    (t.dec.digits.getD 7 .zeros).like.get 6 == two &&
    (t.dec.digits.getD 7 .zeros).like.get 9 == ⟨0xC000000000000000#64⟩ &&
    (t.dec.digits.getD 7 .zeros).mldigit == 6 && (t.dec.digits.getD 7 .zeros).phase == 6 &&
    (t.dec.digits.getD 7 .zeros).count == 1 && t.dec.alarm == 1#16) = true := by decide +kernel
/-- V2.5.17: all coefficients and likelihoods +0.0 leave the digit alone, without an alarm. -/
theorem test_decim_of_nothing : nextWith (exec (.decim 1) fresh) (fun t =>
    (t.dec.digits.getD 1 .zeros).mldigit == 0 && (t.dec.digits.getD 1 .zeros).count == 1 && t.dec.alarm == 0#16) = true := by
  decide +kernel
/-- V2.5.22: the bit 1.0 sets LEPW with probability 0.5. -/
theorem test_msc_sets : nextWith (exec (.msc 6) (withPulse fresh 1500)) (fun t =>
    t.dec.miscp.get 6 == half && t.dec.misc == 0b1000000#7) = true := by decide +kernel
/-- V2.5.23: 0.25 is indecisive: SYMERR, bit kept. -/
theorem test_msc_indecisive : nextWith (exec (.msc 0) (fresh.withDec { Dec.atReset with
      miscp := ⟨[(0, half)]⟩, misc := 1#7 })) (fun t =>
    t.dec.miscp.get 0 == ⟨0x3FD0000000000000#64⟩ && t.dec.misc == 1#7 && t.dec.alarm == 0x10#16) = true := by
  decide +kernel
/-- P2, second 55, in an erased second: year tens 2 decoded, then DST1 indecisive. -/
theorem test_mscd_both_parts : nextWith (exec (.mscd 8) (fresh.withDec { Dec.atReset with
      bcd := ⟨[(0, minusOne), (1, one), (2, minusOne), (3, minusOne)]⟩ })) (fun t =>
    (t.dec.digits.getD 8 .zeros).mldigit == 2 && t.dec.alarm == 0x11#16) = true := by decide +kernel
/-- V2.4.17: the scan is reset, the window opens, tune is the probe channel. -/
theorem test_mscq_opens : nextWith (exec (.mscq 2) (fresh.withAcq { Acq.atReset with
      pchan := 2, ms := ⟨⟨two, 7, two, 3⟩, .zeros⟩ })) (fun t =>
    t.acq.win && t.out.tune == 2 && t.acq.ms == ⟨.zeros, .zeros⟩) = true := by decide +kernel
/-- V2.4.23, V2.4.19: pchan 3 goes to 4 without a selection; both stations fail, so cherr[3] counts. -/
theorem test_pend_rotates : nextWith (exec .pend ((held 1 1).withAcq { Acq.atReset with pchan := 3, win := true })) (fun t =>
    t.acq.pchan == 4 && t.acq.cherr == [0, 0, 0, 1, 0] && !t.acq.win && t.status == heldStatus) = true := by
  decide +kernel
/-- V2.4.21: at pchan 4 with all counts 0 the stations are lost. -/
theorem test_pend_loses_stations : nextWith (exec .pend ((held 1 1).withAcq { Acq.atReset with pchan := 4 })) (fun t =>
    t.status == 0#8 && t.acq.pchan == 0 && t.out.tune == 0) = true := by decide +kernel
/-- V2.5.25: MIN1 with LEAP set does nothing. -/
theorem test_min1_waits_for_leap : nextWith (exec .min1 (setFlag bitLeap true (held 59 0))) (fun t =>
    decide (t = setFlag bitLeap true (held 59 0))) = true := by decide +kernel
/-- V2.6.18: the record shows errcnt 31, then it restarts. -/
theorem test_min1_restarts_errors : nextWith (exec .min1 ((held 59 0).withDec { (held 59 0).dec with errcnt := 31 })) (fun t =>
    t.out.timerec.errcnt == 31 && t.dec.errcnt == 0 && t.out.timerecStrobe) = true := by decide +kernel
/-- R218: MIN2 clears LEAP after the record has shown it. -/
theorem test_min2_clears_leap : nextWith (exec .min2 (setFlag bitLeap true (held 60 0))) (fun t =>
    t.out.timerec.leap && !t.leap) = true := by decide +kernel
/-- R108: a reserved word at ROM index 5. -/
theorem test_reserved_faults : nextWith (exec (.reserved 0xB0#8) (held 5 5)) (fun t =>
    t.fault == some (.reservedWord 5)) = true := by decide +kernel
/-- V2.8.3: LIKE_TC = 0.5 is refused. -/
theorem test_reset_refuses : isConfigRefused (exec .reset (offering { Config.exampleCfg with likeTc := half })) = true := by
  decide +kernel
/-- V2.8.2: with reset and strobe in one cycle only the reset runs. -/
theorem test_reset_wins : nextWith (step ((held 7 7).withInputs [⟨true, Config.exampleCfg, true, one, false⟩])) (fun t =>
    decide (t = State.reset)) = true := by decide +kernel
/-- V2.3.15, V2.3.16: the tenth identical epoch latches tepoch 20 as 7981 and 7901. -/
theorem test_rawsec_latches : nextWith (exec .rawsec ((fresh.withStatus 0x20#8).withEpoch { Epoch.atReset with
      comb := ⟨[(20, one)]⟩, hist := ⟨20, 20, 20⟩, tepoch := 20, scmp := 9 })) (fun t =>
    t.ssync && t.epoch.rsecStart == 7981 && t.epoch.tsecStart == 7901) = true := by decide +kernel
/-- V2.3.10: candidates 7999, 0, 1 give span 7999. -/
theorem test_rawsec_span : nextWith (exec .rawsec (fresh.withEpoch { Epoch.atReset with
      comb := ⟨[(1, one)]⟩, hist := ⟨5, 7999, 0⟩ })) (fun t => t.epoch.hist == ⟨7999, 0, 1⟩ && t.epoch.span == 7999) = true := by
  decide +kernel
/-- V2.7.6: w_acq 5 with MSYNC 0 is a watchdog reset. -/
theorem test_rawmin_expires : nextWith (exec .rawmin ((fresh.withStatus 0x04#8).withWd ⟨5, 0, 0, 9⟩)) (fun t =>
    t.wd == Watchdog.zeros && t.status == 0#8 && t.out.tune == 1) = true := by decide +kernel
/-- V2.4.15: with no candidate the probe goes from 4 to 0. -/
theorem test_rawmin_advances_probe : nextWith (exec .rawmin (fresh.withAcq { Acq.atReset with pchan := 4 })) (fun t =>
    t.acq.pchan == 0 && t.out.tune == 0 && t.wd == ⟨1, 1, 1, 1⟩) = true := by decide +kernel
/-- V2.6.1. -/
theorem test_tsec_counts : nextWith (exec .tsec (held 12 12)) (fun t =>
    t.dec.tsec == 13 && t.dec.digits == (held 12 12).dec.digits) = true := by decide +kernel
/-- V2.6.5: LEPW, year 16, day 366, 23:59 set LEAP and give second 60. -/
theorem test_tsec_leap : nextWith (exec .tsec ((held 59 59).withDec { (held 59 59).dec with
      misc := 0b1000000#7
      digits := [9, 5, 3, 2, 6, 6, 3, 6, 1].map fun n => { DigitVec.zeros with digit := n } })) (fun t =>
    t.leap && t.dec.tsec == 60) = true := by decide +kernel
/-- V2.5.24, V2.5.4: second 60 goes to 0; its word MIN2 clears LEAP; the erasure is counted before and cleared after. -/
theorem test_rsec_after_leap : nextWith (exec .rsec (setFlag bitLeap true (held 60 0))) (fun t =>
    t.dec.rsec == 0 && !t.leap && t.out.timerec.errcnt == 1 && t.dec.errcnt == 0) = true := by decide +kernel
/-- V2.7.8: with pchan 3 the watchdog reset tunes to 3 and keeps the filter bank. -/
theorem test_wdreset : nextWith (exec .wdreset ((held 7 7).withAcq { Acq.atReset with pchan := 3, win := true })) (fun t =>
    t.out.tune == 3 && !t.acq.win && t.epoch.k == 3 && t.status == 0#8 && t.bank == fresh.bank) = true := by decide +kernel
/-- V2.6.9: the carry of a radix-6 digit 5 turns its likelihoods. -/
theorem test_carry_turns : carryDigit 6 { DigitVec.zeros with digit := 5, mldigit := 5, like := ⟨[(1, one), (5, two)]⟩ } =
    { DigitVec.zeros with digit := 0, mldigit := 0, like := ⟨[(0, two), (2, one)]⟩ } := by decide +kernel
/-- V2.5.6: the metric at 1360, 1600, 2800, 4000, 5200 and 6400 samples. -/
theorem test_metric : metric 1360 = one ∧ metric 1600 = one ∧ metric 2800 = half ∧ metric 4000 = .zero ∧
    metric 5200 = ⟨0xBFE0000000000000#64⟩ ∧ metric 6400 = minusOne := by decide +kernel
/-- V2.3.5: facc = -1.0 skips; V2.3.7: old = 7999 with adv = 2 crosses 0 and 1. -/
theorem test_clock_skips : (advanceOf ⟨7999, minusOne, .zero, 0⟩).adv = 2 ∧
    (advanceOf ⟨7999, minusOne, .zero, 0⟩).crossed 0 = true ∧ (advanceOf ⟨7999, minusOne, .zero, 0⟩).crossed 1 = true ∧
    (advanceOf ⟨7999, minusOne, .zero, 0⟩).crossed 7999 = false := by decide +kernel
/-- V2.7.3, V2.7.5: ageing and the quality nibble. -/
theorem test_alarm_words : ageWord 0x8421#16 = 0x0842#16 ∧ qualityOf 0x1020#16 = 0b1010#4 := by decide

/-! Witnesses: for each statement with hypotheses, a state and operands that meet all of them, and one for each of its
clauses. -/

theorem test_witness_DecodeAndEncodeAgree : (Instr.decim 8).wellFormed = true ∧
    (Instr.reserved 0xFF#8).wellFormed = true ∧ decodeEvent 6#4 = some .wdreset := by decide

theorem test_witness_AssemblerAgreesWithTheEncoding : (Instr.mscq 2).wellFormed = true ∧
    asmText (.mscq 2) = some ["MSCQ", "DUT4"] ∧ assemble ["MSC", "b=6"] = some 0x56#8 := by decide

theorem test_witness_CycleRunsItsOperation : (offering Config.exampleCfg).pins.reset = true ∧
    (fresh.pins.reset = false ∧ fresh.pins.strobe = true) ∧
    (State.reset.pins.reset = false ∧ State.reset.pins.strobe = false) := by decide

/-- Receiver second 46, an IDLE word, ends in this step; transmitter second 47 has begun. -/
def endOf46 : State := atClock (held 46 47) 99 46

theorem test_witness_StepRunsTheFetchedWord : ∃ u v, endOf46.pins.reset = false ∧ endOf46.pins.strobe = true ∧
    endOf46.fault = none ∧ signalStep endOf46 = .ok u ∧ (advanceOf u.clock).wrapped = false ∧ endOf46.msync = true ∧
    (advanceOf u.clock).crossed endOf46.epoch.tsecStart = false ∧
    (advanceOf u.clock).crossed endOf46.epoch.rsecStart = true ∧ endOf46.prog[endOf46.dec.rsec]? = some 0x00#8 ∧
    exec (decodeRom 0x00#8) (countErasure (clockStep u)) = .next v ∧ v.fault = none := by
  have h : okWith (signalStep endOf46) (fun u => !(advanceOf u.clock).wrapped &&
      !(advanceOf u.clock).crossed endOf46.epoch.tsecStart && (advanceOf u.clock).crossed endOf46.epoch.rsecStart &&
      nextWith (exec (decodeRom 0x00#8) (countErasure (clockStep u))) fun v => v.fault == none) = true := by
    decide +kernel
  obtain ⟨u, hu, h⟩ := okWith_ok h
  simp only [Bool.and_eq_true, Bool.not_eq_true'] at h
  obtain ⟨⟨⟨h1, h2⟩, h3⟩, h4⟩ := h
  obtain ⟨v, hv, h5⟩ := nextWith_next h4
  exact ⟨u, v, by decide, by decide, by decide, hu, h1, by decide, h2, h3, by decide, hv, by simpa using h5⟩

/-- A raw second, a transmitter second and a receiver second all end in this step. -/
def allEnd : State := (atClock (held 46 46) 7999 45).withEpoch { Epoch.atReset with comb := ⟨[(20, one)]⟩ }

theorem test_witness_SampleStepOrder_all : ∃ u v w z, allEnd.pins.reset = false ∧ allEnd.pins.strobe = true ∧
    allEnd.fault = none ∧ signalStep allEnd = .ok u ∧
    ((advanceOf u.clock).wrapped = true ∧ exec .rawsec (clockStep u) = .next v ∧ v.fault = none) ∧
    ((allEnd.msync && v.msync && (advanceOf u.clock).crossed allEnd.epoch.tsecStart) = true ∧
      exec .tsec v = .next w ∧ w.fault = none) ∧
    ((allEnd.msync && w.msync && (advanceOf u.clock).crossed allEnd.epoch.rsecStart) = true ∧
      exec .rsec w = .next z ∧ z.fault = none) := by
  have h : okWith (signalStep allEnd) (fun u => (advanceOf u.clock).wrapped &&
      nextWith (exec .rawsec (clockStep u)) fun v => v.fault == none &&
        (allEnd.msync && v.msync && (advanceOf u.clock).crossed allEnd.epoch.tsecStart) &&
        nextWith (exec .tsec v) fun w => w.fault == none &&
          (allEnd.msync && w.msync && (advanceOf u.clock).crossed allEnd.epoch.rsecStart) &&
          nextWith (exec .rsec w) fun z => z.fault == none) = true := by decide +kernel
  obtain ⟨u, hu, h⟩ := okWith_ok h
  rw [Bool.and_eq_true] at h
  obtain ⟨v, hv, h2⟩ := nextWith_next h.2
  rw [Bool.and_eq_true, Bool.and_eq_true] at h2
  obtain ⟨w, hw, h3⟩ := nextWith_next h2.2
  rw [Bool.and_eq_true, Bool.and_eq_true] at h3
  obtain ⟨z, hz, h4⟩ := nextWith_next h3.2
  exact ⟨u, v, w, z, by decide, by decide, by decide, hu, ⟨h.1, hv, by simpa using h2.1.1⟩,
    ⟨h2.1.2, hw, by simpa using h3.1.1⟩, ⟨h3.1.2, hz, by simpa using h4⟩⟩

theorem test_witness_SampleStepOrder_none : fresh.pins.reset = false ∧ fresh.pins.strobe = true ∧ fresh.fault = none ∧
    okWith (signalStep fresh) (fun u => !(advanceOf u.clock).wrapped) = true ∧ fresh.msync = false := by decide +kernel

theorem test_witness_ReceiverSecondRunsTheFetchedWord : (held 55 56).fault = none ∧
    (held 55 56).prog[(held 55 56).dec.rsec]? = some 0x68#8 ∧
    nextWith (exec (decodeRom 0x68#8) (countErasure (held 55 56))) (fun t => t.fault == none) = true := by decide +kernel

theorem test_witness_ReservedWordFaults : legalWord 0x14#8 = false ∧ legalWord 0xB0#8 = false ∧
    ({ held 0 0 with prog := progRom.set 0 0x49#8 }).prog[(held 0 0).dec.rsec]? = some 0x49#8 ∧ legalWord 0x49#8 = false ∧
    ((held 0 0).withFault (some (.reservedWord 60))).pins.reset = false := by decide

/-- A strobe of a NaN. -/
def nanStrobe : State := State.reset.withInputs [strobe .nan]

theorem test_witness_ModelFaultsStopTheCore : nanStrobe.fault = none ∧
    nextWith (step nanStrobe) (fun t => t.fault == some .nonFinite) = true ∧
    nextWith (step (fresh.withFault (some .indexRange))) (fun t => t.fault == some .indexRange) = true ∧
    nextWith (step ((offering Config.exampleCfg).withFault (some .indexRange))) (fun t => t.fault == none) = true := by
  decide +kernel

/-- The largest finite value. -/
def huge : F64 := ⟨0x7FEFFFFFFFFFFFFF#64⟩

/-- A comb peak at 500 with the epoch at 501, accepted; at 700, rejected; at 500 with the epoch at 500 and a run of 9. -/
def peak (epoch run : Nat) : State :=
  (held 5 5).withEpoch { Epoch.atReset with comb := ⟨[(500, one)]⟩, hist := ⟨500, 500, 500⟩, tepoch := epoch, scmp := run }

/-- The state at the end of an averaging interval with second sync and a frequency that is no number. -/
def lostFrequency : State :=
  ((peak 500 0).withEpoch { (peak 500 0).epoch with avgcnt := 7 }).withClock { Clock.atReset with freq := .nan }

/-- A bank whose first delay element overflows the data sum, and with reset values a comb bin and a scan sum that
overflow. -/
theorem test_witness_NonFiniteValuesFault_sample : nanStrobe.fault = none ∧ nanStrobe.pins.x.isFinite = false ∧
    (let s := fresh.withBank { Bank.atReset with dISum := huge, dIBuf := ⟨[(0, huge.neg)]⟩ }
     s.fault = none ∧ s.bank.InRange ∧ s.clock.rphase < 8000 ∧ ¬s.bank.FiniteAt s.cfg s.pins.x) ∧
    (let s := fresh.withEpoch { Epoch.atReset with comb := ⟨[(0, .inf)]⟩ }
     s.fault = none ∧ s.bank.InRange ∧ s.clock.rphase < 8000 ∧ s.combNext.isFinite = false) ∧
    (let s := (held 5 5).withAcq { Acq.atReset with win := true, ms := ⟨.zeros, { Scan.zeros with esum := .inf }⟩ }
     s.fault = none ∧ s.bank.InRange ∧ s.clock.rphase < 8000 ∧ s.acq.win = true ∧
      ((s.acq.ms.get .b).esum.add (s.bank.em s.cfg s.pins.x .b)).isFinite = false) := by
  refine ⟨by decide, by decide, ⟨by decide, by decide, by decide, fun h => absurd h.dI ?_⟩, by decide +kernel,
    by decide +kernel⟩
  decide +kernel

theorem test_witness_NonFiniteValuesFault :
    (okWith (epochUpdate (lostFrequency.withClock
        { lostFrequency.clock with mphase := (lostFrequency.clock.mphase + 1) % 60 })) (fun u =>
      u.ssync && decide (2 ^ u.epoch.k ≤ u.epoch.avgcnt + 1) &&
        !(freqNext (driftOf u.epoch) u.epoch.k u.clock.freq).isFinite) = true) ∧
    (let s := fresh.withAcq { Acq.atReset with ms := ⟨.zeros, ⟨.inf, 0, .zero, 1⟩⟩ }
     s.acq.chan[s.acq.pchan]? = some ⟨.zeros, .zeros⟩ ∧ ¬(s.acq.ms.a.Measurable ∧ s.acq.ms.b.Measurable) ∧
      s.msync = false) ∧
    (let s := (fresh.withDec { Dec.atReset with miscp := ⟨[(4, .inf), (6, .inf)]⟩ })
     (6 : Nat) < 7 ∧ (miscNext s 6).isFinite = false ∧ (8 : Nat) < 9 ∧ s.dec.digits[8]? = some .zeros ∧
      (miscNext s 4).isFinite = false) ∧
    (let s := (fresh.withDec { Dec.atReset with bcd := ⟨[(0, huge), (1, huge)]⟩ })
     (8 : Nat) < 9 ∧ s.dec.digits[8]? = some .zeros ∧ DigitVec.zeros.like.wf 10 = true ∧ 3 < radix 8 ∧
      (likeNext s.cfg s.dec.bcd 3 (DigitVec.zeros.like.get 3)).isFinite = false) := by
  decide +kernel

theorem test_witness_FixedRomNeverTakesReservedWord : fresh.prog = progRom ∧ fresh.fault = none ∧
    nextWith (step fresh) (fun _ => true) = true := by decide +kernel

/-- A state in the middle of a held minute with a full set of registers away from their reset values is in range. -/
def midway : State :=
  (atClock ((held 60 60).withWd ⟨5, 15, 30, 5760⟩) 7999 59).withAcq { Acq.atReset with
    pchan := 4, dchan := 3, win := true, ms := ⟨⟨two, 479999, two, 9⟩, .zeros⟩ }

theorem midway_inRange : midway.InRange where
  mem := by decide
  bank := by decide
  clock := by decide
  epoch := ⟨by decide, by decide, by decide, by decide, by decide, by decide, by decide, by decide, by decide, by decide,
    by decide⟩
  acq :=
    { chanLength := rfl
      chan := by
        intro f pair st h
        have := List.mem_of_getElem? h
        simp only [midway, State.withAcq, Acq.atReset, List.mem_replicate] at this
        obtain ⟨-, rfl⟩ := this
        cases st <;> decide
      cherrLength := rfl
      cherr := by decide
      pchan := by decide
      dchan := by decide
      scanPos := by decide }
  dec :=
    { rsec := by decide
      tsec := by decide
      digitsLength := rfl
      digits := by
        intro p v h
        have := List.mem_of_getElem? h
        have e : v = .zeros := by
          change v ∈ List.replicate 9 DigitVec.zeros at this
          exact (List.mem_replicate.mp this).2
        subst e
        have : 0 < radix p := by unfold radix; split <;> decide
        exact ⟨this, this, this, by decide⟩
      errcnt := by decide }
  wd := by decide
  tune := by decide
  sel := by decide
  prog := rfl

theorem test_witness_NoIndexFaultInRange : midway.InRange ∧ midway.fault = none ∧
    nextWith (step midway) (fun _ => true) = true := ⟨midway_inRange, by decide, by decide +kernel⟩

/-- The state with the slip accumulator and the frequency at the ends of their ranges. -/
def slipping (s : State) : State :=
  s.withClock { s.clock with facc := ⟨0xBFEFFFFFFFFFFFFF#64⟩, freq := Config.minusMaxFreq }

theorem slipping_inRange : (slipping midway).InRange :=
  have m := midway_inRange
  { m with }

theorem slipping_realsInRange : (slipping midway).RealsInRange where
  facc := by decide
  freq := by decide
  amp := by
    intro f pair st h
    have := List.mem_of_getElem? h
    simp only [slipping, midway, State.withAcq, State.withClock, Acq.atReset, List.mem_replicate] at this
    obtain ⟨-, rfl⟩ := this
    cases st <;> decide
  scan := fun st => by cases st <;> decide
  dbuf := fun j => by
    show F64.zero.le F64.zero = true
    decide

/-- A skip: the step ends a second and a raw minute with the accumulator back above -1. -/
theorem test_witness_StepKeepsTheRanges : (slipping midway).InRange ∧ (slipping midway).RealsInRange ∧
    nextWith (step (slipping midway)) (fun t => t.clock.rphase == 1) = true :=
  ⟨slipping_inRange, slipping_realsInRange, by decide +kernel⟩

theorem test_witness_StepKeepsTheStatedInvariants : (setFlag bitLeap true midway).StatedInv ∧
    nextWith (step (setFlag bitLeap true midway)) (fun t => t.dec.tsec == 0) = true := by
  refine ⟨⟨?_, by decide, by decide, fun _ => by decide, by decide +kernel, ?_⟩, by decide +kernel⟩
  · intro p d h
    have := midway_inRange.dec.digits p d h
    exact ⟨this.1, this.2.1⟩
  · intro f pair st h
    exact (midway_inRange.acq.chan f pair st h).2.2.2

theorem test_witness_HostResetValues : cfgValid (offering Config.exampleCfg).pins.cfg = true := by decide +kernel

/-- One configuration for each constraint of 00_scope.md R7, at the edge of what it refuses. -/
theorem test_witness_HostResetRefusesABadConfiguration :
    let tiny : F64 := ⟨1#64⟩
    let below : F64 := ⟨0x3FEFFFFFFFFFFFFF#64⟩
    below.lt one = true ∧ tiny.neg.lt .zero = true ∧ F64.zero.le .zero = true ∧
      (0 : Int) ≠ 1 ∧ (0 : Int) ≠ -1 ∧
      [{ Config.exampleCfg with combTc := below }, { Config.exampleCfg with likeTc := below },
        { Config.exampleCfg with miscTc := below }, { Config.exampleCfg with sthr := tiny.neg },
        { Config.exampleCfg with athr := tiny.neg }, { Config.exampleCfg with dthr := tiny.neg },
        { Config.exampleCfg with maxamp := .zero }, { Config.exampleCfg with mthr := .zero },
        { Config.exampleCfg with bitPol := 0 }, { Config.exampleCfg with propDelay := ⟨8000, 0⟩ },
        { Config.exampleCfg with propDelay := ⟨0, 8000⟩ }].all (fun c => isConfigRefused (exec .reset (offering c))) = true := by
  decide +kernel

theorem test_witness_RomAndConfigurationAreReadOnly : fresh.pins.reset = false ∧
    nextWith (step fresh) (fun _ => true) = true := by decide +kernel

/-- DSYNC held, and the absolute watchdog about to expire at the end of this raw minute. -/
def aboutToExpire : State := (atClock (setFlag bitDsync true (held 5 5)) 7999 59).withWd ⟨0, 0, 0, 5760⟩

theorem test_witness_OnlyAResetClearsDsync : aboutToExpire.dsync = true ∧ aboutToExpire.pins.reset = false ∧
    nextWith (step aboutToExpire) (fun t => !t.dsync) = true := by decide +kernel

/-- The last position of the last second of a raw minute in silence; with facc = 0.99995 the clock holds there. -/
def lastOfMinute (facc : F64) : State :=
  (State.reset.withInputs [strobe .zero]).withClock ⟨7999, facc, ⟨0x3F1A36E2EB1C432D#64⟩, 59⟩

/-- A hold at 7999, a wrap at the end of a raw minute, and one on which a watchdog expires. -/
theorem test_witness_NoDecodeWithoutMinuteSync :
    (∀ s ∈ [lastOfMinute ⟨0x3FEFFF972474538F#64⟩, lastOfMinute .zero, (lastOfMinute .zero).withWd ⟨5, 0, 0, 0⟩],
      s.pins.reset = false ∧ s.msync = false ∧ s.dec.dbuf.wf 8000 = true ∧
      (7998 : Nat) ≠ (((s.clock.rphase : Int) - s.epoch.rsecStart) % 8000).toNat) ∧
    nextWith (step (lastOfMinute ⟨0x3FEFFF972474538F#64⟩)) (fun t => t.clock.rphase == 7999) = true ∧
    (advanceOf (lastOfMinute ⟨0x3FEFFF972474538F#64⟩).clock).wrapped = false ∧
    nextWith (step (lastOfMinute .zero)) (fun t => !t.msync && t.dec.alarm == 0x2000#16) = true ∧
    nextWith (step ((lastOfMinute .zero).withWd ⟨5, 0, 0, 0⟩)) (fun t => t.wd == Watchdog.zeros && t.status == 0#8) =
      true := by decide +kernel

/-- A strobe that reports a tuning failure. -/
def failing : State := State.reset.withInputs [⟨false, Config.exampleCfg, true, one, true⟩]

theorem test_witness_TunerFailureIsSticky : failing.pins.reset = false ∧ failing.pins.strobe = true ∧
    failing.fault = none ∧ nextWith (step failing) (fun t => t.fault == none && t.out.tuneErr) = true ∧
    (fresh.withOut { OutRegs.atReset with tuneErr := true }).out.tuneErr = true ∧
    nextWith (step (fresh.withOut { OutRegs.atReset with tuneErr := true })) (fun t => t.out.tuneErr) = true := by
  decide +kernel

theorem test_witness_StrobeMarksTheRecord : fresh.pins.reset = false ∧ fresh.pins.strobe = true ∧ fresh.fault = none ∧
    nextWith (step fresh) (fun t => t.fault == none && !t.out.timerecStrobe) = true ∧
    (atClock (held 59 0) 99 59).pins.strobe = true ∧ (atClock (held 59 0) 99 59).fault = none ∧
    nextWith (step (atClock (held 59 0) 99 59)) (fun t => t.fault == none && t.out.timerecStrobe) = true := by
  decide +kernel

theorem test_witness_ArrayReadAfterWrite : (⟨[(2, one), (39, two)]⟩ : RealArray).wf 40 = true ∧
    (0 : Nat) < 40 ∧ (39 : Nat) < 40 ∧ (40 : Nat) ≤ 40 := by decide +kernel

theorem test_witness_DelayLineSumsItsInputs : [one, two, half].length ≤ 3 ∧
    okWith (boxcarRun 3 [one, two, half] .zeros .zero 0) (fun r => r.2 == ⟨0x400C000000000000#64⟩) = true ∧
    okWith (boxcarRun 3 [] .zeros .zero 0) (fun r => r.2 == .zero) = true := by decide +kernel

theorem test_witness_RoundingIsNearestEven : (0 : Nat) < 3 ∧ F64.roundMag 7 3 < F64.infMag ∧
    F64.roundMag ((2 ^ 54 - 1) * 2 ^ 2044 - 1) 1 < F64.infMag ∧ F64.roundMag ((2 ^ 54 - 1) * 2 ^ 2044) 1 = F64.infMag ∧
    F64.infMag - 1 < F64.infMag ∧ F64.roundMag 5 2 = 2 ∧ F64.roundMag 7 2 = 4 ∧
    one.isFinite = true ∧ minusOne.isFinite = true ∧ one.toInt + minusOne.toInt = 0 ∧ two.toInt ≠ 0 ∧
    huge.isFinite = true ∧ (huge.add huge).mag = F64.infMag := by decide +kernel

theorem test_witness_SquareRootIsNearest : two.isFinite = true ∧ two.sign = false ∧ hundred.isFinite = true ∧
    two.sqrt.units < hundred.units ∧ half.isFinite = true ∧ half.units < two.sqrt.units ∧
    F64.zero.isFinite = true ∧ F64.zero.sign = false := by decide +kernel

theorem test_witness_ArgmaxAndMedian : (0 : Nat) < 3 ∧ (⟨[(1, two), (2, two)]⟩ : RealArray).wf 3 = true ∧
    (∀ i, i < 3 → ((⟨[(1, two), (2, two)]⟩ : RealArray).get i).isNaN = false) ∧
    ((⟨[(1, two), (2, two)]⟩ : RealArray).argmax 3).1 = 1 := by decide +kernel

theorem test_witness_IdentityFilterPassesTheSample : hundred.isFinite = true ∧ one.isFinite = true ∧
    two.isFinite = true ∧ half.isFinite = true ∧ minusOne.isFinite = true ∧ hundred.feq .zero = false ∧
    F64.negZero.isFinite = true := by decide +kernel

/-- The bank at its reset value takes the sample 1.0 without leaving the finite values. -/
theorem reset_bank_finite (st : BitVec 8) :
    ((fresh.withStatus st).bank).FiniteAt (fresh.withStatus st).cfg (fresh.withStatus st).pins.x := by
  change Bank.atReset.FiniteAt Config.exampleCfg one
  exact ⟨by decide +kernel, by decide +kernel, by decide +kernel, by decide +kernel, by decide +kernel,
    by decide +kernel, by decide +kernel, by decide +kernel,
    fun st => by cases st <;> decide +kernel, fun st => by cases st <;> decide +kernel,
    fun st => by cases st <;> decide +kernel, fun st => by cases st <;> decide +kernel,
    fun st => by cases st <;> decide +kernel, fun st => by cases st <;> decide +kernel⟩

theorem test_witness_DemodulatorUpdate : Bank.atReset.InRange ∧ Bank.atReset.FiniteAt Config.exampleCfg one ∧
    Bank.atReset.dIBuf.wf 1360 = true ∧ Bank.atReset.dQBuf.wf 1360 = true ∧
    ∀ st, (Bank.atReset.tIBuf.get st).wf 40 = true ∧ (Bank.atReset.tQBuf.get st).wf 40 = true ∧
      (Bank.atReset.mIBuf.get st).wf 6400 = true ∧ (Bank.atReset.mQBuf.get st).wf 6400 = true :=
  ⟨by decide, reset_bank_finite 0, by decide, by decide, fun st => by cases st <;> decide⟩

/-- Two positions before the end of a second, with a given status word and probe window. -/
def between (st : BitVec 8) (win : Bool) : State :=
  ((midway.withStatus st).withClock { Clock.atReset with rphase := 7998 }).withAcq { midway.acq with win := win }

theorem between_inRange (st : BitVec 8) (win : Bool) (h : (midway.withStatus st).SelLegal) : (between st win).InRange :=
  have m := midway_inRange
  { mem := m.mem, bank := m.bank, clock := show (7998 < 8000 ∧ 0 < 60) by decide, epoch := m.epoch, acq := { m.acq with }, dec := m.dec, wd := m.wd
    tune := m.tune, sel := h, prog := m.prog }

/-- The hypotheses of SampleBetweenSeconds on the three ways of the scan: no minute sync, an open probe window, none. -/
theorem test_witness_SampleBetweenSeconds : ∀ s ∈ [between 0x00#8 false, between 0x21#8 true, between 0x21#8 false],
    s.InRange ∧ s.fault = none ∧ s.bank.FiniteAt s.cfg s.pins.x ∧ s.combNext.isFinite = true ∧
      (∀ st, ((s.acq.ms.get st).esum.add (s.bank.em s.cfg s.pins.x st)).isFinite = true) ∧
      (advanceOf s.clock).wrapped = false ∧ (advanceOf s.clock).crossed s.epoch.tsecStart = false ∧
      (advanceOf s.clock).crossed s.epoch.rsecStart = false := by
  intro s hs
  simp only [List.mem_cons, List.not_mem_nil, or_false] at hs
  rcases hs with rfl | rfl | rfl
  all_goals
    refine ⟨between_inRange _ _ (by decide), by decide, reset_bank_finite 0, by decide +kernel,
      fun st => by cases st <;> decide +kernel, by decide +kernel, by decide +kernel, by decide +kernel⟩

theorem test_witness_Coef : (0 : Nat) < 4 ∧ (3 : Nat) < 4 ∧ fresh.dec.bcd.wf 4 = true ∧ fresh.erased = true ∧
    (setFlag bitDsync true fresh).dec.bcd.wf 4 = true ∧ (setFlag bitDsync true fresh).dsync = true ∧
    fresh.dsync = false := by decide +kernel

theorem test_witness_MlDigitIsTheLowestMaximum : (2 : Nat) ≤ 10 ∧ (2 : Nat) ≤ 3 ∧
    (∀ d, d < 10 → ((⟨[(0, two), (9, two)]⟩ : RealArray).get d).isNaN = false) ∧
    (∀ d, d < 3 → (RealArray.zeros.get d).isNaN = false) ∧ (mlOf 10 ⟨[(0, two), (9, two)]⟩).ml = 0 := by decide +kernel

/-- The digit vectors at both ends of the register, and the new likelihoods there. -/
theorem test_witness_DecimDecodesADigit : ∀ p ∈ [0, 8], p < 9 ∧ fresh.dec.digits[p]? = some .zeros ∧
    DigitVec.zeros.like.wf 10 = true ∧
    ∀ j, j < radix p → (likeNext fresh.cfg fresh.dec.bcd j (DigitVec.zeros.like.get j)).isFinite = true := by
  decide +kernel

theorem test_witness_Msc : ∀ b ∈ [0, 6], b < 7 ∧ fresh.dec.miscp.wf 7 = true ∧ (miscNext fresh b).isFinite = true := by
  decide +kernel

theorem test_witness_MscdDecodesThenUpdatesDst1 : ∀ p ∈ [0, 8], p < 9 ∧ fresh.dec.digits[p]? = some .zeros ∧
    (∀ j, j < radix p → (likeNext fresh.cfg fresh.dec.bcd j (DigitVec.zeros.like.get j)).isFinite = true) ∧
    DigitVec.zeros.like.wf 10 = true ∧ (miscNext fresh 4).isFinite = true := by decide +kernel

theorem test_witness_PendRotatesTheProbe : ∀ f ∈ [0, 3],
    let s := (held 1 1).withAcq { Acq.atReset with pchan := f }
    s.acq.pchan < 4 ∧ s.acq.chan[s.acq.pchan]? = some ⟨.zeros, .zeros⟩ ∧ s.acq.cherr[s.acq.pchan]? = some 0 ∧
      s.acq.ms.a.Measurable ∧ s.acq.ms.b.Measurable := by decide +kernel

/-- The channel counts at the end of a rotation: all 0, and one station with a positive count. -/
def rotationEnd (n : Nat) : State :=
  (held 1 1).withAcq { Acq.atReset with pchan := 4, chan := Acq.atReset.chan.set 2 ⟨.zeros, { ChanRec.zeros with count := n }⟩ }

theorem test_witness_PendSelectsAtTheEndOfARotation : ∀ n ∈ [0, 2],
    (rotationEnd n).acq.pchan = 4 ∧ (rotationEnd n).acq.chan.length = 5 ∧
      (rotationEnd n).acq.chan[4]? = some ⟨.zeros, .zeros⟩ ∧ (rotationEnd n).acq.cherr[4]? = some 0 ∧ (rotationEnd n).acq.ms.a.Measurable ∧
      (rotationEnd n).acq.ms.b.Measurable ∧
      nextWith (exec .pend (rotationEnd n)) (fun t => t.chanCount 2 .b == n && t.acq.cherr == [0, 0, 0, 0, 1] && decide (t.sel = if n = 0 then .none else .b)) =
        true := by decide +kernel

theorem test_witness_MinuteEnds : ∀ leap ∈ [false, true],
    let s := setFlag bitLeap leap (held 59 0)
    s.dec.digits.length = 9 ∧ s.acq.chan.length = 5 ∧ s.acq.dchan < 5 ∧ s.SelLegal ∧ s.leap = leap := by decide +kernel

theorem test_witness_MeasuresOfASecond : (⟨[(0, two)]⟩ : RealArray).wf 8000 = true ∧
    ∀ j, j < 8000 → ((⟨[(0, two)]⟩ : RealArray).get j).isNaN = false := by
  refine ⟨by decide +kernel, fun j _ => ?_⟩
  show (if j = 0 then two else F64.zero).isNaN = false
  split <;> decide

/-- 1360 samples are no erasure (R201); no samples are one, and the 31st of a minute. -/
theorem test_witness_BitOfASecond : (withPulse fresh 1360).erased = false ∧
    (fresh.withDec { Dec.atReset with errcnt := 30 }).erased = true := by decide +kernel

theorem test_witness_ReceiverSecondAdvances : ∀ q ∈ [(0, false), (58, false), (59, false), (59, true), (60, true)],
    let s := setFlag bitLeap q.2 (held q.1 0)
    s.fault = none ∧ nextWith (exec .rsec s) (fun t => t.fault == none) = true := by decide +kernel

theorem test_witness_ReceiverSecondOnIdle : ∀ n ∈ [0, 49], (held n n).prog[(held n n).dec.rsec]? = some 0x00#8 := by
  decide

theorem test_witness_RawSecondWithoutSignal :
    (atClock fresh 0 58).clock.mphase ≠ 59 ∧
    (fresh.withEpoch { Epoch.atReset with avgcnt := 6 }).epoch.avgcnt + 1 < 2 ^ 3 ∧ fresh.sel = .none ∧
    (held 5 5).clock.mphase ≠ 59 ∧ ((held 5 5).epoch.comb.argmax 8000).2.lt (held 5 5).cfg.sthr = true := by decide +kernel

theorem test_witness_RawSecondTracksTheEpoch : ∀ q ∈ [(501, 0, 1), (700, 5, 0), (500, 9, 10)],
    let s := peak q.1 q.2.1
    s.clock.mphase ≠ 59 ∧ s.epoch.avgcnt + 1 < 2 ^ s.epoch.k ∧
      (s.epoch.comb.argmax 8000).2.lt s.cfg.sthr = false ∧ s.sel.station = some .a ∧
      nextWith (exec .rawsec s) (fun t => t.epoch.scmp == q.2.2) = true := by decide +kernel

theorem test_witness_IntervalEndUpdatesTheFll :
    (held 5 5).epoch.avgcnt + 1 < 2 ^ (held 5 5).epoch.k ∧
    (let s := (held 5 5).withEpoch { Epoch.atReset with avgcnt := 7, tepoch := 8 }
     2 ^ s.epoch.k ≤ s.epoch.avgcnt + 1 ∧ s.ssync = true ∧
      okWith (intervalStep s) (fun t => t.clock.freq == ⟨0x3EB0624DD2F1A9FC#64⟩ && t.clock.freq.isFinite) = true) := by
  decide +kernel

theorem test_witness_RawSecondOrder : ∀ m ∈ [58, 59],
    let s := atClock (held 5 5) 0 m
    s.fault = none ∧
      okWith (epochUpdate (s.withClock { s.clock with mphase := (s.clock.mphase + 1) % 60 })) (fun u =>
        okWith (intervalStep u) fun v => nextWith (exec .rawmin (syncCheck v)) fun t => t.fault == none) = true := by
  decide +kernel

theorem test_witness_RawMinuteCountsTheWatchdogs :
    (held 5 5).msync = true ∧
    nextWith (exec .rawmin ((held 5 5).withWd ⟨0, 15, 29, 5759⟩)) (fun t => t.wd == ⟨0, 0, 30, 5760⟩) = true ∧
    nextWith (exec .rawmin ((held 5 5).withWd ⟨0, 0, 30, 0⟩)) (fun t => t.wd == Watchdog.zeros) = true ∧
    nextWith (exec .rawmin ((held 5 5).withWd ⟨0, 0, 0, 5760⟩)) (fun t => t.wd == Watchdog.zeros) = true := by
  decide +kernel

/-- A scan with emax 100 and mean 1, of amplitude 10 (V2.4.5). -/
def strong : Scan := ⟨hundred, 6399, ⟨0x408F400000000000#64⟩, 1000⟩

/-- V2.4.5: the SNR of the strong scan is 20 dB. -/
theorem strong_snr : scanSnr strong = ⟨0x4034000000000000#64⟩ :=
  scanSnr_hundred (by decide +kernel) (by decide +kernel)

/-- Acquisition with no candidate, and with station A at its third pass. -/
theorem test_witness_RawMinuteAcquires : (fresh.msync = false ∧ fresh.acq.chan[fresh.acq.pchan]? = some ⟨.zeros, .zeros⟩ ∧
      fresh.acq.ms.a.Measurable ∧ fresh.acq.ms.b.Measurable) ∧ strong.Measurable ∧
    ({ ChanRec.zeros with count := 2, pos := 6399 }.scored Config.exampleCfg strong 0).count = 3 := by
  refine ⟨by decide +kernel, ⟨by decide +kernel, ?_⟩, ?_⟩
  · rw [strong_snr]; decide +kernel
  · unfold ChanRec.scored ChanRec.passes
    rw [strong_snr]
    decide +kernel

theorem test_witness_CarryTurnsADigit : (∀ p ∈ [0, 8], p < 9 ∧ fresh.dec.digits[p]? = some .zeros) ∧
    ∀ r ∈ [1, 10], 0 < r ∧ r ≤ 10 ∧ ({ DigitVec.zeros with digit := r - 1, like := ⟨[(9, one)]⟩ }).like.wf 10 = true ∧
      ({ DigitVec.zeros with digit := r - 1 }).digit < r ∧ ({ DigitVec.zeros with digit := r - 1 }).mldigit < r := by
  decide +kernel

theorem test_witness_TransmitterSecondAdvances : ∀ n ∈ [0, 58, 59, 60],
    (held 0 n).dec.digits.length = 9 ∧ nextWith (exec .tsec (held 0 n)) (fun t => t.fault == none) = true := by
  decide +kernel

theorem test_witness_ClockAdvanceCounts : (setFlag bitDsync true midway).dec.digits.length = 9 ∧
    (setFlag bitDsync true midway).DigitsInRange ∧ (setFlag bitDsync true midway).dsync = true :=
  ⟨rfl, fun p d h => ⟨(midway_inRange.dec.digits p d h).1, (midway_inRange.dec.digits p d h).2.1⟩, by decide⟩

theorem test_witness_RaisingAnAlarm : (0 : Nat) < 4 ∧ (3 : Nat) < 4 := by decide

theorem test_witness_AlarmMemoryLastsFourMinutes : (0x1000#16).getLsbD (4 * 3) = true ∧ (0 : Nat) < 4 ∧ (3 : Nat) < 4 ∧
    (qualityOf (ageWord^[3] 0x1000#16)).getLsbD 3 = true := by decide

end Sys2Proof.Tests
end

section
/-! PROOF. Rounding (00_scope.md R11): the magnitudes as a strictly rising scale of units of 2^-1074, and `roundMag` as the
choice between the two neighbours on that scale that enclose the exact value. -/

namespace Sys2Proof

/-! The scale of magnitudes. -/

/-- The units of 2^-1074 of the magnitude with given bits below the sign. -/
def F64.magUnits (k : Nat) : Nat :=
  if k / 2 ^ 52 = 0 then k % 2 ^ 52 else (2 ^ 52 + k % 2 ^ 52) <<< (k / 2 ^ 52 - 1)

theorem F64.units_eq_magUnits (a : F64) : a.units = F64.magUnits a.mag := rfl

theorem F64.infMag_eq : F64.infMag = 2047 * 2 ^ 52 := rfl

/-- A significand of at most 53 bits on the grid of step 2^s; the full 2^53 is the next binade's first value. -/
theorem F64.magUnits_grid {q s : Nat} (hq : q ≤ 2 ^ 53) (hs : s = 0 ∨ 2 ^ 52 ≤ q) :
    F64.magUnits (q + s * 2 ^ 52) = q * 2 ^ s := by
  unfold F64.magUnits
  rcases Nat.lt_or_ge q (2 ^ 52) with h | h
  · obtain rfl : s = 0 := by omega
    rw [if_pos (by omega)]
    omega
  · rw [if_neg (by omega), Nat.shiftLeft_eq]
    rcases Nat.lt_or_ge q (2 ^ 53) with h' | h'
    · rw [show (q + s * 2 ^ 52) / 2 ^ 52 - 1 = s by omega, show 2 ^ 52 + (q + s * 2 ^ 52) % 2 ^ 52 = q by omega]
    · rw [show (q + s * 2 ^ 52) / 2 ^ 52 - 1 = s + 1 by omega, show 2 ^ 52 + (q + s * 2 ^ 52) % 2 ^ 52 = 2 ^ 52 by omega,
        show q = 2 ^ 52 * 2 by omega, Nat.pow_succ]
      ring

/-- Every magnitude lies on the grid of its binade, below the binade's end. -/
theorem F64.exists_grid (k : Nat) : ∃ q s, k = q + s * 2 ^ 52 ∧ q < 2 ^ 53 ∧ (s = 0 ∨ 2 ^ 52 ≤ q) :=
  ⟨k - (k / 2 ^ 52 - 1) * 2 ^ 52, k / 2 ^ 52 - 1, by omega, by omega, by omega⟩

theorem F64.magUnits_strictMono : StrictMono F64.magUnits := by
  refine strictMono_nat_of_lt_succ fun k => ?_
  obtain ⟨q, s, rfl, hq, hs⟩ := F64.exists_grid k
  rw [F64.magUnits_grid (by omega) hs, show q + s * 2 ^ 52 + 1 = q + 1 + s * 2 ^ 52 by omega,
    F64.magUnits_grid (by omega) (by omega)]
  exact Nat.mul_lt_mul_of_pos_right (Nat.lt_succ_self q) (by positivity)

/-- The first magnitude that is not finite. -/
theorem F64.magUnits_infMag : F64.magUnits F64.infMag = 2 ^ 53 * 2 ^ 2045 := by
  rw [show F64.infMag = 2 ^ 53 + 2045 * 2 ^ 52 by simp only [F64.infMag_eq]; omega]
  exact F64.magUnits_grid (Nat.le_refl _) (by omega)

/-- The largest finite magnitude. -/
theorem F64.magUnits_maxFinite : F64.magUnits (F64.infMag - 1) = (2 ^ 53 - 1) * 2 ^ 2045 := by
  rw [show F64.infMag - 1 = 2 ^ 53 - 1 + 2045 * 2 ^ 52 by simp only [F64.infMag_eq]; omega]
  exact F64.magUnits_grid (Nat.sub_le _ _) (by omega)

/-! The fields of a packed value. -/

theorem F64.toNat_pack {m : Nat} (neg : Bool) (h : m < 2 ^ 63) :
    (F64.pack neg m).bits.toNat = (if neg then 2 ^ 63 else 0) + m := by
  unfold F64.pack
  cases neg <;> simp only [BitVec.toNat_ofNat, if_true, Bool.false_eq_true, if_false] <;> omega

theorem F64.mag_pack {m : Nat} (neg : Bool) (h : m < 2 ^ 63) : (F64.pack neg m).mag = m := by
  unfold F64.mag
  rw [F64.toNat_pack neg h]
  cases neg <;> simp <;> omega

theorem F64.sign_pack {m : Nat} (neg : Bool) (h : m < 2 ^ 63) : (F64.pack neg m).sign = neg := by
  unfold F64.sign
  rw [BitVec.getLsbD, F64.toNat_pack neg h, Nat.testBit_eq_decide_div_mod_eq]
  cases neg <;> simp <;> omega

theorem F64.units_pack {m : Nat} (neg : Bool) (h : m < 2 ^ 63) : (F64.pack neg m).units = F64.magUnits m := by
  rw [F64.units_eq_magUnits, F64.mag_pack neg h]

/-! The enclosing neighbours. -/

/-- num/den units lie from magnitude M up to its successor, on the scale without an end. -/
structure F64.Between (num den M : Nat) : Prop where
  low : den * F64.magUnits M ≤ num
  high : num < den * F64.magUnits (M + 1)

/-- num/den lies above the middle of M and its successor, or on it with M odd: rounding goes up. -/
def F64.RoundsUp (num den M : Nat) : Prop :=
  den * (F64.magUnits M + F64.magUnits (M + 1)) < 2 * num ∨
    (den * (F64.magUnits M + F64.magUnits (M + 1)) = 2 * num ∧ M % 2 = 1)

/-- The quotient by the step of its binade has at most 53 bits, and 53 exactly where the step is above one unit. -/
theorem F64.quotient_bounds (whole : Nat) : whole / 2 ^ (whole.log2 - 52) < 2 ^ 53 ∧
    (whole.log2 - 52 = 0 ∨ 2 ^ 52 ≤ whole / 2 ^ (whole.log2 - 52)) := by
  rcases Nat.lt_or_ge whole.log2 53 with h | h
  · have hlt : whole < 2 ^ 53 := Nat.lt_of_lt_of_le Nat.lt_log2_self (Nat.pow_le_pow_right (by omega) h)
    exact ⟨Nat.lt_of_le_of_lt (Nat.div_le_self _ _) hlt, .inl (by omega)⟩
  · have hlt : whole < 2 ^ (whole.log2 + 1) := Nat.lt_log2_self
    have hle : 2 ^ whole.log2 ≤ whole := Nat.log2_self_le (by rintro rfl; simp at h)
    constructor
    · rw [Nat.div_lt_iff_lt_mul (by positivity), ← Nat.pow_add]
      rwa [show 53 + (whole.log2 - 52) = whole.log2 + 1 by omega]
    · rw [Nat.le_div_iff_mul_le (by positivity), ← Nat.pow_add]
      right
      rwa [show 52 + (whole.log2 - 52) = whole.log2 by omega]

/-- What rounding does: it takes the upper of two neighbours where it has to round up, else the lower, and no magnitude
above infinity. -/
theorem F64.roundMag_cases (num : Nat) {den : Nat} (hd : 0 < den) : ∃ M, F64.Between num den M ∧
    ((F64.RoundsUp num den M ∧ F64.roundMag num den = (M + 1) ⊓ F64.infMag) ∨
      (¬ F64.RoundsUp num den M ∧ F64.roundMag num den = M ⊓ F64.infMag)) := by
  obtain ⟨hq, hs⟩ := F64.quotient_bounds (num / den)
  unfold F64.roundMag
  dsimp only
  rw [Nat.shiftLeft_eq]
  generalize hsd : (num / den).log2 - 52 = s at hq hs ⊢
  rw [Nat.div_div_eq_div_mul] at hq hs
  have hmod := Nat.div_add_mod num (den * 2 ^ s)
  have hr : num % (den * 2 ^ s) < den * 2 ^ s := Nat.mod_lt _ (by positivity)
  generalize num / (den * 2 ^ s) = q at hq hs hmod ⊢
  generalize num % (den * 2 ^ s) = r at hr hmod ⊢
  have lowU : F64.magUnits (q + s * 2 ^ 52) = q * 2 ^ s := F64.magUnits_grid (by omega) hs
  have highU : F64.magUnits (q + s * 2 ^ 52 + 1) = (q + 1) * 2 ^ s := by
    rw [show q + s * 2 ^ 52 + 1 = q + 1 + s * 2 ^ 52 by omega]
    exact F64.magUnits_grid (by omega) (by omega)
  have lowE : den * F64.magUnits (q + s * 2 ^ 52) = den * 2 ^ s * q := by rw [lowU]; ring
  have highE : den * F64.magUnits (q + s * 2 ^ 52 + 1) = den * 2 ^ s * q + den * 2 ^ s := by rw [highU]; ring
  have up : F64.RoundsUp num den (q + s * 2 ^ 52) ↔ den * 2 ^ s < 2 * r ∨ (2 * r = den * 2 ^ s ∧ q % 2 = 1) := by
    unfold F64.RoundsUp
    rw [Nat.mul_add, lowE, highE]
    omega
  refine ⟨q + s * 2 ^ 52, ⟨by omega, by omega⟩, ?_⟩
  by_cases h : den * 2 ^ s < 2 * r ∨ (2 * r = den * 2 ^ s ∧ q % 2 = 1)
  · rw [if_pos h]
    exact .inl ⟨up.mpr h, by rw [show q + 1 + s * 2 ^ 52 = q + s * 2 ^ 52 + 1 by omega]⟩
  · rw [if_neg h]
    exact .inr ⟨fun e => h (up.mp e), rfl⟩

theorem F64.roundMag_le_infMag (num den : Nat) : F64.roundMag num den ≤ F64.infMag := Nat.min_le_right _ _

theorem F64.roundMag_lt (num den : Nat) : F64.roundMag num den < 2 ^ 63 :=
  Nat.lt_of_le_of_lt (F64.roundMag_le_infMag num den) (by decide)

theorem F64.Between.le_of_le {num num' den M M' : Nat} (h : F64.Between num den M) (h' : F64.Between num' den M')
    (hn : num ≤ num') : M ≤ M' := by
  have := Nat.lt_of_mul_lt_mul_left (Nat.lt_of_le_of_lt (h.low.trans hn) h'.high)
  exact Nat.le_of_lt_succ (F64.magUnits_strictMono.lt_iff_lt.mp this)

theorem F64.RoundsUp.mono {num num' den M : Nat} (h : F64.RoundsUp num den M) (hn : num ≤ num') :
    F64.RoundsUp num' den M := by
  unfold F64.RoundsUp at *
  omega

/-- Rounding is monotone. -/
theorem F64.roundMag_mono {num num' den : Nat} (hd : 0 < den) (hn : num ≤ num') :
    F64.roundMag num den ≤ F64.roundMag num' den := by
  obtain ⟨M, hb, h⟩ := F64.roundMag_cases num hd
  obtain ⟨M', hb', h'⟩ := F64.roundMag_cases num' hd
  have hM := hb.le_of_le hb' hn
  rcases h with ⟨hu, e⟩ | ⟨-, e⟩ <;> rcases h' with ⟨-, e'⟩ | ⟨hu', e'⟩ <;> rw [e, e']
  · omega
  · have : M ≠ M' := by rintro rfl; exact hu' (hu.mono hn)
    omega
  · omega
  · omega

end Sys2Proof
end

section
/-! PROOF. The four operations round their exact result (00_scope.md R11). -/

namespace Sys2Proof

open Machine

/-- A magnitude other than M and its successor lies outside the two on the scale. -/
theorem F64.magUnits_outside (M : Nat) {den : Nat} (hd : 0 < den) (m : Nat) :
    m = M ∨ m = M + 1 ∨ (m < M ∧ den * F64.magUnits m < den * F64.magUnits M) ∨
      (M + 1 < m ∧ den * F64.magUnits (M + 1) < den * F64.magUnits m) := by
  have key {i j : Nat} (h : i < j) : den * F64.magUnits i < den * F64.magUnits j :=
    Nat.mul_lt_mul_of_pos_left (F64.magUnits_strictMono h) hd
  rcases Nat.lt_trichotomy m M with h | h | h
  · exact .inr (.inr (.inl ⟨h, key h⟩))
  · exact .inl h
  · rcases Nat.eq_or_lt_of_le h with h | h
    · exact .inr (.inl h.symm)
    · exact .inr (.inr (.inr ⟨h, key h⟩))

namespace Machine

/-- The rounding threshold of infinity lies half a unit in the last place above the largest finite value: a value below
the last finite magnitude's successor reaches it exactly if it rounds up there. -/
theorem roundMag_eq_infMag_iff (num : Nat) {den : Nat} (hd : 0 < den) :
    F64.roundMag num den = F64.infMag ↔ (2 ^ 54 - 1) * 2 ^ 2044 * den ≤ num := by
  obtain ⟨M, hb, h⟩ := F64.roundMag_cases num hd
  have hmono {i j : Nat} (h : i ≤ j) : den * F64.magUnits i ≤ den * F64.magUnits j :=
    Nat.mul_le_mul_left _ (F64.magUnits_strictMono.monotone h)
  obtain ⟨hlow, hhigh⟩ := hb
  have hpos : 0 < 2 ^ 2044 * den := by positivity
  have hinf : den * F64.magUnits F64.infMag = 2 ^ 54 * (2 ^ 2044 * den) := by
    rw [F64.magUnits_infMag, Nat.pow_succ 2 2044]; generalize 2 ^ 2044 = c; ring
  have hmax : den * F64.magUnits (F64.infMag - 1) = (2 ^ 54 - 2) * (2 ^ 2044 * den) := by
    rw [F64.magUnits_maxFinite, Nat.pow_succ 2 2044]; generalize 2 ^ 2044 = c; ring
  rw [Nat.mul_assoc]
  generalize 2 ^ 2044 * den = c at *
  have hodd : (F64.infMag - 1) % 2 = 1 ∧ 0 < F64.infMag := by decide
  generalize F64.infMag = top at *
  rcases Nat.lt_trichotomy (M + 1) top with hM | hM | hM
  · have := hmono (show M + 1 ≤ top - 1 by omega)
    rcases h with ⟨-, h⟩ | ⟨-, h⟩ <;> omega
  · obtain rfl : M = top - 1 := by omega
    rw [hM] at hhigh
    unfold F64.RoundsUp at h
    rw [hM, Nat.mul_add] at h
    rcases h with ⟨hu, h⟩ | ⟨hu, h⟩ <;> omega
  · have := hmono (show top ≤ M by omega)
    rcases h with ⟨-, h⟩ | ⟨-, h⟩ <;> omega

/-- Rounding is to the nearest magnitude, ties to even. -/
theorem roundMag_nearestMag (num : Nat) {den : Nat} (hd : 0 < den) : NearestMag num den (F64.roundMag num den) where
  bound := F64.roundMag_le_infMag num den
  inf := roundMag_eq_infMag_iff num hd
  nearest hr m hm := by
    have hinf : F64.infMag < 2 ^ 63 := by decide
    dsimp only
    rw [F64.units_pack false (hr.trans hinf), F64.units_pack false (hm.trans hinf), ← Nat.cast_mul, ← Nat.cast_mul]
    obtain ⟨M, ⟨hlow, hhigh⟩, h⟩ := F64.roundMag_cases num hd
    have hout := F64.magUnits_outside M hd m
    unfold F64.RoundsUp at h
    rw [Nat.mul_add] at h
    generalize F64.roundMag num den = r at *
    rcases h with ⟨hu, h⟩ | ⟨hu, h⟩
    · obtain rfl : r = M + 1 := by omega
      rcases hout with rfl | rfl | ⟨hmM, hout⟩ | ⟨hmM, hout⟩ <;> omega
    · obtain rfl : r = M := by omega
      rcases hout with rfl | rfl | ⟨hmM, hout⟩ | ⟨hmM, hout⟩ <;> omega

/-- A value packed from a sign and a rounded magnitude is the exact result rounded. -/
theorem roundsTo_pack {neg s : Bool} {z : Int} {num den : Nat} (hd : 0 < den) (hz : z.natAbs = num)
    (hs : s = if z = 0 then neg else decide (z < 0)) : RoundsTo neg z den (F64.pack s (F64.roundMag num den)) where
  sign := by rw [F64.sign_pack _ (F64.roundMag_lt _ _), hs]
  mag := by rw [F64.mag_pack _ (F64.roundMag_lt _ _), hz]; exact roundMag_nearestMag num hd

end Machine

theorem F64.roundMag_zero (den : Nat) : F64.roundMag 0 den = 0 := by simp [F64.roundMag]

/-! Finite values. -/

theorem F64.isFinite_iff {a : F64} : a.isFinite = true ↔ a.mag < F64.infMag := by simp [F64.isFinite]

theorem F64.isNaN_eq_false_iff {a : F64} : a.isNaN = false ↔ a.mag ≤ F64.infMag := by simp [F64.isNaN]

theorem F64.not_isNaN_of_isFinite {a : F64} (h : a.isFinite = true) : a.isNaN = false :=
  F64.isNaN_eq_false_iff.mpr (F64.isFinite_iff.mp h).le

theorem F64.not_isInf_of_isFinite {a : F64} (h : a.isFinite = true) : a.isInf = false := by
  simpa [F64.isInf] using (F64.isFinite_iff.mp h).ne

/-- The units are zero exactly for the two zeros. -/
theorem F64.units_eq_zero_iff {a : F64} : a.units = 0 ↔ a.mag = 0 := by
  rw [F64.units_eq_magUnits]
  exact F64.magUnits_strictMono.injective.eq_iff (b := 0)

theorem F64.natAbs_toInt (a : F64) : a.toInt.natAbs = a.units := by unfold F64.toInt; split <;> omega

theorem F64.toInt_neg_iff {a : F64} (h : a.toInt ≠ 0) : a.toInt < 0 ↔ a.sign = true := by
  unfold F64.toInt at *; cases a.sign <;> simp at h ⊢; omega

/-- The sign of a product that is not zero. -/
theorem F64.sign_bne_eq_decide_neg {a b : F64} (h : a.toInt * b.toInt ≠ 0) :
    (a.sign != b.sign) = decide (a.toInt * b.toInt < 0) := by
  have ha := F64.toInt_neg_iff (left_ne_zero_of_mul h)
  have hb := F64.toInt_neg_iff (right_ne_zero_of_mul h)
  have := left_ne_zero_of_mul h
  have := right_ne_zero_of_mul h
  rw [Bool.eq_iff_iff, decide_eq_true_eq, Int.mul_neg_iff, bne_iff_ne, ne_eq, Bool.eq_iff_iff, ← ha, ← hb]
  omega

@[simp] theorem F64.sign_neg (a : F64) : a.neg.sign = !a.sign := by simp [F64.sign, F64.neg]

@[simp] theorem F64.mag_neg (a : F64) : a.neg.mag = a.mag := by
  unfold F64.mag F64.neg
  rw [BitVec.toNat_xor]
  apply Nat.eq_of_testBit_eq
  intro i
  rw [Nat.testBit_mod_two_pow, Nat.testBit_mod_two_pow, Nat.testBit_xor,
    show (0x8000000000000000#64).toNat = 2 ^ 63 from rfl, Nat.testBit_two_pow]
  by_cases h : i < 63
  · simp [show (63 = i) = False by simp; omega]
  · simp [h]

@[simp] theorem F64.toInt_neg (a : F64) : a.neg.toInt = -a.toInt := by
  unfold F64.toInt
  rw [F64.sign_neg, F64.units_eq_magUnits a.neg, F64.mag_neg, ← F64.units_eq_magUnits]
  cases a.sign <;> simp

@[simp] theorem F64.isFinite_neg (a : F64) : a.neg.isFinite = a.isFinite := by simp [F64.isFinite]

/-- The sum of finite values packs its exact value rounded. -/
theorem F64.add_of_finite {a b : F64} (ha : a.isFinite = true) (hb : b.isFinite = true) :
    a.add b = F64.pack (if a.toInt + b.toInt = 0 then a.sign && b.sign else decide (a.toInt + b.toInt < 0))
      (F64.roundMag (a.toInt + b.toInt).natAbs 1) := by
  unfold F64.add
  simp only [F64.not_isNaN_of_isFinite ha, F64.not_isNaN_of_isFinite hb, F64.not_isInf_of_isFinite ha,
    F64.not_isInf_of_isFinite hb, Bool.or_self, Bool.false_eq_true, if_false]
  by_cases hz : a.toInt + b.toInt = 0
  · rw [if_pos hz, if_pos hz, hz, Int.natAbs_zero, F64.roundMag_zero]
    cases a.sign && b.sign <;> rfl
  · rw [if_neg hz, if_neg hz]

namespace Machine

section
variable {a b : F64} (ha : a.isFinite = true) (hb : b.isFinite = true)
include ha hb

theorem add_roundsTo : RoundsTo (a.sign && b.sign) (a.toInt + b.toInt) 1 (a.add b) := by
  rw [F64.add_of_finite ha hb]
  exact roundsTo_pack Nat.one_pos rfl rfl

theorem sub_roundsTo : RoundsTo (a.sign && !b.sign) (a.toInt - b.toInt) 1 (a.sub b) := by
  have h := add_roundsTo ha (b := b.neg) (by simpa using hb)
  rw [F64.sign_neg, F64.toInt_neg, ← Int.sub_eq_add_neg] at h
  unfold F64.sub
  rwa [F64.not_isNaN_of_isFinite hb, if_neg Bool.false_ne_true]

theorem mul_roundsTo : RoundsTo (a.sign != b.sign) (a.toInt * b.toInt) (2 ^ 1074) (a.mul b) := by
  unfold F64.mul
  simp only [F64.not_isNaN_of_isFinite ha, F64.not_isNaN_of_isFinite hb, F64.not_isInf_of_isFinite ha,
    F64.not_isInf_of_isFinite hb, Bool.or_self, Bool.false_eq_true, if_false]
  refine roundsTo_pack (by positivity) (by rw [Int.natAbs_mul, F64.natAbs_toInt, F64.natAbs_toInt]) ?_
  split
  · rfl
  · next hz => exact F64.sign_bne_eq_decide_neg hz

theorem div_roundsTo (h0 : b.toInt ≠ 0) : RoundsTo (a.sign != b.sign)
    ((if b.sign then -a.toInt else a.toInt) * 2 ^ 1074) b.units (a.div b) := by
  have hbu : b.units ≠ 0 := by have := F64.natAbs_toInt b; omega
  unfold F64.div
  simp only [F64.not_isNaN_of_isFinite ha, F64.not_isNaN_of_isFinite hb, F64.not_isInf_of_isFinite ha,
    F64.not_isInf_of_isFinite hb, Bool.or_self, Bool.false_eq_true, if_false, mt F64.units_eq_zero_iff.mpr hbu]
  refine roundsTo_pack (Nat.pos_of_ne_zero hbu) ?_ ?_
  · rw [Int.natAbs_mul, Nat.shiftLeft_eq, Int.natAbs_pow]
    have := F64.natAbs_toInt a
    split <;> simp [this]
  · have hpow : (0 : Int) < 2 ^ 1074 := by positivity
    simp only [Int.mul_eq_zero, Int.mul_neg_iff, hpow, hpow.ne', hpow.not_gt, or_false, and_true, and_false, false_or]
    rcases eq_or_ne a.toInt 0 with h | h
    · simp [h]
    · have hneg := F64.toInt_neg_iff h
      cases hs : b.sign <;> cases hs' : a.sign <;> simp [h, hs'] at hneg ⊢ <;> omega
end

end Machine

/-- Settles O26: `roundMag` picks the nearer of the two magnitudes that enclose the exact value, and each operation packs
its exact result rounded by it. -/
theorem roundingIsNearestEven : Obligations.RoundingIsNearestEven :=
  ⟨fun num _ hd => roundMag_nearestMag num hd, fun _ _ ha hb =>
    ⟨add_roundsTo ha hb, sub_roundsTo ha hb, mul_roundsTo ha hb, div_roundsTo ha hb⟩⟩

end Sys2Proof
end

section
/-! PROOF. The square root is the nearest value to the real root (00_scope.md R11): the integer root with its sticky bit
lies on the same side of every multiple of twice its step as the real root does, and the middles of neighbouring results
are such multiples. -/

namespace Sys2Proof

open Machine

theorem isqrtFrom_bounds (n : Nat) : ∀ k root : Nat, root * root ≤ n → n < (root + 2 ^ k) * (root + 2 ^ k) →
    isqrtFrom n k root * isqrtFrom n k root ≤ n ∧ n < (isqrtFrom n k root + 1) * (isqrtFrom n k root + 1)
  | 0, _, hlow, hhigh => ⟨hlow, hhigh⟩
  | k + 1, root, hlow, hhigh => by
    unfold isqrtFrom
    split
    · next h =>
      refine isqrtFrom_bounds n k _ h ?_
      rwa [Nat.add_assoc, ← Nat.two_mul, ← Nat.pow_succ']
    · next h => exact isqrtFrom_bounds n k root hlow (Nat.lt_of_not_le h)

/-- `isqrt n` is the largest number whose square is at most n. -/
theorem isqrt_bounds (n : Nat) : isqrt n * isqrt n ≤ n ∧ n < (isqrt n + 1) * (isqrt n + 1) := by
  refine isqrtFrom_bounds n _ 0 (Nat.zero_le n) ?_
  rw [Nat.zero_add, ← Nat.pow_add]
  exact Nat.lt_of_lt_of_le Nat.lt_log2_self (Nat.pow_le_pow_right (by decide) (by omega))

/-- The integer root of n in half units, made odd where it is inexact. -/
def stickyRoot (n : Nat) : Nat := 2 * isqrt n + if isqrt n * isqrt n = n then 0 else 1

/-- The radicand m * 2^e with an even exponent, scaled by 2^120. -/
def scaledRadicand (m e : Nat) : Nat := (if e % 2 = 1 then 2 * m else m) * 2 ^ 120

theorem F64.sqrtMag_eq (m e : Nat) :
    F64.sqrtMag m e = F64.roundMag (stickyRoot (scaledRadicand m e) * 2 ^ (e / 2 - 60)) 2 := by
  unfold F64.sqrtMag scaledRadicand
  rw [← Nat.shiftLeft_eq, ← Nat.shiftLeft_eq]
  rfl

/-- The sticky root lies on the same side of every whole number as the real root. -/
theorem stickyRoot_side (n k : Nat) :
    (stickyRoot n ≤ 2 * k → n ≤ k ^ 2) ∧ (2 * k ≤ stickyRoot n → k ^ 2 ≤ n) := by
  obtain ⟨hlow, hhigh⟩ := isqrt_bounds n
  have up (h : k ≤ isqrt n) : k ^ 2 ≤ n := (Nat.pow_le_pow_left h 2).trans (by rwa [pow_two])
  unfold stickyRoot
  split
  · next he =>
    exact ⟨fun h => by rw [← he, ← pow_two]; exact Nat.pow_le_pow_left (by omega) 2, fun h => up (by omega)⟩
  · exact ⟨fun h => by
      have := Nat.pow_le_pow_left (show isqrt n + 1 ≤ k by omega) 2
      rw [pow_two] at this
      omega, fun h => up (by omega)⟩

/-- Values x on the scale for which `num`/2 and the real root of `square` lie on the same side. -/
def SameSide (num square x : Nat) : Prop := (num ≤ x → 4 * square ≤ x ^ 2) ∧ (x ≤ num → x ^ 2 ≤ 4 * square)

/-- The nearest magnitude to num/2 is the nearest to a root that lies on the same side of the two neighbours and their
middle as num/2. -/
theorem roundMag_nearest_root {num square r k : Nat} (hr : F64.roundMag num 2 = r) (hfin : r < F64.infMag)
    (hs : ∀ M, F64.Between num 2 M → SameSide num square (2 * F64.magUnits M) ∧
      SameSide num square (2 * F64.magUnits (M + 1)) ∧ SameSide num square (F64.magUnits M + F64.magUnits (M + 1))) :
    (F64.magUnits r < F64.magUnits k → 4 * square ≤ (F64.magUnits r + F64.magUnits k) ^ 2) ∧
    (F64.magUnits k < F64.magUnits r → (F64.magUnits r + F64.magUnits k) ^ 2 ≤ 4 * square) := by
  obtain ⟨M, hb, h⟩ := F64.roundMag_cases num (den := 2) (by decide)
  obtain ⟨⟨-, lowS⟩, ⟨highS, -⟩, ⟨midUp, midDown⟩⟩ := hs M hb
  obtain ⟨hlow, hhigh⟩ := hb
  have mono {i j : Nat} (h : i ≤ j) := F64.magUnits_strictMono.monotone h
  have step := F64.magUnits_strictMono (Nat.lt_succ_self M)
  rw [hr] at h
  unfold F64.RoundsUp at h
  simp only [F64.magUnits_strictMono.lt_iff_lt]
  rcases h with ⟨hu, h⟩ | ⟨hu, h⟩
  · obtain rfl : r = M + 1 := by omega
    constructor <;> intro hk
    · exact (highS (by omega)).trans (Nat.pow_le_pow_left (by have := mono hk.le; omega) 2)
    · exact (Nat.pow_le_pow_left (by have := mono (Nat.le_of_lt_succ hk); omega) 2).trans (midDown (by omega))
  · obtain rfl : r = M := by omega
    constructor <;> intro hk
    · exact (midUp (by omega)).trans (Nat.pow_le_pow_left (by have := mono (show r + 1 ≤ k from hk); omega) 2)
    · exact (Nat.pow_le_pow_left (by have := mono hk.le; omega) 2).trans (lowS (by omega))

/-- The sticky root, shifted, lies on the same side of a multiple of twice its step as the real root. -/
theorem sameSide_stickyRoot (n c k : Nat) (hc : 0 < c) : SameSide (stickyRoot n * c) (n * c ^ 2) (2 * c * k) := by
  obtain ⟨up, down⟩ := stickyRoot_side n k
  have hsq : (2 * c * k) ^ 2 = 4 * (k ^ 2 * c ^ 2) := by ring
  rw [SameSide, hsq, show 2 * c * k = 2 * k * c by ring]
  constructor <;> intro h
  · exact Nat.mul_le_mul_left _ (Nat.mul_le_mul_right _ (up (Nat.le_of_mul_le_mul_right h hc)))
  · exact Nat.mul_le_mul_left _ (Nat.mul_le_mul_right _ (down (Nat.le_of_mul_le_mul_right h hc)))

/-- From 2^t units on, the neighbours lie on a grid of step 2^(t-52). -/
theorem dvd_magUnits {M t : Nat} (h : 2 ^ t < F64.magUnits (M + 1)) (ht : 52 ≤ t) :
    2 ^ (t - 52) ∣ F64.magUnits M ∧ 2 ^ (t - 52) ∣ F64.magUnits (M + 1) := by
  obtain ⟨q, s, rfl, hq, hs⟩ := F64.exists_grid M
  have highU : F64.magUnits (q + s * 2 ^ 52 + 1) = (q + 1) * 2 ^ s := by
    rw [show q + s * 2 ^ 52 + 1 = q + 1 + s * 2 ^ 52 by omega]
    exact F64.magUnits_grid (by omega) (by omega)
  rw [F64.magUnits_grid (by omega) hs]
  rw [highU] at h ⊢
  have hlt : 2 ^ t < 2 ^ (53 + s) := by
    rw [Nat.pow_add]
    exact h.trans_le (Nat.mul_le_mul_right _ (by omega))
  have hts := (Nat.pow_lt_pow_iff_right (by decide)).mp hlt
  have hd : 2 ^ (t - 52) ∣ 2 ^ s := Nat.pow_dvd_pow 2 (by omega)
  exact ⟨hd.mul_left _, hd.mul_left _⟩

/-- Where `square` has a sticky root of at least 2^55 half units, the rounded root is nearest to the real one. -/
theorem roundMag_stickyRoot_nearest {n c r d : Nat} (hc : c = 2 ^ d) (hn : 2 ^ 55 ≤ stickyRoot n)
    (hr : F64.roundMag (stickyRoot n * c) 2 = r) (hfin : r < F64.infMag) (k : Nat) :
    (F64.magUnits r < F64.magUnits k → 4 * (n * c ^ 2) ≤ (F64.magUnits r + F64.magUnits k) ^ 2) ∧
    (F64.magUnits k < F64.magUnits r → (F64.magUnits r + F64.magUnits k) ^ 2 ≤ 4 * (n * c ^ 2)) := by
  refine roundMag_nearest_root hr hfin fun M hb => ?_
  have hbig : 2 ^ (d + 54) < F64.magUnits (M + 1) := by
    have := Nat.mul_le_mul_right c hn
    have h55 : 2 ^ 55 * c = 2 * 2 ^ (d + 54) := by rw [hc, Nat.pow_add]; ring
    have := hb.high
    omega
  have hdvd := dvd_magUnits hbig (by omega)
  rw [show d + 54 - 52 = d + 2 by omega, Nat.pow_add, ← hc] at hdvd
  obtain ⟨⟨x, hx⟩, ⟨y, hy⟩⟩ := hdvd
  have hpos : 0 < c := by rw [hc]; positivity
  refine ⟨?_, ?_, ?_⟩
  · rw [hx, show 2 * (c * 2 ^ 2 * x) = 2 * c * (4 * x) by ring]; exact sameSide_stickyRoot n c _ hpos
  · rw [hy, show 2 * (c * 2 ^ 2 * y) = 2 * c * (4 * y) by ring]; exact sameSide_stickyRoot n c _ hpos
  · rw [hx, hy, show c * 2 ^ 2 * x + c * 2 ^ 2 * y = 2 * c * (2 * x + 2 * y) by ring]
    exact sameSide_stickyRoot n c _ hpos

/-- The radicand m * 2^e of a square root: m of at most 53 bits, e as `F64.sqrt` forms it from an exponent field. -/
structure Radicand (m e : Nat) : Prop where
  pos : 0 < m
  small : m < 2 ^ 53
  low : 1074 ≤ e
  high : e ≤ 3119

theorem scaledRadicand_mul {m e : Nat} (h : 120 ≤ e) : scaledRadicand m e * (2 ^ (e / 2 - 60)) ^ 2 = m * 2 ^ e := by
  have he : 2 ^ e = 2 ^ (e % 2) * (2 ^ 120 * (2 ^ (e / 2 - 60)) ^ 2) :=
    calc 2 ^ e = 2 ^ (e % 2 + (120 + (e / 2 - 60) * 2)) := congrArg (2 ^ ·) (by omega)
      _ = _ := by rw [Nat.pow_add, Nat.pow_add, Nat.pow_mul]
  have hm : (if e % 2 = 1 then 2 * m else m) = 2 ^ (e % 2) * m := by
    rcases Nat.mod_two_eq_zero_or_one e with h | h <;> rw [h] <;> simp
  rw [scaledRadicand, hm, he]
  generalize 2 ^ 120 = c
  ring

theorem Radicand.scaled_bounds {m e : Nat} (h : Radicand m e) :
    (2 ^ 60) ^ 2 ≤ scaledRadicand m e ∧ scaledRadicand m e < (2 ^ 87) ^ 2 := by
  obtain ⟨hpos, hsmall, -, -⟩ := h
  unfold scaledRadicand
  generalize hm : (if e % 2 = 1 then 2 * m else m) = m'
  have hm' : 0 < m' ∧ m' < 2 ^ 54 := by split at hm <;> omega
  rw [← Nat.pow_mul, ← Nat.pow_mul, show 87 * 2 = 54 + 60 * 2 by rfl, Nat.pow_add]
  have hpow : 0 < 2 ^ (60 * 2) := by positivity
  exact ⟨Nat.le_mul_of_pos_left _ hm'.1, Nat.mul_lt_mul_of_pos_right hm'.2 hpow⟩

/-- The sticky root is wide enough to round once, and far below infinity. -/
theorem Radicand.stickyRoot_bounds {m e : Nat} (h : Radicand m e) :
    2 ^ 55 ≤ stickyRoot (scaledRadicand m e) ∧ stickyRoot (scaledRadicand m e) < 2 ^ 88 := by
  obtain ⟨hlow, hhigh⟩ := h.scaled_bounds
  have lowS := (stickyRoot_side (scaledRadicand m e) (2 ^ 54)).1
  have highS := (stickyRoot_side (scaledRadicand m e) (2 ^ 87)).2
  generalize scaledRadicand m e = n at *
  have hne : (2 ^ 54) ^ 2 < (2 ^ 60) ^ 2 := Nat.pow_lt_pow_left (by decide) (by decide)
  constructor
  · by_contra h
    exact absurd (hne.trans_le hlow) (not_lt_of_ge (lowS (by omega)))
  · by_contra h
    exact absurd hhigh (not_lt_of_ge (highS (by omega)))

theorem F64.sqrtMag_lt_infMag {m e : Nat} (h : Radicand m e) : F64.sqrtMag m e < F64.infMag := by
  refine lt_of_le_of_ne (F64.roundMag_le_infMag _ _) fun hinf => ?_
  rw [F64.sqrtMag_eq] at hinf
  have hle := (roundMag_eq_infMag_iff _ (by decide)).mp hinf
  have hlt : stickyRoot (scaledRadicand m e) * 2 ^ (e / 2 - 60) < 2 ^ 88 * 2 ^ 1499 :=
    Nat.mul_lt_mul_of_lt_of_le h.stickyRoot_bounds.2
      (Nat.pow_le_pow_right (by decide) (by have := h.high; omega)) (by positivity)
  have hbig : (2 : Nat) ^ 88 * 2 ^ 1499 ≤ (2 ^ 54 - 1) * 2 ^ 2044 * 2 := by
    have h : (2 : Nat) ^ (88 + 1499) ≤ 2 ^ 2044 := Nat.pow_le_pow_right (by decide) (by decide)
    rw [← Nat.pow_add]
    generalize (2 : Nat) ^ (88 + 1499) = x at h ⊢
    generalize (2 : Nat) ^ 2044 = y at h ⊢
    omega
  exact absurd (hlt.trans_le (hbig.trans hle)) (lt_irrefl _)

/-- The square root of a finite value of sign + that is not zero rounds the root of a radicand. -/
theorem F64.sqrt_eq_sqrtMag {a : F64} (hfin : a.isFinite = true) (hsign : a.sign = false) (h0 : a.mag ≠ 0) :
    ∃ m e, Radicand m e ∧ m * 2 ^ e = a.units * 2 ^ 1074 ∧ a.sqrt = F64.pack false (F64.sqrtMag m e) := by
  have hmag := F64.isFinite_iff.mp hfin
  rw [F64.infMag_eq] at hmag
  unfold F64.sqrt
  simp only [F64.not_isNaN_of_isFinite hfin, h0, hsign, F64.not_isInf_of_isFinite hfin, Bool.false_eq_true, if_false]
  unfold F64.units
  split
  · next he =>
    unfold F64.expField at he
    refine ⟨a.fracField, 1074, ⟨?_, ?_, le_refl _, by decide⟩, rfl, rfl⟩ <;> unfold F64.fracField <;> omega
  · next he =>
    refine ⟨2 ^ 52 + a.fracField, a.expField + 1073, ⟨by omega, ?_, by omega, ?_⟩, ?_, rfl⟩
    · unfold F64.fracField; omega
    · unfold F64.expField; omega
    · rw [Nat.shiftLeft_eq, Nat.mul_assoc, ← Nat.pow_add]
      congr 2
      omega

/-- The rounded root of a radicand is nearest to its real root. -/
theorem F64.sqrtMag_nearest {m e : Nat} (h : Radicand m e) (k : Nat) :
    (F64.magUnits (F64.sqrtMag m e) < F64.magUnits k →
      4 * (m * 2 ^ e) ≤ (F64.magUnits (F64.sqrtMag m e) + F64.magUnits k) ^ 2) ∧
    (F64.magUnits k < F64.magUnits (F64.sqrtMag m e) →
      (F64.magUnits (F64.sqrtMag m e) + F64.magUnits k) ^ 2 ≤ 4 * (m * 2 ^ e)) := by
  have hfin := F64.sqrtMag_lt_infMag h
  rw [← scaledRadicand_mul (m := m) (e := e) (by have := h.low; omega)]
  exact roundMag_stickyRoot_nearest rfl h.stickyRoot_bounds.1 (F64.sqrtMag_eq m e).symm hfin k

/-- Settles O27: a zero is its own root; otherwise the rounded sticky root is nearest to the root of the radicand. -/
theorem squareRootIsNearest : Obligations.SquareRootIsNearest := by
  intro a b hfin hsign _
  by_cases h0 : a.mag = 0
  · have hsqrt : a.sqrt = a := by
      rw [F64.sqrt, F64.not_isNaN_of_isFinite hfin, if_neg Bool.false_ne_true, if_pos h0]
    rw [hsqrt, F64.units_eq_zero_iff.mpr h0, Nat.zero_mul]
    exact ⟨hfin, hsign, fun _ => Nat.zero_le _, fun h => absurd h (Nat.not_lt_zero _)⟩
  · obtain ⟨m, e, hr, hunits, hsqrt⟩ := F64.sqrt_eq_sqrtMag hfin hsign h0
    have hlt := F64.sqrtMag_lt_infMag hr
    have hlt63 : F64.sqrtMag m e < 2 ^ 63 := hlt.trans (by decide)
    rw [← hunits, hsqrt, F64.isFinite_iff, F64.mag_pack _ hlt63, F64.sign_pack _ hlt63, F64.units_pack _ hlt63]
    exact ⟨hlt, rfl, F64.sqrtMag_nearest hr b.mag⟩

end Sys2Proof
end

section
/-! PROOF. The order of the non-NaN values, the maximum of an array (00_scope.md R13), and the configurations a host reset
refuses (R7). -/

namespace Sys2Proof

open Machine

/-! The order of values. -/

theorem F64.lt_iff {a b : F64} : a.lt b = true ↔ a.isNaN = false ∧ b.isNaN = false ∧ a.key < b.key := by
  simp [F64.lt, and_assoc]

theorem F64.le_iff {a b : F64} : a.le b = true ↔ a.isNaN = false ∧ b.isNaN = false ∧ a.key ≤ b.key := by
  simp [F64.le, and_assoc]

theorem F64.not_lt_and_le {a b : F64} (h : a.lt b = true) (h' : b.le a = true) : False := by
  obtain ⟨-, -, hk⟩ := F64.lt_iff.mp h
  obtain ⟨-, -, hk'⟩ := F64.le_iff.mp h'
  omega

theorem F64.le_of_not_lt {a b : F64} (ha : a.isNaN = false) (hb : b.isNaN = false) (h : a.lt b ≠ true) :
    b.le a = true := by
  rw [ne_eq, F64.lt_iff] at h
  exact F64.le_iff.mpr ⟨hb, ha, by by_contra hk; exact h ⟨ha, hb, by omega⟩⟩

theorem F64.lt_of_not_le {a b : F64} (ha : a.isNaN = false) (hb : b.isNaN = false) (h : a.le b ≠ true) :
    b.lt a = true := by
  rw [ne_eq, F64.le_iff] at h
  exact F64.lt_iff.mpr ⟨hb, ha, by by_contra hk; exact h ⟨ha, hb, by omega⟩⟩

theorem F64.le_of_lt {a b : F64} (h : a.lt b = true) : a.le b = true := by
  obtain ⟨ha, hb, hk⟩ := F64.lt_iff.mp h
  exact F64.le_iff.mpr ⟨ha, hb, hk.le⟩

theorem F64.lt_of_lt_of_le {a b c : F64} (h : a.lt b = true) (h' : b.le c = true) : a.lt c = true := by
  obtain ⟨ha, -, hk⟩ := F64.lt_iff.mp h
  obtain ⟨-, hc, hk'⟩ := F64.le_iff.mp h'
  exact F64.lt_iff.mpr ⟨ha, hc, by omega⟩

theorem F64.le_refl {a : F64} (h : a.isNaN = false) : a.le a = true := F64.le_iff.mpr ⟨h, h, le_rfl⟩

namespace Machine

/-! The profile of an array. -/

theorem cellsWf_sorted {n lo : Nat} {l : List (Nat × F64)} (h : cellsWf n lo l = true) :
    l.Pairwise (·.1 < ·.1) ∧ ∀ c ∈ l, lo ≤ c.1 := by
  induction l generalizing lo with
  | nil => simp
  | cons k rest ih =>
    obtain ⟨j, v⟩ := k
    simp only [cellsWf, Bool.and_eq_true, decide_eq_true_eq] at h
    obtain ⟨⟨⟨hlo, -⟩, -⟩, hrest⟩ := h
    obtain ⟨hs, hl⟩ := ih hrest
    refine ⟨List.pairwise_cons.mpr ⟨hl, hs⟩, fun c hc => ?_⟩
    rcases List.mem_cons.mp hc with rfl | hc
    · exact hlo
    · exact hlo.trans ((Nat.le_succ j).trans (hl c hc))

theorem cellsProfile_sorted {n here : Nat} {l : List (Nat × F64)} (h : cellsWf n here l = true) :
    (cellsProfile n here l).Pairwise (·.1 < ·.1) ∧ ∀ c ∈ cellsProfile n here l, here ≤ c.1 := by
  induction l generalizing here with
  | nil => unfold cellsProfile; split <;> simp
  | cons k rest ih =>
    obtain ⟨j, v⟩ := k
    have hsort := cellsWf_sorted h
    simp only [cellsWf, Bool.and_eq_true, decide_eq_true_eq] at h
    obtain ⟨⟨⟨hlo, -⟩, -⟩, hrest⟩ := h
    simp only [cellsProfile]
    split
    · next hlt =>
      have hfirst : ∀ c ∈ (j, v) :: rest, here < c.1 := fun c hc => by
        rcases List.mem_cons.mp hc with rfl | hc
        · exact hlt
        · exact hlt.trans ((List.pairwise_cons.mp hsort.1).1 c hc)
      refine ⟨List.pairwise_cons.mpr ⟨hfirst, hsort.1⟩, fun c hc => ?_⟩
      rcases List.mem_cons.mp hc with rfl | hc
      · exact le_rfl
      · exact (hfirst c hc).le
    · obtain ⟨hs, hl⟩ := ih hrest
      refine ⟨List.pairwise_cons.mpr ⟨hl, hs⟩, fun c hc => ?_⟩
      rcases List.mem_cons.mp hc with rfl | hc
      · exact hlo
      · exact hlo.trans ((Nat.le_succ j).trans (hl c hc))

/-- A cell is the best of a list: no cell of the list exceeds it, and those at an earlier index are smaller. -/
structure IsBest (l : List (Nat × F64)) (best : Nat × F64) : Prop where
  mem : best ∈ l
  le : ∀ c ∈ l, c.2.le best.2 = true
  lt : ∀ c ∈ l, c.1 < best.1 → c.2.lt best.2 = true

/-- The scan keeps the best of the cells seen, so it ends with the best of all. -/
theorem bestFrom_isBest {best : Nat × F64} {seen rest : List (Nat × F64)} (h : IsBest seen best)
    (hsort : (seen ++ rest).Pairwise (·.1 < ·.1)) (hnan : ∀ c ∈ seen ++ rest, c.2.isNaN = false) :
    IsBest (seen ++ rest) (bestFrom best rest) := by
  induction rest generalizing best seen with
  | nil => simpa [bestFrom] using h
  | cons c rest ih =>
    have hbest : best.2.isNaN = false := hnan best (List.mem_append_left _ h.mem)
    have hc : c.2.isNaN = false := hnan c (by simp)
    have hlater : ∀ d ∈ seen, d.1 < c.1 := fun d hd => (List.pairwise_append.mp hsort).2.2 d hd c (by simp)
    rw [List.append_cons] at hsort hnan ⊢
    unfold bestFrom
    split
    · next hlt =>
      refine ih ⟨by simp, fun d hd => ?_, fun d hd _ => ?_⟩ hsort hnan <;>
        rcases List.mem_append.mp hd with hd | hd
      · exact F64.le_trans (h.le d hd) (F64.le_of_lt hlt)
      · rw [List.mem_singleton.mp hd]; exact F64.le_refl hc
      · exact F64.lt_of_le_of_lt (h.le d hd) hlt
      · rename_i hi
        rw [List.mem_singleton.mp hd] at hi
        exact absurd hi (lt_irrefl _)
    · next hlt =>
      refine ih ⟨List.mem_append_left _ h.mem, fun d hd => ?_, fun d hd hi => ?_⟩ hsort hnan <;>
        rcases List.mem_append.mp hd with hd | hd
      · exact h.le d hd
      · rw [List.mem_singleton.mp hd]; exact F64.le_of_not_lt hbest hc hlt
      · exact h.lt d hd hi
      · rw [List.mem_singleton.mp hd] at hi
        have := hlater best h.mem
        omega

theorem bestCell_isBest {l : List (Nat × F64)} (hne : l ≠ []) (hsort : l.Pairwise (·.1 < ·.1))
    (hnan : ∀ c ∈ l, c.2.isNaN = false) : IsBest l (bestCell l) := by
  cases l with
  | nil => exact absurd rfl hne
  | cons c rest =>
    have hc : IsBest [c] c := ⟨by simp, by simpa using F64.le_refl (hnan c (by simp)), by simp⟩
    exact bestFrom_isBest hc hsort hnan

theorem profile_ne_nil {n : Nat} {a : RealArray} (hn : 0 < n) (h : a.wf n = true) : a.profile n ≠ [] := by
  obtain ⟨c, hc, -⟩ := cellsProfile_complete h (Nat.le_refl 0) hn
  exact List.ne_nil_of_mem hc

theorem bestCell_mem {l : List (Nat × F64)} (hne : l ≠ []) : bestCell l ∈ l := by
  cases l with
  | nil => exact absurd rfl hne
  | cons c rest => exact bestFrom_mem c rest

/-- The maximum is an element of the array at its index. -/
theorem argmax_mem {n : Nat} {a : RealArray} (hn : 0 < n) (h : a.wf n = true) :
    (a.argmax n).1 < n ∧ (a.argmax n).2 = a.get (a.argmax n).1 := by
  obtain ⟨-, hlt, hget⟩ := cellsProfile_sound h (bestCell_mem (profile_ne_nil hn h))
  exact ⟨hlt, hget⟩

theorem argmax_max {n : Nat} {a : RealArray} (hn : 0 < n) (h : a.wf n = true)
    (hnan : ∀ i, i < n → (a.get i).isNaN = false) :
    (∀ i, i < n → (a.get i).le (a.argmax n).2 = true) ∧
      ∀ i, i < (a.argmax n).1 → (a.get i).lt (a.argmax n).2 = true := by
  have hcells : ∀ c ∈ a.profile n, c.2.isNaN = false := fun c hc => by
    obtain ⟨-, hlt, hget⟩ := cellsProfile_sound h hc
    rw [hget]
    exact hnan c.1 hlt
  have hbest := bestCell_isBest (profile_ne_nil hn h) (cellsProfile_sorted h).1 hcells
  have hcell (i : Nat) (hi : i < n) : ∃ c ∈ a.profile n, c.1 ≤ i ∧ c.2 = a.get i :=
    cellsProfile_complete h (Nat.zero_le i) hi
  constructor <;> intro i hi
  · obtain ⟨c, hc, -, hv⟩ := hcell i hi
    exact hv ▸ hbest.le c hc
  · obtain ⟨c, hc, hle, hv⟩ := hcell i (hi.trans (argmax_mem hn h).1)
    exact hv ▸ hbest.lt c hc (Nat.lt_of_le_of_lt hle hi)

/-! The median. -/

theorem median3_of_le {a b : Nat} (h : a ≤ b) (c : Nat) :
    ∃ lo hi, lo ≤ median3 a b c ∧ median3 a b c ≤ hi ∧ [lo, median3 a b c, hi].Perm [a, b, c] := by
  unfold median3
  rw [min_eq_left h, max_eq_right h]
  rcases le_total b c with hbc | hbc
  · rw [min_eq_left hbc, max_eq_right h]
    exact ⟨a, c, h, hbc, .refl _⟩
  · rw [min_eq_right hbc]
    have hcb : [a, c, b].Perm [a, b, c] := (List.Perm.swap b c []).cons a
    rcases le_total a c with hac | hac
    · rw [max_eq_right hac]
      exact ⟨a, b, hac, hbc, hcb⟩
    · rw [max_eq_left hac]
      exact ⟨c, b, hac, h, (List.Perm.swap a c [b]).trans hcb⟩

/-- The median is one of the three, between the other two. -/
theorem median3_middle (a b c : Nat) :
    ∃ lo hi, lo ≤ median3 a b c ∧ median3 a b c ≤ hi ∧ [lo, median3 a b c, hi].Perm [a, b, c] := by
  rcases le_total a b with h | h
  · exact median3_of_le h c
  · obtain ⟨lo, hi, h1, h2, h3⟩ := median3_of_le h c
    rw [median3, min_comm b a, max_comm b a, ← median3] at h1 h2 h3
    exact ⟨lo, hi, h1, h2, h3.trans (.swap a b [c])⟩

end Machine

/-- Settles O28: the scan of the profile ends with its best cell, and the profile holds every value at its lowest index. -/
theorem argmaxAndMedian : Obligations.ArgmaxAndMedian :=
  ⟨fun _ _ hn hwf hnan => ⟨(argmax_mem hn hwf).1, (argmax_mem hn hwf).2, argmax_max hn hwf hnan⟩, median3_middle⟩

namespace Machine

/-! The configurations a host reset refuses. -/

/-- A valid configuration meets every constraint of R7. -/
theorem constraints_of_cfgValid {c : Config.Cfg} (h : cfgValid c = true) :
    (Config.one.le c.combTc = true ∧ Config.one.le c.likeTc = true ∧ Config.one.le c.miscTc = true) ∧
    (F64.zero.le c.sthr = true ∧ F64.zero.le c.athr = true ∧ F64.zero.le c.dthr = true) ∧
    (F64.zero.lt c.maxamp = true ∧ F64.zero.lt c.mthr = true) ∧ (c.bitPol = 1 ∨ c.bitPol = -1) ∧
    c.propDelay.a < 8000 ∧ c.propDelay.b < 8000 := by
  simp only [cfgValid, Bool.and_eq_true, Bool.or_eq_true, beq_iff_eq, decide_eq_true_eq] at h
  tauto

end Machine

/-- Settles O14: each disjunct contradicts the constraint of R7 that a valid configuration meets. -/
theorem hostResetRefusesABadConfiguration : Obligations.HostResetRefusesABadConfiguration := by
  rintro s c rfl hbad
  refine if_neg fun hvalid => ?_
  obtain ⟨⟨hcomb, hlike, hmisc⟩, ⟨hsthr, hathr, hdthr⟩, ⟨hamp, hmthr⟩, hpol, hdA, hdB⟩ := constraints_of_cfgValid hvalid
  rcases hbad with h | h | h | h | h | h | h | h | h | h | h
  · exact F64.not_lt_and_le h hcomb
  · exact F64.not_lt_and_le h hlike
  · exact F64.not_lt_and_le h hmisc
  · exact F64.not_lt_and_le h hsthr
  · exact F64.not_lt_and_le h hathr
  · exact F64.not_lt_and_le h hdthr
  · exact F64.not_lt_and_le hamp h
  · exact F64.not_lt_and_le hmthr h
  · exact hpol.elim h.1 h.2
  · exact h.not_gt hdA
  · exact h.not_gt hdB

end Sys2Proof
end

section
/-! PROOF. The ranges of computed values: addition is monotone, energies and their roots are not negative, the slip
accumulator stays within one position (41_epoch_tracker_fll.md R151), and a clamp stays within its bounds. -/

namespace Sys2Proof

/-! Keys. -/

theorem F64.key_pack {m : Nat} (neg : Bool) (h : m < 2 ^ 63) :
    (F64.pack neg m).key = if neg then -(m : Int) else (m : Int) := by
  rw [F64.key, F64.sign_pack neg h, F64.mag_pack neg h]

theorem F64.natAbs_key (a : F64) : a.key.natAbs = a.mag := by unfold F64.key; split <;> omega

/-- The exact values are ordered as the keys. -/
theorem F64.toInt_le_of_key_le {a b : F64} (h : a.key ≤ b.key) : a.toInt ≤ b.toInt := by
  have mono {i j : Nat} (hij : i ≤ j) := F64.magUnits_strictMono.monotone hij
  have ha := @F64.units_eq_zero_iff a
  have hb := @F64.units_eq_zero_iff b
  unfold F64.key at h
  unfold F64.toInt
  simp only [F64.units_eq_magUnits] at *
  cases hsa : a.sign <;> cases hsb : b.sign <;>
    simp only [hsa, hsb, if_true, Bool.false_eq_true, if_false] at h ⊢
  · have := mono (show a.mag ≤ b.mag by omega); omega
  · have := ha.mpr (by omega); have := hb.mpr (by omega); omega
  · omega
  · have := mono (show b.mag ≤ a.mag by omega); omega

/-- The key of an exact integer of units, rounded. -/
def F64.roundKey (z : Int) : Int := if z < 0 then -(F64.roundMag z.natAbs 1 : Int) else (F64.roundMag z.natAbs 1 : Int)

theorem F64.roundKey_mono {y z : Int} (h : y ≤ z) : F64.roundKey y ≤ F64.roundKey z := by
  have mono {i j : Nat} (hij : i ≤ j) := F64.roundMag_mono Nat.one_pos hij
  unfold F64.roundKey
  split <;> split
  · have := mono (show z.natAbs ≤ y.natAbs by omega); omega
  · omega
  · omega
  · have := mono (show y.natAbs ≤ z.natAbs by omega); omega

theorem F64.key_add {a b : F64} (ha : a.isFinite = true) (hb : b.isFinite = true) :
    (a.add b).key = F64.roundKey (a.toInt + b.toInt) := by
  rw [F64.add_of_finite ha hb, F64.key_pack _ (F64.roundMag_lt _ _), F64.roundKey]
  split
  · next hz => rw [hz, Int.natAbs_zero, F64.roundMag_zero]; simp
  · simp only [decide_eq_true_eq]

theorem F64.isNaN_pack_roundMag (neg : Bool) (num den : Nat) : (F64.pack neg (F64.roundMag num den)).isNaN = false := by
  rw [F64.isNaN_eq_false_iff, F64.mag_pack _ (F64.roundMag_lt _ _)]
  exact F64.roundMag_le_infMag num den

theorem F64.isNaN_add {a b : F64} (ha : a.isFinite = true) (hb : b.isFinite = true) : (a.add b).isNaN = false := by
  rw [F64.add_of_finite ha hb]
  exact F64.isNaN_pack_roundMag _ _ _

/-- Addition of finite values is monotone. -/
theorem F64.add_le_add {a b a' b' : F64} (ha : a.isFinite = true) (hb : b.isFinite = true) (ha' : a'.isFinite = true)
    (hb' : b'.isFinite = true) (h : a.le a' = true) (h' : b.le b' = true) : (a.add b).le (a'.add b') = true := by
  obtain ⟨-, -, hk⟩ := F64.le_iff.mp h
  obtain ⟨-, -, hk'⟩ := F64.le_iff.mp h'
  refine F64.le_iff.mpr ⟨F64.isNaN_add ha hb, F64.isNaN_add ha' hb', ?_⟩
  rw [F64.key_add ha hb, F64.key_add ha' hb']
  exact F64.roundKey_mono (Int.add_le_add (F64.toInt_le_of_key_le hk) (F64.toInt_le_of_key_le hk'))

/-- A value between two finite values is finite. -/
theorem F64.isFinite_of_le {lo a hi : F64} (hlo : lo.isFinite = true) (hhi : hi.isFinite = true) (h : lo.le a = true)
    (h' : a.le hi = true) : a.isFinite = true := by
  obtain ⟨-, -, hk⟩ := F64.le_iff.mp h
  obtain ⟨-, -, hk'⟩ := F64.le_iff.mp h'
  rw [F64.isFinite_iff, ← F64.natAbs_key] at *
  omega

/-! Values that are not negative. -/

theorem F64.key_zero : F64.zero.key = 0 := by decide

theorem F64.zero_le_iff {a : F64} : F64.zero.le a = true ↔ a.isNaN = false ∧ (a.mag = 0 ∨ a.sign = false) := by
  rw [F64.le_iff, F64.key_zero, F64.key]
  have : F64.zero.isNaN = false := by decide
  cases a.sign <;> simp [this]

theorem F64.zero_le_pack {m : Nat} (h : m ≤ F64.infMag) : F64.zero.le (F64.pack false m) = true := by
  have hm : m < 2 ^ 63 := h.trans_lt (by decide)
  rw [F64.zero_le_iff, F64.isNaN_eq_false_iff, F64.mag_pack _ hm, F64.sign_pack _ hm]
  exact ⟨h, .inr rfl⟩

theorem F64.isNaN_nan : F64.nan.isNaN = true := by decide

/-- A square that is no NaN is not negative. -/
theorem F64.zero_le_mul_self {x : F64} (h : (x.mul x).isNaN = false) : F64.zero.le (x.mul x) = true := by
  unfold F64.mul at *
  simp only [bne_self_eq_false] at *
  split at h
  · rw [F64.isNaN_nan] at h; cases h
  · next hx =>
    rw [if_neg hx]
    split at h
    · next hinf =>
      rw [if_pos hinf]
      split at h
      · rw [F64.isNaN_nan] at h; cases h
      · next h0 => rw [if_neg h0]; exact F64.zero_le_pack le_rfl
    · next hinf => rw [if_neg hinf]; exact F64.zero_le_pack (F64.roundMag_le_infMag _ _)

theorem F64.isFinite_of_not_isInf {a : F64} (hn : a.isNaN = false) (h : a.isInf = false) : a.isFinite = true := by
  simp only [F64.isNaN, F64.isInf, F64.isFinite, decide_eq_false_iff_not, beq_eq_false_iff_ne, decide_eq_true_eq] at *
  omega

theorem F64.sign_of_zero_le_isInf {a : F64} (h : F64.zero.le a = true) (hi : a.isInf = true) : a.sign = false := by
  have hm : a.mag ≠ 0 := by rw [beq_iff_eq.mp hi]; decide
  exact (F64.zero_le_iff.mp h).2.resolve_left hm

theorem F64.zero_le_add {a b : F64} (ha : F64.zero.le a = true) (hb : F64.zero.le b = true) :
    F64.zero.le (a.add b) = true := by
  obtain ⟨hna, -⟩ := F64.zero_le_iff.mp ha
  obtain ⟨hnb, -⟩ := F64.zero_le_iff.mp hb
  cases hia : a.isInf
  · cases hib : b.isInf
    · have hz : F64.zero.isFinite = true := by decide
      have h := F64.add_le_add hz hz (F64.isFinite_of_not_isInf hna hia) (F64.isFinite_of_not_isInf hnb hib) ha hb
      rwa [show F64.zero.add F64.zero = F64.zero by decide +kernel] at h
    · simpa [F64.add, hna, hnb, hia, hib] using hb
  · have hsign (h : b.isInf = true) : a.sign = b.sign := by
      rw [F64.sign_of_zero_le_isInf ha hia, F64.sign_of_zero_le_isInf hb h]
    cases hib : b.isInf
    · simpa [F64.add, hna, hnb, hia, hib] using ha
    · simpa [F64.add, hna, hnb, hia, hib, hsign hib] using ha

theorem F64.not_isNaN_of_add {a b : F64} (h : (a.add b).isNaN = false) : a.isNaN = false ∧ b.isNaN = false := by
  unfold F64.add at h
  split at h
  · rw [F64.isNaN_nan] at h; cases h
  · next hn => simpa using hn

theorem F64.not_isNaN_of_sqrt {a : F64} (h : a.sqrt.isNaN = false) : a.isNaN = false := by
  unfold F64.sqrt at h
  split at h
  · rw [F64.isNaN_nan] at h; cases h
  · next hn => simpa using hn

theorem F64.zero_le_sqrt {a : F64} (h : F64.zero.le a = true) : F64.zero.le a.sqrt = true := by
  obtain ⟨hn, hs⟩ := F64.zero_le_iff.mp h
  unfold F64.sqrt
  rw [if_neg (by simp [hn])]
  split
  · exact h
  · next hm =>
    rw [if_neg (by simp [hs.resolve_left hm])]
    split
    · exact h
    · split <;> exact F64.zero_le_pack (F64.roundMag_le_infMag _ _)

theorem F64.le_max_right {v lo : F64} (hlo : lo.isNaN = false) (h : (F64.max v lo).isNaN = false) :
    lo.le (F64.max v lo) = true := by
  unfold F64.max at *
  split
  · exact F64.le_refl hlo
  · next hlt =>
    rw [if_neg hlt] at h
    exact F64.le_of_not_lt h hlo hlt

/-- The smaller of two values, where it is no NaN, is one of the two and at most the second. -/
theorem F64.min_spec {v hi : F64} (hhi : hi.isNaN = false) (h : (F64.min v hi).isNaN = false) :
    (F64.min v hi = hi ∨ F64.min v hi = v) ∧ v.isNaN = false ∧ (F64.min v hi).le hi = true := by
  unfold F64.min at *
  split
  · next hlt => exact ⟨.inl rfl, (F64.lt_iff.mp hlt).2.1, F64.le_refl hhi⟩
  · next hlt =>
    rw [if_neg hlt] at h
    exact ⟨.inr rfl, h, F64.le_of_not_lt hhi h hlt⟩

/-- A clamped value that is no NaN lies within the bounds (00_scope.md R10). -/
theorem F64.clamp_bounds {v lo hi : F64} (hlh : lo.le hi = true) (h : (F64.clamp v lo hi).isNaN = false) :
    lo.le (F64.clamp v lo hi) = true ∧ (F64.clamp v lo hi).le hi = true := by
  obtain ⟨hlo, hhi, -⟩ := F64.le_iff.mp hlh
  obtain ⟨he, hn, hle⟩ := F64.min_spec hhi h
  refine ⟨?_, hle⟩
  unfold F64.clamp
  rcases he with he | he <;> rw [he]
  · exact hlh
  · exact F64.le_max_right hlo hn

namespace Machine

open Config (one minusOne maxFreq minusMaxFreq)

/-- The sum of squares of a pair, where it is no NaN, is not negative (R127, R128). -/
theorem zero_le_energy {i q : F64} (h : (energy i q).isNaN = false) : F64.zero.le (energy i q) = true := by
  obtain ⟨hi, hq⟩ := F64.not_isNaN_of_add h
  exact F64.zero_le_add (F64.zero_le_mul_self hi) (F64.zero_le_mul_self hq)

/-! The slip accumulator. -/

/-- The largest value below 1. -/
def belowOne : F64 := ⟨0x3FEFFFFFFFFFFFFF#64⟩
/-- The least value above -1. -/
def aboveMinusOne : F64 := ⟨0xBFEFFFFFFFFFFFFF#64⟩

theorem sub_one_eq (a : F64) : a.sub one = a.add minusOne := by
  rw [F64.sub, if_neg (by decide), show one.neg = minusOne by decide]

theorem le_belowOne {a : F64} (h : a.lt one = true) : a.le belowOne = true := by
  obtain ⟨ha, -, hk⟩ := F64.lt_iff.mp h
  have : one.key = belowOne.key + 1 := by decide
  exact F64.le_iff.mpr ⟨ha, by decide, by omega⟩

theorem aboveMinusOne_le {a : F64} (h : minusOne.lt a = true) : aboveMinusOne.le a = true := by
  obtain ⟨-, ha, hk⟩ := F64.lt_iff.mp h
  have : minusOne.key = aboveMinusOne.key - 1 := by decide
  exact F64.le_iff.mpr ⟨by decide, ha, by omega⟩

/-- The slip accumulator stays between -1 and 1 (10_state.md R36): a sum at or beyond an end is taken back by one. -/
theorem slip_range {facc freq : F64} (hlo : minusOne.lt facc = true) (hhi : facc.lt one = true)
    (flo : minusMaxFreq.le freq = true) (fhi : freq.le maxFreq = true) :
    minusOne.lt (slip facc freq).1 = true ∧ (slip facc freq).1.lt one = true := by
  have ends : belowOne.isFinite = true ∧ aboveMinusOne.isFinite = true ∧ maxFreq.isFinite = true ∧
      minusMaxFreq.isFinite = true ∧ one.isFinite = true ∧ minusOne.isFinite = true := by decide
  obtain ⟨eB, eA, eF, eM, e1, em1⟩ := ends
  have hfacc := F64.isFinite_of_le eA eB (aboveMinusOne_le hlo) (le_belowOne hhi)
  have hfreq := F64.isFinite_of_le eM eF flo fhi
  have upper := F64.add_le_add hfacc hfreq eB eF (le_belowOne hhi) fhi
  have lower := F64.add_le_add eA eM hfacc hfreq (aboveMinusOne_le hlo) flo
  have eU : (belowOne.add maxFreq).isFinite = true := by decide +kernel
  have eL : (aboveMinusOne.add minusMaxFreq).isFinite = true := by decide +kernel
  have hf := F64.isFinite_of_le eL eU lower upper
  have hn := F64.not_isNaN_of_isFinite hf
  unfold slip
  generalize facc.add freq = f at *
  dsimp only
  split
  · next h =>
    have low := F64.add_le_add e1 em1 hf em1 h (F64.le_refl (by decide))
    have high := F64.add_le_add hf em1 eU em1 upper (F64.le_refl (by decide))
    rw [sub_one_eq]
    exact ⟨F64.lt_of_lt_of_le (by decide +kernel) low, F64.lt_of_le_of_lt high (by decide +kernel)⟩
  · next h =>
    split
    · next h' =>
      have low := F64.add_le_add eL e1 hf e1 lower (F64.le_refl (by decide))
      have high := F64.add_le_add hf e1 em1 e1 h' (F64.le_refl (by decide))
      exact ⟨F64.lt_of_lt_of_le (by decide +kernel) low, F64.lt_of_le_of_lt high (by decide +kernel)⟩
    · next h' =>
      exact ⟨F64.lt_of_not_le hn (by decide) h', F64.lt_of_not_le (by decide) hn h⟩

/-- The frequency after an interval is within its clamp (10_state.md R46(e)). -/
theorem freqNext_range {d : Int} {k : Nat} {freq : F64} (h : (freqNext d k freq).isFinite = true) :
    minusMaxFreq.le (freqNext d k freq) = true ∧ (freqNext d k freq).le maxFreq = true :=
  F64.clamp_bounds (by decide) (F64.not_isNaN_of_isFinite h)

end Machine

end Sys2Proof
end

section
/-! PROOF. The ranges of 10_state.md R34 to R45, one predicate for each group of the state, and what each update of a
group has to show to keep them. A proposition P stands for the assumption under which the real registers are in range, so
that one walk through the rules shows both halves of StepKeepsTheRanges. -/

namespace Sys2Proof.Machine

/-- The filter bank: indices in range, delay lines canonical (R34). -/
structure Bank.Sound (b : Bank) : Prop where
  range : b.InRange
  dI : b.dIBuf.wf Config.datSiz = true
  dQ : b.dQBuf.wf Config.datSiz = true
  tI : ∀ st, (b.tIBuf.get st).wf Config.tckSiz = true
  tQ : ∀ st, (b.tQBuf.get st).wf Config.tckSiz = true
  mI : ∀ st, (b.mIBuf.get st).wf Config.synSiz = true
  mQ : ∀ st, (b.mQBuf.get st).wf Config.synSiz = true

/-- The sample clock (R36). -/
structure Clock.Sound (P : Prop) (c : Clock) : Prop where
  rphase : c.rphase < Config.second
  mphase : c.mphase < 60
  facc : P → Config.minusOne.lt c.facc = true ∧ c.facc.lt Config.one = true
  freq : P → c.freq.isFinite = true ∧ Config.minusMaxFreq.le c.freq = true ∧ c.freq.le Config.maxFreq = true

/-- The epoch tracker (R37). -/
structure Epoch.Sound (e : Epoch) : Prop where
  range : e.InRange
  comb : e.comb.wf Config.second = true

/-- A channel record (R38). -/
structure ChanRec.Sound (P : Prop) (c : ChanRec) : Prop where
  range : c.InRange
  amp : P → F64.zero.le c.amp = true

/-- The scan of one station (R38), its sample count left out. -/
structure Scan.Sound (P : Prop) (m : Scan) : Prop where
  pos : m.pos < Config.minute
  reals : P → F64.zero.le m.emax = true ∧ F64.zero.le m.esum = true

/-- Station acquisition (R38). -/
structure Acq.Sound (P : Prop) (a : Acq) : Prop where
  chanLength : a.chan.length = Config.nChan
  chan : ∀ (f : Nat) (pair : ByStation ChanRec), a.chan[f]? = some pair → ∀ st, (pair.get st).Sound P
  cherrLength : a.cherr.length = Config.nChan
  cherr : ∀ n ∈ a.cherr, n ≤ Config.sat8
  pchan : a.pchan < Config.nChan
  dchan : a.dchan < Config.nChan
  ms : ∀ st, (a.ms.get st).Sound P

/-- The digit vector of position p (R45). -/
structure DigitVec.Sound (p : Nat) (v : DigitVec) : Prop where
  digit : v.digit < radix p
  mldigit : v.mldigit < radix p
  phase : v.phase < radix p
  count : v.count ≤ Config.bCmp
  like : v.like.wf Config.nLike = true

/-- The decoder (R39). -/
structure Dec.Sound (P : Prop) (d : Dec) : Prop where
  rsec : d.rsec ≤ 60
  tsec : d.tsec ≤ 60
  digitsLength : d.digits.length = Config.nDig
  digits : ∀ (p : Nat) (v : DigitVec), d.digits[p]? = some v → v.Sound p
  errcnt : d.errcnt ≤ Config.sat8
  dbuf : d.dbuf.wf Config.second = true
  bcd : d.bcd.wf 4 = true
  miscp : d.miscp.wf Config.nMisc = true
  envelope : P → ∀ j, F64.zero.le (d.dbuf.get j) = true

/-- Every group in its range, the real registers under the assumption P. -/
structure State.Sound (P : Prop) (s : State) : Prop where
  bank : s.bank.Sound
  clock : s.clock.Sound P
  epoch : s.epoch.Sound
  acq : s.acq.Sound P
  dec : s.dec.Sound P
  wd : s.wd.InRange
  tune : s.out.tune < Config.nChan
  sel : s.SelLegal
  prog : s.prog.length = Config.nProg

theorem forall_station {Q : Station → Prop} : (∀ st, Q st) ↔ Q .a ∧ Q .b :=
  ⟨fun h => ⟨h .a, h .b⟩, fun h st => by cases st; exacts [h.1, h.2]⟩

theorem byStation_set_forall {α : Type} {p : ByStation α} {Q : α → Prop} {st : Station} {v : α}
    (h : ∀ st, Q (p.get st)) (hv : Q v) (st' : Station) : Q ((p.set st v).get st') := by
  by_cases e : st' = st
  · rw [e, byStation_get_set_same]; exact hv
  · rw [byStation_get_set_ne p e]; exact h st'

/-- The canonical form of every array of the state, by group. -/
theorem memWf_iff (s : State) : s.memWf = true ↔
    (s.bank.dIBuf.wf Config.datSiz = true ∧ s.bank.dQBuf.wf Config.datSiz = true ∧
      (∀ st, (s.bank.tIBuf.get st).wf Config.tckSiz = true) ∧ (∀ st, (s.bank.tQBuf.get st).wf Config.tckSiz = true) ∧
      (∀ st, (s.bank.mIBuf.get st).wf Config.synSiz = true) ∧ (∀ st, (s.bank.mQBuf.get st).wf Config.synSiz = true)) ∧
    s.epoch.comb.wf Config.second = true ∧
    (s.dec.dbuf.wf Config.second = true ∧ s.dec.bcd.wf 4 = true ∧ s.dec.miscp.wf Config.nMisc = true) ∧
    ∀ (p : Nat) (v : DigitVec), s.dec.digits[p]? = some v → v.like.wf Config.nLike = true := by
  simp only [State.memWf, Bool.and_eq_true, List.all_eq_true, List.mem_iff_getElem?, forall_station, ByStation.get,
    and_assoc, forall_exists_index]
  rw [forall_comm]

/-- The groups together say exactly what `InRange` and, under P, `RealsInRange` say. -/
theorem State.sound_iff {P : Prop} {s : State} : s.Sound P ↔ s.InRange ∧ (P → s.RealsInRange) := by
  constructor
  · intro h
    refine ⟨⟨(memWf_iff s).mpr ⟨⟨h.bank.dI, h.bank.dQ, h.bank.tI, h.bank.tQ, h.bank.mI, h.bank.mQ⟩, h.epoch.comb,
      ⟨h.dec.dbuf, h.dec.bcd, h.dec.miscp⟩, fun p v hv => (h.dec.digits p v hv).like⟩, h.bank.range,
      ⟨h.clock.rphase, h.clock.mphase⟩, h.epoch.range, ?_, ?_, h.wd, h.tune, h.sel, h.prog⟩, fun hP => ?_⟩
    · exact ⟨h.acq.chanLength, fun f pair st hf => (h.acq.chan f pair hf st).range, h.acq.cherrLength, h.acq.cherr,
        h.acq.pchan, h.acq.dchan, (h.acq.ms .a).pos, (h.acq.ms .b).pos⟩
    · refine ⟨h.dec.rsec, h.dec.tsec, h.dec.digitsLength, fun p v hv => ?_, h.dec.errcnt⟩
      have hd := h.dec.digits p v hv
      exact ⟨hd.digit, hd.mldigit, hd.phase, hd.count⟩
    · exact ⟨h.clock.facc hP, h.clock.freq hP, fun f pair st hf => (h.acq.chan f pair hf st).amp hP,
        fun st => (h.acq.ms st).reals hP, h.dec.envelope hP⟩
  · rintro ⟨h, hP⟩
    obtain ⟨⟨hdI, hdQ, htI, htQ, hmI, hmQ⟩, hcomb, ⟨hdbuf, hbcd, hmiscp⟩, hlike⟩ := (memWf_iff s).mp h.mem
    refine ⟨⟨h.bank, hdI, hdQ, htI, htQ, hmI, hmQ⟩, ⟨h.clock.1, h.clock.2, fun p => (hP p).facc, fun p => (hP p).freq⟩,
      ⟨h.epoch, hcomb⟩, ?_, ?_, h.wd, h.tune, h.sel, h.prog⟩
    · refine ⟨h.acq.chanLength, fun f pair hf st => ⟨h.acq.chan f pair st hf, fun p => (hP p).amp f pair st hf⟩,
        h.acq.cherrLength, h.acq.cherr, h.acq.pchan, h.acq.dchan, fun st => ⟨?_, fun p => (hP p).scan st⟩⟩
      exact (forall_station (Q := fun st => (s.acq.ms.get st).pos < Config.minute)).mpr h.acq.scanPos st
    · refine ⟨h.dec.rsec, h.dec.tsec, h.dec.digitsLength, fun p v hv => ?_, h.dec.errcnt, hdbuf, hbcd, hmiscp,
        fun p => (hP p).dbuf⟩
      obtain ⟨h1, h2, h3, h4⟩ := h.dec.digits p v hv
      exact ⟨h1, h2, h3, h4, hlike p v hv⟩

/-! Updates of one group. -/

section
variable {P : Prop} {s : State} (h : s.Sound P)
include h

theorem State.Sound.withBank {b : Bank} (hb : b.Sound) : (s.withBank b).Sound P := { h with bank := hb }
theorem State.Sound.withClock {c : Clock} (hc : c.Sound P) : (s.withClock c).Sound P := { h with clock := hc }
theorem State.Sound.withEpoch {e : Epoch} (he : e.Sound) : (s.withEpoch e).Sound P := { h with epoch := he }
theorem State.Sound.withAcq {a : Acq} (ha : a.Sound P) : (s.withAcq a).Sound P := { h with acq := ha }
theorem State.Sound.withDec {d : Dec} (hd : d.Sound P) : (s.withDec d).Sound P := { h with dec := hd }
theorem State.Sound.withWd {w : Watchdog} (hw : w.InRange) : (s.withWd w).Sound P := { h with wd := hw }
theorem State.Sound.withOut {o : OutRegs} (ho : o.tune < Config.nChan) : (s.withOut o).Sound P := { h with tune := ho }
theorem State.Sound.withFault (f : Option Fault) : (s.withFault f).Sound P := { h with }
theorem State.Sound.withInputs (l : List Pins) : (s.withInputs l).Sound P := { h with }
theorem State.Sound.withStatus {w : BitVec 8} (hw : (s.withStatus w).SelLegal) : (s.withStatus w).Sound P :=
  { h with sel := hw }

theorem State.Sound.setFlag {b : Nat} (hb : b < 8) (h5 : b ≠ 5) (h6 : b ≠ 6) (v : Bool) : (setFlag b v s).Sound P :=
  h.withStatus ((sel_setFlag s hb h5 h6 v).trans_ne h.sel)

theorem State.Sound.setSel (st : Option Station) : (setSel st s).Sound P := by
  refine h.withStatus (w := (s.status &&& ~~~0x60#8) ||| (selBits st <<< 5)) ?_
  intro e
  have hs := sel_setSel s st
  unfold Machine.setSel at hs
  rw [e] at hs
  split at hs <;> cases hs

theorem State.Sound.raiseAlarm (c : Nat) : (raiseAlarm c s).Sound P := h.withDec { h.dec with }
theorem State.Sound.ageAlarm : (ageAlarm s).Sound P := h.withDec { h.dec with }
theorem State.Sound.setMisc (b : Nat) (v : Bool) : (setMisc b v s).Sound P := h.withDec { h.dec with }
theorem State.Sound.setTsec {n : Nat} (hn : n ≤ 60) : (setTsec n s).Sound P := h.withDec { h.dec with tsec := hn }
theorem State.Sound.restartErrors : (restartErrors s).Sound P := h.withDec { h.dec with errcnt := Nat.zero_le _ }

theorem State.Sound.writeDigit {p : Nat} {d : DigitVec} (hd : d.Sound p) : (writeDigit s p d).Sound P := by
  refine h.withDec { h.dec with digitsLength := (List.length_set ..).trans h.dec.digitsLength, digits := ?_ }
  intro q v hq
  rw [List.getElem?_set] at hq
  split at hq
  · next e =>
    split at hq
    · cases hq; exact e ▸ hd
    · cases hq
  · exact h.dec.digits q v hq

theorem State.Sound.writeChan {f : Nat} {st : Station} {c : ChanRec} (hc : c.Sound P) : (writeChan s f st c).Sound P := by
  refine h.withAcq { h.acq with chanLength := (List.length_modify ..).trans h.acq.chanLength, chan := ?_ }
  intro g pair hg st'
  rw [List.getElem?_modify, Option.map_eq_map, Option.map_eq_some_iff] at hg
  obtain ⟨old, hold, rfl⟩ := hg
  have hpair := h.acq.chan g old hold
  split
  · exact byStation_set_forall hpair hc st'
  · exact hpair st'

theorem State.Sound.scanReset : (scanReset s).Sound P := by
  have hz : Scan.zeros.Sound P := ⟨by decide, fun _ => by decide⟩
  exact h.withAcq { h.acq with ms := forall_station.mpr ⟨hz, hz⟩ }

theorem State.Sound.syncCheck : (syncCheck s).Sound P := by
  unfold Machine.syncCheck
  split
  · exact h.raiseAlarm 3
  · exact h

theorem State.Sound.tunerFailure (b : Bool) : (tunerFailure b s).Sound P := by
  unfold Machine.tunerFailure
  split
  · exact h.withOut h.tune
  · exact h

theorem State.Sound.probeOpen : (probeOpen s).Sound P :=
  (h.scanReset.withAcq (a := { (Machine.scanReset s).acq with win := true }) { h.scanReset.acq with }).withOut
    (o := { s.out with tune := s.acq.pchan }) h.acq.pchan

end

end Sys2Proof.Machine
end

section
/-! PROOF. The rules of a sample keep every range: the demodulator (40_demodulator_bank.md), the scans
(42_station_acquisition.md R176), the comb and the epoch tracker (41_epoch_tracker_fll.md). -/

namespace Sys2Proof.Machine

theorem imod_lt (a : Int) {m : Nat} (hm : 0 < m) : imod a m < m := by
  have h1 := Int.emod_nonneg a (show (m : Int) ≠ 0 by omega)
  have h2 := Int.emod_lt_of_pos a (show (0 : Int) < m by omega)
  unfold imod
  omega

theorem wrapdiff_range (a b : Int) {m : Nat} (hm : 0 < m) :
    -(m / 2 : Nat) ≤ wrapdiff m a b ∧ wrapdiff m a b < m - (m / 2 : Nat) := by
  have := imod_lt (a - b + (m / 2 : Nat)) hm
  unfold wrapdiff
  omega

/-! The demodulator. -/

theorem byStation_set_wf {n : Nat} {p : ByStation RealArray} (st : Station) {a : RealArray}
    (h : ∀ st, (p.get st).wf n = true) (ha : a.wf n = true) : ∀ st', ((p.set st a).get st').wf n = true :=
  byStation_set_forall (Q := fun a => RealArray.wf n a = true) h ha

section
variable {b b' : Bank} (hb : b.Sound)
include hb

theorem dataDetect_sound {r : Refs} {lp e : F64} (h : dataDetect r lp b = .ok (e, b')) :
    b'.Sound ∧ F64.zero.le e = true := by
  unfold dataDetect at h
  simp only [res_bind_ok, Prod.exists, finite_ok] at h
  obtain ⟨dI, _, hI, dQ, _, hQ, _, ⟨hf, rfl⟩, he⟩ := h
  cases he
  refine ⟨{ hb with dI := boxcar_wf hb.dI hI, dQ := boxcar_wf hb.dQ hQ }, F64.zero_le_sqrt (zero_le_energy ?_)⟩
  exact F64.not_isNaN_of_sqrt (F64.not_isNaN_of_isFinite hf)

theorem tickDetect_sound {st : Station} {r : Refs} {bp e : F64} (h : tickDetect st r bp b = .ok (e, b')) :
    b'.Sound ∧ F64.zero.le e = true := by
  unfold tickDetect at h
  simp only [res_bind_ok, Prod.exists, finite_ok] at h
  obtain ⟨tI, _, hI, tQ, _, hQ, _, ⟨hf, rfl⟩, he⟩ := h
  cases he
  have htI := byStation_set_wf st hb.tI (boxcar_wf (hb.tI st) hI)
  have htQ := byStation_set_wf st hb.tQ (boxcar_wf (hb.tQ st) hQ)
  exact ⟨{ hb with tI := htI, tQ := htQ }, zero_le_energy (F64.not_isNaN_of_isFinite hf)⟩

theorem minuteDetect_sound {st : Station} {r : Refs} {bp e : F64} (h : minuteDetect st r bp b = .ok (e, b')) :
    b'.Sound ∧ F64.zero.le e = true := by
  unfold minuteDetect at h
  simp only [res_bind_ok, Prod.exists, finite_ok] at h
  obtain ⟨mI, _, hI, mQ, _, hQ, _, ⟨hf, rfl⟩, he⟩ := h
  cases he
  have hmI := byStation_set_wf st hb.mI (boxcar_wf (hb.mI st) hI)
  have hmQ := byStation_set_wf st hb.mQ (boxcar_wf (hb.mQ st) hQ)
  exact ⟨{ hb with mI := hmI, mQ := hmQ }, zero_le_energy (F64.not_isNaN_of_isFinite hf)⟩

theorem advanceIndices_sound : (advanceIndices b).Sound :=
  { hb with range := ⟨Nat.mod_lt _ (by decide), Nat.mod_lt _ (by decide), Nat.mod_lt _ (by decide),
      Nat.mod_lt _ (by decide), Nat.mod_lt _ (by decide), Nat.mod_lt _ (by decide)⟩ }

/-- One update keeps the bank's ranges, and its envelope and its minute-sync energies are not negative. -/
theorem demodUpdate_sound {cfg : Config.Cfg} {sel : Sel} {x : F64} {o : DemodOut}
    (h : demodUpdate cfg sel x b = .ok (o, b')) :
    b'.Sound ∧ F64.zero.le o.eData = true ∧ ∀ st, F64.zero.le (o.em.get st) = true := by
  unfold demodUpdate at h
  simp only [res_bind_ok, Prod.exists] at h
  obtain ⟨_, -, lp, lpfW, -, bp, bpfW, -, r, -, eD, b1, hD, tA, b2, htA, tB, b3, htB, mA, b4, hmA, mB, b5, hmB, ho⟩ := h
  cases ho
  have h0 : Bank.Sound { b with lpfW := lpfW, bpfW := bpfW } := { hb with }
  obtain ⟨h1, heD⟩ := dataDetect_sound h0 hD
  obtain ⟨h2, -⟩ := tickDetect_sound h1 htA
  obtain ⟨h3, -⟩ := tickDetect_sound h2 htB
  obtain ⟨h4, hA⟩ := minuteDetect_sound h3 hmA
  obtain ⟨h5, hB⟩ := minuteDetect_sound h4 hmB
  exact ⟨advanceIndices_sound h5, heD, forall_station.mpr ⟨hA, hB⟩⟩

end

/-! The signal part of a sample step. -/

section
variable {P : Prop} {s t : State} (h : s.Sound P)
include h

theorem envelopeWrite_sound {e : F64} (he : F64.zero.le e = true) (ht : envelopeWrite e s = .ok t) : t.Sound P := by
  obtain ⟨hi, rfl⟩ := envelopeWrite_ok.mp ht
  refine h.withDec { h.dec with dbuf := put_wf h.dec.dbuf hi e, envelope := fun hP j => ?_ }
  rw [get_put h.dec.dbuf]
  split
  · exact he
  · exact h.dec.envelope hP j

theorem scanPos_lt {q : Nat} (hq : scanPos s = some q) : q < Config.minute := by
  have hr := h.clock.rphase
  have hm := h.clock.mphase
  unfold scanPos at hq
  split at hq
  · cases hq
    simp only [Config.second, Config.minute] at *
    omega
  · split at hq
    · cases hq
      exact Nat.mod_lt _ (by decide)
    · cases hq

omit h in
theorem scanAdd_sound {em : F64} {q : Nat} {m m' : Scan} (hm : m.Sound P) (hq : q < Config.minute)
    (he : F64.zero.le em = true) (ha : scanAdd em q m = .ok m') : m'.Sound P := by
  obtain ⟨-, rfl⟩ := scanAdd_ok.mp ha
  refine ⟨?_, fun hP => ⟨?_, F64.zero_le_add (hm.reals hP).2 he⟩⟩
  · dsimp only; split
    · exact hq
    · exact hm.pos
  · dsimp only; split
    · exact he
    · exact (hm.reals hP).1

theorem scanAccumulate_sound {em : ByStation F64} (he : ∀ st, F64.zero.le (em.get st) = true)
    (ht : scanAccumulate em s = .ok t) : t.Sound P := by
  rcases scanAccumulate_ok.mp ht with ⟨-, rfl⟩ | ⟨q, mA, mB, hq, hA, hB, rfl⟩
  · exact h
  · have hlt := scanPos_lt h hq
    exact h.withAcq { h.acq with ms := forall_station.mpr ⟨scanAdd_sound (h.acq.ms .a) hlt (he .a) hA,
      scanAdd_sound (h.acq.ms .b) hlt (he .b) hB⟩ }

theorem combUpdate_sound {e : F64} (ht : combUpdate e s = .ok t) : t.Sound P := by
  obtain ⟨hi, -, rfl⟩ := combUpdate_ok.mp ht
  exact h.withEpoch ⟨{ h.epoch.range with }, put_wf h.epoch.comb hi _⟩

theorem signalStep_sound (ht : signalStep s = .ok t) : t.Sound P := by
  obtain ⟨o, bank, u, v, hd, hu, hv, hw⟩ := signalStep_ok.mp ht
  obtain ⟨hbank, heD, hem⟩ := demodUpdate_sound h.bank hd
  have h0 := (h.withOut (o := { s.out with timerecStrobe := false }) h.tune).withBank hbank
  exact combUpdate_sound (scanAccumulate_sound (envelopeWrite_sound h0 heD hu) hem hv) hw

theorem clockStep_sound : (clockStep s).Sound P :=
  h.withClock ⟨Nat.mod_lt _ (by decide), h.clock.mphase, fun hP =>
    have hf := h.clock.facc hP
    have hq := h.clock.freq hP
    slip_range hf.1 hf.2 hq.2.1 hq.2.2, h.clock.freq⟩

/-! The epoch tracker. -/

omit h in
theorem epochStep_sound {e : Epoch} {med : Nat} (he : e.Sound) (hm : med < Config.second) : (epochStep e med).Sound := by
  have hr := he.range
  unfold epochStep
  split
  · refine ⟨{ hr with tepoch := hm, jitcnt := Nat.zero_le _, scmp := ?_ }, he.comb⟩
    dsimp only; split
    · exact Nat.min_le_right _ _
    · decide
  · exact ⟨{ hr with jitcnt := Nat.min_le_right _ _, scmp := Nat.zero_le _ }, he.comb⟩

theorem State.Sound.dropSecondSync : (dropSecondSync s).Sound P := by
  have he := h.withEpoch (e := { s.epoch with jitcnt := 0, scmp := 0 })
    ⟨{ h.epoch.range with jitcnt := Nat.zero_le _, scmp := Nat.zero_le _ }, h.epoch.comb⟩
  exact he.setFlag (by decide) (by decide) (by decide) false

theorem latchOffsets_sound (ht : latchOffsets s = .ok t) : t.Sound P := by
  obtain ⟨d, -, rfl⟩ := latchOffsets_ok.mp ht
  refine (h.setFlag (by decide) (by decide) (by decide) true).withEpoch ⟨{ h.epoch.range with
    rsecStart := imod_lt _ (by decide), tsecStart := imod_lt _ (by decide) }, h.epoch.comb⟩

theorem epochUpdate_sound (ht : epochUpdate s = .ok t) : t.Sound P := by
  obtain ⟨best, hist, u, hbest, hhist, rfl, ht⟩ := epochUpdate_ok.mp ht
  have hcand : best.1 < Config.second := hbest ▸ (argmax_mem (by decide) h.epoch.comb).1
  obtain ⟨-, h1, h2⟩ := h.epoch.range.hist
  have hh : hist.h0 < Config.second ∧ hist.h1 < Config.second ∧ hist.h2 < Config.second := by
    rw [hhist]; exact ⟨h1, h2, hcand⟩
  have hspan : histSpan hist < Config.second := by unfold histSpan; omega
  have hmed : histMedian hist < Config.second := by unfold histMedian median3; omega
  have hu := h.withEpoch (e := { s.epoch with hist := hist, span := histSpan hist })
    ⟨{ h.epoch.range with hist := hh, span := hspan }, h.epoch.comb⟩
  rcases ht with ⟨-, rfl⟩ | ⟨-, v, rfl, ht⟩
  · exact hu.dropSecondSync
  · have hv := hu.withEpoch (epochStep_sound hu.epoch hmed)
    rcases ht with ⟨-, -, ht⟩ | ⟨-, rfl⟩
    · exact latchOffsets_sound hv ht
    · exact hv

theorem frequencyUpdate_sound {d : Int} (ht : frequencyUpdate d s = .ok t) : t.Sound P := by
  rcases frequencyUpdate_ok.mp ht with ⟨-, hf, rfl⟩ | ⟨-, rfl⟩
  · exact h.withClock { h.clock with freq := fun _ => ⟨hf, freqNext_range hf⟩ }
  · exact h

theorem intervalDoubling_sound (d : Int) : (intervalDoubling d s).Sound P := by
  have hr := h.epoch.range
  unfold intervalDoubling
  generalize hinc : (if (s.ssync && decide (d.natAbs ≤ 1)) = true then min (s.epoch.avginc + 1) Config.dblRun else 0) = inc
  have hle : inc ≤ Config.dblRun := by split at hinc <;> omega
  dsimp only
  split
  · next hk =>
    refine h.withEpoch ⟨?_, h.epoch.comb⟩
    exact { hr with k := ⟨hr.k.1.trans (Nat.le_succ _), hk.2⟩, avginc := Nat.zero_le _ }
  · exact h.withEpoch ⟨{ hr with avginc := hle }, h.epoch.comb⟩

theorem intervalStep_sound (ht : intervalStep s = .ok t) : t.Sound P := by
  have hr := h.epoch.range
  rcases intervalStep_ok.mp ht with ⟨-, ht⟩ | ⟨hn, rfl⟩
  · obtain ⟨u, hu, rfl⟩ := intervalEnd_ok.mp ht
    have hz : 0 < 2 ^ Config.maxAvg := by decide
    refine intervalDoubling_sound (frequencyUpdate_sound (State.Sound.withEpoch (h.withEpoch ?_) ?_) hu) _
    · exact ⟨{ hr with avgcnt := hz }, h.epoch.comb⟩
    · exact ⟨{ hr with avgcnt := hz, tepochRef := hr.tepoch }, h.epoch.comb⟩
  · refine h.withEpoch ⟨{ hr with avgcnt := ?_ }, h.epoch.comb⟩
    exact (Nat.lt_of_not_le hn).trans_le (Nat.pow_le_pow_right (by decide) hr.k.2)

end

end Sys2Proof.Machine
end

section
/-! PROOF. The rules of the seconds and minutes keep every range: acquisition and mitigation (42_station_acquisition.md), the
watchdogs (60_exceptions.md R265, R266), the digit decode (43_bcd_decoder.md) and the clock (44_clock_and_minute.md). -/

namespace Sys2Proof.Machine

theorem radix_pos (p : Nat) : 0 < radix p := by unfold radix; split <;> decide
theorem radix_le (p : Nat) : radix p ≤ Config.nLike := by unfold radix; split <;> decide

section
variable {P : Prop} {s t : State} (h : s.Sound P)
include h

/-! Station acquisition and mitigation. -/

theorem updateChan_sound {down : Nat → Nat} (hdown : ∀ n, n ≤ Config.aMax → down n ≤ Config.aMax) {st : Station}
    {pass : Bool} (ht : updateChan down st s = .ok (t, pass)) : t.Sound P := by
  obtain ⟨pair, m, hp, hm, -, rfl⟩ := updateChan_ok.mp ht
  obtain ⟨-, rfl⟩ := measure_ok.mp hm
  obtain ⟨-, -, -, hcount⟩ := (h.acq.chan _ pair hp st).range
  have hscan := h.acq.ms st
  obtain ⟨hlo, hhi⟩ := wrapdiff_range (s.acq.ms.get st).pos (pair.get st).pos (m := Config.minute) (by decide)
  refine h.writeChan ⟨⟨hlo, Int.le_of_lt_add_one hhi, hscan.pos, ?_⟩, fun hP => F64.zero_le_sqrt (hscan.reals hP).1⟩
  dsimp only
  split
  · exact Nat.min_le_right _ _
  · exact hdown _ hcount

theorem acceptStation_sound (w : Station) (pos : Nat) : (acceptStation w pos s).Sound P := by
  have hsec (a : Int) : imod a Config.minute / Config.second ≤ 60 := by
    have := imod_lt a (m := Config.minute) (by decide)
    simp only [Config.second, Config.minute] at *
    omega
  have h1 := (h.setSel (some w)).setFlag (b := bitMsync) (by decide) (by decide) (by decide) true
  refine State.Sound.withOut (State.Sound.withEpoch (State.Sound.withDec (h1.withAcq ?_) ?_) ?_) h.acq.pchan
  · exact { h.acq with dchan := h.acq.pchan }
  · exact { h.dec with rsec := hsec _, tsec := hsec _ }
  · exact ⟨{ h.epoch.range with rsecStart := Nat.mod_lt _ (by decide), tsecStart := Nat.mod_lt _ (by decide) },
      h.epoch.comb⟩

theorem probeAdvance_sound : (probeAdvance s).Sound P := by
  have hp : (s.acq.pchan + 1) % Config.nChan < Config.nChan := Nat.mod_lt _ (by decide)
  exact (h.withAcq (a := { s.acq with pchan := (s.acq.pchan + 1) % Config.nChan }) { h.acq with pchan := hp }).withOut
    (o := { s.out with tune := (s.acq.pchan + 1) % Config.nChan }) hp

theorem rotateProbe_sound : (rotateProbe s).Sound P := by
  have hp : (s.acq.pchan + 1) % Config.nChan < Config.nChan := Nat.mod_lt _ (by decide)
  refine (h.withAcq (a := { s.acq with pchan := (s.acq.pchan + 1) % Config.nChan }) { h.acq with pchan := hp }).withOut ?_
  dsimp only
  split
  · exact h.acq.dchan
  · exact hp

theorem acquisition_sound (ht : acquisition s = .ok t) : t.Sound P := by
  obtain ⟨u, _, v, _, pair, hu, hv, -, rfl⟩ := acquisition_ok.mp ht
  have hsv := updateChan_sound (updateChan_sound h (fun _ _ => Nat.zero_le _) hu) (fun _ _ => Nat.zero_le _) hv
  rcases acceptOrAdvance_cases pair v with ⟨w, -, e⟩ | ⟨-, -, -, e⟩ | ⟨-, -, e⟩ <;> rw [e]
  · exact acceptStation_sound hsv w _
  · exact probeAdvance_sound hsv
  · exact hsv

theorem channelErrors_sound {both : Bool} (ht : channelErrors both s = .ok t) : t.Sound P := by
  obtain ⟨n, -, rfl⟩ := channelErrors_ok.mp ht
  refine h.withAcq { h.acq with cherrLength := (List.length_set ..).trans h.acq.cherrLength, cherr := fun k hk => ?_ }
  rcases List.mem_or_eq_of_mem_set hk with hk | rfl
  · exact h.acq.cherr k hk
  · split
    · exact Nat.min_le_right _ _
    · exact Nat.zero_le _

omit h in
/-- The best channel is one of those looked at. -/
theorem bestChannel_lt {l : List (Nat × Station)} (hl : ∀ c ∈ l, c.1 < Config.nChan)
    {best b : Option (Nat × Station × Nat)} (hbest : ∀ x, best = some x → x.1 < Config.nChan)
    (hb : bestChannel s l best = .ok b) : ∀ x, b = some x → x.1 < Config.nChan := by
  induction l generalizing best with
  | nil => cases hb; exact hbest
  | cons c rest ih =>
    obtain ⟨f, st⟩ := c
    obtain ⟨pair, -, hb⟩ := res_bind_ok.mp hb
    refine ih (fun c hc => hl c (List.mem_cons_of_mem _ hc)) ?_ hb
    have hf : f < Config.nChan := hl (f, st) List.mem_cons_self
    intro x hx
    split at hx
    · cases hx; exact hf
    · split at hx
      · cases hx; exact hf
      · exact hbest x hx

theorem useBest_sound {b : Option (Nat × Station × Nat)} (hb : ∀ x, b = some x → x.1 < Config.nChan) :
    (useBest s b).Sound P := by
  rcases b with _ | ⟨f, st, n⟩
  · exact h
  · have hf := hb _ rfl
    unfold useBest applySelection
    dsimp only
    split
    · have h1 := (h.setSel none).setFlag (b := bitMsync) (by decide) (by decide) (by decide) false
      have h2 := h1.setFlag (b := bitSsync) (by decide) (by decide) (by decide) false
      exact h2.scanReset
    · split
      · exact h
      · refine ((h.setSel (some st)).withAcq (a := { s.acq with dchan := f }) { h.acq with dchan := hf }).withEpoch ?_
        exact ⟨{ h.epoch.range with tsecStart := imod_lt _ (by decide) }, h.epoch.comb⟩

theorem endOfRotation_sound (ht : endOfRotation s = .ok t) : t.Sound P := by
  rcases endOfRotation_ok.mp ht with ⟨-, b, hb, rfl⟩ | ⟨-, rfl⟩
  · exact useBest_sound h (bestChannel_lt (by decide) (by simp) hb)
  · exact h

theorem probeClose_sound (ht : probeClose s = .ok t) : t.Sound P := by
  obtain ⟨u, _, v, _, w, x, hu, hv, hw, hx, rfl⟩ := probeClose_ok.mp ht
  have hdown (n : Nat) (hn : n ≤ Config.aMax) : n - 1 ≤ Config.aMax := (Nat.sub_le n 1).trans hn
  have h0 := h.withAcq (a := { s.acq with win := false }) { h.acq with }
  have hsv := updateChan_sound (updateChan_sound h0 hdown hu) hdown hv
  exact rotateProbe_sound (endOfRotation_sound (channelErrors_sound hsv hw) hx)

/-! The watchdogs. -/

omit h in
theorem selLegal_of_status_zero {u : State} (e : u.status = 0) : u.SelLegal := by
  unfold State.SelLegal State.sel State.selCode
  rw [e]
  decide

omit h in
/-- Every group of the reset state is in range (70_reset_and_hazards.md R280). -/
theorem reset_sound (P : Prop) : State.reset.Sound P where
  bank := ⟨by decide, rfl, rfl, forall_station.mpr ⟨rfl, rfl⟩, forall_station.mpr ⟨rfl, rfl⟩,
    forall_station.mpr ⟨rfl, rfl⟩, forall_station.mpr ⟨rfl, rfl⟩⟩
  clock := ⟨by decide, by decide, fun _ => by decide, fun _ => by decide⟩
  epoch := ⟨⟨by decide, by decide, by decide, by decide, by decide, by decide, by decide, by decide, by decide,
    by decide, by decide⟩, rfl⟩
  acq := by
    have hrec : ChanRec.zeros.Sound P := ⟨by decide, fun _ => by decide⟩
    have hscan : Scan.zeros.Sound P := ⟨by decide, fun _ => by decide⟩
    refine ⟨rfl, fun f pair hf => ?_, rfl, by decide, by decide, by decide, forall_station.mpr ⟨hscan, hscan⟩⟩
    obtain ⟨-, rfl⟩ := List.mem_replicate.mp (List.mem_of_getElem? hf)
    exact forall_station.mpr ⟨hrec, hrec⟩
  dec := by
    refine ⟨by decide, by decide, rfl, fun p v hv => ?_, by decide, rfl, rfl, rfl, fun _ _ => F64.le_refl rfl⟩
    obtain ⟨-, rfl⟩ := List.mem_replicate.mp (List.mem_of_getElem? hv)
    exact ⟨radix_pos p, radix_pos p, radix_pos p, Nat.zero_le _, rfl⟩
  wd := by decide
  tune := by decide
  sel := by decide
  prog := rfl

/-- The watchdog reset keeps what it does not take from the reset state; it does not look at the counters. -/
theorem watchdogReset_sound (w : Watchdog) : (watchdogReset (s.withWd w)).Sound P :=
  have r := reset_sound P
  { r with
    bank := h.bank
    clock := { r.clock with rphase := h.clock.rphase, mphase := h.clock.mphase }
    epoch := ⟨{ r.epoch.range with }, h.epoch.comb⟩
    acq := { r.acq with pchan := h.acq.pchan, dchan := h.acq.dchan }
    dec := { r.dec with dbuf := h.dec.dbuf, envelope := h.dec.envelope }
    tune := h.acq.pchan
    sel := selLegal_of_status_zero rfl
    prog := h.prog }

theorem watchdogUpdate_sound : (watchdogUpdate s).Sound P := by
  rcases watchdogUpdate_cases s with ⟨hexp, e⟩ | ⟨-, e⟩ <;> rw [e]
  · refine h.withWd ?_
    simp only [watchdogExpired, Bool.or_eq_false_iff, decide_eq_false_iff_not, Nat.not_lt, and_assoc] at hexp
    exact hexp
  · exact watchdogReset_sound h _

theorem rawMinute_sound (ht : rawMinute s = .ok t) : t.Sound P := by
  rcases rawMinute_ok.mp ht with ⟨-, rfl⟩ | ⟨-, u, hu, rfl⟩
  · exact watchdogUpdate_sound h
  · exact (watchdogUpdate_sound (acquisition_sound h hu).scanReset).ageAlarm

theorem rawSecond_sound (ht : rawSecond s = .ok t) : t.Sound P := by
  obtain ⟨u, v, hu, hv, ht⟩ := rawSecond_ok.mp ht
  have h0 := h.withClock (c := { s.clock with mphase := (s.clock.mphase + 1) % 60 })
    { h.clock with mphase := Nat.mod_lt _ (by decide) }
  have h1 := (intervalStep_sound (epochUpdate_sound h0 hu) hv).syncCheck
  rcases ht with ⟨-, ht⟩ | ⟨-, rfl⟩
  · exact rawMinute_sound h1 ht
  · exact h1

/-! The transmitter second and the minute end. -/

theorem carry_sound {p : Nat} {c : Bool} (ht : carry p s = .ok (t, c)) : t.Sound P := by
  obtain ⟨d, hd, rfl, -⟩ := carry_ok.mp ht
  obtain ⟨-, hd⟩ := readDigit_ok.mp hd
  have hv := h.dec.digits p d hd
  exact h.writeDigit { hv with
    digit := Nat.mod_lt _ (radix_pos p)
    mldigit := Nat.mod_lt _ (radix_pos p)
    like := rotateFrom_wf (radix_pos p) (radix_le p) _ hv.like }

theorem carryChain_sound {l : List Nat} {c : Bool} (ht : carryChain l c s = .ok t) : t.Sound P := by
  induction l generalizing c s with
  | nil => cases ht; exact h
  | cons p rest ih =>
    rcases carryChain_cons_ok.mp ht with ⟨-, -, u, c', hu, ht⟩ | ⟨-, rfl⟩
    · exact ih (carry_sound h hu) ht
    · exact h

theorem tsecNext_sound (ht : tsecNext s = .ok t) : t.Sound P := by
  rcases tsecNext_ok.mp ht with ⟨-, c, -, rfl⟩ | ⟨-, rfl⟩ | ⟨h59, h60, rfl⟩
  · have h1 : (if leapDue s c then setFlag bitLeap true s else s).Sound P := by
      split
      · exact h.setFlag (by decide) (by decide) (by decide) true
      · exact h
    have hle (b : Bool) : (if b then 60 else 0) ≤ 60 := by cases b <;> decide
    exact h1.setTsec (hle _)
  · exact h.setTsec (Nat.zero_le _)
  · exact h.setTsec (by have := h.dec.tsec; omega)

theorem transmitterSecond_sound (ht : transmitterSecond s = .ok t) : t.Sound P := by
  obtain ⟨u, hu, ⟨-, ht⟩ | ⟨-, rfl⟩⟩ := transmitterSecond_ok.mp ht
  · obtain ⟨v, c, hv, hw⟩ := clockAdvance_ok.mp ht
    exact carryChain_sound (carry_sound (tsecNext_sound h hu) hv) hw
  · exact tsecNext_sound h hu

theorem State.Sound.declareDsync : (declareDsync s).Sound P := by
  unfold Machine.declareDsync
  split
  · exact h.setFlag (by decide) (by decide) (by decide) true
  · exact h

theorem State.Sound.restartAbs : (restartAbs s).Sound P := by
  unfold Machine.restartAbs
  split
  · obtain ⟨h1, h2, h3, -⟩ := h.wd
    exact h.withWd ⟨h1, h2, h3, Nat.zero_le _⟩
  · exact h

theorem minuteEnd_sound (ht : minuteEnd s = .ok t) : t.Sound P := by
  obtain ⟨r, -, rfl⟩ := minuteEnd_ok.mp ht
  have h1 : (declareInsync (declareDsync s)).Sound P :=
    h.declareDsync.setFlag (by decide) (by decide) (by decide) _
  exact (h1.restartAbs.withOut (o := { s.out with timerec := r, timerecStrobe := true }) h.tune).ageAlarm.restartErrors

theorem minuteOne_sound (ht : minuteOne s = .ok t) : t.Sound P := by
  unfold minuteOne at ht
  split at ht
  · cases ht; exact h
  · exact minuteEnd_sound h ht

theorem minuteTwo_sound (ht : minuteTwo s = .ok t) : t.Sound P := by
  obtain ⟨u, hu, rfl⟩ := res_map_ok.mp ht
  exact (minuteEnd_sound h hu).setFlag (by decide) (by decide) (by decide) false

/-! The receiver second. -/

theorem countErasure_sound : (countErasure s).Sound P := by
  have h1 := h.withDec (d := { s.dec with errcnt := min (s.dec.errcnt + 1) Config.sat8 })
    { h.dec with errcnt := Nat.min_le_right _ _ }
  unfold countErasure
  split
  · dsimp only
    split
    · exact h1.raiseAlarm 2
    · exact h1
  · exact h

theorem storeBcd_sound {i : Nat} {v : F64} (ht : storeBcd i v s = .ok t) : t.Sound P := by
  obtain ⟨hi, rfl⟩ := storeBcd_ok.mp ht
  exact h.withDec { h.dec with bcd := put_wf h.dec.bcd hi v }

omit h in
/-- The maximum-likelihood digit is below the radix (R208). -/
theorem mlOf_lt {r : Nat} (hr : 0 < r) (like : RealArray) : (mlOf r like).ml < r := by
  have hne : likeCells r like ≠ [] := by simp [likeCells]; omega
  have hmem := bestCell_mem hne
  obtain ⟨d, hd, e⟩ := List.mem_map.mp hmem
  show (bestCell (likeCells r like)).1 < r
  rw [← e]
  exact List.mem_range.mp hd

omit h in
/-- A decoded digit vector is in range (R208, R209). -/
theorem decodeDigit_sound {cfg : Config.Cfg} {p : Nat} {like : RealArray} {d : DigitVec} (hd : d.Sound p)
    (hl : like.wf Config.nLike = true) : (decodeDigit cfg (radix p) like d).1.Sound p := by
  have hml := mlOf_lt (radix_pos p) like
  have hph : phaseOf (radix p) (mlOf (radix p) like) d < radix p := imod_lt _ (radix_pos p)
  have hcmp : (comparePhase (phaseOf (radix p) (mlOf (radix p) like) d) d).1 ≤ Config.bCmp ∧
      (comparePhase (phaseOf (radix p) (mlOf (radix p) like) d) d).2 < radix p := by
    unfold comparePhase
    split
    · exact ⟨Nat.min_le_right _ _, hd.phase⟩
    · exact ⟨Nat.one_le_of_lt (by decide : 1 < Config.bCmp), hph⟩
  unfold decodeDigit
  dsimp only
  split
  · exact ⟨hml, hml, radix_pos p, hcmp.1, hl⟩
  · exact ⟨hd.digit, hml, hcmp.2, hcmp.1, hl⟩

theorem decimAction_sound {p : Nat} (ht : decimAction p s = .ok t) : t.Sound P := by
  obtain ⟨d, like, hd, hlike, rfl⟩ := decimAction_ok.mp ht
  obtain ⟨-, hd⟩ := readDigit_ok.mp hd
  have hv := h.dec.digits p d hd
  have h1 := h.writeDigit (decodeDigit_sound (cfg := s.cfg) hv (smoothLikes_wf (radix_le p) hv.like hlike))
  have h2 : (if (decodeDigit s.cfg (radix p) like d).2 = true then
      setFlag bitDlock true (writeDigit s p (decodeDigit s.cfg (radix p) like d).1)
      else writeDigit s p (decodeDigit s.cfg (radix p) like d).1).Sound P := by
    split
    · exact h1.setFlag (by decide) (by decide) (by decide) true
    · exact h1
  dsimp only
  split
  · exact h2.raiseAlarm 0
  · exact h2

theorem miscUpdate_sound {b : Nat} (ht : miscUpdate b s = .ok t) : t.Sound P := by
  obtain ⟨hb, -, rfl⟩ := miscUpdate_ok.mp ht
  have h1 := h.withDec (d := { s.dec with miscp := s.dec.miscp.put b (miscNext s b) })
    { h.dec with miscp := put_wf h.dec.miscp hb _ }
  rcases miscDecide_cases _ b (miscNext s b) with e | e | e <;> rw [e]
  · exact h1.setMisc b true
  · exact h1.setMisc b false
  · exact h1.raiseAlarm 1

/-- Every ROM action keeps the ranges. -/
theorem romAction_sound {i : Instr} (ht : romAction i s = .ok t) : t.Sound P := by
  cases i with
  | idle => cases ht; exact h
  | coef i => exact storeBcd_sound h ht
  | coefg i => exact storeBcd_sound h ht
  | coefz i => exact storeBcd_sound h ht
  | decim p => exact decimAction_sound h ht
  | msc b => exact miscUpdate_sound h ht
  | mscd p =>
    obtain ⟨u, hu, ht⟩ := res_bind_ok.mp ht
    exact miscUpdate_sound (decimAction_sound h hu) ht
  | mscq b =>
    obtain ⟨u, hu, rfl⟩ := res_map_ok.mp ht
    exact (miscUpdate_sound h hu).probeOpen
  | pend => exact probeClose_sound h ht
  | min1 => exact minuteOne_sound h ht
  | min2 => exact minuteTwo_sound h ht
  | _ => cases ht

theorem rsecAdvance_sound : (rsecAdvance s).Sound P := by
  refine h.withDec { h.dec with rsec := ?_ }
  have := h.dec.rsec
  dsimp only
  split_ifs <;> omega

theorem receiverSecond_sound (ht : receiverSecond s = .ok t) : t.Sound P := by
  obtain ⟨w, u, -, hu, rfl⟩ := receiverSecond_ok.mp ht
  exact rsecAdvance_sound (romAction_sound (countErasure_sound h) hu)

/-! The step. -/

omit h in
theorem runIf_sound {c : Bool} {rule : State → Res State} (h : s.Sound P)
    (hr : ∀ {u}, s.Sound P → rule s = .ok u → u.Sound P) (ht : runIf c rule s = .ok t) : t.Sound P := by
  rcases runIf_ok.mp ht with ⟨-, ht⟩ | ⟨-, rfl⟩
  · exact hr h ht
  · exact h

theorem sampleStep_sound (ht : sampleStep s = .ok t) : t.Sound P := by
  obtain ⟨u, v, hu, hv, rfl⟩ := sampleStep_ok.mp ht
  obtain ⟨x, y, hx, hy, hv⟩ := eventStep_ok.mp hv
  have h1 := runIf_sound (clockStep_sound (signalStep_sound h hu)) rawSecond_sound hx
  have h2 := runIf_sound h1 transmitterSecond_sound hy
  exact (runIf_sound h2 receiverSecond_sound hv).tunerFailure _

theorem hostReset_sound : (hostReset s).Sound P := 
  { reset_sound P with sel := selLegal_of_status_zero rfl, prog := h.prog }

theorem step_sound (ht : step s = .next t) : t.Sound P := by
  rcases step_next ht with ⟨-, -, rfl⟩ | ⟨-, -, rfl⟩ | ⟨-, -, -, rfl⟩ | ⟨-, -, -, u, hu, rfl⟩ | ⟨-, -, -, f, -, rfl⟩
  · exact h.withInputs _
  · exact (hostReset_sound h).withInputs _
  · exact h.withInputs _
  · exact (sampleStep_sound h hu).withInputs _
  · exact (h.withFault (some f)).withInputs _

end

/-- Settles O18: with P the range of the real registers before the step, one invariant holds every group in its range. -/
theorem stepKeepsTheRanges : Obligations.StepKeepsTheRanges := by
  intro s t hs ht
  exact State.sound_iff.mp (step_sound (State.sound_iff.mpr ⟨hs, id⟩) ht)

end Sys2Proof.Machine
end

section
/-! PROOF. What a sample step writes (70_reset_and_hazards.md R285): the elementary writes of its rules, each with
what it shows of the value written, and one walk through the rules. An invariant of the step is then one case for each write. -/

namespace Sys2Proof.Machine

/-- An elementary write of a rule. A group of the state of which 10_state.md R46 says nothing takes any value; the
others carry what R46 needs, relative to the state before. -/
inductive Write (s : State) : State → Prop
  | bank (b : Bank) : Write s (s.withBank b)
  | epoch (e : Epoch) : Write s (s.withEpoch e)
  | wd (w : Watchdog) : Write s (s.withWd w)
  /-- The phases and the slip accumulator (R36). -/
  | phases (c : Clock) (freq : c.freq = s.clock.freq) : Write s (s.withClock c)
  /-- The FLL frequency (41_epoch_tracker_fll.md R160). -/
  | freq (f : F64) (finite : f.isFinite = true) (low : Config.minusMaxFreq.le f = true)
      (high : f.le Config.maxFreq = true) : Write s (s.withClock { s.clock with freq := f })
  /-- Station acquisition, the channel records apart (R38). -/
  | acq (a : Acq) (chan : a.chan = s.acq.chan) : Write s (s.withAcq a)
  /-- A channel record, its count clamped or not raised (42_station_acquisition.md R180, R186). -/
  | chan (f : Nat) (st : Station) (c : ChanRec)
      (count : c.count ≤ Config.aMax ∨ ∃ pair, s.acq.chan[f]? = some pair ∧ c.count ≤ (pair.get st).count) :
      Write s (writeChan s f st c)
  /-- The decoder, its digits and its second numbers apart (R39). -/
  | dec (d : Dec) (digits : d.digits = s.dec.digits) (rsec : d.rsec = s.dec.rsec) (tsec : d.tsec = s.dec.tsec) :
      Write s (s.withDec d)
  /-- A digit vector, its digit new or kept (43_bcd_decoder.md R209, 44_clock_and_minute.md R244). -/
  | digit (p : Nat) (d : DigitVec)
      (digit : d.digit < radix p ∨ ∃ old, s.dec.digits[p]? = some old ∧ d.digit = old.digit)
      (mldigit : d.mldigit < radix p) : Write s (writeDigit s p d)
  /-- The second numbers at acceptance of a station (42_station_acquisition.md R182). -/
  | seconds (r t : Nat) (rsec : r < 60) (tsec : t < 60) : Write s (s.withDec { s.dec with rsec := r, tsec := t })
  /-- The transmitter second (44_clock_and_minute.md R240). -/
  | tsec (n : Nat) (tsec : s.dec.tsec ≤ 60 → n ≤ 60) : Write s (setTsec n s)
  /-- The receiver second (43_bcd_decoder.md R216). -/
  | rsec : Write s (rsecAdvance s)
  /-- The end of a receiver second that ran MIN2, which clears LEAP (R218). -/
  | rsecAfterMin2 : Write s (rsecAdvance (setFlag bitLeap false s))
  /-- A status flag other than LEAP (R40). -/
  | flag (b : Nat) (v : Bool) (mem : b ∈ [bitMsync, bitSsync, bitDsync, bitInsync, bitDlock]) : Write s (setFlag b v s)
  /-- LEAP is set (44_clock_and_minute.md R243). -/
  | leap : Write s (setFlag bitLeap true s)
  | sel (st : Option Station) : Write s (setSel st s)
  /-- The output registers, the time record apart (R44). -/
  | out (o : OutRegs) (timerec : o.timerec = s.out.timerec) (strobe : o.timerecStrobe = s.out.timerecStrobe) :
      Write s (s.withOut o)
  /-- A time record with its strobe (60_exceptions.md R271). -/
  | record (o : OutRegs) (valid : o.timerec.valid = true) (strobe : o.timerecStrobe = true) : Write s (s.withOut o)
  | watchdogReset : Write s (watchdogReset s)

/-- Elementary writes in a row. -/
abbrev Writes : State → State → Prop := Relation.ReflTransGen Write

/-- What every elementary write keeps, writes in a row keep. -/
theorem Writes.keep {I : State → Prop} (hI : ∀ s t, I s → Write s t → I t) {s t : State} (h : Writes s t) (hs : I s) :
    I t := by
  induction h with
  | refl => exact hs
  | tail _ hw ih => exact hI _ _ ih hw

section
variable {s t : State}

/-! The signal part and the epoch tracker. -/

theorem envelopeWrite_writes {e : F64} (h : envelopeWrite e s = .ok t) : Writes s t := by
  obtain ⟨-, rfl⟩ := envelopeWrite_ok.mp h
  exact .single (.dec _ rfl rfl rfl)

theorem scanAccumulate_writes {em : ByStation F64} (h : scanAccumulate em s = .ok t) : Writes s t := by
  rcases scanAccumulate_ok.mp h with ⟨-, rfl⟩ | ⟨_, _, _, -, -, -, rfl⟩
  · exact .refl
  · exact .single (.acq _ rfl)

/-- The signal part clears the record's strobe and writes no record (R285 step 10). -/
theorem signalStep_writes (h : signalStep s = .ok t) :
    Writes (s.withOut { s.out with timerecStrobe := false }) t := by
  obtain ⟨o, bank, u, v, -, hu, hv, ht⟩ := signalStep_ok.mp h
  obtain ⟨-, -, rfl⟩ := combUpdate_ok.mp ht
  have h1 := Relation.ReflTransGen.trans (.single (.bank bank)) (envelopeWrite_writes hu)
  exact (h1.trans (scanAccumulate_writes hv)).tail (.epoch _)

theorem latchOffsets_writes (h : latchOffsets s = .ok t) : Writes s t := by
  obtain ⟨d, -, rfl⟩ := latchOffsets_ok.mp h
  exact .tail (.single (.flag bitSsync true (by decide))) (.epoch _)

theorem epochUpdate_writes (h : epochUpdate s = .ok t) : Writes s t := by
  obtain ⟨_, _, u, -, -, rfl, ⟨-, rfl⟩ | ⟨-, v, rfl, ⟨-, -, hl⟩ | ⟨-, rfl⟩⟩⟩ := epochUpdate_ok.mp h
  · exact .tail (.single (.epoch _)) (.flag bitSsync false (by decide))
  · exact .trans (.single (.epoch _)) (latchOffsets_writes hl)
  · exact .single (.epoch _)

theorem frequencyUpdate_writes {d : Int} (h : frequencyUpdate d s = .ok t) : Writes s t := by
  rcases frequencyUpdate_ok.mp h with ⟨-, hf, rfl⟩ | ⟨-, rfl⟩
  · obtain ⟨hlow, hhigh⟩ := freqNext_range hf
    exact .single (.freq _ hf hlow hhigh)
  · exact .refl

theorem intervalStep_writes (h : intervalStep s = .ok t) : Writes s t := by
  rcases intervalStep_ok.mp h with ⟨-, h⟩ | ⟨-, rfl⟩
  · obtain ⟨u, hu, rfl⟩ := intervalEnd_ok.mp h
    have h1 : Writes s u := .trans (.single (.epoch _)) (frequencyUpdate_writes hu)
    obtain ⟨_, e | ⟨-, e⟩⟩ := intervalDoubling_cases u (driftOf (s.withEpoch { s.epoch with avgcnt := 0 }).epoch) <;>
      rw [e] <;> exact h1.tail (.epoch _)
  · exact .single (.epoch _)

/-! The raw minute. -/

theorem updateChan_writes {down : Nat → Nat} (hdown : ∀ n, down n ≤ n) {st : Station} {pass : Bool}
    (h : updateChan down st s = .ok (t, pass)) : Writes s t := by
  obtain ⟨pair, m, hp, -, -, rfl⟩ := updateChan_ok.mp h
  refine .single (.chan _ _ _ ?_)
  cases pass
  · exact .inr ⟨pair, hp, hdown _⟩
  · exact .inl (Nat.min_le_right _ _)

/-- A position of the minute lies in one of its 60 seconds (R182). -/
theorem second_of_minute_lt (a : Int) : imod a Config.minute / Config.second < 60 :=
  Nat.div_lt_of_lt_mul (imod_lt a (by decide))

theorem acceptStation_writes (w : Station) (pos : Nat) (s : State) : Writes s (acceptStation w pos s) := by
  have h1 : Writes s (setFlag bitMsync true (setSel (some w) s)) :=
    .tail (.single (.sel (some w))) (.flag bitMsync true (by decide))
  have h2 := h1.tail (.acq { s.acq with dchan := s.acq.pchan } rfl)
  exact ((h2.tail (.seconds _ _ (second_of_minute_lt _) (second_of_minute_lt _))).tail (.epoch _)).tail (.out _ rfl rfl)

theorem probeAdvance_writes (s : State) : Writes s (probeAdvance s) :=
  .tail (.single (.acq { s.acq with pchan := (s.acq.pchan + 1) % Config.nChan } rfl)) (.out _ rfl rfl)

theorem acquisition_writes (h : acquisition s = .ok t) : Writes s t := by
  obtain ⟨u, _, v, _, pair, hu, hv, -, rfl⟩ := acquisition_ok.mp h
  have h1 := (updateChan_writes (fun _ => Nat.zero_le _) hu).trans (updateChan_writes (fun _ => Nat.zero_le _) hv)
  rcases acceptOrAdvance_cases pair v with ⟨w, -, e⟩ | ⟨-, -, -, e⟩ | ⟨-, -, e⟩ <;> rw [e]
  · exact h1.trans (acceptStation_writes w _ v)
  · exact h1.trans (probeAdvance_writes v)
  · exact h1

theorem watchdogUpdate_writes (s : State) : Writes s (watchdogUpdate s) := by
  rcases watchdogUpdate_cases s with ⟨-, e⟩ | ⟨-, e⟩ <;> rw [e]
  · exact .single (.wd _)
  · exact .tail (.single (.wd _)) .watchdogReset

theorem rawMinute_writes (h : rawMinute s = .ok t) : Writes s t := by
  rcases rawMinute_ok.mp h with ⟨-, rfl⟩ | ⟨-, u, hu, rfl⟩
  · exact watchdogUpdate_writes s
  · have h1 : Writes s (scanReset u) := (acquisition_writes hu).tail (.acq _ rfl)
    exact (h1.trans (watchdogUpdate_writes _)).tail (.dec _ rfl rfl rfl)

theorem rawSecond_writes (h : rawSecond s = .ok t) : Writes s t := by
  obtain ⟨u, v, hu, hv, ht⟩ := rawSecond_ok.mp h
  have h0 : Writes s (s.withClock { s.clock with mphase := (s.clock.mphase + 1) % 60 }) := .single (.phases _ rfl)
  have h1 := h0.trans (epochUpdate_writes hu)
  have h2 : Writes s (syncCheck v) := by
    unfold syncCheck
    split
    · exact (h1.trans (intervalStep_writes hv)).tail (.dec _ rfl rfl rfl)
    · exact h1.trans (intervalStep_writes hv)
  rcases ht with ⟨-, ht⟩ | ⟨-, rfl⟩
  · exact h2.trans (rawMinute_writes ht)
  · exact h2

/-! The transmitter second. -/

theorem carry_writes {p : Nat} {c : Bool} (h : carry p s = .ok (t, c)) : Writes s t := by
  obtain ⟨d, -, rfl, -⟩ := carry_ok.mp h
  exact .single (.digit p _ (.inl (Nat.mod_lt _ (radix_pos p))) (Nat.mod_lt _ (radix_pos p)))

theorem carryChain_writes {l : List Nat} {c : Bool} (h : carryChain l c s = .ok t) : Writes s t := by
  induction l generalizing c s with
  | nil => cases h; exact .refl
  | cons p rest ih =>
    rcases carryChain_cons_ok.mp h with ⟨-, -, u, c', hu, ht⟩ | ⟨-, rfl⟩
    · exact (carry_writes hu).trans (ih ht)
    · exact .refl

theorem tsecNext_writes (h : tsecNext s = .ok t) : Writes s t := by
  rcases tsecNext_ok.mp h with ⟨-, c, -, rfl⟩ | ⟨-, rfl⟩ | ⟨h59, h60, rfl⟩
  · have h1 : Writes s (if leapDue s c then setFlag bitLeap true s else s) := by
      split
      · exact .single .leap
      · exact .refl
    have hle (b : Bool) : (if b then 60 else 0) ≤ 60 := by cases b <;> decide
    exact h1.tail (.tsec _ fun _ => hle _)
  · exact .single (.tsec 0 fun _ => Nat.zero_le _)
  · exact .single (.tsec _ fun _ => by omega)

theorem transmitterSecond_writes (h : transmitterSecond s = .ok t) : Writes s t := by
  obtain ⟨u, hu, ⟨-, ht⟩ | ⟨-, rfl⟩⟩ := transmitterSecond_ok.mp h
  · obtain ⟨v, c, hv, hw⟩ := clockAdvance_ok.mp ht
    exact ((tsecNext_writes hu).trans (carry_writes hv)).trans (carryChain_writes hw)
  · exact tsecNext_writes hu

/-! The minute end. -/

/-- A time record is written valid (60_exceptions.md R271). -/
theorem timeRecord_valid {r : TimeRec} (h : timeRecord s = .ok r) : r.valid = true := by
  obtain ⟨_, -, h⟩ := res_bind_ok.mp h
  obtain ⟨_, -, h⟩ := res_bind_ok.mp h
  cases h
  rfl

theorem minuteEnd_writes (h : minuteEnd s = .ok t) : Writes s t := by
  obtain ⟨r, hr, rfl⟩ := minuteEnd_ok.mp h
  have h1 : Writes s (declareDsync s) := by
    unfold declareDsync
    split
    · exact .single (.flag bitDsync true (by decide))
    · exact .refl
  have h2 : Writes s (declareInsync (declareDsync s)) := h1.tail (.flag bitInsync _ (by decide))
  have h3 : Writes s (restartAbs (declareInsync (declareDsync s))) := by
    unfold restartAbs
    split
    · exact h2.tail (.wd _)
    · exact h2
  exact ((h3.tail (.record _ (timeRecord_valid hr) rfl)).tail (.dec _ rfl rfl rfl)).tail (.dec _ rfl rfl rfl)

/-! The probe window. -/

theorem probeOpen_writes (s : State) : Writes s (probeOpen s) :=
  .tail (.tail (.single (.acq { s.acq with ms := ⟨.zeros, .zeros⟩ } rfl))
    (.acq { s.acq with ms := ⟨.zeros, .zeros⟩, win := true } rfl)) (.out _ rfl rfl)

theorem channelErrors_writes {both : Bool} (h : channelErrors both s = .ok t) : Writes s t := by
  obtain ⟨_, -, rfl⟩ := channelErrors_ok.mp h
  exact .single (.acq _ rfl)

theorem useBest_writes (s : State) (b : Option (Nat × Station × Nat)) : Writes s (useBest s b) := by
  unfold useBest applySelection
  split
  · exact .refl
  · next f st n =>
    split
    · have h1 : Writes s (setFlag bitMsync false (setSel none s)) :=
        .tail (.single (.sel none)) (.flag bitMsync false (by decide))
      exact (h1.tail (.flag bitSsync false (by decide))).tail (.acq _ rfl)
    · split
      · exact .refl
      · exact .tail (.tail (.single (.sel (some st))) (.acq { s.acq with dchan := f } rfl)) (.epoch _)

theorem endOfRotation_writes (h : endOfRotation s = .ok t) : Writes s t := by
  rcases endOfRotation_ok.mp h with ⟨-, b, -, rfl⟩ | ⟨-, rfl⟩
  · exact useBest_writes s b
  · exact .refl

theorem probeClose_writes (h : probeClose s = .ok t) : Writes s t := by
  obtain ⟨u, _, v, _, w, x, hu, hv, hw, hx, rfl⟩ := probeClose_ok.mp h
  have h1 : Writes s u := .trans (.single (.acq { s.acq with win := false } rfl)) (updateChan_writes Nat.pred_le hu)
  have h2 := (h1.trans (updateChan_writes Nat.pred_le hv)).trans (channelErrors_writes hw)
  have h3 := h2.trans (endOfRotation_writes hx)
  exact (h3.tail (.acq { x.acq with pchan := (x.acq.pchan + 1) % Config.nChan } rfl)).tail (.out _ rfl rfl)

/-! The receiver second. -/

theorem countErasure_writes (s : State) : Writes s (countErasure s) := by
  rcases countErasure_cases s with e | ⟨n, e | e⟩
  · rw [e]
  · rw [e]; exact .single (.dec _ rfl rfl rfl)
  · rw [e]; exact .tail (.single (.dec { s.dec with errcnt := n } rfl rfl rfl)) (.dec _ rfl rfl rfl)

theorem storeBcd_writes {i : Nat} {v : F64} (h : storeBcd i v s = .ok t) : Writes s t := by
  obtain ⟨-, rfl⟩ := storeBcd_ok.mp h
  exact .single (.dec _ rfl rfl rfl)

/-- A decoded digit vector keeps its digit or takes the ML digit, which is below the radix (R208, R209). -/
theorem decodeDigit_digits (cfg : Config.Cfg) (p : Nat) (like : RealArray) (d : DigitVec) :
    ((decodeDigit cfg (radix p) like d).1.digit < radix p ∨ (decodeDigit cfg (radix p) like d).1.digit = d.digit) ∧
      (decodeDigit cfg (radix p) like d).1.mldigit < radix p := by
  have hml := mlOf_lt (radix_pos p) like
  unfold decodeDigit
  dsimp only
  split
  · exact ⟨.inl hml, hml⟩
  · exact ⟨.inr rfl, hml⟩

theorem decimAction_writes {p : Nat} (h : decimAction p s = .ok t) : Writes s t := by
  obtain ⟨d, like, hd, -, rfl⟩ := decimAction_ok.mp h
  obtain ⟨-, hd⟩ := readDigit_ok.mp hd
  obtain ⟨hdigit, hml⟩ := decodeDigit_digits s.cfg p like d
  have h1 : Writes s (writeDigit s p (decodeDigit s.cfg (radix p) like d).1) :=
    .single (.digit p _ (hdigit.imp_right fun e => ⟨d, hd, e⟩) hml)
  generalize decodeDigit s.cfg (radix p) like d = r at h1 ⊢
  have h2 : Writes s (if r.2 = true then setFlag bitDlock true (writeDigit s p r.1) else writeDigit s p r.1) := by
    split
    · exact h1.tail (.flag bitDlock true (by decide))
    · exact h1
  dsimp only
  split
  · exact h2.tail (.dec _ rfl rfl rfl)
  · exact h2

theorem miscUpdate_writes {b : Nat} (h : miscUpdate b s = .ok t) : Writes s t := by
  obtain ⟨-, -, rfl⟩ := miscUpdate_ok.mp h
  have h1 : Writes s (s.withDec { s.dec with miscp := s.dec.miscp.put b (miscNext s b) }) :=
    .single (.dec _ rfl rfl rfl)
  rcases miscDecide_cases (s.withDec { s.dec with miscp := s.dec.miscp.put b (miscNext s b) }) b (miscNext s b)
    with e | e | e <;> rw [e] <;> exact h1.tail (.dec _ rfl rfl rfl)

/-- A ROM action makes elementary writes; MIN2 clears LEAP after them (R218). -/
theorem romAction_writes {i : Instr} (h : romAction i s = .ok t) :
    Writes s t ∨ ∃ u, Writes s u ∧ t = setFlag bitLeap false u := by
  cases i with
  | idle => cases h; exact .inl .refl
  | coef i => exact .inl (storeBcd_writes h)
  | coefg i => exact .inl (storeBcd_writes h)
  | coefz i => exact .inl (storeBcd_writes h)
  | decim p => exact .inl (decimAction_writes h)
  | msc b => exact .inl (miscUpdate_writes h)
  | mscd p =>
    obtain ⟨u, hu, ht⟩ := res_bind_ok.mp h
    exact .inl ((decimAction_writes hu).trans (miscUpdate_writes ht))
  | mscq b =>
    obtain ⟨u, hu, rfl⟩ := res_map_ok.mp h
    exact .inl ((miscUpdate_writes hu).trans (probeOpen_writes u))
  | pend => exact .inl (probeClose_writes h)
  | min1 =>
    change (if s.leap then .ok s else minuteEnd s) = .ok t at h
    split at h
    · cases h; exact .inl .refl
    · exact .inl (minuteEnd_writes h)
  | min2 =>
    obtain ⟨u, hu, rfl⟩ := res_map_ok.mp h
    exact .inr ⟨u, minuteEnd_writes hu, rfl⟩
  | _ => cases h

theorem receiverSecond_writes (h : receiverSecond s = .ok t) : Writes s t := by
  obtain ⟨w, u, -, hu, rfl⟩ := receiverSecond_ok.mp h
  have h1 := countErasure_writes s
  rcases romAction_writes hu with hu | ⟨v, hv, rfl⟩
  · exact (h1.trans hu).tail .rsec
  · exact (h1.trans hv).tail .rsecAfterMin2

/-! The sample step. -/

theorem runIf_writes {c : Bool} {rule : State → Res State} (hr : ∀ {s t}, rule s = .ok t → Writes s t)
    (h : runIf c rule s = .ok t) : Writes s t := by
  rcases runIf_ok.mp h with ⟨-, h⟩ | ⟨-, rfl⟩
  · exact hr h
  · exact .refl

/-- All that a sample step does is elementary writes, with the record's strobe cleared before them. -/
theorem sampleStep_writes (h : sampleStep s = .ok t) : Writes (s.withOut { s.out with timerecStrobe := false }) t := by
  obtain ⟨u, v, hu, hv, rfl⟩ := sampleStep_ok.mp h
  obtain ⟨x, y, hx, hy, hv⟩ := eventStep_ok.mp hv
  have h1 : Writes (s.withOut { s.out with timerecStrobe := false }) (clockStep u) :=
    (signalStep_writes hu).tail (.phases _ rfl)
  have h2 := (h1.trans (runIf_writes rawSecond_writes hx)).trans (runIf_writes transmitterSecond_writes hy)
  have h3 := h2.trans (runIf_writes receiverSecond_writes hv)
  unfold tunerFailure
  split
  · exact h3.tail (.out _ rfl rfl)
  · exact h3

end

end Sys2Proof.Machine
end

section
/-! PROOF. The invariants of 10_state.md R46 hold right after reset and every step keeps them; what a step leaves
read-only, and the time record with its strobe. -/

namespace Sys2Proof.Machine

/-! The invariants of R46. -/

theorem reset_statedInv : State.reset.StatedInv := by
  have r := reset_sound True
  exact ⟨fun p v hv => ⟨(r.dec.digits p v hv).digit, (r.dec.digits p v hv).mldigit⟩, ⟨r.dec.rsec, r.dec.tsec⟩, r.sel,
    nofun, r.clock.freq trivial, fun f pair st hf => (r.acq.chan f pair hf st).range.2.2.2⟩

section
variable {s t : State}

/-- The advance of the receiver second needs no LEAP before it: it enters second 60 only with LEAP set (R216). -/
theorem rsecAdvance_statedInv (digits : s.DigitsInRange) (seconds : s.SecondsInRange) (sel : s.SelLegal)
    (freq : s.FreqInRange) (counts : s.CountsInRange) : (rsecAdvance s).StatedInv := by
  obtain ⟨hr, ht⟩ := seconds
  have hnext : (rsecAdvance s).dec.rsec ≤ 60 ∧ ((rsecAdvance s).dec.rsec = 60 → s.leap = true) := by
    unfold rsecAdvance
    dsimp only [withDec_dec]
    split_ifs with h59 hl
    · exact ⟨le_rfl, fun _ => hl⟩
    · exact ⟨by decide, nofun⟩
    · exact ⟨by decide, nofun⟩
    · exact ⟨by omega, by omega⟩
  exact ⟨digits, ⟨hnext.1, ht⟩, sel, hnext.2, freq, counts⟩

theorem writeDigit_digitsInRange (h : s.DigitsInRange) {p : Nat} {d : DigitVec} (hd : d.digit < radix p)
    (hml : d.mldigit < radix p) : (writeDigit s p d).DigitsInRange := by
  intro q v hq
  change (s.dec.digits.set p d)[q]? = some v at hq
  rw [List.getElem?_set] at hq
  split at hq
  · next e =>
    subst e
    split at hq
    · cases hq; exact ⟨hd, hml⟩
    · cases hq
  · exact h q v hq

theorem writeChan_countsInRange (h : s.CountsInRange) (f : Nat) (st : Station) {c : ChanRec}
    (hc : c.count ≤ Config.aMax) : (writeChan s f st c).CountsInRange := by
  intro g pair st' hg
  change (s.acq.chan.modify f fun p => p.set st c)[g]? = some pair at hg
  rw [List.getElem?_modify, Option.map_eq_map, Option.map_eq_some_iff] at hg
  obtain ⟨old, hold, rfl⟩ := hg
  split
  · exact byStation_set_forall (Q := fun c : ChanRec => c.count ≤ Config.aMax) (fun st => h g old st hold) hc st'
  · exact h g old st' hold

/-- Every elementary write keeps the invariants of R46. -/
theorem Write.keep_statedInv (h : s.StatedInv) (hw : Write s t) : t.StatedInv := by
  cases hw with
  | bank b => exact { h with }
  | epoch e => exact { h with }
  | wd w => exact { h with }
  | phases c hf => exact { h with freq := by unfold State.FreqInRange; rw [withClock_clock, hf]; exact h.freq }
  | freq f hf hlow hhigh => exact { h with freq := ⟨hf, hlow, hhigh⟩ }
  | acq a hc => exact { h with counts := by unfold State.CountsInRange; rw [withAcq_acq, hc]; exact h.counts }
  | chan f st c hc =>
    refine { h with counts := writeChan_countsInRange h.counts f st ?_ }
    rcases hc with hc | ⟨pair, hp, hc⟩
    · exact hc
    · exact hc.trans (h.counts f pair st hp)
  | dec d hd hr ht =>
    exact { h with
      digits := by unfold State.DigitsInRange; rw [withDec_dec, hd]; exact h.digits
      seconds := by unfold State.SecondsInRange; rw [withDec_dec, hr, ht]; exact h.seconds
      leap := fun e => h.leap (hr.symm.trans e) }
  | digit p d hd hml =>
    refine { h with digits := writeDigit_digitsInRange h.digits ?_ hml }
    rcases hd with hd | ⟨old, hold, e⟩
    · exact hd
    · exact e ▸ (h.digits p old hold).1
  | seconds r n hr hn => exact { h with seconds := ⟨hr.le, hn.le⟩, leap := fun e => absurd e hr.ne }
  | tsec n hn => exact { h with seconds := ⟨h.seconds.1, hn h.seconds.2⟩ }
  | rsec => exact rsecAdvance_statedInv h.digits h.seconds h.sel h.freq h.counts
  | rsecAfterMin2 =>
    have hsel := (sel_setFlag s (b := bitLeap) (by decide) (by decide) (by decide) false).trans_ne h.sel
    exact rsecAdvance_statedInv h.digits h.seconds hsel h.freq h.counts
  | flag b v hb =>
    obtain ⟨h8, h4, h5, h6⟩ : b < 8 ∧ bitLeap ≠ b ∧ b ≠ 5 ∧ b ≠ 6 := by revert b; decide
    have hleap : (setFlag b v s).leap = s.leap := (flag_setFlag s h8 v bitLeap).trans (if_neg h4)
    exact { h with sel := (sel_setFlag s h8 h5 h6 v).trans_ne h.sel, leap := fun e => hleap.trans (h.leap e) }
  | leap =>
    have hsel := (sel_setFlag s (b := bitLeap) (by decide) (by decide) (by decide) true).trans_ne h.sel
    exact { h with sel := hsel, leap := fun _ => flag_setFlag s (by decide) true bitLeap }
  | sel st =>
    have hleap : (setSel st s).leap = s.leap := flag_setSel s st (by decide) (by decide)
    have hsel : (setSel st s).sel ≠ .illegal := by
      rw [sel_setSel]
      split <;> nofun
    exact { h with sel := hsel, leap := fun e => hleap.trans (h.leap e) }
  | out o _ _ => exact { h with }
  | record o _ _ => exact { h with }
  | watchdogReset => exact { reset_statedInv with sel := selLegal_of_status_zero rfl }

theorem hostReset_statedInv (s : State) : (hostReset s).StatedInv :=
  { reset_statedInv with sel := selLegal_of_status_zero rfl }

end

/-- Settles O16: a sample step is elementary writes, each of which keeps the invariants; a fault or an idle cycle writes
no register they speak of, and a host reset starts from reset values. -/
theorem stepKeepsTheStatedInvariants : Obligations.StepKeepsTheStatedInvariants := by
  intro s t hs ht
  rcases step_next ht with ⟨-, -, rfl⟩ | ⟨-, -, rfl⟩ | ⟨-, -, -, rfl⟩ | ⟨-, -, -, u, hu, rfl⟩ | ⟨-, -, -, f, -, rfl⟩
  · exact { hs with }
  · exact { hostReset_statedInv s with }
  · exact { hs with }
  · have h0 : (s.withOut { s.out with timerecStrobe := false }).StatedInv := { hs with }
    exact { (sampleStep_writes hu).keep (fun _ _ => Write.keep_statedInv) h0 with }
  · exact { hs with }

/-- Settles O17: the groups of the reset state are in range. -/
theorem resetMeetsTheInvariants : Obligations.ResetMeetsTheInvariants := by
  obtain ⟨hrange, hreals⟩ := State.sound_iff.mp (reset_sound True)
  exact ⟨reset_statedInv, hrange, hreals trivial⟩

/-! Read-only elements. -/

/-- Settles O19: only a host reset latches a configuration, and nothing writes PROG. -/
theorem romAndConfigurationAreReadOnly : Obligations.RomAndConfigurationAreReadOnly := by
  intro s t ht
  rcases step_next ht with ⟨-, -, rfl⟩ | ⟨hr, -, rfl⟩ | ⟨-, -, -, rfl⟩ | ⟨-, -, -, u, hu, rfl⟩ | ⟨-, -, -, f, -, rfl⟩
  · exact ⟨rfl, fun _ => rfl⟩
  · exact ⟨rfl, fun hn => absurd (hr.symm.trans hn) (by decide)⟩
  · exact ⟨rfl, fun _ => rfl⟩
  · have hk := sampleStep_kept hu
    exact ⟨hk.prog, fun _ => hk.cfg⟩
  · exact ⟨rfl, fun _ => rfl⟩

/-! The time record. -/

/-- The record is `r` while its strobe is 0, and valid once it is 1 (R44). -/
structure OutRegs.Marked (r : TimeRec) (o : OutRegs) : Prop where
  unset : o.timerecStrobe = false → o.timerec = r
  set : o.timerecStrobe = true → o.timerec.valid = true

/-- Every elementary write keeps the record marked: the one that writes it sets its strobe (60_exceptions.md R271). -/
theorem Write.keep_marked {r : TimeRec} {s t : State} (h : s.out.Marked r) (hw : Write s t) : t.out.Marked r := by
  cases hw with
  | out o hr hs =>
    rw [withOut_out]
    exact ⟨fun e => hr.trans (h.unset (hs.symm.trans e)), fun e => hr ▸ h.set (hs.symm.trans e)⟩
  | record o hv hs => exact ⟨fun e => absurd (hs.symm.trans e) (by decide), fun _ => hv⟩
  | watchdogReset => exact ⟨h.unset, h.set⟩
  | _ => exact h

/-- Settles O23: the step starts with the strobe cleared over the old record, and every write keeps the record
marked. -/
theorem strobeMarksTheRecord : Obligations.StrobeMarksTheRecord := by
  intro s t hreset hstrobe hfault ht htf
  rcases step_next ht with ⟨-, e, -⟩ | ⟨e, -, -⟩ | ⟨-, -, e, -⟩ | ⟨-, -, -, u, hu, rfl⟩ | ⟨-, -, -, f, -, rfl⟩
  · rw [hstrobe] at e; cases e
  · rw [hreset] at e; cases e
  · exact absurd hfault e
  · have h0 : (s.withOut { s.out with timerecStrobe := false }).out.Marked s.out.timerec := ⟨fun _ => rfl, nofun⟩
    have hu := (sampleStep_writes hu).keep (I := fun s => s.out.Marked _) (fun _ _ => Write.keep_marked) h0
    exact ⟨hu.unset, hu.set⟩
  · cases htf

end Sys2Proof.Machine
end

section
/-! PROOF. The arrays (20_memory.md R82, R86, R94): an element read after a write, and a delay line fed from its reset
value. -/

namespace Sys2Proof.Machine

/-- Settles O24: inside the array the write is `put`, whose laws say what is read back; outside it both accesses fault. -/
theorem arrayReadAfterWrite : Obligations.ArrayReadAfterWrite := by
  intro n a i v ha
  refine ⟨fun hi => ⟨a.put i v, arrWrite_ok.mpr ⟨hi, rfl⟩, put_wf ha hi v, fun j => ?_⟩, fun hi => ⟨?_, ?_⟩⟩
  · by_cases hj : j = i
    · rw [if_pos hj, hj]
      exact arrRead_ok.mpr ⟨hi, (get_put_same ha i v).symm⟩
    · rw [if_neg hj]
      unfold arrRead
      rw [get_put_ne ha hj]
  · exact arrWrite_error.mpr ⟨hi, rfl⟩
  · exact arrRead_error.mpr ⟨hi, rfl⟩

/-- From place i on a delay line that is still +0.0 takes the inputs in order, each step adding the input and subtracting
+0.0. -/
theorem boxcarRun_spec {n i : Nat} {vs : List F64} {buf buf' : RealArray} {sum sum' : F64} (hlen : i + vs.length ≤ n)
    (hbuf : buf.wf n = true) (hzero : ∀ j, i ≤ j → buf.get j = .zero)
    (h : boxcarRun n vs buf sum (i % n) = .ok (buf', sum')) :
    buf'.wf n = true ∧ (∀ j, buf'.get j = if j < i then buf.get j else vs.getD (j - i) .zero) ∧
      sum' = vs.foldl (fun acc v => (acc.add v).sub .zero) sum := by
  induction vs generalizing i buf sum with
  | nil =>
    cases h
    refine ⟨hbuf, fun j => ?_, rfl⟩
    split
    · rfl
    · next hj => exact hzero j (Nat.le_of_not_lt hj)
  | cons v rest ih =>
    rw [List.length_cons] at hlen
    have hi : i < n := by omega
    rw [Nat.mod_eq_of_lt hi] at h
    obtain ⟨⟨b, x⟩, hb, h⟩ := res_bind_ok.mp h
    obtain ⟨-, -, rfl, rfl⟩ := boxcar_ok.mp hb
    have hget := get_put hbuf i (v := v)
    obtain ⟨hwf, hread, hsum⟩ := ih (i := i + 1) (by omega) (put_wf hbuf hi v)
      (fun j hj => by rw [hget, if_neg (by omega), hzero j (by omega)]) h
    refine ⟨hwf, fun j => ?_, ?_⟩
    · rw [hread, hget]
      rcases Nat.lt_trichotomy j i with hj | rfl | hj
      · rw [if_pos (by omega), if_neg (by omega), if_pos hj]
      · simp
      · rw [if_neg (by omega), if_neg (by omega), show j - i = j - (i + 1) + 1 by omega, List.getD_cons_succ]
    · rw [hsum, hzero i le_rfl, List.foldl_cons]

/-- Settles O25: the reset value is a delay line that is +0.0 from place 0 on. -/
theorem delayLineSumsItsInputs : Obligations.DelayLineSumsItsInputs := by
  intro n vs buf sum hlen h
  rw [← Nat.zero_mod n] at h
  obtain ⟨hwf, hread, hsum⟩ := boxcarRun_spec (by omega) (zeros_wf n) (fun j _ => zeros_get j) h
  exact ⟨hwf, fun j => by rw [hread, if_neg (Nat.not_lt_zero j), Nat.sub_zero], hsum⟩

end Sys2Proof.Machine
end

section
/-! PROOF. No index outside its array (20_memory.md R82): the accesses, and the rules of a sample and of a raw second. A rule
that runs on a state in range meets the bound of every access it makes; the laws of `State.Sound` carry the ranges from one
rule to the next. -/

namespace Sys2Proof.Machine

/-- The result of a rule is not the model fault IndexRange. -/
def NoIndexFault {α : Type} (r : Res α) : Prop := r ≠ .error .indexRange

/-! How rules are put together. -/

section
variable {α β : Type}

theorem NoIndexFault.ok (a : α) : NoIndexFault (.ok a) := nofun

theorem NoIndexFault.bind {x : Res α} {f : α → Res β} (hx : NoIndexFault x)
    (hf : ∀ a, x = .ok a → NoIndexFault (f a)) : NoIndexFault (x >>= f) := by
  cases x with
  | ok a => exact hf a rfl
  | error e => exact fun h => hx (congrArg Except.error (Except.error.inj h))

theorem NoIndexFault.map {x : Res α} (hx : NoIndexFault x) (f : α → β) : NoIndexFault (x.map f) := by
  cases x with
  | ok a => exact .ok (f a)
  | error e => exact fun h => hx (congrArg Except.error (Except.error.inj h))

end

theorem runIf_noIndexFault {c : Bool} {rule : State → Res State} {s : State} (h : NoIndexFault (rule s)) :
    NoIndexFault (runIf c rule s) := by
  cases c
  · exact .ok s
  · exact h

theorem finite_noIndexFault (v : F64) : NoIndexFault (finite v) := by
  unfold finite
  split
  · exact .ok v
  · exact nofun

/-! The accesses. -/

theorem arrRead_noIndexFault {n i : Nat} (hi : i < n) (a : RealArray) : NoIndexFault (arrRead n a i) :=
  fun h => absurd (arrRead_error.mp h).1 (Nat.not_le_of_lt hi)

theorem arrWrite_noIndexFault {n i : Nat} (hi : i < n) (a : RealArray) (v : F64) : NoIndexFault (arrWrite n a i v) :=
  fun h => absurd (arrWrite_error.mp h).1 (Nat.not_le_of_lt hi)

theorem boxcar_noIndexFault {n i : Nat} (hi : i < n) (buf : RealArray) (sum v : F64) :
    NoIndexFault (boxcar n buf sum i v) :=
  (arrRead_noIndexFault hi buf).bind fun _ _ => (finite_noIndexFault _).bind fun _ _ =>
    (arrWrite_noIndexFault hi buf v).bind fun _ _ => .ok _

theorem sinRead_noIndexFault {i : Nat} (hi : i < Config.nSin) : NoIndexFault (sinRead i) := by
  have hlen : sintab.length = Config.nSin := rfl
  unfold sinRead
  rw [List.getElem?_eq_getElem (hlen ▸ hi)]
  exact .ok _

section
variable {P : Prop} {s : State} (h : s.Sound P)
include h

theorem readDigit_noIndexFault {p : Nat} (hp : p < Config.nDig) : NoIndexFault (readDigit s p) := by
  unfold readDigit
  rw [if_pos hp, List.getElem?_eq_getElem (h.dec.digitsLength ▸ hp)]
  exact .ok _

theorem readChan_noIndexFault {f : Nat} (hf : f < Config.nChan) : NoIndexFault (readChan s f) := by
  unfold readChan
  rw [List.getElem?_eq_getElem (h.acq.chanLength ▸ hf)]
  exact .ok _

theorem fetchWord_noIndexFault : NoIndexFault (fetchWord s) := by
  have hr : s.dec.rsec < s.prog.length := by rw [h.prog]; exact Nat.lt_succ_of_le h.dec.rsec
  unfold fetchWord
  rw [List.getElem?_eq_getElem hr]
  exact .ok _

omit h in
/-- A selected station has a delay: the field holds A or B (10_state.md R40, R46). -/
theorem selDelay_noIndexFault (hlegal : s.SelLegal) (hsel : s.sel ≠ .none) : NoIndexFault (selDelay s) := by
  unfold selDelay
  cases e : s.sel with
  | none => exact absurd e hsel
  | illegal => exact absurd e hlegal
  | a => exact .ok _
  | b => exact .ok _

end

/-! The demodulator. -/

section
variable {b : Bank} (hb : b.Sound)
include hb

theorem refLookup_noIndexFault : NoIndexFault (refLookup b) := by
  obtain ⟨h100, h1000, h1200, -⟩ := hb.range
  have hsin {i : Nat} (hi : i < Config.nStep) : NoIndexFault (sinRead i) := sinRead_noIndexFault (Nat.lt_succ_of_lt hi)
  have hcos (i : Nat) : NoIndexFault (sinRead ((i + 20) % Config.nStep)) := hsin (Nat.mod_lt _ (by decide))
  exact (hsin h100).bind fun _ _ => (hcos _).bind fun _ _ => (hsin h1000).bind fun _ _ => (hcos _).bind fun _ _ =>
    (hsin h1200).bind fun _ _ => (hcos _).bind fun _ _ => .ok _

theorem dataDetect_noIndexFault (r : Refs) (lp : F64) : NoIndexFault (dataDetect r lp b) := by
  obtain ⟨-, -, -, hi, -⟩ := hb.range
  exact (boxcar_noIndexFault hi _ _ _).bind fun _ _ => (boxcar_noIndexFault hi _ _ _).bind fun _ _ =>
    (finite_noIndexFault _).bind fun _ _ => .ok _

theorem tickDetect_noIndexFault (st : Station) (r : Refs) (bp : F64) : NoIndexFault (tickDetect st r bp b) := by
  obtain ⟨-, -, -, -, hi, -⟩ := hb.range
  exact (boxcar_noIndexFault hi _ _ _).bind fun _ _ => (boxcar_noIndexFault hi _ _ _).bind fun _ _ =>
    (finite_noIndexFault _).bind fun _ _ => .ok _

theorem minuteDetect_noIndexFault (st : Station) (r : Refs) (bp : F64) : NoIndexFault (minuteDetect st r bp b) := by
  obtain ⟨-, -, -, -, -, hi⟩ := hb.range
  exact (boxcar_noIndexFault hi _ _ _).bind fun _ _ => (boxcar_noIndexFault hi _ _ _).bind fun _ _ =>
    (finite_noIndexFault _).bind fun _ _ => .ok _

omit hb in
theorem filterStep_noIndexFault (cb : Config.CoefB) (ca : Config.CoefA) (w : Delay4) (x : F64) :
    NoIndexFault (filterStep cb ca w x) :=
  (finite_noIndexFault _).bind fun _ _ => (finite_noIndexFault _).bind fun _ _ => .ok _

theorem demodUpdate_noIndexFault (cfg : Config.Cfg) (sel : Sel) (x : F64) : NoIndexFault (demodUpdate cfg sel x b) := by
  refine (finite_noIndexFault x).bind fun x _ => (filterStep_noIndexFault _ _ _ x).bind fun (lp, lpfW) _ =>
    (filterStep_noIndexFault _ _ _ x).bind fun (bp, bpfW) _ => (refLookup_noIndexFault hb).bind fun r _ => ?_
  have h0 : Bank.Sound { b with lpfW := lpfW, bpfW := bpfW } := { hb with }
  refine (dataDetect_noIndexFault h0 r lp).bind fun (_, b1) e1 => ?_
  have h1 := (dataDetect_sound h0 e1).1
  refine (tickDetect_noIndexFault h1 .a r bp).bind fun (_, b2) e2 => ?_
  have h2 := (tickDetect_sound h1 e2).1
  refine (tickDetect_noIndexFault h2 .b r bp).bind fun (_, b3) e3 => ?_
  have h3 := (tickDetect_sound h2 e3).1
  refine (minuteDetect_noIndexFault h3 .a r bp).bind fun (_, b4) e4 => ?_
  have h4 := (minuteDetect_sound h3 e4).1
  exact (minuteDetect_noIndexFault h4 .b r bp).bind fun _ _ => .ok _

end

/-! The signal part of a sample step. -/

section
variable {P : Prop} {s : State}

theorem envelopeWrite_noIndexFault (e : F64) (s : State) : NoIndexFault (envelopeWrite e s) :=
  (arrWrite_noIndexFault (imod_lt _ (by decide)) _ e).bind fun _ _ => .ok _

theorem scanAdd_noIndexFault (em : F64) (q : Nat) (m : Scan) : NoIndexFault (scanAdd em q m) :=
  (finite_noIndexFault _).bind fun _ _ => .ok _

theorem scanAccumulate_noIndexFault (em : ByStation F64) (s : State) : NoIndexFault (scanAccumulate em s) := by
  unfold scanAccumulate
  split
  · exact .ok s
  · exact (scanAdd_noIndexFault _ _ _).bind fun _ _ => (scanAdd_noIndexFault _ _ _).bind fun _ _ => .ok _

theorem combUpdate_noIndexFault (h : s.Sound P) (e : F64) : NoIndexFault (combUpdate e s) :=
  (arrRead_noIndexFault h.clock.rphase _).bind fun _ _ => (finite_noIndexFault _).bind fun _ _ =>
    (arrWrite_noIndexFault h.clock.rphase _ _).bind fun _ _ => .ok _

theorem signalStep_noIndexFault (h : s.Sound P) : NoIndexFault (signalStep s) := by
  refine (demodUpdate_noIndexFault h.bank s.cfg s.sel s.pins.x).bind fun (o, bank) e => ?_
  obtain ⟨hbank, hdata, hem⟩ := demodUpdate_sound h.bank e
  have h0 := (h.withOut (o := { s.out with timerecStrobe := false }) h.tune).withBank hbank
  refine (envelopeWrite_noIndexFault _ _).bind fun u hu => (scanAccumulate_noIndexFault _ u).bind fun v hv => ?_
  exact combUpdate_noIndexFault (scanAccumulate_sound (envelopeWrite_sound h0 hdata hu) hem hv) _

/-! The epoch tracker and the FLL. -/

theorem latchOffsets_noIndexFault (hlegal : s.SelLegal) (hsel : s.sel ≠ .none) : NoIndexFault (latchOffsets s) :=
  (selDelay_noIndexFault hlegal hsel).bind fun _ _ => .ok _

/-- Offsets are latched only where a station is selected (41_epoch_tracker_fll.md R153, R156). -/
theorem epochUpdate_noIndexFault (h : s.Sound P) : NoIndexFault (epochUpdate s) := by
  unfold epochUpdate
  dsimp only
  split
  · exact .ok _
  · next hsig =>
    rw [Bool.or_eq_true, decide_eq_true_eq, not_or] at hsig
    split
    · exact latchOffsets_noIndexFault h.sel hsig.2
    · exact .ok _

theorem frequencyUpdate_noIndexFault (d : Int) (s : State) : NoIndexFault (frequencyUpdate d s) := by
  unfold frequencyUpdate
  split
  · exact (finite_noIndexFault _).map _
  · exact .ok s

theorem intervalStep_noIndexFault (s : State) : NoIndexFault (intervalStep s) := by
  unfold intervalStep
  dsimp only
  split
  · exact (frequencyUpdate_noIndexFault _ _).bind fun _ _ => .ok _
  · exact .ok _

end

end Sys2Proof.Machine
end

section
/-! PROOF. No index outside its array (20_memory.md R82): the rules of the minutes and of the seconds, and the step. The operand
of a decoded word is in its range (30_encoding.md R105), and `rsec` is an index of PROG. -/

namespace Sys2Proof.Machine

section
variable {P : Prop} {s : State} (h : s.Sound P)
include h

/-! Station acquisition and mitigation. -/

omit h in
theorem measure_noIndexFault (m : Scan) (c : ChanRec) : NoIndexFault (measure m c) :=
  (finite_noIndexFault _).bind fun _ _ => (finite_noIndexFault _).bind fun _ _ => .ok _

theorem updateChan_noIndexFault (down : Nat → Nat) (st : Station) : NoIndexFault (updateChan down st s) :=
  (readChan_noIndexFault h h.acq.pchan).bind fun _ _ => (measure_noIndexFault _ _).bind fun _ _ => .ok _

theorem acquisition_noIndexFault : NoIndexFault (acquisition s) := by
  refine (updateChan_noIndexFault h _ .a).bind fun (u, _) hu => ?_
  have h1 := updateChan_sound h (fun _ _ => Nat.zero_le _) hu
  refine (updateChan_noIndexFault h1 _ .b).bind fun (v, _) hv => ?_
  have h2 := updateChan_sound h1 (fun _ _ => Nat.zero_le _) hv
  exact (readChan_noIndexFault h2 h2.acq.pchan).bind fun _ _ => .ok _

theorem rawMinute_noIndexFault : NoIndexFault (rawMinute s) :=
  (runIf_noIndexFault ((acquisition_noIndexFault h).map scanReset)).bind fun _ _ => .ok _

theorem rawSecond_noIndexFault : NoIndexFault (rawSecond s) := by
  have h0 := h.withClock (c := { s.clock with mphase := (s.clock.mphase + 1) % 60 })
    { h.clock with mphase := Nat.mod_lt _ (by decide) }
  refine (epochUpdate_noIndexFault h0).bind fun u hu => (intervalStep_noIndexFault u).bind fun v hv => ?_
  exact runIf_noIndexFault (rawMinute_noIndexFault (intervalStep_sound (epochUpdate_sound h0 hu) hv).syncCheck)

theorem channelErrors_noIndexFault (both : Bool) : NoIndexFault (channelErrors both s) := by
  have hp : s.acq.pchan < s.acq.cherr.length := by rw [h.acq.cherrLength]; exact h.acq.pchan
  unfold channelErrors
  rw [List.getElem?_eq_getElem hp]
  exact .ok _

theorem bestChannel_noIndexFault {l : List (Nat × Station)} (hl : ∀ c ∈ l, c.1 < Config.nChan)
    (best : Option (Nat × Station × Nat)) : NoIndexFault (bestChannel s l best) := by
  induction l generalizing best with
  | nil => exact .ok best
  | cons c rest ih =>
    obtain ⟨f, st⟩ := c
    have hf : f < Config.nChan := hl (f, st) List.mem_cons_self
    exact (readChan_noIndexFault h hf).bind fun _ _ => ih (fun c hc => hl c (List.mem_cons_of_mem _ hc)) _

theorem endOfRotation_noIndexFault : NoIndexFault (endOfRotation s) := by
  unfold endOfRotation
  split
  · exact (bestChannel_noIndexFault h (by decide) none).map _
  · exact .ok s

theorem probeClose_noIndexFault : NoIndexFault (probeClose s) := by
  have hdown (n : Nat) (hn : n ≤ Config.aMax) : n - 1 ≤ Config.aMax := (Nat.sub_le n 1).trans hn
  have h0 := h.withAcq (a := { s.acq with win := false }) { h.acq with }
  refine (updateChan_noIndexFault h0 _ .a).bind fun (u, _) hu => ?_
  have h1 := updateChan_sound h0 hdown hu
  refine (updateChan_noIndexFault h1 _ .b).bind fun (v, _) hv => ?_
  have h2 := updateChan_sound h1 hdown hv
  refine (channelErrors_noIndexFault h2 _).bind fun w hw => ?_
  exact (endOfRotation_noIndexFault (channelErrors_sound h2 hw)).bind fun _ _ => .ok _

/-! The transmitter second and the minute end. -/

theorem clockFields_noIndexFault : NoIndexFault (clockFields s) := by
  have hd {p : Nat} (hp : p < Config.nDig) : NoIndexFault (readDigit s p) := readDigit_noIndexFault h hp
  exact (hd (by decide)).bind fun _ _ => (hd (by decide)).bind fun _ _ => (hd (by decide)).bind fun _ _ =>
    (hd (by decide)).bind fun _ _ => (hd (by decide)).bind fun _ _ => (hd (by decide)).bind fun _ _ =>
    (hd (by decide)).bind fun _ _ => (hd (by decide)).bind fun _ _ => (hd (by decide)).bind fun _ _ => .ok _

theorem tsecNext_noIndexFault : NoIndexFault (tsecNext s) := by
  unfold tsecNext
  split_ifs
  · exact ((clockFields_noIndexFault h).map _).map _
  · exact .ok _
  · exact .ok _

theorem carry_noIndexFault {p : Nat} (hp : p < Config.nDig) : NoIndexFault (carry p s) :=
  (readDigit_noIndexFault h hp).bind fun _ _ => .ok _

theorem carryChain_noIndexFault {l : List Nat} (hl : ∀ p ∈ l, p < Config.nDig) (c : Bool) :
    NoIndexFault (carryChain l c s) := by
  induction l generalizing c s with
  | nil => exact .ok s
  | cons p rest ih =>
    unfold carryChain
    split
    · refine (carry_noIndexFault h (hl p List.mem_cons_self)).bind fun (t, c') ht => ?_
      exact ih (carry_sound h ht) (fun q hq => hl q (List.mem_cons_of_mem _ hq)) c'
    · exact .ok s

theorem clockAdvance_noIndexFault : NoIndexFault (clockAdvance s) :=
  (carry_noIndexFault h (by decide)).bind fun (_, c) ht => carryChain_noIndexFault (carry_sound h ht) (by decide) c

theorem transmitterSecond_noIndexFault : NoIndexFault (transmitterSecond s) :=
  (tsecNext_noIndexFault h).bind fun _ ht => runIf_noIndexFault (clockAdvance_noIndexFault (tsecNext_sound h ht))

theorem compareCount_noIndexFault : NoIndexFault (compareCount s) := by
  have hlegal := h.sel
  have hchan := readChan_noIndexFault h h.acq.dchan
  unfold compareCount
  cases e : s.sel with
  | none => exact .ok 0
  | illegal => exact absurd e hlegal
  | a => exact hchan.map _
  | b => exact hchan.map _

theorem timeRecord_noIndexFault : NoIndexFault (timeRecord s) :=
  (clockFields_noIndexFault h).bind fun _ _ => (compareCount_noIndexFault h).bind fun _ _ => .ok _

theorem minuteEnd_noIndexFault : NoIndexFault (minuteEnd s) := by
  have h1 : (declareInsync (declareDsync s)).Sound P := h.declareDsync.setFlag (by decide) (by decide) (by decide) _
  have hrec : NoIndexFault (emitRecord (restartAbs (declareInsync (declareDsync s)))) :=
    (timeRecord_noIndexFault h1.restartAbs).bind fun _ _ => .ok _
  exact hrec.bind fun _ _ => .ok _

theorem minuteOne_noIndexFault : NoIndexFault (minuteOne s) := by
  unfold minuteOne
  split
  · exact .ok s
  · exact minuteEnd_noIndexFault h

theorem minuteTwo_noIndexFault : NoIndexFault (minuteTwo s) := (minuteEnd_noIndexFault h).map _

/-! The receiver second. -/

omit h in
theorem storeBcd_noIndexFault {i : Nat} (hi : i < 4) (v : F64) (s : State) : NoIndexFault (storeBcd i v s) :=
  (arrWrite_noIndexFault hi _ v).bind fun _ _ => .ok _

omit h in
theorem smoothLikes_noIndexFault (cfg : Config.Cfg) (bcd a : RealArray) (r : Nat) :
    NoIndexFault (smoothLikes cfg bcd r a) := by
  induction r with
  | zero => exact .ok a
  | succ d ih => exact ih.bind fun _ _ => (finite_noIndexFault _).bind fun _ _ => .ok _

theorem decimAction_noIndexFault {p : Nat} (hp : p < Config.nDig) : NoIndexFault (decimAction p s) :=
  (readDigit_noIndexFault h hp).bind fun _ _ => (smoothLikes_noIndexFault _ _ _ _).bind fun _ _ => .ok _

omit h in
theorem miscUpdate_noIndexFault {b : Nat} (hb : b < Config.nMisc) (s : State) : NoIndexFault (miscUpdate b s) :=
  (arrRead_noIndexFault hb _).bind fun _ _ => (finite_noIndexFault _).bind fun _ _ =>
    (arrWrite_noIndexFault hb _ _).bind fun _ _ => .ok _

/-- A ROM action whose operand is in range forms no index outside an array; a reserved word takes its own fault. -/
theorem romAction_noIndexFault {i : Instr} (hi : i.wellFormed = true) : NoIndexFault (romAction i s) := by
  cases i with
  | idle => exact .ok s
  | coef n => exact storeBcd_noIndexFault (of_decide_eq_true hi) _ s
  | coefg n => exact storeBcd_noIndexFault (of_decide_eq_true hi) _ s
  | coefz n => exact storeBcd_noIndexFault (of_decide_eq_true hi) _ s
  | decim p => exact decimAction_noIndexFault h (of_decide_eq_true hi)
  | msc b => exact miscUpdate_noIndexFault (of_decide_eq_true hi) s
  | mscd p =>
    exact (decimAction_noIndexFault h (of_decide_eq_true hi)).bind fun u _ => miscUpdate_noIndexFault (by decide) u
  | mscq b => exact (miscUpdate_noIndexFault (of_decide_eq_true hi) s).map _
  | pend => exact probeClose_noIndexFault h
  | min1 => exact minuteOne_noIndexFault h
  | min2 => exact minuteTwo_noIndexFault h
  | _ => exact nofun

omit h in
/-- Every ROM word decodes to a well-formed operation: the guard of each tag is the range of its operand, and a word that
fails it is not legal (30_encoding.md R105, R108). -/
theorem decodeRom_wellFormed (w : BitVec 8) : (decodeRom w).wellFormed = true := by
  unfold decodeRom
  dsimp only
  split
  case h_12 => simp_all [Instr.wellFormed, legalWord]
  all_goals split <;> simp_all [Instr.wellFormed, legalWord]

theorem receiverSecond_noIndexFault : NoIndexFault (receiverSecond s) := by
  have h0 := countErasure_sound h
  exact (fetchWord_noIndexFault h0).bind fun w _ =>
    (romAction_noIndexFault h0 (decodeRom_wellFormed w)).bind fun _ _ => .ok _

/-! The sample step. -/

theorem eventStep_noIndexFault (a : Advance) (m0 : Bool) (t0 r0 : Nat) : NoIndexFault (eventStep a m0 t0 r0 s) := by
  refine (runIf_noIndexFault (rawSecond_noIndexFault h)).bind fun u hu => ?_
  have h1 := runIf_sound h rawSecond_sound hu
  refine (runIf_noIndexFault (transmitterSecond_noIndexFault h1)).bind fun v hv => ?_
  exact runIf_noIndexFault (receiverSecond_noIndexFault (runIf_sound h1 transmitterSecond_sound hv))

theorem sampleStep_noIndexFault : NoIndexFault (sampleStep s) :=
  (signalStep_noIndexFault h).bind fun _ hu =>
    (eventStep_noIndexFault (clockStep_sound (signalStep_sound h hu)) _ _ _ _).bind fun _ _ => .ok _

end

/-- Settles O12: only a faulting sample step writes the fault register, and its rules form no index outside an array. -/
theorem noIndexFaultInRange : Obligations.NoIndexFaultInRange := by
  intro s t hs hf ht
  have hsound : s.Sound False := State.sound_iff.mpr ⟨hs, False.elim⟩
  rcases step_next ht with ⟨-, -, rfl⟩ | ⟨-, -, rfl⟩ | ⟨-, -, hf', rfl⟩ | ⟨-, -, -, u, hu, rfl⟩ | ⟨-, -, -, f, he, rfl⟩
  · rw [nextCycle_fault, hf]; exact nofun
  · exact nofun
  · exact absurd hf hf'
  · rw [nextCycle_fault, (sampleStep_kept hu).fault, hf]; exact nofun
  · intro e
    cases e
    exact sampleStep_noIndexFault hsound he

end Sys2Proof.Machine
end

section
/-! PROOF. The encoding (30_encoding.md R101 to R110): a ROM word is its tag and its argument, decoding and encoding are
inverse in both code spaces, and the assembler answers the words of the legal operations and no others. -/

namespace Sys2Proof

/-! The fields of a ROM word (R101). -/

theorem romWord_toNat {op arg : Nat} (hop : op < 16) (harg : arg < 16) : (romWord op arg).toNat = op * 16 + arg := by
  rw [romWord, BitVec.toNat_ofNat]
  omega

theorem romOp_romWord {op arg : Nat} (hop : op < 16) (harg : arg < 16) : romOp (romWord op arg) = op := by
  rw [romOp, romWord_toNat hop harg]
  omega

theorem romArg_romWord {op arg : Nat} (hop : op < 16) (harg : arg < 16) : romArg (romWord op arg) = arg := by
  rw [romArg, romWord_toNat hop harg]
  omega

/-- A ROM word is made of its two fields. -/
theorem romWord_fields (w : BitVec 8) : romWord (romOp w) (romArg w) = w := by
  apply BitVec.eq_of_toNat_eq
  rw [romWord, BitVec.toNat_ofNat, romOp, romArg]
  omega

/-! Decoding after encoding (R102, R104, R106). -/

/-- A word that is not legal decodes to itself, reserved (R108). -/
theorem decodeRom_of_not_legal {w : BitVec 8} (h : legalWord w = false) : decodeRom w = .reserved w := by
  unfold legalWord at h
  unfold decodeRom
  dsimp only
  split
  case h_12 => rfl
  all_goals
    next hop =>
    rw [hop] at h
    exact if_neg (by simpa using h)

/-- A well-formed operand fits into the argument field, so the two fields of the word come back as they were put in. -/
theorem decode_encode {i : Instr} (h : i.wellFormed = true) : decode (encode i) = .ok i := by
  cases i with
  | coef n | coefg n | coefz n | decim n | msc n | mscd n | mscq n =>
    simp only [Instr.wellFormed, Config.nDig, Config.nMisc, decide_eq_true_eq] at h
    simp (disch := omega) [encode, decode, decodeRom, romOp_romWord, romArg_romWord, h]
  | reserved w => exact congrArg Except.ok (decodeRom_of_not_legal (by simpa [Instr.wellFormed] using h))
  | _ => rfl

theorem decodeRom_of_encode {i : Instr} {w : BitVec 8} (h : i.wellFormed = true) (hw : encode i = .rom w) :
    decodeRom w = i := by
  have hd := decode_encode h
  rw [hw] at hd
  exact Except.ok.inj hd

/-- Only a reserved operation encodes to a reserved word: the word decodes to nothing else. -/
theorem legalWord_of_encode {i : Instr} {w : BitVec 8} (h : i.wellFormed = true) (hw : encode i = .rom w)
    (hi : i ≠ .reserved w) : legalWord w = true := by
  by_contra hl
  exact hi ((decodeRom_of_encode h hw).symm.trans (decodeRom_of_not_legal (Bool.eq_false_of_not_eq_true hl)))

/-- A word is reserved exactly where it is not legal (R108). -/
theorem legalWord_eq_false_iff (w : BitVec 8) : legalWord w = false ↔ decodeRom w = .reserved w := by
  refine ⟨decodeRom_of_not_legal, fun h => ?_⟩
  have hw := Machine.decodeRom_wellFormed w
  rw [h] at hw
  simpa [Instr.wellFormed] using hw

/-! Encoding after decoding, in each code space. -/

theorem encode_decodeRom (w : BitVec 8) : encode (decodeRom w) = .rom w := by
  have hw := romWord_fields w
  unfold decodeRom
  dsimp only
  split
  case h_12 => rfl
  all_goals
    next hop =>
    rw [hop] at hw
    split
    · next harg => simpa [encode, harg] using hw
    · rfl

theorem encode_of_decodeEvent {c : BitVec 4} {i : Instr} (h : decodeEvent c = some i) : encode i = .event c := by
  unfold decodeEvent at h
  split at h
  case h_8 => cases h
  all_goals
    next hc =>
    cases h
    exact congrArg CodeWord.event (BitVec.eq_of_toNat_eq hc.symm)

/-- The two code spaces are separate: every operation has its code word in the space of its kind. -/
theorem codeSpace (i : Instr) : Laws.CodeSpace.Statement i := by
  cases i
  exacts [Laws.CodeSpace.idle, Laws.CodeSpace.coef _, Laws.CodeSpace.coefg _, Laws.CodeSpace.coefz _,
    Laws.CodeSpace.decim _, Laws.CodeSpace.msc _, Laws.CodeSpace.mscd _, Laws.CodeSpace.mscq _, Laws.CodeSpace.pend,
    Laws.CodeSpace.min1, Laws.CodeSpace.min2, Laws.CodeSpace.reserved _, Laws.CodeSpace.reset, Laws.CodeSpace.sample,
    Laws.CodeSpace.rawsec, Laws.CodeSpace.rawmin, Laws.CodeSpace.tsec, Laws.CodeSpace.rsec, Laws.CodeSpace.wdreset]

theorem isRom_of_encode_rom {i : Instr} {w : BitVec 8} (h : encode i = .rom w) : i.isRom = true := by
  have hs := codeSpace i
  rw [Laws.CodeSpace.Statement, h] at hs
  exact hs

theorem isRom_of_encode_event {i : Instr} {c : BitVec 4} (h : encode i = .event c) : i.isRom = false := by
  have hs := codeSpace i
  rw [Laws.CodeSpace.Statement, h] at hs
  exact hs.1

theorem decodeRom_isRom (w : BitVec 8) : (decodeRom w).isRom = true := isRom_of_encode_rom (encode_decodeRom w)

/-- Settles O1: the fields of a word determine it and are determined by it, and each event has one code. -/
theorem decodeAndEncodeAgree : Obligations.DecodeAndEncodeAgree :=
  ⟨fun _ h => decode_encode h,
    fun w => ⟨encode_decodeRom w, Machine.decodeRom_wellFormed w, decodeRom_isRom w⟩,
    fun _ _ h => ⟨encode_of_decodeEvent h, isRom_of_encode_event (encode_of_decodeEvent h)⟩⟩

/-! Words written out. -/

/-- The table of R105, tag by tag: 1 + 4 + 4 + 4 + 9 + 7 + 9 + 7 + 1 + 1 + 1 legal words. -/
theorem legalWord_count : ((List.range 256).filter fun n => legalWord (BitVec.ofNat 8 n)).length = 48 := by decide

/-- Settles O2: the count of the legal words, and the decoder run on each written-out word. -/
theorem writtenWordsDecode : Obligations.WrittenWordsDecode := by
  refine ⟨legalWord_count, ?_⟩
  decide

/-! The assembler text (R107, R110). -/

/-- A list of different names has each name at its own place. -/
theorem nameIndex_getElem {t : String} {names : List String} (hn : names.Nodup) {i : Nat} (h : names[i]? = some t)
    (k : Nat) : nameIndex t k names = some (k + i) := by
  induction names generalizing i k with
  | nil => cases h
  | cons n rest ih =>
    obtain ⟨hnot, hrest⟩ := List.nodup_cons.mp hn
    cases i with
    | zero => rw [Option.some.inj h]; exact if_pos rfl
    | succ j =>
      have hne : t ≠ n := fun e => hnot (e ▸ List.mem_of_getElem? h)
      rw [nameIndex, if_neg hne, ih hrest h, Nat.add_assoc, Nat.add_comm 1 j]

theorem nameIndex_lt {t : String} {names : List String} {k i : Nat} (h : nameIndex t k names = some i) :
    i < k + names.length := by
  induction names generalizing k with
  | nil => cases h
  | cons n rest ih =>
    rw [nameIndex] at h
    split at h
    · cases h
      exact Nat.lt_add_of_pos_right (Nat.succ_pos _)
    · have := ih h
      rw [List.length_cons]
      omega

theorem asmCoef_getElem {t : String} {i : Nat} (h : coefForms[i]? = some t) : asmCoef t = some i := by
  rw [asmCoef, nameIndex_getElem (by decide) h, Nat.zero_add]

theorem asmPos_getElem {t : String} {p : Nat} (h : posNames[p]? = some t) : asmPos t = some p := by
  rw [asmPos, nameIndex_getElem (by decide) h, Nat.zero_add, Option.some_or]

theorem asmMisc_getElem {t : String} {b : Nat} (h : miscNames[b]? = some t) : asmMisc t = some b := by
  rw [asmMisc, nameIndex_getElem (by decide) h, Nat.zero_add, Option.some_or]

theorem asmCoef_lt {t : String} {i : Nat} (h : asmCoef t = some i) : i < 4 := by simpa [coefForms] using nameIndex_lt h

theorem asmPos_lt {t : String} {p : Nat} (h : asmPos t = some p) : p < Config.nDig := by
  rcases Option.or_eq_some_iff.mp h with h | ⟨-, h⟩
  · simpa [posNames] using nameIndex_lt h
  · simpa [posForms] using nameIndex_lt h

theorem asmMisc_lt {t : String} {b : Nat} (h : asmMisc t = some b) : b < Config.nMisc := by
  rcases Option.or_eq_some_iff.mp h with h | ⟨-, h⟩
  · simpa [miscNames] using nameIndex_lt h
  · simpa [miscForms] using nameIndex_lt h

/-- The text of an operation names its operand, and the assembler finds the operand by that name. -/
theorem assemble_asmText {i : Instr} {text : List String} (h : asmText i = some text) :
    ∃ w, assemble text = some w ∧ encode i = .rom w := by
  cases i with
  | idle | pend | min1 | min2 => cases h; exact ⟨_, rfl, rfl⟩
  | coef n | coefg n | coefz n =>
    obtain ⟨t, ht, rfl⟩ := Option.map_eq_some_iff.mp h
    exact ⟨_, by simp [assemble, asmCoef_getElem ht], rfl⟩
  | decim n | mscd n =>
    obtain ⟨t, ht, rfl⟩ := Option.map_eq_some_iff.mp h
    exact ⟨_, by simp [assemble, asmPos_getElem ht], rfl⟩
  | msc n | mscq n =>
    obtain ⟨t, ht, rfl⟩ := Option.map_eq_some_iff.mp h
    exact ⟨_, by simp [assemble, asmMisc_getElem ht], rfl⟩
  | _ => cases h

/-- The word of a mnemonic whose operand form gives only well-formed operations is legal. -/
theorem legalWord_of_operand {o : Option Nat} {op : Nat} {w : BitVec 8} (mnemonic : Nat → Instr)
    (h : o.map (romWord op) = some w) (hwf : ∀ n, o = some n → (mnemonic n).wellFormed = true)
    (henc : ∀ n, encode (mnemonic n) = .rom (romWord op n)) (hne : ∀ n v, mnemonic n ≠ .reserved v) :
    legalWord w = true := by
  obtain ⟨n, hn, rfl⟩ := Option.map_eq_some_iff.mp h
  exact legalWord_of_encode (hwf n hn) (henc n) (hne n _)

/-- A reserved combination is refused (R107). -/
theorem legalWord_of_assemble {text : List String} {w : BitVec 8} (h : assemble text = some w) :
    legalWord w = true := by
  unfold assemble at h
  split at h
  · split_ifs at h <;> cases h <;> rfl
  · next m t =>
    split_ifs at h
    · exact legalWord_of_operand .coef h (fun _ hn => decide_eq_true (asmCoef_lt hn)) (fun _ => rfl) nofun
    · exact legalWord_of_operand .coefg h (fun _ hn => decide_eq_true (asmCoef_lt hn)) (fun _ => rfl) nofun
    · exact legalWord_of_operand .coefz h (fun _ hn => decide_eq_true (asmCoef_lt hn)) (fun _ => rfl) nofun
    · exact legalWord_of_operand .decim h (fun _ hn => decide_eq_true (asmPos_lt hn)) (fun _ => rfl) nofun
    · exact legalWord_of_operand .msc h (fun _ hn => decide_eq_true (asmMisc_lt hn)) (fun _ => rfl) nofun
    · exact legalWord_of_operand .mscd h (fun _ hn => decide_eq_true (asmPos_lt hn)) (fun _ => rfl) nofun
    · exact legalWord_of_operand .mscq h (fun _ hn => decide_eq_true (asmMisc_lt hn)) (fun _ => rfl) nofun
  · cases h

/-- Settles O3: a text gives the word of its operation, and every text that gives a word gives that of a well-formed
operation. -/
theorem assemblerAgreesWithTheEncoding : Obligations.AssemblerAgreesWithTheEncoding :=
  ⟨fun _ _ _ => assemble_asmText, fun _ _ => legalWord_of_assemble, by decide, by decide⟩

end Sys2Proof
end

section
/-! PROOF. Reserved words (30_encoding.md R108): the fault one takes, alone and inside a receiver second, and that no
other word and no other rule takes it, so that it never arises with the fixed ROM (R103). -/

namespace Sys2Proof.Machine

/-! The fault of a reserved word. -/

theorem exec_of_not_legal {w : BitVec 8} (h : legalWord w = false) (s : State) :
    exec (decodeRom w) s = .next (takeFault s (.reservedWord s.dec.rsec)) := by
  rw [decodeRom_of_not_legal h]
  rfl

@[simp] theorem countErasure_rsec (s : State) : (countErasure s).dec.rsec = s.dec.rsec := by
  rcases countErasure_cases s with h | ⟨_, h | h⟩ <;> rw [h] <;> rfl

theorem fetchWord_countErasure (s : State) : fetchWord (countErasure s) = fetchWord s := by
  rw [fetchWord, countErasure_rsec, (countErasure_kept s).prog, fetchWord]

/-- A receiver second runs the word it fetches, between the count of an erasure and the advance (43_bcd_decoder.md
R200). -/
theorem receiverSecond_of_word {s : State} {w : BitVec 8} (hw : s.prog[s.dec.rsec]? = some w) :
    receiverSecond s = romAction (decodeRom w) (countErasure s) >>= fun t => .ok (rsecAdvance t) := by
  rw [receiverSecond, fetchWord_countErasure, fetchWord_ok.mpr hw]
  rfl

/-- The count of an erasure before the fetch is not committed (60_exceptions.md R260). -/
theorem exec_rsec_of_not_legal {s : State} {w : BitVec 8} (hw : s.prog[s.dec.rsec]? = some w)
    (h : legalWord w = false) : exec .rsec s = .next (takeFault s (.reservedWord s.dec.rsec)) := by
  have hrec : receiverSecond s = .error (.reservedWord (countErasure s).dec.rsec) := by
    rw [receiverSecond_of_word hw, decodeRom_of_not_legal h]
    rfl
  rw [countErasure_rsec] at hrec
  exact congrArg (commit s) hrec

/-- A faulted core ignores every strobe (70_reset_and_hazards.md R285). -/
theorem step_of_faulted {s : State} {f : Fault} (hf : s.fault = some f) (hr : s.pins.reset = false) :
    step s = .next s.nextCycle := by
  have hop : exec .sample s = .next s := by
    change execSample s = _
    rw [execSample, hf]
  unfold step currentOp
  cases s.pins.strobe
  · simp [hr]
  · simp [hr, hop, finishCycle]

/-! The fixed ROM (R103). -/

theorem progRom_legal : ∀ w ∈ progRom, legalWord w = true := by decide

theorem progRom_getElem {i : Nat} (hi : i < Config.nProg) : ∃ w, progRom[i]? = some w ∧ legalWord w = true := by
  have hlen : i < progRom.length := hi
  exact ⟨progRom[i], List.getElem?_eq_getElem hlen, progRom_legal _ (List.getElem_mem hlen)⟩

/-- Settles O8: a word that is not legal is executed as its reserved operation, whose rule is the fault alone. -/
theorem reservedWordFaults : Obligations.ReservedWordFaults :=
  ⟨legalWord_eq_false_iff, fun _ => progRom_getElem, fun s _ h => exec_of_not_legal h s,
    fun _ _ => exec_rsec_of_not_legal, fun _ _ => step_of_faulted⟩

/-! No other rule takes the fault. -/

/-- The result of a rule is not the model fault ReservedWord. -/
def NoReservedFault {α : Type} (r : Res α) : Prop := ∀ n, r ≠ .error (.reservedWord n)

section
variable {α β : Type}

theorem NoReservedFault.ok (a : α) : NoReservedFault (.ok a) := nofun

theorem NoReservedFault.indexRange : NoReservedFault (.error .indexRange : Res α) := nofun

theorem NoReservedFault.bind {x : Res α} {f : α → Res β} (hx : NoReservedFault x)
    (hf : ∀ a, x = .ok a → NoReservedFault (f a)) : NoReservedFault (x >>= f) := by
  cases x with
  | ok a => exact hf a rfl
  | error e => exact fun n h => hx n (congrArg Except.error (Except.error.inj h))

/-- What follows a rule need not know its answer where it never takes the fault. -/
theorem NoReservedFault.seq {x : Res α} {f : α → Res β} (hx : NoReservedFault x) (hf : ∀ a, NoReservedFault (f a)) :
    NoReservedFault (x >>= f) := hx.bind fun a _ => hf a

theorem NoReservedFault.map {x : Res α} (hx : NoReservedFault x) (f : α → β) : NoReservedFault (x.map f) := by
  cases x with
  | ok a => exact .ok (f a)
  | error e => exact fun n h => hx n (congrArg Except.error (Except.error.inj h))

end

theorem runIf_noReservedFault {c : Bool} {rule : State → Res State} {s : State} (h : NoReservedFault (rule s)) :
    NoReservedFault (runIf c rule s) := by
  cases c
  · exact .ok s
  · exact h

/-! The checks and the accesses. -/

theorem finite_noReservedFault (v : F64) : NoReservedFault (finite v) := by
  unfold finite
  split
  · exact .ok v
  · exact nofun

theorem arrRead_noReservedFault (n : Nat) (a : RealArray) (i : Nat) : NoReservedFault (arrRead n a i) :=
  fun _ h => nomatch (arrRead_error.mp h).2

theorem arrWrite_noReservedFault (n : Nat) (a : RealArray) (i : Nat) (v : F64) : NoReservedFault (arrWrite n a i v) :=
  fun _ h => nomatch (arrWrite_error.mp h).2

theorem boxcar_noReservedFault (n : Nat) (buf : RealArray) (sum : F64) (i : Nat) (v : F64) :
    NoReservedFault (boxcar n buf sum i v) :=
  (arrRead_noReservedFault n buf i).seq fun _ => (finite_noReservedFault _).seq fun _ =>
    (arrWrite_noReservedFault n buf i v).seq fun _ => .ok _

theorem sinRead_noReservedFault (i : Nat) : NoReservedFault (sinRead i) := by
  unfold sinRead
  split
  · exact .ok _
  · exact .indexRange

section
variable (s : State)

theorem fetchWord_noReservedFault : NoReservedFault (fetchWord s) := by
  unfold fetchWord
  split
  · exact .ok _
  · exact .indexRange

theorem readDigit_noReservedFault (p : Nat) : NoReservedFault (readDigit s p) := by
  unfold readDigit
  split
  · split
    · exact .ok _
    · exact .indexRange
  · exact .indexRange

theorem readChan_noReservedFault (f : Nat) : NoReservedFault (readChan s f) := by
  unfold readChan
  split
  · exact .ok _
  · exact .indexRange

theorem selDelay_noReservedFault : NoReservedFault (selDelay s) := by
  unfold selDelay
  split
  · exact .ok _
  · exact .indexRange

end

/-! The demodulator and the signal part of a sample step. -/

theorem filterStep_noReservedFault (b : Config.CoefB) (a : Config.CoefA) (w : Delay4) (x : F64) :
    NoReservedFault (filterStep b a w x) :=
  (finite_noReservedFault _).seq fun _ => (finite_noReservedFault _).seq fun _ => .ok _

theorem refLookup_noReservedFault (b : Bank) : NoReservedFault (refLookup b) :=
  (sinRead_noReservedFault _).seq fun _ => (sinRead_noReservedFault _).seq fun _ =>
    (sinRead_noReservedFault _).seq fun _ => (sinRead_noReservedFault _).seq fun _ =>
    (sinRead_noReservedFault _).seq fun _ => (sinRead_noReservedFault _).seq fun _ => .ok _

theorem dataDetect_noReservedFault (r : Refs) (lp : F64) (b : Bank) : NoReservedFault (dataDetect r lp b) :=
  (boxcar_noReservedFault _ _ _ _ _).seq fun _ => (boxcar_noReservedFault _ _ _ _ _).seq fun _ =>
    (finite_noReservedFault _).seq fun _ => .ok _

theorem tickDetect_noReservedFault (st : Station) (r : Refs) (bp : F64) (b : Bank) :
    NoReservedFault (tickDetect st r bp b) :=
  (boxcar_noReservedFault _ _ _ _ _).seq fun _ => (boxcar_noReservedFault _ _ _ _ _).seq fun _ =>
    (finite_noReservedFault _).seq fun _ => .ok _

theorem minuteDetect_noReservedFault (st : Station) (r : Refs) (bp : F64) (b : Bank) :
    NoReservedFault (minuteDetect st r bp b) :=
  (boxcar_noReservedFault _ _ _ _ _).seq fun _ => (boxcar_noReservedFault _ _ _ _ _).seq fun _ =>
    (finite_noReservedFault _).seq fun _ => .ok _

theorem demodUpdate_noReservedFault (cfg : Config.Cfg) (sel : Sel) (x : F64) (b : Bank) :
    NoReservedFault (demodUpdate cfg sel x b) :=
  (finite_noReservedFault x).seq fun _ => (filterStep_noReservedFault _ _ _ _).seq fun _ =>
    (filterStep_noReservedFault _ _ _ _).seq fun _ => (refLookup_noReservedFault b).seq fun _ =>
    (dataDetect_noReservedFault _ _ _).seq fun _ => (tickDetect_noReservedFault .a _ _ _).seq fun _ =>
    (tickDetect_noReservedFault .b _ _ _).seq fun _ => (minuteDetect_noReservedFault .a _ _ _).seq fun _ =>
    (minuteDetect_noReservedFault .b _ _ _).seq fun _ => .ok _

section
variable (s : State)

theorem envelopeWrite_noReservedFault (e : F64) : NoReservedFault (envelopeWrite e s) :=
  (arrWrite_noReservedFault _ _ _ _).seq fun _ => .ok _

theorem scanAdd_noReservedFault (em : F64) (q : Nat) (m : Scan) : NoReservedFault (scanAdd em q m) :=
  (finite_noReservedFault _).seq fun _ => .ok _

theorem scanAccumulate_noReservedFault (em : ByStation F64) : NoReservedFault (scanAccumulate em s) := by
  unfold scanAccumulate
  split
  · exact .ok s
  · exact (scanAdd_noReservedFault _ _ _).seq fun _ => (scanAdd_noReservedFault _ _ _).seq fun _ => .ok _

theorem combUpdate_noReservedFault (e : F64) : NoReservedFault (combUpdate e s) :=
  (arrRead_noReservedFault _ _ _).seq fun _ => (finite_noReservedFault _).seq fun _ =>
    (arrWrite_noReservedFault _ _ _ _).seq fun _ => .ok _

theorem signalStep_noReservedFault : NoReservedFault (signalStep s) :=
  (demodUpdate_noReservedFault _ _ _ _).seq fun _ => (envelopeWrite_noReservedFault _ _).seq fun _ =>
    (scanAccumulate_noReservedFault _ _).seq fun _ => combUpdate_noReservedFault _ _

/-! The raw second and the raw minute. -/

theorem latchOffsets_noReservedFault : NoReservedFault (latchOffsets s) :=
  (selDelay_noReservedFault s).seq fun _ => .ok _

theorem epochUpdate_noReservedFault : NoReservedFault (epochUpdate s) := by
  unfold epochUpdate
  dsimp only
  split
  · exact .ok _
  · split
    · exact latchOffsets_noReservedFault _
    · exact .ok _

theorem frequencyUpdate_noReservedFault (d : Int) : NoReservedFault (frequencyUpdate d s) := by
  unfold frequencyUpdate
  split
  · exact (finite_noReservedFault _).map _
  · exact .ok s

theorem intervalStep_noReservedFault : NoReservedFault (intervalStep s) := by
  unfold intervalStep
  dsimp only
  split
  · exact (frequencyUpdate_noReservedFault _ _).seq fun _ => .ok _
  · exact .ok _

theorem measure_noReservedFault (m : Scan) (c : ChanRec) : NoReservedFault (measure m c) :=
  (finite_noReservedFault _).seq fun _ => (finite_noReservedFault _).seq fun _ => .ok _

theorem updateChan_noReservedFault (down : Nat → Nat) (st : Station) : NoReservedFault (updateChan down st s) :=
  (readChan_noReservedFault s _).seq fun _ => (measure_noReservedFault _ _).seq fun _ => .ok _

theorem acquisition_noReservedFault : NoReservedFault (acquisition s) :=
  (updateChan_noReservedFault s _ .a).seq fun _ => (updateChan_noReservedFault _ _ .b).seq fun _ =>
    (readChan_noReservedFault _ _).seq fun _ => .ok _

theorem rawMinute_noReservedFault : NoReservedFault (rawMinute s) :=
  (runIf_noReservedFault ((acquisition_noReservedFault s).map scanReset)).seq fun _ => .ok _

theorem rawSecond_noReservedFault : NoReservedFault (rawSecond s) :=
  (epochUpdate_noReservedFault _).seq fun _ => (intervalStep_noReservedFault _).seq fun _ =>
    runIf_noReservedFault (rawMinute_noReservedFault _)

/-! The transmitter second. -/

theorem clockFields_noReservedFault : NoReservedFault (clockFields s) := by
  have hd (p : Nat) : NoReservedFault (readDigit s p) := readDigit_noReservedFault s p
  exact (hd 0).seq fun _ => (hd 1).seq fun _ => (hd 2).seq fun _ => (hd 3).seq fun _ => (hd 4).seq fun _ =>
    (hd 5).seq fun _ => (hd 6).seq fun _ => (hd 7).seq fun _ => (hd 8).seq fun _ => .ok _

theorem tsecNext_noReservedFault : NoReservedFault (tsecNext s) := by
  unfold tsecNext
  split_ifs
  · exact ((clockFields_noReservedFault s).map _).map _
  · exact .ok _
  · exact .ok _

theorem carry_noReservedFault (p : Nat) : NoReservedFault (carry p s) :=
  (readDigit_noReservedFault s p).seq fun _ => .ok _

theorem carryChain_noReservedFault (l : List Nat) (c : Bool) : NoReservedFault (carryChain l c s) := by
  induction l generalizing c s with
  | nil => exact .ok s
  | cons p rest ih =>
    unfold carryChain
    split
    · exact (carry_noReservedFault s p).seq fun (t, c') => ih t c'
    · exact .ok s

theorem transmitterSecond_noReservedFault : NoReservedFault (transmitterSecond s) :=
  (tsecNext_noReservedFault s).seq fun t => runIf_noReservedFault <|
    (carry_noReservedFault t 0).seq fun _ => carryChain_noReservedFault _ _ _

/-! The ROM actions. -/

theorem channelErrors_noReservedFault (both : Bool) : NoReservedFault (channelErrors both s) := by
  unfold channelErrors
  split
  · exact .indexRange
  · exact .ok _

theorem bestChannel_noReservedFault (l : List (Nat × Station)) (best : Option (Nat × Station × Nat)) :
    NoReservedFault (bestChannel s l best) := by
  induction l generalizing best with
  | nil => exact .ok best
  | cons c rest ih => exact (readChan_noReservedFault s c.1).seq fun _ => ih _

theorem endOfRotation_noReservedFault : NoReservedFault (endOfRotation s) := by
  unfold endOfRotation
  split
  · exact (bestChannel_noReservedFault s _ _).map _
  · exact .ok s

theorem probeClose_noReservedFault : NoReservedFault (probeClose s) :=
  (updateChan_noReservedFault _ _ .a).seq fun _ => (updateChan_noReservedFault _ _ .b).seq fun _ =>
    (channelErrors_noReservedFault _ _).seq fun _ => (endOfRotation_noReservedFault _).seq fun _ => .ok _

theorem compareCount_noReservedFault : NoReservedFault (compareCount s) := by
  unfold compareCount
  split
  · exact .ok 0
  · exact (readChan_noReservedFault s _).map _
  · exact (readChan_noReservedFault s _).map _
  · exact .indexRange

theorem timeRecord_noReservedFault : NoReservedFault (timeRecord s) :=
  (clockFields_noReservedFault s).seq fun _ => (compareCount_noReservedFault s).seq fun _ => .ok _

theorem minuteEnd_noReservedFault : NoReservedFault (minuteEnd s) := by
  have hrec (t : State) : NoReservedFault (emitRecord t) := (timeRecord_noReservedFault t).seq fun _ => .ok _
  exact (hrec _).seq fun _ => .ok _

theorem minuteOne_noReservedFault : NoReservedFault (minuteOne s) := by
  unfold minuteOne
  split
  · exact .ok s
  · exact minuteEnd_noReservedFault s

theorem storeBcd_noReservedFault (i : Nat) (v : F64) : NoReservedFault (storeBcd i v s) :=
  (arrWrite_noReservedFault _ _ _ _).seq fun _ => .ok _

theorem smoothLikes_noReservedFault (cfg : Config.Cfg) (bcd a : RealArray) (r : Nat) :
    NoReservedFault (smoothLikes cfg bcd r a) := by
  induction r with
  | zero => exact .ok a
  | succ d ih => exact ih.seq fun _ => (finite_noReservedFault _).seq fun _ => .ok _

theorem decimAction_noReservedFault (p : Nat) : NoReservedFault (decimAction p s) :=
  (readDigit_noReservedFault s p).seq fun _ => (smoothLikes_noReservedFault _ _ _ _).seq fun _ => .ok _

theorem miscUpdate_noReservedFault (b : Nat) : NoReservedFault (miscUpdate b s) :=
  (arrRead_noReservedFault _ _ _).seq fun _ => (finite_noReservedFault _).seq fun _ =>
    (arrWrite_noReservedFault _ _ _ _).seq fun _ => .ok _

/-- Of the operations a word decodes to, only the reserved one takes the fault. -/
theorem romAction_noReservedFault {w : BitVec 8} (h : legalWord w = true) :
    NoReservedFault (romAction (decodeRom w) s) := by
  have hrom := decodeRom_isRom w
  have hlegal (v : BitVec 8) : decodeRom w ≠ .reserved v := fun e => by
    have hv := encode_decodeRom w
    rw [e, encode, CodeWord.rom.injEq] at hv
    rw [(legalWord_eq_false_iff w).mpr (hv ▸ e)] at h
    cases h
  cases e : decodeRom w with
  | idle => exact .ok s
  | coef i | coefg i | coefz i => exact storeBcd_noReservedFault s i _
  | decim p => exact decimAction_noReservedFault s p
  | msc b => exact miscUpdate_noReservedFault s b
  | mscd p => exact (decimAction_noReservedFault s p).seq fun t => miscUpdate_noReservedFault t _
  | mscq b => exact (miscUpdate_noReservedFault s b).map _
  | pend => exact probeClose_noReservedFault s
  | min1 => exact minuteOne_noReservedFault s
  | min2 => exact (minuteEnd_noReservedFault s).map _
  | reserved v => exact absurd e (hlegal v)
  | _ => rw [e] at hrom; cases hrom

end

/-! The step with the fixed ROM. -/

section
variable {s : State} (hs : s.prog = progRom)
include hs

theorem receiverSecond_noReservedFault : NoReservedFault (receiverSecond s) := by
  refine (fetchWord_noReservedFault _).bind fun w hw => ?_
  rw [fetchWord_countErasure, fetchWord_ok, hs] at hw
  exact (romAction_noReservedFault _ (progRom_legal w (List.mem_of_getElem? hw))).seq fun _ => .ok _

/-- No rule before the receiver second writes the ROM. -/
theorem eventStep_noReservedFault (a : Advance) (m0 : Bool) (t0 r0 : Nat) :
    NoReservedFault (eventStep a m0 t0 r0 s) := by
  refine (runIf_noReservedFault (rawSecond_noReservedFault s)).bind fun u hu => ?_
  refine (runIf_noReservedFault (transmitterSecond_noReservedFault u)).bind fun v hv => ?_
  have hk := (runIf_kept (fun _ _ => rawSecond_kept) hu).trans (runIf_kept (fun _ _ => transmitterSecond_kept) hv)
  exact runIf_noReservedFault (receiverSecond_noReservedFault (hk.prog.trans hs))

theorem sampleStep_noReservedFault : NoReservedFault (sampleStep s) := by
  refine (signalStep_noReservedFault s).bind fun u hu => ?_
  have hu : (clockStep u).prog = progRom := (signalStep_kept hu).prog.trans hs
  exact (eventStep_noReservedFault hu _ _ _ _).seq fun _ => .ok _

end

/-- Settles O11: only a faulting sample step writes the fault register, and with the fixed ROM the words it executes are
legal. -/
theorem fixedRomNeverTakesReservedWord : Obligations.FixedRomNeverTakesReservedWord := by
  intro s t n hs hf ht
  rcases step_next ht with ⟨-, -, rfl⟩ | ⟨-, -, rfl⟩ | ⟨-, -, hf', -⟩ | ⟨-, -, -, u, hu, rfl⟩ | ⟨-, -, -, f, he, rfl⟩
  · rw [nextCycle_fault, hf]; exact nofun
  · exact nofun
  · exact absurd hf hf'
  · rw [nextCycle_fault, (sampleStep_kept hu).fault, hf]; exact nofun
  · intro e
    cases e
    exact sampleStep_noReservedFault hs n he

end Sys2Proof.Machine
end

section
/-! PROOF. The demodulator update (40_demodulator_bank.md R120 to R131): each of its rules answers a written-out value
where the values it computes are finite, and takes the fault NonFinite where one is not. -/

namespace Sys2Proof.Machine

/-! Rules that check their values. -/

/-- A rule that answers `a` where `P` holds and takes the fault NonFinite where it does not (R131). -/
structure Checks {α : Type} (r : Res α) (P : Prop) (a : α) : Prop where
  ok : P → r = .ok a
  fault : ¬P → r = .error .nonFinite

section
variable {α β : Type} {r : Res α} {f : α → Res β} {P Q : Prop} {a : α} {b : β}

/-- What a rule that checks its values can answer. -/
theorem Checks.ok_iff (h : Checks r P a) {c : α} : r = .ok c ↔ P ∧ c = a := by
  by_cases hp : P
  · rw [h.ok hp]
    exact ⟨fun e => ⟨hp, (Except.ok.inj e).symm⟩, fun e => by rw [e.2]⟩
  · rw [h.fault hp]
    exact ⟨nofun, fun e => absurd e.1 hp⟩

theorem Checks.noIndexFault (h : Checks r P a) : NoIndexFault r := by
  by_cases hp : P
  · rw [h.ok hp]; exact .ok a
  · rw [h.fault hp]; exact nofun

theorem Checks.of_iff (h : Checks r P a) (hpq : P ↔ Q) : Checks r Q a := ⟨h.ok ∘ hpq.mpr, h.fault ∘ mt hpq.mp⟩

/-- Rules in turn check the values of both. -/
theorem Checks.bind (hr : Checks r P a) (hf : Checks (f a) Q b) : Checks (r >>= f) (P ∧ Q) b where
  ok h := by rw [hr.ok h.1]; exact hf.ok h.2
  fault h := by
    by_cases hp : P
    · rw [hr.ok hp]; exact hf.fault fun hq => h ⟨hp, hq⟩
    · rw [hr.fault hp]; rfl

/-- What follows the last check only computes the answer. -/
theorem Checks.last (hr : Checks r P a) (hf : f a = .ok b) : Checks (r >>= f) P b where
  ok h := by rw [hr.ok h]; exact hf
  fault h := by rw [hr.fault h]; rfl

/-- A rule that always answers checks nothing. -/
theorem Checks.after (hr : r = .ok a) (hf : Checks (f a) Q b) : Checks (r >>= f) Q b := by
  rw [hr]
  exact hf

end

theorem finite_checks (v : F64) : Checks (finite v) (v.isFinite = true) v := by
  unfold finite
  exact ⟨fun h => if_pos h, fun h => if_neg h⟩

/-- A delay line access inside the line (20_memory.md R94). -/
theorem boxcar_checks {n i : Nat} (hi : i < n) (buf : RealArray) (sum v : F64) :
    Checks (boxcar n buf sum i v) ((slideSum buf sum i v).isFinite = true) (buf.put i v, slideSum buf sum i v) := by
  have hread : arrRead n buf i = .ok (buf.get i) := arrRead_ok.mpr ⟨hi, rfl⟩
  have hwrite : arrWrite n buf i v = .ok (buf.put i v) := arrWrite_ok.mpr ⟨hi, rfl⟩
  exact .after hread <| (finite_checks _).last (by rw [hwrite]; rfl)

/-- A filter step (R122, R123). -/
theorem filterStep_checks (cb : Config.CoefB) (ca : Config.CoefA) (w : Delay4) (x : F64) :
    Checks (filterStep cb ca w x)
      ((filterIn ca w x).isFinite = true ∧ (filterOut cb w (filterIn ca w x)).isFinite = true)
      (filterOut cb w (filterIn ca w x), ⟨filterIn ca w x, w.w1, w.w2, w.w3⟩) :=
  (finite_checks _).bind ((finite_checks _).last rfl)

/-! The references. -/

/-- The six reference values that an update looks up (R124). -/
def Bank.refs (b : Bank) : Refs where
  s100 := sinAt b.ph100
  c100 := sinAt ((b.ph100 + 20) % 80)
  s := ⟨b.sinRef .a, b.sinRef .b⟩
  c := ⟨b.cosRef .a, b.cosRef .b⟩

theorem sinRead_of_lt {i : Nat} (hi : i < Config.nSin) : sinRead i = .ok (sinAt i) := by
  have hlen : i < sintab.length := hi
  rw [sinRead_ok, sinAt, List.getD_eq_getElem?_getD, List.getElem?_eq_getElem hlen, Option.getD_some]

theorem refLookup_of_inRange {b : Bank} (hb : b.InRange) : refLookup b = .ok b.refs := by
  obtain ⟨h100, h1000, h1200, -⟩ := hb
  have hsin {i : Nat} (hi : i < Config.nStep) : sinRead i = .ok (sinAt i) := sinRead_of_lt (Nat.lt_succ_of_lt hi)
  have hcos (i : Nat) : sinRead ((i + 20) % Config.nStep) = .ok (sinAt ((i + 20) % 80)) :=
    hsin (Nat.mod_lt _ (by decide))
  unfold refLookup
  rw [hsin h100, hsin h1000, hsin h1200, hcos, hcos, hcos]
  rfl

/-! The detectors. -/

section
variable {b : Bank}

/-- The data detector and the data envelope (R125, R126). -/
theorem dataDetect_checks (hi : b.di < Config.datSiz) (r : Refs) (lp : F64) :
    let sumI := slideSum b.dIBuf b.dISum b.di (lp.mul r.s100)
    let sumQ := slideSum b.dQBuf b.dQSum b.di (lp.mul r.c100)
    Checks (dataDetect r lp b)
      (sumI.isFinite = true ∧ sumQ.isFinite = true ∧ (energy sumI sumQ).sqrt.isFinite = true)
      ((energy sumI sumQ).sqrt, { b with
        dIBuf := b.dIBuf.put b.di (lp.mul r.s100), dISum := sumI
        dQBuf := b.dQBuf.put b.di (lp.mul r.c100), dQSum := sumQ }) :=
  (boxcar_checks hi _ _ _).bind <| (boxcar_checks hi _ _ _).bind <| (finite_checks _).last rfl

/-- The tick matched filter of one station (R127). -/
theorem tickDetect_checks (hi : b.ti < Config.tckSiz) (st : Station) (r : Refs) (bp : F64) :
    let sumI := slideSum (b.tIBuf.get st) (b.tISum.get st) b.ti (bp.mul (r.s.get st))
    let sumQ := slideSum (b.tQBuf.get st) (b.tQSum.get st) b.ti (bp.mul (r.c.get st))
    Checks (tickDetect st r bp b)
      (sumI.isFinite = true ∧ sumQ.isFinite = true ∧ (energy sumI sumQ).isFinite = true)
      (energy sumI sumQ, { b with
        tIBuf := b.tIBuf.set st ((b.tIBuf.get st).put b.ti (bp.mul (r.s.get st))), tISum := b.tISum.set st sumI
        tQBuf := b.tQBuf.set st ((b.tQBuf.get st).put b.ti (bp.mul (r.c.get st))), tQSum := b.tQSum.set st sumQ }) :=
  (boxcar_checks hi _ _ _).bind <| (boxcar_checks hi _ _ _).bind <| (finite_checks _).last rfl

/-- The minute-sync detector of one station (R128). -/
theorem minuteDetect_checks (hi : b.mi < Config.synSiz) (st : Station) (r : Refs) (bp : F64) :
    let sumI := slideSum (b.mIBuf.get st) (b.mISum.get st) b.mi (bp.mul (r.s.get st))
    let sumQ := slideSum (b.mQBuf.get st) (b.mQSum.get st) b.mi (bp.mul (r.c.get st))
    Checks (minuteDetect st r bp b)
      (sumI.isFinite = true ∧ sumQ.isFinite = true ∧ (energy sumI sumQ).isFinite = true)
      (energy sumI sumQ, { b with
        mIBuf := b.mIBuf.set st ((b.mIBuf.get st).put b.mi (bp.mul (r.s.get st))), mISum := b.mISum.set st sumI
        mQBuf := b.mQBuf.set st ((b.mQBuf.get st).put b.mi (bp.mul (r.c.get st))), mQSum := b.mQSum.set st sumQ }) :=
  (boxcar_checks hi _ _ _).bind <| (boxcar_checks hi _ _ _).bind <| (finite_checks _).last rfl

end

/-! The update. -/

section
variable (cfg : Config.Cfg) (b : Bank) (x : F64)

/-- The outputs of an update (R129). -/
def Bank.outputs (sel : Sel) : DemodOut where
  eData := b.eData cfg x
  e5 := ⟨b.e5 cfg x .a, b.e5 cfg x .b⟩
  em := ⟨b.em cfg x .a, b.em cfg x .b⟩
  eSel := b.eSel cfg x sel

/-- The delay lines of both stations, the element at the index of each replaced by the product with its reference. -/
def fedLines (bufs : ByStation RealArray) (i : Nat) (v : F64) (refs : ByStation F64) : ByStation RealArray :=
  ⟨bufs.a.put i (v.mul refs.a), bufs.b.put i (v.mul refs.b)⟩

/-- The bank after an update (R122 to R128, R130). -/
def Bank.updated : Bank :=
  advanceIndices { b with
    lpfW := ⟨filterIn cfg.lpfA b.lpfW x, b.lpfW.w1, b.lpfW.w2, b.lpfW.w3⟩
    bpfW := ⟨filterIn cfg.bpfA b.bpfW x, b.bpfW.w1, b.bpfW.w2, b.bpfW.w3⟩
    dIBuf := b.dIBuf.put b.di ((b.lp cfg x).mul b.refs.s100), dISum := b.dI cfg x
    dQBuf := b.dQBuf.put b.di ((b.lp cfg x).mul b.refs.c100), dQSum := b.dQ cfg x
    tIBuf := fedLines b.tIBuf b.ti (b.bp cfg x) b.refs.s, tISum := ⟨b.tI cfg x .a, b.tI cfg x .b⟩
    tQBuf := fedLines b.tQBuf b.ti (b.bp cfg x) b.refs.c, tQSum := ⟨b.tQ cfg x .a, b.tQ cfg x .b⟩
    mIBuf := fedLines b.mIBuf b.mi (b.bp cfg x) b.refs.s, mISum := ⟨b.mI cfg x .a, b.mI cfg x .b⟩
    mQBuf := fedLines b.mQBuf b.mi (b.bp cfg x) b.refs.c, mQSum := ⟨b.mQ cfg x .a, b.mQ cfg x .b⟩ }

/-- The checks of an update in the order of R130, detector by detector. -/
theorem Bank.finiteAt_iff : b.FiniteAt cfg x ↔
    x.isFinite = true ∧
    ((filterIn cfg.lpfA b.lpfW x).isFinite = true ∧ (b.lp cfg x).isFinite = true) ∧
    ((filterIn cfg.bpfA b.bpfW x).isFinite = true ∧ (b.bp cfg x).isFinite = true) ∧
    ((b.dI cfg x).isFinite = true ∧ (b.dQ cfg x).isFinite = true ∧ (b.eData cfg x).isFinite = true) ∧
    ((b.tI cfg x .a).isFinite = true ∧ (b.tQ cfg x .a).isFinite = true ∧ (b.e5 cfg x .a).isFinite = true) ∧
    ((b.tI cfg x .b).isFinite = true ∧ (b.tQ cfg x .b).isFinite = true ∧ (b.e5 cfg x .b).isFinite = true) ∧
    ((b.mI cfg x .a).isFinite = true ∧ (b.mQ cfg x .a).isFinite = true ∧ (b.em cfg x .a).isFinite = true) ∧
    ((b.mI cfg x .b).isFinite = true ∧ (b.mQ cfg x .b).isFinite = true ∧ (b.em cfg x .b).isFinite = true) := by
  constructor
  · intro h
    exact ⟨h.input, ⟨h.w0, h.lp⟩, ⟨h.v0, h.bp⟩, ⟨h.dI, h.dQ, h.eData⟩, ⟨h.tI _, h.tQ _, h.e5 _⟩,
      ⟨h.tI _, h.tQ _, h.e5 _⟩, ⟨h.mI _, h.mQ _, h.em _⟩, h.mI _, h.mQ _, h.em _⟩
  · rintro ⟨input, ⟨w0, lp⟩, ⟨v0, bp⟩, ⟨dI, dQ, eData⟩, ⟨tIa, tQa, e5a⟩, ⟨tIb, tQb, e5b⟩, ⟨mIa, mQa, ema⟩,
      mIb, mQb, emb⟩
    exact ⟨input, w0, lp, v0, bp, dI, dQ, eData, forall_station.mpr ⟨tIa, tIb⟩, forall_station.mpr ⟨tQa, tQb⟩,
      forall_station.mpr ⟨e5a, e5b⟩, forall_station.mpr ⟨mIa, mIb⟩, forall_station.mpr ⟨mQa, mQb⟩,
      forall_station.mpr ⟨ema, emb⟩⟩

variable {b}

/-- An update answers its outputs and the new bank exactly where all its values are finite (R130, R131). -/
theorem demodUpdate_checks (sel : Sel) (hb : b.InRange) :
    Checks (demodUpdate cfg sel x b) (b.FiniteAt cfg x) (b.outputs cfg x sel, b.updated cfg x) := by
  have href := refLookup_of_inRange hb
  obtain ⟨-, -, -, hdi, hti, hmi⟩ := hb
  refine Checks.of_iff ?_ (b.finiteAt_iff cfg x).symm
  refine (finite_checks x).bind <| (filterStep_checks _ _ _ _).bind <| (filterStep_checks _ _ _ _).bind <|
    .after href <| (dataDetect_checks ?_ _ _).bind <| (tickDetect_checks ?_ .a _ _).bind <|
    (tickDetect_checks ?_ .b _ _).bind <| (minuteDetect_checks ?_ .a _ _).bind <|
    (minuteDetect_checks ?_ .b _ _).last rfl
  exacts [hdi, hti, hti, hmi, hmi]

end

/-- A fed delay line holds the product at its index and its old elements elsewhere. -/
theorem fedLines_get {n : Nat} {bufs : ByStation RealArray} {st : Station} (h : (bufs.get st).wf n = true) (i : Nat)
    (v : F64) (refs : ByStation F64) (j : Nat) :
    ((fedLines bufs i v refs).get st).get j = if j = i then v.mul (refs.get st) else (bufs.get st).get j := by
  cases st <;> exact get_put h i j _

/-- Settles O30: the update completes with the outputs and the bank written out, and a fed delay line reads as it was
but for one element. -/
theorem demodulatorUpdate : Obligations.DemodulatorUpdate := by
  intro cfg sel x b hb hfin ⟨hdI, hdQ, hlines⟩
  have hrefs (st : Station) : b.refs.s.get st = b.sinRef st ∧ b.refs.c.get st = b.cosRef st := by
    cases st <;> exact ⟨rfl, rfl⟩
  refine ⟨_, _, (demodUpdate_checks cfg x sel hb).ok hfin, rfl, ?_, rfl, rfl, rfl, rfl, rfl,
    fun j => get_put hdI b.di j _, fun j => get_put hdQ b.di j _, ?_, ?_, ?_, ?_, ?_, rfl, rfl, rfl, rfl, rfl, rfl⟩
  · intro st; cases st <;> exact ⟨rfl, rfl⟩
  · intro st; cases st <;> exact ⟨rfl, rfl, rfl, rfl⟩
  all_goals intro st j; obtain ⟨htI, htQ, hmI, hmQ⟩ := hlines st; obtain ⟨hs, hc⟩ := hrefs st
  · exact hs ▸ fedLines_get htI b.ti _ b.refs.s j
  · exact hc ▸ fedLines_get htQ b.ti _ b.refs.c j
  · exact hs ▸ fedLines_get hmI b.mi _ b.refs.s j
  · exact hc ▸ fedLines_get hmQ b.mi _ b.refs.c j

end Sys2Proof.Machine
end

section
/-! PROOF. A filter with identity coefficients (40_demodulator_bank.md R122, R123): a product with 1.0 is exact, a
product with 0.0 is a zero, and adding or subtracting a zero changes at most the sign of a zero. -/

namespace Sys2Proof

/-! Exact results. -/

/-- A magnitude of the scale is its own rounding. -/
theorem F64.roundMag_magUnits {m den : Nat} (hd : 0 < den) (hm : m ≤ F64.infMag) :
    F64.roundMag (den * F64.magUnits m) den = m := by
  obtain ⟨M, ⟨hlow, hhigh⟩, h⟩ := F64.roundMag_cases (den * F64.magUnits m) hd
  have hle : M ≤ m := F64.magUnits_strictMono.le_iff_le.mp (Nat.le_of_mul_le_mul_left hlow hd)
  have hlt : m < M + 1 := F64.magUnits_strictMono.lt_iff_lt.mp (Nat.lt_of_mul_lt_mul_left hhigh)
  obtain rfl : m = M := by omega
  have hdown : ¬ F64.RoundsUp (den * F64.magUnits m) den m := by
    unfold F64.RoundsUp
    rw [Nat.mul_add]
    omega
  rcases h with ⟨hup, -⟩ | ⟨-, h⟩
  · exact absurd hup hdown
  · rw [h, Nat.min_eq_left hm]

/-- A value is packed from its own sign and its own magnitude. -/
theorem F64.pack_sign_mag (a : F64) : F64.pack a.sign a.mag = a := by
  have hm : a.mag < 2 ^ 63 := Nat.mod_lt _ (by decide)
  have hs : a.sign = decide (2 ^ 63 ≤ a.bits.toNat) := BitVec.msb_eq_decide a.bits
  suffices (F64.pack a.sign a.mag).bits = a.bits from congrArg F64.mk this
  apply BitVec.eq_of_toNat_eq
  rw [F64.toNat_pack _ hm, hs, F64.mag]
  have := a.bits.isLt
  by_cases h : 2 ^ 63 ≤ a.bits.toNat
  · simp only [h, decide_true, if_true]; omega
  · simp only [h, decide_false, Bool.false_eq_true, if_false]; omega

/-- The product of 1.0 and a finite value is the value. -/
theorem F64.one_mul {a : F64} (ha : a.isFinite = true) : Config.one.mul a = a := by
  have hunits : Config.one.units = 2 ^ 1074 := by decide +kernel
  have hone : Config.one.isFinite = true := by decide
  have hsign : Config.one.sign = false := by decide
  unfold F64.mul
  simp only [F64.not_isNaN_of_isFinite ha, F64.not_isNaN_of_isFinite hone, F64.not_isInf_of_isFinite ha,
    F64.not_isInf_of_isFinite hone, Bool.or_self, Bool.false_eq_true, if_false, hsign, hunits]
  rw [F64.units_eq_magUnits, F64.roundMag_magUnits (by positivity) (F64.isFinite_iff.mp ha).le, Bool.false_bne,
    F64.pack_sign_mag]

/-- The product of 0.0 and a finite value is a zero. -/
theorem F64.mag_zero_mul {a : F64} (ha : a.isFinite = true) : (F64.zero.mul a).mag = 0 := by
  have hunits : F64.zero.units = 0 := by decide
  have hzero : F64.zero.isFinite = true := by decide
  unfold F64.mul
  simp only [F64.not_isNaN_of_isFinite ha, F64.not_isNaN_of_isFinite hzero, F64.not_isInf_of_isFinite ha,
    F64.not_isInf_of_isFinite hzero, Bool.or_self, Bool.false_eq_true, if_false]
  rw [hunits, Nat.zero_mul, F64.roundMag_zero, F64.mag_pack _ (by decide)]

/-! Equality up to the sign of a zero. -/

/-- `a` is `x`, where a zero may have either sign. -/
structure F64.SameValue (a x : F64) : Prop where
  mag : a.mag = x.mag
  eq : x.mag ≠ 0 → a = x

theorem F64.SameValue.refl (x : F64) : F64.SameValue x x := ⟨rfl, fun _ => rfl⟩

/-- A sum with a zero keeps the magnitude, and the sign of what is not a zero. -/
theorem F64.add_zero_sameValue {a z : F64} (ha : a.isFinite = true) (hz : z.mag = 0) : (a.add z).SameValue a := by
  have hzfin : z.isFinite = true := F64.isFinite_iff.mpr (hz ▸ by decide)
  have hzint : z.toInt = 0 := Int.natAbs_eq_zero.mp ((F64.natAbs_toInt z).trans (F64.units_eq_zero_iff.mpr hz))
  have hround : F64.roundMag a.toInt.natAbs 1 = a.mag := by
    rw [F64.natAbs_toInt, F64.units_eq_magUnits, ← Nat.one_mul (F64.magUnits _)]
    exact F64.roundMag_magUnits Nat.one_pos (F64.isFinite_iff.mp ha).le
  rw [F64.add_of_finite ha hzfin, hzint, Int.add_zero, hround]
  refine ⟨F64.mag_pack _ (Nat.mod_lt _ (by decide)), fun h0 => ?_⟩
  have hint : a.toInt ≠ 0 := fun e => h0 (F64.units_eq_zero_iff.mp (by rw [← F64.natAbs_toInt, e]; rfl))
  have hsign : decide (a.toInt < 0) = a.sign := by rw [Bool.eq_iff_iff, decide_eq_true_eq, F64.toInt_neg_iff hint]
  rw [if_neg hint, hsign, F64.pack_sign_mag]

section
variable {a x z : F64} (hx : x.isFinite = true) (h : a.SameValue x)
include hx h

theorem F64.SameValue.isFinite : a.isFinite = true := by
  rw [F64.isFinite_iff, h.mag]
  exact F64.isFinite_iff.mp hx

theorem F64.SameValue.add_zero (hz : z.mag = 0) : (a.add z).SameValue x := by
  obtain ⟨hmag, heq⟩ := F64.add_zero_sameValue (h.isFinite hx) hz
  exact ⟨hmag.trans h.mag, fun h0 => (heq (h.mag ▸ h0)).trans (h.eq h0)⟩

theorem F64.SameValue.sub_zero (hz : z.mag = 0) : (a.sub z).SameValue x := by
  have hnan : z.isNaN = false := F64.isNaN_eq_false_iff.mpr (hz ▸ Nat.zero_le _)
  unfold F64.sub
  rw [hnan, if_neg Bool.false_ne_true]
  exact h.add_zero hx (by rw [F64.mag_neg, hz])

theorem F64.SameValue.feq : a.feq x = true := by
  have hkey : a.key = x.key := by
    by_cases h0 : x.mag = 0
    · simp [F64.key, h.mag, h0]
    · rw [h.eq h0]
  simp [F64.feq, F64.not_isNaN_of_isFinite hx, F64.not_isNaN_of_isFinite (h.isFinite hx), hkey]

end

/-- A value that does not compare equal to zero is no zero. -/
theorem F64.mag_ne_zero_of_feq {x : F64} (h : x.feq .zero = false) : x.mag ≠ 0 := by
  intro h0
  have hzero : F64.zero.isFinite = true := by decide
  have hsame : x.SameValue .zero := ⟨h0, fun hne => absurd rfl hne⟩
  exact Bool.false_ne_true (h.symm.trans (hsame.feq hzero))

namespace Machine

/-! The filter. -/

/-- Delay elements that are all finite. -/
structure Delay4.Finite (w : Delay4) : Prop where
  w1 : w.w1.isFinite = true
  w2 : w.w2.isFinite = true
  w3 : w.w3.isFinite = true
  w4 : w.w4.isFinite = true

section
variable {x : F64} {w : Delay4} (hx : x.isFinite = true) (hw : w.Finite)
include hx hw

theorem filterIn_identity : (filterIn Config.identityA w x).SameValue x :=
  F64.SameValue.refl x |>.sub_zero hx (F64.mag_zero_mul hw.w1) |>.sub_zero hx (F64.mag_zero_mul hw.w2)
    |>.sub_zero hx (F64.mag_zero_mul hw.w3) |>.sub_zero hx (F64.mag_zero_mul hw.w4)

theorem filterOut_identity {w0 : F64} (h0 : w0.SameValue x) : (filterOut Config.identityB w w0).SameValue x := by
  have h : (Config.one.mul w0).SameValue x := by rwa [F64.one_mul (h0.isFinite hx)]
  exact h.add_zero hx (F64.mag_zero_mul hw.w1) |>.add_zero hx (F64.mag_zero_mul hw.w2)
    |>.add_zero hx (F64.mag_zero_mul hw.w3) |>.add_zero hx (F64.mag_zero_mul hw.w4)

end

/-- Settles O29: with identity coefficients both halves of the filter give the sample up to the sign of a zero. -/
theorem identityFilterPassesTheSample : Obligations.IdentityFilterPassesTheSample := by
  intro x w hx h1 h2 h3 h4
  have hw : w.Finite := ⟨h1, h2, h3, h4⟩
  have hin := filterIn_identity hx hw
  have hout := filterOut_identity hx hw hin
  have hstep := (filterStep_checks _ _ w x).ok ⟨hin.isFinite hx, hout.isFinite hx⟩
  refine ⟨_, _, hstep, hout.feq hx, hin.feq hx, fun h0 => ?_⟩
  have hne := F64.mag_ne_zero_of_feq h0
  exact ⟨hout.eq hne, hin.eq hne⟩

end Machine

end Sys2Proof
end

section
/-! PROOF. Values that are not finite fault (40_demodulator_bank.md R131, 93_implementation_defined.md): a rule that
takes neither IndexRange nor ReservedWord, and that answers only where its values are finite, takes NonFinite where one
is not. What a rule can answer is in Laws/Ops.lean, which faults it does not take in the parts above. -/

namespace Sys2Proof.Machine

/-! How the fault arises and passes on. -/

section
variable {α β : Type}

/-- A rule that takes neither of the other faults and answers nothing takes NonFinite. -/
theorem nonFinite_of_not_ok {r : Res α} (hi : NoIndexFault r) (hr : NoReservedFault r) (hok : ∀ a, r ≠ .ok a) :
    r = .error .nonFinite := by
  cases r with
  | ok a => exact absurd rfl (hok a)
  | error f =>
    cases f with
    | reservedWord n => exact absurd rfl (hr n)
    | indexRange => exact absurd rfl hi
    | nonFinite => rfl

/-- A fault of a rule is the fault of all that follows it. -/
theorem res_bind_error {x : Res α} {f : α → Res β} {e : Fault} :
    (x >>= f) = .error e ↔ x = .error e ∨ ∃ a, x = .ok a ∧ f a = .error e := by
  cases x with
  | error e' => simp [bind, Except.bind]
  | ok a => simp [bind, Except.bind]

/-- A rule that can only take NonFinite passes that fault on, or leaves it to what follows its answer. -/
theorem bind_nonFinite {x : Res α} {f : α → Res β} (hi : NoIndexFault x) (hr : NoReservedFault x)
    (hf : ∀ a, x = .ok a → f a = .error .nonFinite) : (x >>= f) = .error .nonFinite := by
  rw [res_bind_error]
  by_cases hx : ∃ a, x = .ok a
  · obtain ⟨a, ha⟩ := hx
    exact .inr ⟨a, ha, hf a ha⟩
  · exact .inl (nonFinite_of_not_ok hi hr fun a ha => hx ⟨a, ha⟩)

theorem res_map_error {x : Res α} {e : Fault} (h : x = .error e) (f : α → β) : x.map f = .error e := by rw [h]; rfl

end

/-! The sample step. -/

section
variable {s t : State}

/-- A sample that is not finite ends the signal part of a step at its first check. -/
theorem signalStep_of_input (h : s.pins.x.isFinite = false) : signalStep s = .error .nonFinite :=
  have hcheck : finite s.pins.x = .error .nonFinite := (finite_checks _).fault (Bool.eq_false_iff.mp h)
  res_bind_error.mpr (.inl (res_bind_error.mpr (.inl hcheck)))

theorem sampleStep_of_signalStep (h : signalStep s = .error .nonFinite) : sampleStep s = .error .nonFinite :=
  res_bind_error.mpr (.inl h)

theorem exec_sample_of_fault {f : Fault} (hs : s.fault = none) (h : sampleStep s = .error f) :
    exec .sample s = .next (takeFault s f) := by
  simp only [exec, execSample, hs, h, commit]

/-- The scans accumulate without minute sync or in an open probe window (42_station_acquisition.md R176). -/
theorem scanPos_ne_none (h : s.msync = false ∨ s.acq.win = true) : scanPos s ≠ none := by
  unfold scanPos
  rcases h with h | h
  · simp [h]
  · cases hm : s.msync <;> simp [h]

/-- With the bank and the sample clock in range the signal part of a step forms no index outside an array. -/
theorem signalStep_noIndexFault_of_inRange (hb : s.bank.InRange) (hp : s.clock.rphase < Config.second) :
    NoIndexFault (signalStep s) := by
  refine (demodUpdate_checks s.cfg s.pins.x s.sel hb).noIndexFault.bind fun (o, bank) _ => ?_
  refine (envelopeWrite_noIndexFault _ _).bind fun u hu => (scanAccumulate_noIndexFault _ u).bind fun v hv => ?_
  have hclock : v.clock = s.clock := by
    obtain ⟨-, rfl⟩ := envelopeWrite_ok.mp hu
    rcases scanAccumulate_ok.mp hv with ⟨-, rfl⟩ | ⟨q, mA, mB, -, -, -, rfl⟩ <;> rfl
  have hp : v.clock.rphase < Config.second := hclock ▸ hp
  exact (arrRead_noIndexFault hp _).bind fun _ _ => (finite_noIndexFault _).bind fun _ _ =>
    (arrWrite_noIndexFault hp _ _).bind fun _ _ => .ok _

/-- The signal part of a step answers only where the update, the comb bin and the scan sums that accumulate are
finite. -/
theorem signalStep_finite (hb : s.bank.InRange) (h : signalStep s = .ok t) :
    s.bank.FiniteAt s.cfg s.pins.x ∧ s.combNext.isFinite = true ∧
      (s.msync = false ∨ s.acq.win = true →
        ∀ st, ((s.acq.ms.get st).esum.add (s.bank.em s.cfg s.pins.x st)).isFinite = true) := by
  obtain ⟨o, bank, u, v, hdemod, henv, hscan, hcomb⟩ := signalStep_ok.mp h
  obtain ⟨hfin, he⟩ := (demodUpdate_checks s.cfg s.pins.x s.sel hb).ok_iff.mp hdemod
  obtain ⟨rfl, rfl⟩ := Prod.mk.inj he
  obtain ⟨-, rfl⟩ := envelopeWrite_ok.mp henv
  obtain ⟨-, hv, -⟩ := combUpdate_ok.mp hcomb
  refine ⟨hfin, ?_⟩
  rcases scanAccumulate_ok.mp hscan with ⟨hnone, rfl⟩ | ⟨q, mA, mB, -, hA, hB, rfl⟩
  · exact ⟨hv, fun hacc => absurd hnone (scanPos_ne_none hacc)⟩
  · exact ⟨hv, fun _ => forall_station.mpr ⟨(scanAdd_ok.mp hA).1, (scanAdd_ok.mp hB).1⟩⟩

/-- A value of the signal part that is not finite faults the sample step. -/
theorem sampleStep_nonFinite (hb : s.bank.InRange) (hp : s.clock.rphase < Config.second)
    (h : ¬s.bank.FiniteAt s.cfg s.pins.x ∨ s.combNext.isFinite = false ∨
      ((s.msync = false ∨ s.acq.win = true) ∧
        ∃ st, ((s.acq.ms.get st).esum.add (s.bank.em s.cfg s.pins.x st)).isFinite = false)) :
    sampleStep s = .error .nonFinite := by
  refine sampleStep_of_signalStep (nonFinite_of_not_ok (signalStep_noIndexFault_of_inRange hb hp)
    (signalStep_noReservedFault s) fun t ht => ?_)
  obtain ⟨hfin, hcomb, hsums⟩ := signalStep_finite hb ht
  rcases h with h | h | ⟨hacc, st, h⟩
  · exact h hfin
  · exact Bool.false_ne_true (h.symm.trans hcomb)
  · exact Bool.false_ne_true (h.symm.trans (hsums hacc st))

end

/-! The raw second. -/

/-- At the end of an averaging interval a new frequency that is not finite faults (41_epoch_tracker_fll.md R158,
R160). -/
theorem intervalStep_nonFinite {s : State} (hsync : s.ssync = true) (hend : 2 ^ s.epoch.k ≤ s.epoch.avgcnt + 1)
    (h : (freqNext (driftOf s.epoch) s.epoch.k s.clock.freq).isFinite = false) :
    intervalStep s = .error .nonFinite := by
  refine nonFinite_of_not_ok (intervalStep_noIndexFault s) (intervalStep_noReservedFault s) fun t ht => ?_
  rcases intervalStep_ok.mp ht with ⟨-, hi⟩ | ⟨hne, -⟩
  · obtain ⟨u, hu, -⟩ := intervalEnd_ok.mp hi
    rcases frequencyUpdate_ok.mp hu with ⟨-, hf, -⟩ | ⟨hf, -⟩
    · exact Bool.false_ne_true (h.symm.trans hf)
    · exact Bool.false_ne_true (hf.symm.trans hsync)
  · exact hne hend

/-! The scored pulse. -/

section
variable {s : State} {pair : ByStation ChanRec} (hpair : s.acq.chan[s.acq.pchan]? = some pair)
include hpair

/-- The update of a channel record takes no fault but that of its measures. -/
theorem updateChan_noIndexFault_of_some (down : Nat → Nat) (st : Station) : NoIndexFault (updateChan down st s) := by
  unfold updateChan
  rw [readChan_ok.mpr hpair]
  exact (measure_noIndexFault _ _).bind fun _ _ => .ok _

/-- The update of one record leaves the scans, and there is a record at the same place after it. -/
theorem updateChan_keeps {down : Nat → Nat} {st : Station} {t : State} {pass : Bool}
    (h : updateChan down st s = .ok (t, pass)) :
    t.acq.ms = s.acq.ms ∧ ∃ pair', t.acq.chan[t.acq.pchan]? = some pair' := by
  obtain ⟨_, m, -, -, -, rfl⟩ := updateChan_ok.mp h
  exact ⟨rfl, by simp [writeChan, hpair]⟩

section
variable (h : ¬(s.acq.ms.a.Measurable ∧ s.acq.ms.b.Measurable))
include h

/-- Where a measure of one of the two scans is not finite, the update of station A's record faults, or that of station
B's after it (R178). -/
theorem updateChans_nonFinite {β : Type} {down : Nat → Nat} {f : State × Bool → Res β}
    (hf : ∀ t ok, updateChan down .b t = .error .nonFinite → f (t, ok) = .error .nonFinite) :
    (updateChan down .a s >>= f) = .error .nonFinite := by
  refine bind_nonFinite (updateChan_noIndexFault_of_some hpair _ _) (updateChan_noReservedFault s _ _)
    fun (t, okA) ht => ?_
  obtain ⟨hms, pair', hpair'⟩ := updateChan_keeps hpair ht
  refine hf t okA (nonFinite_of_not_ok (updateChan_noIndexFault_of_some hpair' _ _) (updateChan_noReservedFault t _ _)
    fun (u, okB) hu => h ⟨?_, ?_⟩)
  · obtain ⟨_, m, -, hm, -⟩ := updateChan_ok.mp ht
    exact (measure_ok.mp hm).1
  · obtain ⟨_, m, -, hm, -⟩ := updateChan_ok.mp hu
    exact hms ▸ (measure_ok.mp hm).1

theorem probeClose_nonFinite : probeClose s = .error .nonFinite :=
  updateChans_nonFinite (s := s.withAcq { s.acq with win := false }) hpair h fun _ _ hb => res_bind_error.mpr (.inl hb)

theorem acquisition_nonFinite : acquisition s = .error .nonFinite :=
  updateChans_nonFinite hpair h fun _ _ hb => res_bind_error.mpr (.inl hb)

theorem rawMinute_nonFinite (hsync : s.msync = false) : rawMinute s = .error .nonFinite := by
  unfold rawMinute
  rw [hsync, runIf, Bool.not_false, if_pos rfl, res_map_error (acquisition_nonFinite hpair h)]
  rfl

end

end

/-! The decoder. -/

theorem miscUpdate_nonFinite {s : State} {b : Nat} (hb : b < Config.nMisc) (h : (miscNext s b).isFinite = false) :
    miscUpdate b s = .error .nonFinite := by
  refine nonFinite_of_not_ok (miscUpdate_noIndexFault hb s) (miscUpdate_noReservedFault s b) fun t ht => ?_
  obtain ⟨-, hf, -⟩ := miscUpdate_ok.mp ht
  exact Bool.false_ne_true (h.symm.trans hf)

/-- Smoothing the first r likelihoods answers only where each new one is finite, and leaves the others
(43_bcd_decoder.md R207). -/
theorem smoothLikes_finite {cfg : Config.Cfg} {bcd a b : RealArray} {n r : Nat} (hr : r ≤ n) (hwf : a.wf n = true)
    (h : smoothLikes cfg bcd r a = .ok b) :
    (∀ j, j < r → (likeNext cfg bcd j (a.get j)).isFinite = true) ∧ ∀ j, r ≤ j → b.get j = a.get j := by
  induction r generalizing b with
  | zero =>
    cases h
    exact ⟨fun j hj => absurd hj (Nat.not_lt_zero j), fun _ _ => rfl⟩
  | succ d ih =>
    simp only [smoothLikes, res_bind_ok, finite_ok] at h
    obtain ⟨c, hc, v, ⟨hv, rfl⟩, e⟩ := h
    cases e
    obtain ⟨hbelow, habove⟩ := ih (by omega) hc
    rw [habove d (Nat.le_refl d)] at hv
    refine ⟨fun j hj => ?_, fun j hj => ?_⟩
    · rcases Nat.lt_succ_iff_lt_or_eq.mp hj with hj | rfl
      · exact hbelow j hj
      · exact hv
    · rw [get_put_ne (smoothLikes_wf (by omega) hwf hc) (by omega)]
      exact habove j (by omega)

/-- The bit of a second depends on the envelope buffer and the configuration alone (R200, R201). -/
theorem dataBit_congr {s t : State} (hdbuf : t.dec.dbuf = s.dec.dbuf) (hcfg : t.cfg = s.cfg) :
    t.dataBit = s.dataBit := by
  unfold State.dataBit State.erased State.datsnr State.pulseLen State.emax State.emin
  rw [hdbuf, hcfg]

section
variable {s : State} {p : Nat} {d : DigitVec} (hp : p < Config.nDig) (hd : s.dec.digits[p]? = some d)
include hp hd

theorem decimAction_noIndexFault_of_some : NoIndexFault (decimAction p s) := by
  unfold decimAction
  rw [readDigit_ok.mpr ⟨hp, hd⟩]
  exact (smoothLikes_noIndexFault _ _ _ _).bind fun _ _ => .ok _

theorem decimAction_nonFinite {j : Nat} (hwf : d.like.wf Config.nLike = true) (hj : j < radix p)
    (h : (likeNext s.cfg s.dec.bcd j (d.like.get j)).isFinite = false) : decimAction p s = .error .nonFinite := by
  refine nonFinite_of_not_ok (decimAction_noIndexFault_of_some hp hd) (decimAction_noReservedFault s p) fun t ht => ?_
  obtain ⟨d', like, hd', hlike, -⟩ := decimAction_ok.mp ht
  obtain rfl : d = d' := Option.some.inj (hd.symm.trans (readDigit_ok.mp hd').2)
  exact Bool.false_ne_true (h.symm.trans ((smoothLikes_finite (radix_le p) hwf hlike).1 j hj))

omit hp hd in
/-- The digit decode leaves what the miscellaneous bits are computed from. -/
theorem miscNext_of_decimAction {t : State} (h : decimAction p s = .ok t) (b : Nat) : miscNext t b = miscNext s b := by
  have hcfg : t.cfg = s.cfg := (decimAction_kept h).cfg
  obtain ⟨hdbuf, hmiscp⟩ : t.dec.dbuf = s.dec.dbuf ∧ t.dec.miscp = s.dec.miscp := by
    obtain ⟨d, like, -, -, rfl⟩ := decimAction_ok.mp h
    dsimp only
    split <;> split <;> exact ⟨rfl, rfl⟩
  unfold miscNext
  rw [dataBit_congr hdbuf hcfg, hmiscp, hcfg]

theorem mscdAction_nonFinite (h : (miscNext s bitDst1).isFinite = false) : mscdAction p s = .error .nonFinite :=
  bind_nonFinite (decimAction_noIndexFault_of_some hp hd) (decimAction_noReservedFault s p) fun _ ht =>
    miscUpdate_nonFinite (by decide) (miscNext_of_decimAction ht bitDst1 ▸ h)

end

/-- Settles O10: each clause is the rule that checks the value, run to its fault. -/
theorem nonFiniteValuesFault : Obligations.NonFiniteValuesFault := by
  have hcommit {s : State} {r : Res State} (h : r = .error .nonFinite) :
      commit s r = .next (takeFault s .nonFinite) := by rw [h]; rfl
  refine ⟨fun s hs hx => ?_, fun s hs hb hp h => ?_, fun s u hu hsync hend h => ?_, fun s pair hpair h => ?_,
    fun s b hb h => ?_, fun s p d hp hd => ⟨fun h => ?_, fun j hwf hj h => ?_⟩⟩
  · exact exec_sample_of_fault hs (sampleStep_of_signalStep (signalStep_of_input hx))
  · exact exec_sample_of_fault hs (sampleStep_nonFinite hb hp h)
  · exact hcommit (res_bind_error.mpr (.inr ⟨u, hu, res_bind_error.mpr (.inl (intervalStep_nonFinite hsync hend h))⟩))
  · exact ⟨hcommit (probeClose_nonFinite hpair h), fun hsync => hcommit (rawMinute_nonFinite hpair h hsync)⟩
  · have hm := miscUpdate_nonFinite hb h
    exact ⟨hcommit hm, hcommit (res_map_error hm _)⟩
  · exact hcommit (mscdAction_nonFinite hp hd h)
  · have hdecim := decimAction_nonFinite hp hd hwf hj h
    exact ⟨hcommit hdecim, hcommit (res_bind_error.mpr (.inl hdecim))⟩

end Sys2Proof.Machine
end

section
/-! PROOF. The sample clock and the raw second (41_epoch_tracker_fll.md R151 to R161): each rule of the epoch tracker as
the state it answers, written out once, and the raw second put together from them. -/

namespace Sys2Proof.Machine

/-! The sample clock. -/

/-- The slip accumulator and the advance, each on its own (R151). -/
theorem slip_eq (facc freq : F64) :
    slip facc freq =
      (if Config.one.le (facc.add freq) then (facc.add freq).sub Config.one
        else if (facc.add freq).le Config.minusOne then (facc.add freq).add Config.one else facc.add freq,
       if Config.one.le (facc.add freq) then 0 else if (facc.add freq).le Config.minusOne then 2 else 1) := by
  unfold slip
  dsimp only
  split
  · rfl
  · split <;> rfl

/-- The crossing test looks at the positions after the old one, up to the advance (R157). -/
theorem crossed_iff {a : Advance} {o : Nat} :
    a.crossed o = true ↔ ∃ j, 1 ≤ j ∧ j ≤ a.adv ∧ (a.old + j) % Config.second = o := by
  unfold Advance.crossed
  simp only [List.any_eq_true, List.mem_range, beq_iff_eq]
  constructor
  · rintro ⟨j, hj, h⟩
    exact ⟨j + 1, Nat.le_add_left 1 j, hj, h⟩
  · rintro ⟨j, hpos, hj, h⟩
    exact ⟨j - 1, by omega, by rwa [Nat.sub_add_cancel hpos]⟩

/-- Settles O31: the clock step and the step-local advance are both read off `slip`. -/
theorem sampleClockAdvance : Obligations.SampleClockAdvance := by
  intro s f one minusOne adv
  have hslip := slip_eq s.clock.facc s.clock.freq
  have hadv : (slip s.clock.facc s.clock.freq).2 = adv := congrArg Prod.snd hslip
  refine ⟨?_, rfl, ?_, fun o => ?_⟩
  · unfold clockStep
    rw [hslip]
    rfl
  · unfold advanceOf
    rw [hadv]
  · rw [crossed_iff]
    unfold advanceOf
    rw [hadv]

/-! The averaging interval. -/

section
variable {s : State}

/-- Inside an interval only the counter moves (R158). -/
theorem intervalStep_inside (h : s.epoch.avgcnt + 1 < 2 ^ s.epoch.k) :
    intervalStep s = .ok (s.withEpoch { s.epoch with avgcnt := s.epoch.avgcnt + 1 }) :=
  intervalStep_ok.mpr (.inr ⟨Nat.not_le.mpr h, rfl⟩)

/-- The drift written out (R10, R159). -/
theorem driftOf_eq (e : Epoch) : driftOf e = ((e.tepoch : Int) - e.tepochRef + 4000) % 8000 - 4000 := by
  have hnonneg : 0 ≤ ((e.tepoch : Int) - e.tepochRef + 4000) % 8000 := Int.emod_nonneg _ (by decide)
  exact congrArg (· - (4000 : Int)) (Int.toNat_of_nonneg hnonneg)

/-- A frequency update that stays finite (R160). -/
theorem frequencyUpdate_of_finite {d : Int}
    (h : s.ssync = true → (freqNext d s.epoch.k s.clock.freq).isFinite = true) :
    frequencyUpdate d s = .ok (s.withClock { s.clock with
      freq := if s.ssync then freqNext d s.epoch.k s.clock.freq else s.clock.freq }) := by
  rw [frequencyUpdate_ok]
  cases hsync : s.ssync with
  | true => exact .inl ⟨rfl, h hsync, rfl⟩
  | false => exact .inr ⟨rfl, rfl⟩

/-- The interval length and the run of quiet intervals after an interval of a given drift (R161). -/
def Epoch.afterDrift (ssync : Bool) (drift : Int) (e : Epoch) : Epoch :=
  let quiet := if ssync && decide (drift.natAbs ≤ 1) then min (e.avginc + 1) Config.dblRun else 0
  let double := decide (Config.dblRun ≤ quiet) && decide (e.k < Config.maxAvg)
  { e with
    k := if double then e.k + 1 else e.k
    avginc := if double then 0 else quiet }

theorem intervalDoubling_eq (drift : Int) (s : State) :
    intervalDoubling drift s = s.withEpoch (s.epoch.afterDrift s.ssync drift) := by
  unfold intervalDoubling Epoch.afterDrift
  generalize (if s.ssync && decide (drift.natAbs ≤ 1) then min (s.epoch.avginc + 1) Config.dblRun else 0) = quiet
  simp only [Bool.and_eq_true, decide_eq_true_eq]
  split <;> rfl

/-- The end of an interval (R158 to R161). -/
theorem intervalStep_end (hend : 2 ^ s.epoch.k ≤ s.epoch.avgcnt + 1)
    (hfin : s.ssync = true → (freqNext (driftOf s.epoch) s.epoch.k s.clock.freq).isFinite = true) :
    intervalStep s = .ok ((s.withClock { s.clock with
        freq := if s.ssync then freqNext (driftOf s.epoch) s.epoch.k s.clock.freq else s.clock.freq }).withEpoch
      (Epoch.afterDrift s.ssync (driftOf s.epoch) { s.epoch with avgcnt := 0, tepochRef := s.epoch.tepoch })) := by
  refine intervalStep_ok.mpr (.inl ⟨hend, intervalEnd_ok.mpr ⟨_, frequencyUpdate_of_finite hfin, ?_⟩⟩)
  rw [intervalDoubling_eq]
  rfl

end

/-- Settles O52: the two cases of the interval counter, the drift and the constants written out. -/
theorem intervalEndUpdatesTheFll : Obligations.IntervalEndUpdatesTheFll := by
  refine fun s => ⟨intervalStep_inside, fun hend => ?_⟩
  have hfreq (d : Int) : freqNext d s.epoch.k s.clock.freq =
      F64.clamp (s.clock.freq.add (((F64.ofInt d).div (F64.ofInt (2 ^ s.epoch.k * 8000))).mul
        ((F64.ofInt (2 ^ s.epoch.k)).div (F64.ofInt 1024)))) Config.minusMaxFreq Config.maxFreq := by
    unfold freqNext
    push_cast
    rfl
  intro drift y f quiet double hfin
  have hend := intervalStep_end hend
  rw [driftOf_eq, hfreq] at hend
  exact hend hfin

/-! The raw second. -/

/-- Settles O53: a raw second is its rules in turn, and a raw minute that takes a fault records it. -/
theorem rawSecondOrder : Obligations.RawSecondOrder := by
  intro s u v t _ hu hv
  have hsecond {t : State} (h : rawSecond s = .ok t) : exec .rawsec s = .next t := commit_next.mpr (.inl h)
  refine ⟨fun hm => ?_, fun hm ht hfault => ?_⟩
  · exact hsecond (rawSecond_ok.mpr ⟨u, v, hu, hv, .inr ⟨by omega, rfl⟩⟩)
  · rcases commit_next.mp ht with hok | ⟨f, -, rfl⟩
    · exact hsecond (rawSecond_ok.mpr ⟨u, v, hu, hv, .inl ⟨by omega, hok⟩⟩)
    · exact nomatch hfault

end Sys2Proof.Machine
end

section
/-! PROOF. A raw second that ends no interval and no raw minute (41_epoch_tracker_fll.md R152 to R158, 60_exceptions.md
R264): the epoch update as the tracker and the status word it leaves, and the frame of the raw second around it. -/

namespace Sys2Proof.Machine

/-! The epoch update. -/

/-- The tracker with the candidate of this raw second in its history (R153). -/
def Epoch.pushed (e : Epoch) : Epoch :=
  let hist := histPush e.hist (e.comb.argmax Config.second).1
  { e with hist := hist, span := histSpan hist }

/-- The median of the history with the new candidate, and whether it is accepted as the epoch (R153, R154). -/
def Epoch.median (e : Epoch) : Nat := histMedian e.pushed.hist
def Epoch.accepts (e : Epoch) : Bool := epochAccepted e e.median

/-- The tracker after the acceptance test and the run count of this raw second, each register on its own (R153 to
R155). -/
def Epoch.counted (e : Epoch) : Epoch :=
  { e.pushed with
    tepoch := if e.accepts then e.median else e.tepoch
    jitcnt := if e.accepts then 0 else min (e.jitcnt + 1) Config.sat8
    scmp := if e.accepts then (if e.median = e.tepoch then min (e.scmp + 1) Config.sCmp else 1) else 0 }

theorem epochStep_pushed (e : Epoch) : epochStep e.pushed e.median = e.counted := by
  unfold epochStep Epoch.counted
  cases h : e.accepts with
  | true => exact if_pos h
  | false => exact if_neg (Bool.eq_false_iff.mp h)

/-- Whether this raw second latches the offsets (R156). -/
def Epoch.latches (e : Epoch) : Bool := e.accepts && decide (Config.sCmp ≤ e.counted.scmp)

/-- The receiver-second offset of an epoch (R156). -/
def startOffset (epoch : Nat) : Nat := imod (epoch - (Config.tckSiz - 1 : Nat)) Config.second

/-- The tracker after an epoch update with signal and a station of a given delay (R153 to R156). -/
def Epoch.tracked (e : Epoch) (delay : Nat) : Epoch :=
  { e.counted with
    rsecStart := if e.latches then startOffset e.median else e.rsecStart
    tsecStart := if e.latches then imod (startOffset e.median - delay) Config.second else e.tsecStart }

section
variable {s : State}

/-- The epoch update with no signal or no station (R153). -/
theorem epochUpdate_of_noSignal
    (h : (s.epoch.comb.argmax Config.second).2.lt s.cfg.sthr = true ∨ s.sel = .none) :
    epochUpdate s = .ok ((s.withEpoch { s.epoch.pushed with jitcnt := 0, scmp := 0 }).withStatus
      (putBit s.status bitSsync false)) :=
  epochUpdate_ok.mpr ⟨_, _, _, rfl, rfl, rfl, .inl ⟨h, rfl⟩⟩

/-- The epoch update with signal and a station (R153 to R156). -/
theorem epochUpdate_of_signal {st : Station}
    (hpeak : (s.epoch.comb.argmax Config.second).2.lt s.cfg.sthr = false) (hsel : s.sel.station = some st) :
    epochUpdate s = .ok ((s.withEpoch (s.epoch.tracked (s.cfg.propDelay.get st))).withStatus
      (if s.epoch.latches then putBit s.status bitSsync true else s.status)) := by
  have hsignal : ¬((s.epoch.comb.argmax Config.second).2.lt s.cfg.sthr = true ∨ s.sel = .none) := by
    rintro (h | h)
    · exact Bool.false_ne_true (hpeak.symm.trans h)
    · rw [h] at hsel
      exact nomatch hsel
  have hstep : (s.withEpoch s.epoch.pushed).withEpoch (epochStep s.epoch.pushed s.epoch.median) =
      s.withEpoch s.epoch.counted := congrArg s.withEpoch (epochStep_pushed s.epoch)
  refine epochUpdate_ok.mpr ⟨_, _, _, rfl, rfl, rfl, .inr ⟨hsignal, _, hstep.symm, ?_⟩⟩
  unfold Epoch.tracked
  cases hl : s.epoch.latches with
  | true =>
    obtain ⟨haccept, hrun⟩ := Bool.and_eq_true_iff.mp hl
    have hepoch : s.epoch.counted.tepoch = s.epoch.median := if_pos haccept
    have hdelay : selDelay (s.withEpoch s.epoch.counted) = .ok (s.cfg.propDelay.get st) := by
      rw [selDelay, show (s.withEpoch s.epoch.counted).sel = s.sel from rfl, hsel]
      rfl
    refine .inl ⟨haccept, of_decide_eq_true hrun, latchOffsets_ok.mpr ⟨_, hdelay, ?_⟩⟩
    rw [withEpoch_epoch, hepoch]
    rfl
  | false =>
    refine .inr ⟨fun ⟨haccept, hrun⟩ => ?_, rfl⟩
    exact Bool.false_ne_true (hl.symm.trans (Bool.and_eq_true_iff.mpr ⟨haccept, decide_eq_true hrun⟩))

end

/-! The not-synchronized check. -/

/-- The check writes the alarm word alone, and raises SYNERR unless both syncs are held (60_exceptions.md R264). -/
theorem syncCheck_eq (s : State) : ∃ a, syncCheck s = s.withDec { s.dec with alarm := a } ∧
    ∀ b, a.getLsbD b = (s.dec.alarm.getLsbD b || (b == 12 && !(s.ssync && s.msync))) := by
  unfold syncCheck
  rw [← Bool.not_and]
  cases s.ssync && s.msync with
  | true => exact ⟨s.dec.alarm, rfl, by simp⟩
  | false =>
    refine ⟨(raiseAlarm 3 s).dec.alarm, rfl, fun b => ?_⟩
    rw [alarm_raiseAlarm s (by decide), Bool.or_comm, Bool.not_false, Bool.and_true, beq_eq_decide]

/-! The raw second around the epoch update. -/

/-- The clock after a raw second (R152). -/
def Clock.ticked (c : Clock) : Clock := { c with mphase := (c.mphase + 1) % 60 }

/-- Writing the clock, the tracker with its comb kept, the status word and the alarm word leaves every array. -/
theorem memRead_rawSecond_frame {s : State} {c : Clock} {e : Epoch} {w : BitVec 8} {a : BitVec 16}
    (hcomb : e.comb = s.epoch.comb) (A : ArrName) (j : Nat) :
    memRead ((((s.withClock c).withEpoch e).withStatus w).withDec { s.dec with alarm := a }) A j = memRead s A j := by
  have harray : ((((s.withClock c).withEpoch e).withStatus w).withDec { s.dec with alarm := a }).array A =
      s.array A := by
    cases A with
    | comb => exact congrArg some hcomb
    | _ => rfl
  unfold memRead
  rw [harray]

/-- What an epoch update that answers makes of a raw second that ends no interval and no raw minute. -/
theorem exec_rawsec_inside {s : State} {e : Epoch} {w : BitVec 8} (hm : s.clock.mphase ≠ 59)
    (hu : epochUpdate (s.withClock s.clock.ticked) = .ok (((s.withClock s.clock.ticked).withEpoch e).withStatus w))
    (hin : e.avgcnt + 1 < 2 ^ e.k) (hcomb : e.comb = s.epoch.comb) :
    ∃ t, exec .rawsec s = .next t ∧ t.clock = s.clock.ticked ∧ t.epoch = { e with avgcnt := e.avgcnt + 1 } ∧
      t.status = w ∧
      (∀ b, t.dec.alarm.getLsbD b = (s.dec.alarm.getLsbD b || (b == 12 && !(t.ssync && t.msync)))) ∧
      (∀ (A : ArrName) (j : Nat), memRead t A j = memRead s A j) ∧
      t = (((s.withClock t.clock).withEpoch t.epoch).withStatus t.status).withDec
        { s.dec with alarm := t.dec.alarm } := by
  obtain ⟨a, hcheck, halarm⟩ :=
    syncCheck_eq (((s.withClock s.clock.ticked).withEpoch { e with avgcnt := e.avgcnt + 1 }).withStatus w)
  have hsecond := rawSecond_ok.mpr ⟨_, _, hu, intervalStep_inside hin, .inr ⟨by omega, hcheck.symm⟩⟩
  exact ⟨_, commit_next.mpr (.inl hsecond), rfl, rfl, rfl, halarm, memRead_rawSecond_frame hcomb, rfl⟩

/-- Settles O50: the epoch update drops second sync, so the check raises SYNERR. -/
theorem rawSecondWithoutSignal : Obligations.RawSecondWithoutSignal := by
  intro s hm hin hsignal h
  have hu := epochUpdate_of_noSignal (s := s.withClock s.clock.ticked) hsignal
  obtain ⟨t, hexec, hclock, hepoch, hstatus, halarm, hmem, hframe⟩ := exec_rawsec_inside hm hu hin rfl
  have hflag (b : Nat) : t.flag b = if b = bitSsync then false else s.flag b := by
    rw [State.flag, hstatus]
    exact getLsbD_putBit s.status (by decide) false b
  refine ⟨t, hexec, hclock, hepoch, fun b => ?_, fun b => ?_, hmem, hframe⟩
  · rw [hflag]
    by_cases hb : b = 1 <;> simp [hb]
  · rw [halarm, State.ssync, hflag]
    simp

/-- Settles O51: the epoch update leaves the tracked epoch, and second sync where it latches. -/
theorem rawSecondTracksTheEpoch : Obligations.RawSecondTracksTheEpoch := by
  intro s st hm hin hpeak hsel h med accepted run latch start
  have hu := epochUpdate_of_signal (s := s.withClock s.clock.ticked) hpeak hsel
  obtain ⟨t, hexec, hclock, hepoch, hstatus, halarm, hmem, hframe⟩ := exec_rawsec_inside hm hu hin rfl
  have hflag (b : Nat) : t.flag b = (s.flag b || (b == bitSsync && latch)) := by
    rw [State.flag, hstatus]
    change (if latch then putBit s.status bitSsync true else s.status).getLsbD b = _
    cases latch with
    | true =>
      rw [if_pos rfl, getLsbD_putBit s.status (by decide)]
      by_cases hb : b = bitSsync <;> simp [hb, State.flag]
    | false => simp [State.flag]
  have hmsync : t.msync = s.msync := by simp [State.msync, hflag]
  exact ⟨t, hexec, hclock, hepoch, hflag, fun b => hmsync ▸ halarm b, hmem, hframe⟩

end Sys2Proof.Machine
end

section
/-! PROOF. A sample step between seconds (70_reset_and_hazards.md R285): the signal part as one written-out state where its
values are finite, and the events that do not run. -/

namespace Sys2Proof.Machine

/-! The signal part of a sample step. -/

/-- One station's scan after a sample that accumulates at a position or not at all (42_station_acquisition.md R176). -/
def scanAfter (m : Scan) (em : F64) : Option Nat → Scan
  | none => m
  | some q =>
    { emax := if m.emax.lt em then em else m.emax
      pos := if m.emax.lt em then q else m.pos
      esum := m.esum.add em
      n := m.n + 1 }

/-- Both scans after a sample (R176). -/
def scansAfter (ms : ByStation Scan) (em : ByStation F64) (q : Option Nat) : ByStation Scan :=
  ⟨scanAfter ms.a em.a q, scanAfter ms.b em.b q⟩

theorem scansAfter_get (ms : ByStation Scan) (em : ByStation F64) (q : Option Nat) (st : Station) :
    (scansAfter ms em q).get st = scanAfter (ms.get st) (em.get st) q := by
  cases st <;> rfl

/-- The index of the envelope buffer that a sample writes (43_bcd_decoder.md R219). -/
def State.dbufPlace (s : State) : Nat := imod (s.clock.rphase - s.epoch.rsecStart) Config.second

/-- The state after the signal part of a sample step, rule by rule (R285 steps 1 to 4). -/
def State.signaled (s : State) : State :=
  let em : ByStation F64 := ⟨s.bank.em s.cfg s.pins.x .a, s.bank.em s.cfg s.pins.x .b⟩
  s.withOut { s.out with timerecStrobe := false }
  |>.withBank (s.bank.updated s.cfg s.pins.x)
  |>.withDec { s.dec with dbuf := s.dec.dbuf.put s.dbufPlace (s.bank.eData s.cfg s.pins.x) }
  |>.withAcq { s.acq with ms := scansAfter s.acq.ms em (scanPos s) }
  |>.withEpoch { s.epoch with comb := s.epoch.comb.put s.clock.rphase s.combNext }

theorem dbufPlace_lt (s : State) : s.dbufPlace < Config.second := imod_lt _ (by decide)

section
variable {s : State}

/-- The scans take a sample whose sums stay finite (R176). -/
theorem scanAccumulate_of_finite {em : ByStation F64}
    (h : ∀ st, scanPos s ≠ none → ((s.acq.ms.get st).esum.add (em.get st)).isFinite = true) :
    scanAccumulate em s = .ok (s.withAcq { s.acq with ms := scansAfter s.acq.ms em (scanPos s) }) := by
  rw [scanAccumulate_ok]
  cases hq : scanPos s with
  | none => exact .inl ⟨rfl, rfl⟩
  | some q =>
    have hsum (st : Station) := h st (hq ▸ Option.some_ne_none q)
    exact .inr ⟨q, _, _, rfl, scanAdd_ok.mpr ⟨hsum .a, rfl⟩, scanAdd_ok.mpr ⟨hsum .b, rfl⟩, rfl⟩

/-- The signal part completes where the demodulator update, the scan sums and the comb bin are finite. -/
theorem signalStep_of_finite (hbank : s.bank.InRange) (hphase : s.clock.rphase < Config.second)
    (hdemod : s.bank.FiniteAt s.cfg s.pins.x) (hcomb : s.combNext.isFinite = true)
    (hscan : ∀ st, scanPos s ≠ none → ((s.acq.ms.get st).esum.add (s.bank.em s.cfg s.pins.x st)).isFinite = true) :
    signalStep s = .ok s.signaled := by
  refine signalStep_ok.mpr ⟨_, _, _, _, (demodUpdate_checks s.cfg s.pins.x s.sel hbank).ok hdemod,
    envelopeWrite_ok.mpr ⟨dbufPlace_lt s, rfl⟩, scanAccumulate_of_finite fun st hq => ?_, combUpdate_ok.mpr ⟨hphase, hcomb, rfl⟩⟩
  cases st <;> exact hscan _ hq

end

/-! The rest of the step. -/

/-- No event runs where nothing wraps and no offset of a held minute is crossed (R285 steps 6 to 8). -/
theorem eventStep_of_quiet {a : Advance} {m0 : Bool} {t0 r0 : Nat} (s : State) (hwrap : a.wrapped = false)
    (hcross : m0 = true → a.crossed t0 = false ∧ a.crossed r0 = false) : eventStep a m0 t0 r0 s = .ok s := by
  have hoff (m : Bool) : (m0 && m && a.crossed t0) = false ∧ (m0 && m && a.crossed r0) = false := by
    cases m0 with
    | false => exact ⟨rfl, rfl⟩
    | true =>
      obtain ⟨ht, hr⟩ := hcross rfl
      simp [ht, hr]
  exact eventStep_ok.mpr ⟨s, s, runIf_ok.mpr (.inr ⟨hwrap, rfl⟩), runIf_ok.mpr (.inr ⟨(hoff _).1, rfl⟩),
    runIf_ok.mpr (.inr ⟨(hoff _).2, rfl⟩)⟩

/-- A tuner failure sticks (60_exceptions.md R273). -/
theorem tunerFailure_eq (fail : Bool) (s : State) :
    tunerFailure fail s = s.withOut { s.out with tuneErr := s.out.tuneErr || fail } := by
  unfold tunerFailure
  cases fail with
  | true => rw [Bool.or_true]; rfl
  | false => rw [Bool.or_false]; rfl

/-- The state after a sample step in which no event runs. -/
def State.sampled (s : State) : State :=
  (clockStep s.signaled).withOut
    { s.out with timerecStrobe := false, tuneErr := s.out.tuneErr || s.pins.tuneFail }

theorem exec_sample_of_quiet {s : State} (hfault : s.fault = none) (hsignal : signalStep s = .ok s.signaled)
    (hwrap : (advanceOf s.clock).wrapped = false)
    (hcross : s.msync = true → (advanceOf s.clock).crossed s.epoch.tsecStart = false ∧
      (advanceOf s.clock).crossed s.epoch.rsecStart = false) :
    exec .sample s = .next s.sampled := by
  have hstep : sampleStep s = .ok (tunerFailure s.pins.tuneFail (clockStep s.signaled)) :=
    sampleStep_ok.mpr ⟨_, _, hsignal, eventStep_of_quiet _ hwrap hcross, rfl⟩
  rw [tunerFailure_eq] at hstep
  change execSample s = _
  rw [execSample, hfault]
  exact commit_next.mpr (.inl hstep)

/-- An array of the state with one element written reads as `put` says. -/
theorem memRead_put {s t : State} {A : ArrName} {a : RealArray} {i : Nat} {v : F64} (hs : s.array A = some a)
    (ht : t.array A = some (a.put i v)) (hwf : a.wf A.size = true) (hi : i < A.size) :
    memRead t A i = .ok v ∧ ∀ j, j ≠ i → memRead t A j = memRead s A j := by
  refine ⟨memRead_ok.mpr ⟨_, ht, hi, (get_put_same hwf i v).symm⟩, fun j hj => ?_⟩
  unfold memRead
  rw [hs, ht]
  change arrRead A.size (a.put i v) j = arrRead A.size a j
  unfold arrRead
  rw [get_put_ne hwf hj]

/-- Settles O32: the signal part is finite, no event runs, and each array that is written is written at one place. -/
theorem sampleBetweenSeconds : Obligations.SampleBetweenSeconds := by
  intro s hrange hfault hdemod hcomb place scan hscan hwrap hcross
  have hpos : scanPos s = scan := by
    unfold scanPos
    cases h : s.msync with
    | false => simp [scan, h]
    | true =>
      simp only [scan, h, Bool.not_true, Bool.false_eq_true, Bool.true_eq_false, if_false]
      rfl
  obtain ⟨-, hcombWf, ⟨hdbufWf, -⟩, -⟩ := (memWf_iff s).mp hrange.mem
  have hsignal := signalStep_of_finite hrange.bank hrange.clock.1 hdemod hcomb (hpos ▸ hscan)
  obtain ⟨hdbuf, hdbufKept⟩ := memRead_put (s := s) (t := s.sampled) (A := .dbuf) rfl rfl hdbufWf (dbufPlace_lt s)
  obtain ⟨hcombBin, hcombKept⟩ := memRead_put (s := s) (t := s.sampled) (A := .comb) rfl rfl hcombWf hrange.clock.1
  refine ⟨s.sampled, _, exec_sample_of_quiet hfault hsignal hwrap hcross,
    (demodUpdate_checks s.cfg s.pins.x s.sel hrange.bank).ok hdemod, hdbuf, hdbufKept, hcombBin, hcombKept,
    fun A j hA => ?_, fun st => ?_, rfl, rfl, rfl⟩
  · rcases hA with rfl | rfl | ⟨p, rfl⟩ <;> rfl
  · change (scansAfter _ _ (scanPos s)).get st = _
    rw [scansAfter_get, hpos]
    cases scan <;> cases st <;> rfl

end Sys2Proof.Machine
end

section
/-! PROOF. The scored pulses of a raw minute and of a probe window (42_station_acquisition.md R178 to R180, R186): where
the measures of both stations are finite, both records of the probe channel are written. -/

namespace Sys2Proof.Machine

/-! The station field. -/

/-- The selection of a station (10_state.md R40). -/
def Sel.ofStation : Station → Sel
  | .a => .a
  | .b => .b

theorem sel_setSel_some (s : State) (st : Station) : (setSel (some st) s).sel = Sel.ofStation st := by
  rw [sel_setSel]
  cases st <;> rfl

theorem station_eq_some_iff {c : Sel} {st : Station} : c.station = some st ↔ c = Sel.ofStation st := by
  cases c <;> cases st <;> decide

/-! The records of the probe channel. -/

/-- The records of one frequency after both scans are scored; `down` gives the count after a failed gate. -/
def scoredPair (cfg : Config.Cfg) (ms : ByStation Scan) (down : Nat → Nat) (pair : ByStation ChanRec) :
    ByStation ChanRec :=
  ⟨pair.a.scored cfg ms.a (down pair.a.count), pair.b.scored cfg ms.b (down pair.b.count)⟩

/-- The acquisition registers with both records of the probe channel replaced. -/
def Acq.withProbe (a : Acq) (pair : ByStation ChanRec) : Acq := { a with chan := a.chan.set a.pchan pair }

theorem withProbe_chan_same {a : Acq} {old : ByStation ChanRec} (h : a.chan[a.pchan]? = some old)
    (pair : ByStation ChanRec) : (a.withProbe pair).chan[a.pchan]? = some pair :=
  List.getElem?_set_self (List.getElem?_eq_some_iff.mp h).1

theorem withProbe_chan_ne (a : Acq) (pair : ByStation ChanRec) {f : Nat} (h : f ≠ a.pchan) :
    (a.withProbe pair).chan[f]? = a.chan[f]? := List.getElem?_set_ne h.symm

/-- Writing the two records of the probe channel one after the other replaces its pair. -/
theorem writeChan_both (s : State) (ca cb : ChanRec) :
    writeChan (writeChan s s.acq.pchan .a ca) s.acq.pchan .b cb = s.withAcq (s.acq.withProbe ⟨ca, cb⟩) := by
  unfold writeChan Acq.withProbe
  simp only [withAcq_acq, withAcq_withAcq, List.modify_modify_eq, List.set_eq_modify]
  rfl

section
variable {s : State} {pair : ByStation ChanRec} (hpair : s.acq.chan[s.acq.pchan]? = some pair)
include hpair

/-- The update of one record completes where the measures of its scan are finite (R178 to R180, R186). -/
theorem updateChan_of_measurable (down : Nat → Nat) {st : Station} (h : (s.acq.ms.get st).Measurable) :
    updateChan down st s = .ok (writeChan s s.acq.pchan st
      ((pair.get st).scored s.cfg (s.acq.ms.get st) (down (pair.get st).count)),
      (pair.get st).passes s.cfg (s.acq.ms.get st)) :=
  updateChan_ok.mpr ⟨pair, _, hpair, measure_ok.mpr ⟨h, rfl⟩, rfl, rfl⟩

variable (ha : s.acq.ms.a.Measurable) (hb : s.acq.ms.b.Measurable)
include ha hb

/-- The updates of both records, station A's first. -/
theorem updateChans_of_measurable (down : Nat → Nat) : ∃ u,
    updateChan down .a s = .ok (u, pair.a.passes s.cfg s.acq.ms.a) ∧
    updateChan down .b u = .ok (s.withAcq (s.acq.withProbe (scoredPair s.cfg s.acq.ms down pair)),
      pair.b.passes s.cfg s.acq.ms.b) := by
  let ca := pair.a.scored s.cfg s.acq.ms.a (down pair.a.count)
  have hpair' : (writeChan s s.acq.pchan .a ca).acq.chan[s.acq.pchan]? = some (pair.set .a ca) := by
    simp [writeChan, hpair]
  refine ⟨_, updateChan_of_measurable hpair down ha, ?_⟩
  rw [← writeChan_both]
  exact updateChan_of_measurable (s := writeChan s s.acq.pchan .a ca) hpair' down hb

end

end Sys2Proof.Machine
end

section
/-! PROOF. The raw minute (42_station_acquisition.md R175, R180 to R184) with the watchdogs it counts and the reset it
can end in (60_exceptions.md R265, R266). -/

namespace Sys2Proof.Machine

/-! The watchdogs. -/

theorem watchdogExpired_eq_false_iff (w : Watchdog) : watchdogExpired w = false ↔ w.InRange := by
  simp [watchdogExpired, Watchdog.InRange, and_assoc]

theorem watchdogUpdate_of_inRange {s : State} (h : (watchdogCount s).InRange) :
    watchdogUpdate s = s.withWd (watchdogCount s) := by
  rcases watchdogUpdate_cases s with ⟨-, e⟩ | ⟨hexpired, -⟩
  · exact e
  · rw [(watchdogExpired_eq_false_iff _).mpr h] at hexpired
    exact nomatch hexpired

/-- Past a limit the counters are lost with the rest. -/
theorem watchdogUpdate_of_not_inRange {s : State} (h : ¬(watchdogCount s).InRange) :
    watchdogUpdate s = watchdogReset s := by
  rcases watchdogUpdate_cases s with ⟨hwithin, -⟩ | ⟨-, e⟩
  · exact absurd ((watchdogExpired_eq_false_iff _).mp hwithin) h
  · exact e

/-! What the watchdog reset does not see. -/

section
variable (s : State)

theorem watchdogReset_withEpoch {v : Epoch} (hcomb : v.comb = s.epoch.comb) :
    watchdogReset (s.withEpoch v) = watchdogReset s := by
  unfold watchdogReset
  simp only [withEpoch_epoch, hcomb]
  rfl

theorem watchdogReset_withDec {v : Dec} (hdbuf : v.dbuf = s.dec.dbuf) :
    watchdogReset (s.withDec v) = watchdogReset s := by
  unfold watchdogReset
  simp only [withDec_dec, hdbuf]
  rfl

theorem watchdogReset_withStatus (w : BitVec 8) : watchdogReset (s.withStatus w) = watchdogReset s := rfl

theorem watchdogReset_withTune (n : Nat) : watchdogReset (s.withOut { s.out with tune := n }) = watchdogReset s := rfl

theorem watchdogReset_withAcq {v : Acq} {w : Acq} (hp : v.pchan = w.pchan) (hd : v.dchan = w.dchan) :
    watchdogReset (s.withAcq v) = watchdogReset (s.withAcq w) := by
  unfold watchdogReset
  simp only [withAcq_acq, hp, hd]
  rfl

/-- No alarm is left to age. -/
theorem ageAlarm_watchdogReset : ageAlarm (watchdogReset s) = watchdogReset s := by
  have hword : ageWord (watchdogReset s).dec.alarm = (watchdogReset s).dec.alarm := (by decide : ageWord 0#16 = 0#16)
  unfold ageAlarm
  rw [hword]
  rfl

theorem watchdogReset_scanReset : watchdogReset (scanReset s) = watchdogReset s := rfl

end

/-- Settles O54: the raw minute is the watchdog update alone, and its count of acquisition is 0. -/
theorem rawMinuteCountsTheWatchdogs : Obligations.RawMinuteCountsTheWatchdogs := by
  intro s hsync w
  have hcount : watchdogCount s = w := by simp [watchdogCount, hsync, w]
  have hminute : exec .rawmin s = .next (watchdogUpdate s) :=
    commit_next.mpr (.inl (rawMinute_ok.mpr (.inl ⟨hsync, rfl⟩)))
  rw [hminute]
  refine ⟨fun h => ?_, fun h => ?_⟩
  · rw [watchdogUpdate_of_inRange (hcount ▸ ⟨Nat.zero_le _, h⟩), hcount]
  · have hexceeded : ¬(watchdogCount s).InRange := fun ⟨_, hlimits⟩ => h (hcount ▸ hlimits)
    rw [watchdogUpdate_of_not_inRange hexceeded]
    rfl

/-! Acceptance of a station (R182). -/

theorem imod_cast (a : Int) {m : Nat} (hm : 0 < m) : ((imod a m : Nat) : Int) = a % m :=
  Int.toNat_of_nonneg (Int.emod_nonneg a (by omega))

/-- The start of the minute at the receiver (R177). -/
theorem pulseStart_cast (pos : Nat) : ((pulseStart pos : Nat) : Int) = ((pos : Int) - 6399) % 480000 :=
  imod_cast _ (by decide)

/-- The start of the minute at the transmitter (R182). -/
theorem transmitterStart_cast (pos delay : Nat) : ((imod (pulseStart pos - (delay : Int)) Config.minute : Nat) : Int) =
    (((pos : Int) - 6399) % 480000 - delay) % 480000 := by
  rw [imod_cast _ (by decide), pulseStart_cast]
  rfl

/-- The second in progress at a position of the minute, counted from a start. -/
theorem second_of_minute_eq (a : Int) : imod a Config.minute / Config.second = (a % 480000 / 8000).toNat := by
  change (a % 480000).toNat / 8000 = (a % 480000 / 8000).toNat
  omega

section
variable (w : Station) (pos : Nat) (s : State)

theorem acceptStation_sel : (acceptStation w pos s).sel = Sel.ofStation w := by
  change (setFlag bitMsync true (setSel (some w) s)).sel = _
  rw [sel_setFlag _ (by decide) (by decide) (by decide), sel_setSel_some]

theorem acceptStation_flag {f : Nat} (h5 : f ≠ 5) (h6 : f ≠ 6) :
    (acceptStation w pos s).flag f = if f = bitMsync then true else s.flag f := by
  change (setFlag bitMsync true (setSel (some w) s)).flag f = _
  rw [flag_setFlag _ (by decide), flag_setSel s _ h5 h6]

/-- The second numbers are counted from the start of the minute, for the receiver and, a propagation delay earlier, for
the transmitter. -/
theorem acceptStation_dec :
    let start : Int := ((pos : Int) - 6399) % 480000
    let tstart : Int := (start - s.cfg.propDelay.get w) % 480000
    let qnow : Int := (s.clock.mphase * 8000 + s.clock.rphase : Nat)
    (acceptStation w pos s).dec = { s.dec with
      rsec := ((qnow - start) % 480000 / 8000).toNat
      tsec := ((qnow - tstart) % 480000 / 8000).toNat } := by
  intro start tstart qnow
  have hstart : _ = start := pulseStart_cast pos
  have htstart : _ = tstart := transmitterStart_cast pos (s.cfg.propDelay.get w)
  rw [← second_of_minute_eq, ← second_of_minute_eq, ← hstart, ← htstart]
  rfl

theorem acceptStation_epoch :
    let start : Int := ((pos : Int) - 6399) % 480000
    let tstart : Int := (start - s.cfg.propDelay.get w) % 480000
    (acceptStation w pos s).epoch =
      { s.epoch with rsecStart := (start % 8000).toNat, tsecStart := (tstart % 8000).toNat } := by
  intro start tstart
  have hstart : _ = start := pulseStart_cast pos
  have htstart : _ = tstart := transmitterStart_cast pos (s.cfg.propDelay.get w)
  rw [← hstart, ← htstart]
  rfl

end

/-! What follows from the two counts (R181 to R183). -/

/-- No count wins and both are 0 (R183). -/
abbrev NoCandidate (pair : ByStation ChanRec) : Prop :=
  winner pair.a.count pair.b.count = none ∧ pair.a.count = 0 ∧ pair.b.count = 0

/-- `u` is the state `s` after an acquisition step that scored the records `pair`: the winner is accepted, or a stalled
probe moves, or nothing else follows. -/
structure Acquired (pair : ByStation ChanRec) (s u : State) : Prop where
  acq : u.acq = { s.acq.withProbe pair with
    pchan := if NoCandidate pair then (s.acq.pchan + 1) % 5 else s.acq.pchan
    dchan := if winner pair.a.count pair.b.count = none then s.acq.dchan else s.acq.pchan }
  out : u.out = { s.out with
    tune := if NoCandidate pair then u.acq.pchan
      else if winner pair.a.count pair.b.count = none then s.out.tune else u.acq.dchan }
  flag : ∀ f, f ≠ 5 → f ≠ 6 →
    u.flag f = (s.flag f || (f == bitMsync && decide (winner pair.a.count pair.b.count ≠ none)))
  array : ∀ A, u.array A = s.array A
  alarm : u.dec.alarm = s.dec.alarm
  ofNone : winner pair.a.count pair.b.count = none → u.sel = s.sel ∧ u.epoch = s.epoch ∧ u.dec = s.dec
  ofSome : ∀ w, winner pair.a.count pair.b.count = some w →
    u = acceptStation w (pair.get w).pos (s.withAcq (s.acq.withProbe pair))
  rest : u = ((((s.withAcq u.acq).withDec u.dec).withStatus u.status).withOut u.out).withEpoch u.epoch

theorem acceptOrAdvance_acquired (pair : ByStation ChanRec) (s : State) :
    Acquired pair s (acceptOrAdvance pair (s.withAcq (s.acq.withProbe pair))) := by
  rcases acceptOrAdvance_cases pair (s.withAcq (s.acq.withProbe pair)) with
    ⟨w, hw, h⟩ | ⟨hw, ha, hb, h⟩ | ⟨hw, hc, h⟩ <;> rw [h]
  case inl =>
    exact {
      acq := by simp [NoCandidate, hw, acceptStation, Acq.withProbe]
      out := by simp [NoCandidate, hw, acceptStation, Acq.withProbe]
      flag := fun f h5 h6 => by
        rw [acceptStation_flag _ _ _ h5 h6]
        by_cases hf : f = bitMsync <;> simp [hf, hw, State.flag]
      array := fun A => by cases A <;> rfl
      alarm := rfl
      ofNone := fun hn => nomatch hw.symm.trans hn
      ofSome := fun w' hw' => by
        cases hw.symm.trans hw'
        rfl
      rest := rfl }
  case inr.inl =>
    have hstalled : NoCandidate pair := ⟨hw, ha, hb⟩
    exact {
      acq := by
        rw [if_pos hstalled, if_pos hw]
        rfl
      out := by
        rw [if_pos hstalled]
        rfl
      flag := fun f _ _ => by simp [hw, State.flag]
      array := fun A => by simp [probeAdvance]
      alarm := rfl
      ofNone := fun _ => ⟨rfl, rfl, rfl⟩
      ofSome := fun w' hw' => nomatch hw.symm.trans hw'
      rest := rfl }
  case inr.inr =>
    have hcandidate : ¬NoCandidate pair := fun hn => hc hn.2
    exact {
      acq := by
        rw [if_neg hcandidate, if_pos hw]
        rfl
      out := by
        rw [if_neg hcandidate, if_pos hw]
        rfl
      flag := fun f _ _ => by simp [hw, State.flag]
      array := fun A => by simp
      alarm := rfl
      ofNone := fun _ => ⟨rfl, rfl, rfl⟩
      ofSome := fun w' hw' => nomatch hw.symm.trans hw'
      rest := rfl }

section
variable {pair : ByStation ChanRec} {s u : State} (h : Acquired pair s u)
include h

theorem Acquired.msync_eq (hsync : s.msync = false) :
    u.msync = decide (winner pair.a.count pair.b.count ≠ none) := by
  have hs : s.flag bitMsync = false := hsync
  rw [State.msync, h.flag _ (by decide) (by decide), hs, Bool.false_or, beq_self_eq_true, Bool.true_and]

/-- The counters after the raw minute: acquisition is counted while no station is accepted (60_exceptions.md R265). -/
theorem Acquired.watchdogCount_eq (hsync : s.msync = false) : watchdogCount (scanReset u) =
    { wAcq := if winner pair.a.count pair.b.count = none then s.wd.wAcq + 1 else 0
      wSs := if s.ssync then 0 else s.wd.wSs + 1
      wDs := if s.dsync then 0 else s.wd.wDs + 1
      wAbs := s.wd.wAbs + 1 } := by
  have hwd : u.wd = s.wd := (congrArg State.wd h.rest :)
  have hssync : u.ssync = s.ssync := (h.flag bitSsync (by decide) (by decide)).trans (Bool.or_false _)
  have hdsync : u.dsync = s.dsync := (h.flag bitDsync (by decide) (by decide)).trans (Bool.or_false _)
  change Watchdog.mk (if u.msync then 0 else u.wd.wAcq + 1) (if u.ssync then 0 else u.wd.wSs + 1)
    (if u.dsync then 0 else u.wd.wDs + 1) (u.wd.wAbs + 1) = _
  rw [hwd, hssync, hdsync, h.msync_eq hsync]
  by_cases hw : winner pair.a.count pair.b.count = none <;> simp [hw]

/-- The watchdog reset keeps the two channels of an acquisition, and what the acquisition did not write. -/
theorem Acquired.watchdogReset_eq : watchdogReset u = watchdogReset (s.withAcq u.acq) := by
  have hcomb : u.epoch.comb = s.epoch.comb := Option.some.inj (h.array .comb)
  have hdbuf : u.dec.dbuf = s.dec.dbuf := Option.some.inj (h.array .dbuf)
  conv_lhs => rw [h.rest, h.out]
  refine (watchdogReset_withEpoch _ ?_).trans ((watchdogReset_withTune _ _).trans
    ((watchdogReset_withStatus _ _).trans (watchdogReset_withDec _ ?_)))
  · exact hcomb
  · exact hdbuf

end

/-! The raw minute of acquisition. -/

theorem memRead_congr {s t : State} (h : ∀ A, t.array A = s.array A) (A : ArrName) (j : Nat) :
    memRead t A j = memRead s A j := by
  unfold memRead
  rw [h]

theorem array_ageAlarm (s : State) (A : ArrName) : (ageAlarm s).array A = s.array A := by cases A <;> rfl

section
variable {s : State} {pair : ByStation ChanRec} (hsync : s.msync = false)
  (hpair : s.acq.chan[s.acq.pchan]? = some pair) (ha : s.acq.ms.a.Measurable) (hb : s.acq.ms.b.Measurable)
include hsync hpair ha hb

/-- The acquisition step scores both records, then accepts or advances (R180 to R183). -/
theorem exec_rawmin_of_measurable : ∃ u, Acquired (scoredPair s.cfg s.acq.ms (fun _ => 0) pair) s u ∧
    exec .rawmin s = .next (ageAlarm (watchdogUpdate (scanReset u))) := by
  obtain ⟨v, hv, hscored⟩ := updateChans_of_measurable hpair ha hb (fun _ => 0)
  have hacquire := acquisition_ok.mpr ⟨_, _, _, _, _, hv, hscored, withProbe_chan_same hpair _, rfl⟩
  exact ⟨_, acceptOrAdvance_acquired _ s, commit_next.mpr (.inl (rawMinute_ok.mpr (.inr ⟨hsync, _, hacquire, rfl⟩)))⟩

end

/-- Settles O55: the step leaves an acquired state, whose counters decide between the ageing and the reset. -/
theorem rawMinuteAcquires : Obligations.RawMinuteAcquires := by
  intro s pair hsync hpair ha hb a b win stalled pchan dchan wd within
  obtain ⟨u, hu, hexec⟩ := exec_rawmin_of_measurable hsync hpair ha hb
  have hcount : watchdogCount (scanReset u) = wd := hu.watchdogCount_eq hsync
  rw [hexec]
  refine ⟨fun hwithin => ?_, fun hexceeded => ?_⟩
  · rw [watchdogUpdate_of_inRange (hcount ▸ hwithin), hcount]
    have htacq : (ageAlarm ((scanReset u).withWd wd)).acq = { u.acq with ms := ⟨.zeros, .zeros⟩ } := rfl
    rw [hu.acq] at htacq
    refine ⟨_, rfl, ?_, fun f hf => ?_, ?_, rfl, ?_, hu.msync_eq hsync, fun f h0 h5 h6 => ?_, ?_, fun hw => ?_,
      fun w hw => ?_, ?_, ?_⟩
    · rw [htacq]
      exact withProbe_chan_same hpair _
    · rw [htacq]
      exact withProbe_chan_ne _ _ hf
    · rw [htacq]
      rfl
    · exact congrArg ageWord hu.alarm
    · exact (hu.flag f h5 h6).trans (by simp [h0])
    · change u.out = _
      rw [hu.out, hu.acq]
      rfl
    · obtain ⟨hsel, hepoch, hdec⟩ := hu.ofNone hw
      exact ⟨hsel, hepoch, congrArg (fun d : Dec => { d with alarm := ageWord u.dec.alarm }) hdec⟩
    · have hpos : ((scoredPair s.cfg s.acq.ms (fun _ => 0) pair).get w).pos =
          if w = .a then s.acq.ms.a.pos else s.acq.ms.b.pos := by cases w <;> rfl
      have hstation := hu.ofSome w hw
      rw [hpos] at hstation
      have hdec : u.dec = _ := (congrArg State.dec hstation).trans (acceptStation_dec w _ _)
      refine ⟨(congrArg State.sel hstation).trans (acceptStation_sel w _ _), ?_,
        (congrArg State.epoch hstation).trans (acceptStation_epoch w _ _)⟩
      exact congrArg (fun d : Dec => { d with alarm := ageWord u.dec.alarm }) hdec
    · exact memRead_congr fun A => (array_ageAlarm _ A).trans (hu.array A)
    · conv_lhs => rw [hu.rest]
      rfl
  · rw [watchdogUpdate_of_not_inRange (hcount ▸ hexceeded), ageAlarm_watchdogReset, watchdogReset_scanReset,
      hu.watchdogReset_eq]
    refine congrArg Host.Outcome.next (watchdogReset_withAcq s ?_ ?_) <;> rw [hu.acq] <;> rfl

end Sys2Proof.Machine
end

section
/-! PROOF. The close of a probe window and the selection at the end of a rotation (42_station_acquisition.md R186 to
R192). -/

namespace Sys2Proof.Machine

/-! The close of a probe window up to the selection (R186, R187). -/

/-- The acquisition registers with the window closed, both records of the probe channel scored and its errors counted. -/
def Acq.probeClosed (a : Acq) (pair : ByStation ChanRec) (errors : Nat) : Acq :=
  { a.withProbe pair with win := false, cherr := a.cherr.set a.pchan errors }

/-- The channel errors count where neither station passes (R187). -/
theorem channelErrors_count (okA okB : Bool) (n : Nat) :
    (if !okA && !okB then min (n + 1) 255 else 0) = if okA || okB then 0 else min (n + 1) 255 := by
  cases okA <;> cases okB <;> rfl

/-- The close scores both records and counts the errors, then selects and rotates. -/
theorem exec_pend_of_measurable {s x : State} {pair : ByStation ChanRec} {n : Nat}
    (hpair : s.acq.chan[s.acq.pchan]? = some pair) (hn : s.acq.cherr[s.acq.pchan]? = some n)
    (ha : s.acq.ms.a.Measurable) (hb : s.acq.ms.b.Measurable)
    (hx : endOfRotation (s.withAcq (s.acq.probeClosed (scoredPair s.cfg s.acq.ms (· - 1) pair)
      (if pair.a.passes s.cfg s.acq.ms.a || pair.b.passes s.cfg s.acq.ms.b then 0 else min (n + 1) 255))) = .ok x) :
    exec .pend s = .next (rotateProbe x) := by
  obtain ⟨v, hv, hscored⟩ :=
    updateChans_of_measurable (s := s.withAcq { s.acq with win := false }) hpair ha hb (· - 1)
  rw [← channelErrors_count] at hx
  exact commit_next.mpr (.inl (probeClose_ok.mpr
    ⟨_, _, _, _, _, x, hv, hscored, channelErrors_ok.mpr ⟨n, hn, rfl⟩, hx, rfl⟩))

/-! The best channel (R188). -/

/-- One channel comes before another where they tie: the higher frequency, then station A. -/
def Precedes (c d : Nat × Station) : Prop := d.1 < c.1 ∨ (d.1 = c.1 ∧ c.2 = .a ∧ d.2 = .b)

theorem selectionOrder_sorted : selectionOrder.Pairwise Precedes := by
  unfold Precedes
  decide

theorem selectionOrder_mem {f : Nat} (st : Station) : (f, st) ∈ selectionOrder ↔ f < 5 := by
  cases st <;> simp [selectionOrder] <;> omega

/-- A channel is the best of a list: no count exceeds its count, and it precedes every other of the same count. -/
structure IsBestChannel (s : State) (l : List (Nat × Station)) (c : Nat × Station) : Prop where
  mem : c ∈ l
  le : ∀ d ∈ l, s.chanCount d.1 d.2 ≤ s.chanCount c.1 c.2
  first : ∀ d ∈ l, s.chanCount d.1 d.2 = s.chanCount c.1 c.2 → d = c ∨ Precedes c d

theorem chanCount_congr {s t : State} (h : t.acq.chan = s.acq.chan) (f : Nat) (st : Station) :
    t.chanCount f st = s.chanCount f st := by
  unfold State.chanCount
  rw [h]

section
variable {s : State}

theorem readChan_of_lt {f : Nat} (hf : f < s.acq.chan.length) :
    ∃ pair, readChan s f = .ok pair ∧ ∀ st, (pair.get st).count = s.chanCount f st := by
  have hread := List.getElem?_eq_getElem hf
  refine ⟨_, readChan_ok.mpr hread, fun st => ?_⟩
  unfold State.chanCount
  rw [hread]

/-- The search passes a channel: it becomes the best if its count is the first or exceeds the best count. -/
theorem bestChannel_cons {f : Nat} (hf : f < s.acq.chan.length) (st : Station) (rest : List (Nat × Station))
    (best : Option (Nat × Station × Nat)) :
    bestChannel s ((f, st) :: rest) best = bestChannel s rest (match best with
      | none => some (f, st, s.chanCount f st)
      | some (f', st', n') => if n' < s.chanCount f st then some (f, st, s.chanCount f st) else some (f', st', n')) := by
  obtain ⟨pair, hread, hcount⟩ := readChan_of_lt hf
  rw [bestChannel, hread, ← hcount st]
  rfl

/-- The search keeps the best of the channels seen, so it ends with the best of all. -/
theorem bestChannel_isBest {best : Nat × Station} {seen rest : List (Nat × Station)}
    (h : IsBestChannel s seen best) (hsort : (seen ++ rest).Pairwise Precedes)
    (hlen : ∀ d ∈ rest, d.1 < s.acq.chan.length) :
    ∃ c, bestChannel s rest (some (best.1, best.2, s.chanCount best.1 best.2)) =
      .ok (some (c.1, c.2, s.chanCount c.1 c.2)) ∧ IsBestChannel s (seen ++ rest) c := by
  induction rest generalizing best seen with
  | nil => exact ⟨best, rfl, by simpa using h⟩
  | cons c rest ih =>
    have hlater : Precedes best c := (List.pairwise_append.mp hsort).2.2 best h.mem c List.mem_cons_self
    have hrest : ∀ d ∈ rest, d.1 < s.acq.chan.length := fun d hd => hlen d (List.mem_cons_of_mem c hd)
    rw [bestChannel_cons (hlen c List.mem_cons_self)]
    rw [List.append_cons] at hsort ⊢
    dsimp only
    split
    · next hlt =>
      refine ih ⟨by simp, fun d hd => ?_, fun d hd heq => ?_⟩ hsort hrest <;>
        rcases List.mem_append.mp hd with hd | hd
      · exact (h.le d hd).trans hlt.le
      · rw [List.mem_singleton.mp hd]
      · exact absurd (heq ▸ h.le d hd) (by omega)
      · exact .inl (List.mem_singleton.mp hd)
    · next hlt =>
      refine ih ⟨by simp [h.mem], fun d hd => ?_, fun d hd heq => ?_⟩ hsort hrest <;>
        rcases List.mem_append.mp hd with hd | hd
      · exact h.le d hd
      · rw [List.mem_singleton.mp hd]
        exact Nat.le_of_not_lt hlt
      · exact h.first d hd heq
      · exact .inr (List.mem_singleton.mp hd ▸ hlater)

/-- Over all ten channels. -/
theorem bestChannel_selectionOrder (hlen : s.acq.chan.length = 5) :
    ∃ c, bestChannel s selectionOrder none = .ok (some (c.1, c.2, s.chanCount c.1 c.2)) ∧
      IsBestChannel s selectionOrder c := by
  have hlt : ∀ d ∈ selectionOrder, d.1 < s.acq.chan.length := fun d hd => hlen ▸ (selectionOrder_mem d.2).mp hd
  have hhead : IsBestChannel s [(4, .a)] (4, .a) := ⟨by simp, by simp, by simp⟩
  have hsearch := bestChannel_isBest hhead selectionOrder_sorted fun d hd => hlt d (List.mem_cons_of_mem _ hd)
  rwa [← bestChannel_cons (hlt (4, .a) List.mem_cons_self) .a _ none] at hsearch

end

/-! The selection (R189, R190). -/

/-- `x` is the state `s` after the best channel, of frequency `f`, station `st` and a count of `n`, is put to use. -/
structure Selected (f : Nat) (st : Station) (n : Nat) (s x : State) : Prop where
  lost : n = 0 → x.sel = .none ∧ x.msync = false ∧ x.ssync = false ∧
    x.acq = { s.acq with ms := ⟨.zeros, .zeros⟩ } ∧ x.epoch = s.epoch ∧
    ∀ b, b ≠ 0 → b ≠ 1 → b ≠ 5 → b ≠ 6 → x.flag b = s.flag b
  chosen : n ≠ 0 → x.sel = Sel.ofStation st ∧ x.acq = { s.acq with dchan := f } ∧
    x.epoch = { s.epoch with
      tsecStart := if f = s.acq.dchan ∧ s.sel.station = some st then s.epoch.tsecStart
        else (((s.epoch.rsecStart : Int) - s.cfg.propDelay.get st) % 8000).toNat } ∧
    ∀ b, b ≠ 5 → b ≠ 6 → x.flag b = s.flag b
  array : ∀ A, x.array A = s.array A
  rest : x = ((s.withAcq x.acq).withEpoch x.epoch).withStatus x.status

theorem loseStations_selected (f : Nat) (st : Station) (s : State) : Selected f st 0 s (loseStations s) where
  lost _ := by
    have hsel : (loseStations s).sel = (setFlag bitSsync false (setFlag bitMsync false (setSel none s))).sel := rfl
    have hflag (b : Nat) : (loseStations s).flag b =
        (setFlag bitSsync false (setFlag bitMsync false (setSel none s))).flag b := rfl
    refine ⟨?_, ?_, ?_, rfl, rfl, fun b h0 h1 h5 h6 => ?_⟩
    · rw [hsel, sel_setFlag _ (by decide) (by decide) (by decide), sel_setFlag _ (by decide) (by decide) (by decide),
        sel_setSel]
    · simp [State.msync, hflag, flag_setFlag]
    · simp [State.ssync, hflag, flag_setFlag]
    · rw [hflag, flag_setFlag _ (by decide), flag_setFlag _ (by decide), flag_setSel _ _ h5 h6, if_neg h1, if_neg h0]
  chosen h := absurd rfl h
  array A := by cases A <;> rfl
  rest := rfl

theorem applySelection_selected {n : Nat} (hn : n ≠ 0) (f : Nat) (st : Station) (s : State) :
    Selected f st n s (applySelection f st s) := by
  unfold applySelection
  split
  · next hsame =>
    obtain ⟨rfl, hstation⟩ := hsame
    exact {
      lost := fun h => absurd h hn
      chosen := fun _ => ⟨station_eq_some_iff.mp hstation, rfl, by rw [if_pos ⟨rfl, hstation⟩], fun _ _ _ => rfl⟩
      array := fun _ => rfl
      rest := rfl }
  · next hother =>
    exact {
      lost := fun h => absurd h hn
      chosen := fun _ => by
        refine ⟨sel_setSel_some s st, rfl, ?_, fun b h5 h6 => flag_setSel s (some st) h5 h6⟩
        rw [if_neg hother]
        rfl
      array := fun A => by cases A <;> rfl
      rest := rfl }

theorem useBest_selected (f : Nat) (st : Station) (n : Nat) (s : State) :
    Selected f st n s (useBest s (some (f, st, n))) := by
  unfold useBest
  dsimp only
  split
  · next h => exact h ▸ loseStations_selected f st s
  · next h => exact applySelection_selected h f st s

section
variable {f : Nat} {st : Station} {n : Nat} {s x : State} (h : Selected f st n s x)
include h

theorem Selected.acq_eq : x.acq = { s.acq with dchan := x.acq.dchan, ms := x.acq.ms } := by
  by_cases hn : n = 0
  · obtain ⟨-, -, -, hacq, -⟩ := h.lost hn
    rw [hacq]
  · obtain ⟨-, hacq, -⟩ := h.chosen hn
    rw [hacq]

/-- The probe starts again at the lowest frequency (R191). -/
theorem Selected.rotateProbe_acq (hp : s.acq.pchan = 4) :
    (rotateProbe x).acq = { s.acq with pchan := 0, dchan := x.acq.dchan, ms := x.acq.ms } := by
  change { x.acq with pchan := (x.acq.pchan + 1) % 5 } = _
  rw [h.acq_eq]
  simp [hp]

/-- The tuner follows the working channel, or the probe without minute sync (R192). -/
theorem Selected.rotateProbe_out : (rotateProbe x).out =
    { s.out with tune := if x.msync then x.acq.dchan else (rotateProbe x).acq.pchan } :=
  congrArg (fun o : OutRegs => { o with tune := if x.msync then x.acq.dchan else (rotateProbe x).acq.pchan })
    (congrArg State.out h.rest :)

theorem Selected.rotateProbe_rest : rotateProbe x =
    (((s.withAcq (rotateProbe x).acq).withEpoch (rotateProbe x).epoch).withOut (rotateProbe x).out).withStatus
      (rotateProbe x).status := by
  rw [h.rotateProbe_out]
  conv_lhs => rw [h.rest]
  rfl

end

/-- At the end of a rotation the best channel is put to use (R188 to R190). -/
theorem endOfRotation_selected {s : State} (hp : s.acq.pchan = 4) (hlen : s.acq.chan.length = 5) :
    ∃ c x, endOfRotation s = .ok x ∧ IsBestChannel s selectionOrder c ∧
      Selected c.1 c.2 (s.chanCount c.1 c.2) s x := by
  obtain ⟨c, hsearch, hbest⟩ := bestChannel_selectionOrder hlen
  exact ⟨c, _, endOfRotation_ok.mpr (.inl ⟨hp, _, hsearch, rfl⟩), hbest, useBest_selected _ _ _ s⟩

/-- Settles O43: the best channel is that of the scored counts, and the probe rotates after its selection. -/
theorem pendSelectsAtTheEndOfARotation : Obligations.PendSelectsAtTheEndOfARotation := by
  intro s pair n hp hlen hpair hn ha hb
  rw [← hp] at hpair hn
  let scored := scoredPair s.cfg s.acq.ms (· - 1) pair
  let errors := if pair.a.passes s.cfg s.acq.ms.a || pair.b.passes s.cfg s.acq.ms.b then 0 else min (n + 1) 255
  obtain ⟨⟨f, st⟩, x, hx, hbest, hselected⟩ :=
    endOfRotation_selected (s := s.withAcq (s.acq.probeClosed scored errors)) hp (List.length_set.trans hlen)
  have hacq := hselected.rotateProbe_acq hp
  have hcount (g : Nat) (sg : Station) :
      (rotateProbe x).chanCount g sg = (s.withAcq (s.acq.probeClosed scored errors)).chanCount g sg :=
    chanCount_congr (by rw [hacq]) g sg
  refine ⟨rotateProbe x, f, st, exec_pend_of_measurable hpair hn ha hb hx, ?_, fun g hg => ?_, ?_, ?_, ?_,
    (selectionOrder_mem st).mp hbest.mem, fun g sg hg => ?_, fun g sg hg heq => ?_, fun h0 => ?_, fun h0 => ?_,
    memRead_congr hselected.array, hselected.rotateProbe_rest⟩
  · rw [hacq]
    exact hp ▸ withProbe_chan_same hpair scored
  · rw [hacq]
    rw [← hp] at hg
    exact ⟨withProbe_chan_ne s.acq scored hg, List.getElem?_set_ne hg.symm⟩
  · rw [hacq]
    exact hp ▸ List.getElem?_set_self (List.getElem?_eq_some_iff.mp hn).1
  · rw [hacq]
  · rw [hacq]
    rfl
  · rw [hcount, hcount]
    exact hbest.le (g, sg) ((selectionOrder_mem sg).mpr hg)
  · rw [hcount, hcount] at heq
    rcases hbest.first (g, sg) ((selectionOrder_mem sg).mpr hg) heq with h | h | ⟨rfl, h⟩
    · cases h
      exact .inr ⟨rfl, .inl rfl⟩
    · exact .inl h
    · exact .inr ⟨rfl, .inr h⟩
  · rw [hcount] at h0
    obtain ⟨hsel, hmsync, hssync, hxacq, hepoch, hflag⟩ := hselected.lost h0
    refine ⟨hsel, hmsync, hssync, ?_, hepoch, ?_, hflag⟩
    · rw [hacq, hxacq]
      rfl
    · rw [hselected.rotateProbe_out, hmsync, hacq]
      rfl
  · rw [hcount] at h0
    obtain ⟨hsel, hxacq, hepoch, hflag⟩ := hselected.chosen h0
    have hmsync : x.msync = s.msync := hflag bitMsync (by decide) (by decide)
    refine ⟨hsel, ?_, hepoch, ?_, hflag⟩
    · rw [hacq, hxacq]
      rfl
    · rw [hselected.rotateProbe_out, hmsync, hacq, hxacq]
      rfl

end Sys2Proof.Machine
end

section
/-! PROOF. The words of the ROM actions as their tag and operand (30_encoding.md R101, R104), and the actions that store
a coefficient (43_bcd_decoder.md R202 to R205). -/

namespace Sys2Proof

/-- A tag in the upper half of a word and an operand in its lower half make the word of both (R101). -/
theorem tag_or_operand {op arg : Nat} (hop : op < 16) (harg : arg < 16) :
    BitVec.ofNat 8 (op * 16) ||| BitVec.ofNat 8 arg = romWord op arg := by
  have key : ∀ op < 16, ∀ arg < 16, BitVec.ofNat 8 (op * 16) ||| BitVec.ofNat 8 arg = romWord op arg := by decide
  exact key op hop arg harg

/-- A well-formed action decodes from its tag and its operand (R104). -/
theorem decodeRom_tag_or_operand {i : Instr} {op arg : Nat} (h : i.wellFormed = true)
    (hw : encode i = .rom (romWord op arg)) (hop : op < 16) (harg : arg < 16) :
    decodeRom (BitVec.ofNat 8 (op * 16) ||| BitVec.ofNat 8 arg) = i := by
  rw [tag_or_operand hop harg]
  exact decodeRom_of_encode h hw

namespace Machine

/-- A rule that answers a state commits it. -/
theorem exec_of_rule {i : Instr} {s t : State} (hi : i.isRom = true) (h : romAction i s = .ok t) :
    exec i s = .next t := by
  rw [exec_romAction hi, h]
  rfl

/-- Two states that agree in an array read it alike. -/
theorem memRead_of_array {s t : State} {A : ArrName} (h : t.array A = s.array A) (j : Nat) :
    memRead t A j = memRead s A j := by
  unfold memRead
  rw [h]

/-- A state with one element of one array written reads as before everywhere else. -/
theorem memRead_put_frame {s t : State} {A : ArrName} {a : RealArray} {i : Nat} {v : F64} (hs : s.array A = some a)
    (ht : t.array A = some (a.put i v)) (hwf : a.wf A.size = true) (hi : i < A.size)
    (hother : ∀ B, B ≠ A → t.array B = s.array B) (B : ArrName) (j : Nat) (hB : ¬(B = A ∧ j = i)) :
    memRead t B j = memRead s B j := by
  by_cases hBA : B = A
  · subst hBA
    exact (memRead_put hs ht hwf hi).2 j fun hj => hB ⟨rfl, hj⟩
  · exact memRead_of_array (hother B hBA) j

/-- Storing a coefficient writes one element of `bcd` and nothing else (R203 to R205). -/
theorem storeBcd_stores {s : State} {i : Nat} (hi : i < 4) (hwf : s.dec.bcd.wf 4 = true) (v : F64) :
    ∃ t, storeBcd i v s = .ok t ∧ memRead t .bcd i = .ok v ∧
      (∀ (A : ArrName) (j : Nat), ¬(A = .bcd ∧ j = i) → memRead t A j = memRead s A j) ∧
      t = s.withDec { s.dec with bcd := t.dec.bcd } := by
  refine ⟨_, storeBcd_ok.mpr ⟨hi, rfl⟩, (memRead_put (s := s) (A := .bcd) rfl rfl hwf hi).1,
    memRead_put_frame (A := .bcd) rfl rfl hwf hi fun B hB => ?_, rfl⟩
  cases B with
  | bcd => exact absurd rfl hB
  | _ => rfl


/-- Settles O33: the rule of IDLE is the state itself. -/
theorem idleHasNoEffect : Obligations.IdleHasNoEffect := ⟨by decide, fun _ => rfl⟩

/-- Settles O34: COEF stores the bit, which is +0.0 for an erased second. -/
theorem coefStoresTheBit : Obligations.CoefStoresTheBit := by
  intro s i hi hwf
  obtain ⟨t, ht, hread, hframe, hrest⟩ := storeBcd_stores hi hwf s.dataBit
  refine ⟨decodeRom_tag_or_operand (op := 1) (decide_eq_true hi) rfl (by decide) (by omega), t,
    exec_of_rule (i := .coef i) rfl ht, hread, fun herased => ?_, hframe, hrest⟩
  rw [hread, State.dataBit, if_pos herased]

/-- Settles O35: COEFG stores the gated bit. -/
theorem coefgIsGatedOnDsync : Obligations.CoefgIsGatedOnDsync := by
  intro s i hi hwf
  obtain ⟨t, ht, hstored⟩ := storeBcd_stores hi hwf (if s.dsync then s.dataBit else .zero)
  exact ⟨decodeRom_tag_or_operand (op := 2) (decide_eq_true hi) rfl (by decide) (by omega), t,
    exec_of_rule (i := .coefg i) rfl ht, hstored⟩

/-- Settles O36: COEFZ stores +0.0. -/
theorem coefzStoresZero : Obligations.CoefzStoresZero := by
  intro s i hi hwf
  obtain ⟨t, ht, hstored⟩ := storeBcd_stores hi hwf .zero
  exact ⟨decodeRom_tag_or_operand (op := 3) (decide_eq_true hi) rfl (by decide) (by omega), t,
    exec_of_rule (i := .coefz i) rfl ht, hstored⟩

end Machine

end Sys2Proof
end

section
/-! PROOF. The digit decode (43_bcd_decoder.md R207 to R210): the smoothed likelihoods, their lowest maximum, and what
DECIM leaves. -/

namespace Sys2Proof.Machine

/-! The maximum-likelihood digit (R208). -/

section
variable {r : Nat} {like : RealArray}

theorem mem_likeCells {c : Nat × F64} : c ∈ likeCells r like ↔ c.1 < r ∧ c.2 = like.get c.1 := by
  obtain ⟨d, v⟩ := c
  simp [likeCells, eq_comm]

theorem likeCells_sorted : (likeCells r like).Pairwise (·.1 < ·.1) := List.pairwise_map.mpr List.pairwise_lt_range

/-- The cell a digit decode picks is the best of all, and the runner-up the best of the others. -/
theorem mlOf_isBest (hr : 2 ≤ r) (hnan : ∀ d, d < r → (like.get d).isNaN = false) :
    IsBest (likeCells r like) ((mlOf r like).ml, (mlOf r like).top) ∧
      ∃ next, IsBest ((likeCells r like).filter fun c => c.1 != (mlOf r like).ml) next ∧
        (mlOf r like).snr =
          if (mlOf r like).top.le .zero then .zero
          else if next.2.le .zero then Config.dsnrCap
          else F64.min Config.dsnrCap (Config.twenty.mul (Config.log10 ((mlOf r like).top.div next.2))) := by
  have hcells : ∀ c ∈ likeCells r like, c.2.isNaN = false := fun c hc => by
    obtain ⟨hlt, hget⟩ := mem_likeCells.mp hc
    rw [hget]
    exact hnan c.1 hlt
  have hcell {d : Nat} (hd : d < r) : (d, like.get d) ∈ likeCells r like := mem_likeCells.mpr ⟨hd, rfl⟩
  have hother : ∃ d, d < r ∧ d ≠ (mlOf r like).ml := by
    by_cases h0 : (mlOf r like).ml = 0
    · exact ⟨1, by omega, by omega⟩
    · exact ⟨0, by omega, Ne.symm h0⟩
  obtain ⟨d, hd, hne⟩ := hother
  refine ⟨bestCell_isBest (List.ne_nil_of_mem (hcell (by omega : 0 < r))) likeCells_sorted hcells, _,
    bestCell_isBest (List.ne_nil_of_mem (List.mem_filter.mpr ⟨hcell hd, bne_iff_ne.mpr hne⟩))
      (likeCells_sorted.filter _) fun c hc => hcells c (List.mem_filter.mp hc).1, rfl⟩

end

/-- Settles O37: both the digit and the runner-up are the best cell of a list without NaN. -/
theorem mlDigitIsTheLowestMaximum : Obligations.MlDigitIsTheLowestMaximum := by
  intro r like hr hnan m
  obtain ⟨hbest, next, hnext, hsnr⟩ := mlOf_isBest hr hnan
  obtain ⟨hml, htop⟩ := mem_likeCells.mp hbest.mem
  obtain ⟨hmem, hne⟩ := List.mem_filter.mp hnext.mem
  obtain ⟨hn, hget⟩ := mem_likeCells.mp hmem
  have hcell {d : Nat} (hd : d < r) : (d, like.get d) ∈ likeCells r like := mem_likeCells.mpr ⟨hd, rfl⟩
  refine ⟨hml, htop, fun d hd => hbest.le _ (hcell hd), fun d hd => hbest.lt _ (hcell (hd.trans hml)) hd, next.1, hn,
    bne_iff_ne.mp hne, fun d hd hdm => ?_, ?_⟩
  · rw [← hget]
    exact hnext.le _ (List.mem_filter.mpr ⟨hcell hd, bne_iff_ne.mpr hdm⟩)
  · rw [← hget]
    exact hsnr

/-! The smoothed likelihoods (R207). -/

/-- Smoothing completes where the new likelihoods are finite; each digit's follows from its own old one. -/
theorem smoothLikes_of_finite {cfg : Config.Cfg} {bcd a : RealArray} {n r : Nat} (hr : r ≤ n) (hwf : a.wf n = true)
    (h : ∀ j, j < r → (likeNext cfg bcd j (a.get j)).isFinite = true) :
    ∃ b, smoothLikes cfg bcd r a = .ok b ∧
      ∀ j, b.get j = if j < r then likeNext cfg bcd j (a.get j) else a.get j := by
  induction r with
  | zero => exact ⟨a, rfl, fun j => by rw [if_neg (Nat.not_lt_zero j)]⟩
  | succ d ih =>
    obtain ⟨b, hb, hget⟩ := ih (by omega) fun j hj => h j (by omega)
    have hd : b.get d = a.get d := by rw [hget, if_neg (Nat.lt_irrefl d)]
    refine ⟨b.put d (likeNext cfg bcd d (a.get d)), ?_, fun j => ?_⟩
    · simp only [smoothLikes, res_bind_ok, finite_ok]
      exact ⟨b, hb, _, ⟨hd ▸ h d (Nat.lt_succ_self d), hd ▸ rfl⟩, rfl⟩
    · rw [get_put (smoothLikes_wf (by omega) hwf hb), hget]
      rcases Nat.lt_trichotomy j d with hj | rfl | hj
      · rw [if_neg (by omega), if_pos hj, if_pos (by omega)]
      · rw [if_pos rfl, if_pos (by omega)]
      · rw [if_neg (by omega), if_neg (by omega), if_neg (by omega)]

/-! The decoded digit (R209). -/

/-- The stored phase is the new one, whether or not it is the old one. -/
theorem comparePhase_eq (ph : Nat) (d : DigitVec) :
    comparePhase ph d = (if ph = d.phase then min (d.count + 1) Config.bCmp else 1, ph) := by
  unfold comparePhase
  split
  · next h => rw [h]
  · rfl

/-- The phase that a decode compares, the count after it, and whether the digit snaps. -/
def decodedPhase (r : Nat) (like : RealArray) (d : DigitVec) : Nat := phaseOf r (mlOf r like) d
def decodedCount (r : Nat) (like : RealArray) (d : DigitVec) : Nat :=
  if decodedPhase r like d = d.phase then min (d.count + 1) Config.bCmp else 1
def decodedSnap (cfg : Config.Cfg) (r : Nat) (like : RealArray) (d : DigitVec) : Bool :=
  snaps cfg (decodedCount r like d) (mlOf r like)

/-- The digit vector after a decode, field by field. -/
theorem decodeDigit_eq (cfg : Config.Cfg) (r : Nat) (like : RealArray) (d : DigitVec) :
    decodeDigit cfg r like d =
      ({ digit := if decodedSnap cfg r like d then (mlOf r like).ml else d.digit
         mldigit := (mlOf r like).ml
         phase := if decodedSnap cfg r like d then 0 else decodedPhase r like d
         count := decodedCount r like d
         locked := decodedSnap cfg r like d
         like := like }, decodedSnap cfg r like d) := by
  unfold decodeDigit decodedSnap
  dsimp only
  rw [comparePhase_eq]
  change (if snaps cfg (decodedCount r like d) (mlOf r like) then _ else _) = _
  cases snaps cfg (decodedCount r like d) (mlOf r like) <;> rfl

/-! What DECIM leaves. -/

/-- Raising an alarm where a condition holds writes the alarm word alone (60_exceptions.md R262). -/
theorem raiseAlarm_if {c : Nat} (hc : c < 4) (P : Prop) [Decidable P] (s : State) :
    ∃ a, (if P then raiseAlarm c s else s) = s.withDec { s.dec with alarm := a } ∧
      ∀ b, a.getLsbD b = (s.dec.alarm.getLsbD b || (b == 4 * c && decide P)) := by
  by_cases hP : P
  · refine ⟨(raiseAlarm c s).dec.alarm, by rw [if_pos hP]; rfl, fun b => ?_⟩
    rw [alarm_raiseAlarm s hc, Bool.or_comm, decide_eq_true hP, Bool.and_true, beq_eq_decide]
  · exact ⟨s.dec.alarm, by rw [if_neg hP]; rfl, fun b => by simp [hP]⟩

/-- Setting a flag where a condition holds writes the status word alone (10_state.md R40). -/
theorem setFlag_if {f : Nat} (hf : f < 8) (P : Prop) [Decidable P] (s : State) :
    ∃ w, (if P then setFlag f true s else s) = s.withStatus w ∧
      ∀ b, w.getLsbD b = (s.flag b || (b == f && decide P)) := by
  by_cases hP : P
  · refine ⟨(setFlag f true s).status, by rw [if_pos hP]; rfl, fun b => ?_⟩
    change (setFlag f true s).flag b = _
    rw [flag_setFlag s hf]
    by_cases hb : b = f <;> simp [hb, hP]
  · exact ⟨s.status, by rw [if_neg hP]; rfl, fun b => by simp [hP, State.flag]⟩

/-- `t` is the state `s` after the decode of D[p], which was `d`, with the smoothed likelihoods `like`. -/
structure Decoded (p : Nat) (d : DigitVec) (like : RealArray) (s t : State) : Prop where
  digits : t.dec.digits = s.dec.digits.set p (decodeDigit s.cfg (radix p) like d).1
  flag : ∀ b, t.flag b = (s.flag b || (b == bitDlock && decodedSnap s.cfg (radix p) like d))
  alarm : ∀ b, t.dec.alarm.getLsbD b = (s.dec.alarm.getLsbD b || (b == 0 && decodedPhase (radix p) like d != 0))
  rest : t = (s.withDec { s.dec with digits := t.dec.digits, alarm := t.dec.alarm }).withStatus t.status

/-- A decode writes no array but the likelihoods of its digit. -/
theorem Decoded.array {p : Nat} {d : DigitVec} {like : RealArray} {s t : State} (h : Decoded p d like s t)
    {A : ArrName} (hA : A ≠ .like p) : t.array A = s.array A := by
  rw [h.rest]
  cases A with
  | like q =>
    change (t.dec.digits[q]?).map DigitVec.like = (s.dec.digits[q]?).map DigitVec.like
    rw [h.digits, List.getElem?_set_ne fun hq => hA (congrArg ArrName.like hq.symm)]
  | _ => rfl

/-- The decode of a digit completes where its new likelihoods are finite. -/
theorem decimAction_of_finite {s : State} {p : Nat} {d : DigitVec} (hp : p < Config.nDig)
    (hd : s.dec.digits[p]? = some d) (hwf : d.like.wf Config.nLike = true)
    (h : ∀ j, j < radix p → (likeNext s.cfg s.dec.bcd j (d.like.get j)).isFinite = true) :
    ∃ like t, decimAction p s = .ok t ∧ Decoded p d like s t ∧
      ∀ j, like.get j = if j < radix p then likeNext s.cfg s.dec.bcd j (d.like.get j) else d.like.get j := by
  obtain ⟨like, hlike, hget⟩ := smoothLikes_of_finite (radix_le p) hwf h
  have ht := decimAction_ok.mpr ⟨d, like, readDigit_ok.mpr ⟨hp, hd⟩, hlike, rfl⟩
  dsimp only at ht
  obtain ⟨w, hw, hflag⟩ := setFlag_if (f := bitDlock) (by decide) ((decodeDigit s.cfg (radix p) like d).2 = true)
    (writeDigit s p (decodeDigit s.cfg (radix p) like d).1)
  rw [hw] at ht
  obtain ⟨a, ha, halarm⟩ := raiseAlarm_if (c := 0) (by decide) (phaseOf (radix p) (mlOf (radix p) like) d ≠ 0)
    ((writeDigit s p (decodeDigit s.cfg (radix p) like d).1).withStatus w)
  rw [ha] at ht
  refine ⟨like, _, ht, ⟨rfl, fun b => ?_, fun b => ?_, rfl⟩, hget⟩
  · refine (hflag b).trans ?_
    rw [decodeDigit_eq, Bool.decide_eq_true]
    rfl
  · refine (halarm b).trans ?_
    rw [decide_not, ← beq_eq_decide]
    rfl

/-- Settles O38: the decode is its smoothing and its decoded digit, each read field by field. -/
theorem decimDecodesADigit : Obligations.DecimDecodesADigit := by
  intro s p d hp hd hwf r cb c score new hnew
  obtain ⟨like, t, ht, hdecoded, hget⟩ := decimAction_of_finite hp hd hwf hnew
  have hat : t.dec.digits[p]? = some (decodeDigit s.cfg r like d).1 := by
    rw [hdecoded.digits]
    exact List.getElem?_set_self (List.getElem?_eq_some_iff.mp hd).1
  rw [decodeDigit_eq] at hat
  refine ⟨decodeRom_tag_or_operand (op := 4) (decide_eq_true hp) rfl (by decide) (by omega), t, _,
    exec_of_rule (i := .decim p) rfl ht, hat, hget, ⟨rfl, rfl, rfl, rfl, rfl, hdecoded.flag, hdecoded.alarm⟩,
    fun q hq => ?_, fun A j hA => memRead_of_array (hdecoded.array hA) j, hdecoded.rest⟩
  rw [hdecoded.digits]
  exact List.getElem?_set_ne hq.symm

end Sys2Proof.Machine
end

section
/-! PROOF. The miscellaneous bits (43_bcd_decoder.md R211 to R214): what an update of one leaves, alone, after a digit
decode, and before the probe window opens. -/

namespace Sys2Proof.Machine

/-- `t` is the state `s` after the update of misc bit `b` (R211). -/
structure MiscUpdated (b : Nat) (s t : State) : Prop where
  miscp : t.dec.miscp = s.dec.miscp.put b (miscNext s b)
  misc : ∀ j, t.miscBit j =
    if j = b then
      (if s.cfg.mthr.lt (miscNext s b) then true
        else if (miscNext s b).lt s.cfg.mthr.neg then false else s.miscBit b)
    else s.miscBit j
  alarm : ∀ j, t.dec.alarm.getLsbD j = (s.dec.alarm.getLsbD j ||
    (j == 4 && !s.cfg.mthr.lt (miscNext s b) && !(miscNext s b).lt s.cfg.mthr.neg))
  rest : t = s.withDec { s.dec with miscp := t.dec.miscp, misc := t.dec.misc, alarm := t.dec.alarm }

section
variable {b : Nat} {s t : State}

/-- The decision sets the bit, clears it, or leaves it and raises SYMERR. -/
theorem miscDecide_miscUpdated (hb : b < 7) : MiscUpdated b s (miscDecide b (miscNext s b)
    (s.withDec { s.dec with miscp := s.dec.miscp.put b (miscNext s b) })) := by
  unfold miscDecide
  rw [withDec_cfg]
  split
  · next hset =>
    refine ⟨rfl, fun j => ?_, fun j => by simp [hset, setMisc], rfl⟩
    rw [miscBit_setMisc _ hb, if_pos hset]
    rfl
  · next hset =>
    split
    · next hclear =>
      refine ⟨rfl, fun j => ?_, fun j => by simp [hclear, setMisc], rfl⟩
      rw [miscBit_setMisc _ hb, if_neg hset, if_pos hclear]
      rfl
    · next hclear =>
      refine ⟨rfl, fun j => ?_, fun j => ?_, rfl⟩
      · rw [if_neg hset, if_neg hclear]
        by_cases hj : j = b
        · rw [if_pos hj, hj]
          rfl
        · rw [if_neg hj]
          rfl
      · rw [alarm_raiseAlarm _ (by decide), Bool.or_comm]
        simp [hset, hclear, beq_eq_decide]

/-- The update of a misc bit completes where its new probability is finite. -/
theorem miscUpdate_of_finite (hb : b < 7) (h : (miscNext s b).isFinite = true) :
    ∃ t, miscUpdate b s = .ok t ∧ MiscUpdated b s t :=
  ⟨_, miscUpdate_ok.mpr ⟨hb, h, rfl⟩, miscDecide_miscUpdated hb⟩

/-- An update of a misc bit writes no array but the probabilities. -/
theorem MiscUpdated.array (h : MiscUpdated b s t) {A : ArrName} (hA : A ≠ .miscp) : t.array A = s.array A := by
  rw [h.rest]
  cases A with
  | miscp => exact absurd rfl hA
  | _ => rfl

end

/-- Settles O39: the update writes one probability and decides its bit. -/
theorem mscDecidesAMiscBit : Obligations.MscDecidesAMiscBit := by
  intro s b hb hwf new set clear hnew
  obtain ⟨t, ht, hupdated⟩ := miscUpdate_of_finite hb hnew
  have harray : t.array .miscp = some (s.dec.miscp.put b new) := congrArg some hupdated.miscp
  exact ⟨decodeRom_tag_or_operand (op := 5) (decide_eq_true hb) rfl (by decide) (by omega), by decide, t,
    exec_of_rule (i := .msc b) rfl ht, (memRead_put (s := s) rfl harray hwf hb).1,
    memRead_put_frame rfl harray hwf hb fun _ => hupdated.array, hupdated.misc, hupdated.alarm, hupdated.rest⟩

/-- Settles O40: the probability of DST1 is the same after the digit decode, so both rules complete. -/
theorem mscdDecodesThenUpdatesDst1 : Obligations.MscdDecodesThenUpdatesDst1 := by
  intro s p d hp hd hlike hwf hmisc
  obtain ⟨like, u, hu, hdecoded, -⟩ := decimAction_of_finite hp hd hwf hlike
  obtain ⟨t, ht, hupdated⟩ := miscUpdate_of_finite (b := 4) (by decide) (miscNext_of_decimAction hu 4 ▸ hmisc)
  have hfault : u.fault = s.fault := (decimAction_kept hu).fault
  have hdigits : t.dec.digits = u.dec.digits := (congrArg (fun v => v.dec.digits) hupdated.rest :)
  have hstatus : t.status = u.status := (congrArg State.status hupdated.rest :)
  refine ⟨decodeRom_tag_or_operand (op := 6) (decide_eq_true hp) rfl (by decide) (by omega), u, t,
    exec_of_rule (i := .decim p) rfl hu, hfault, exec_of_rule (i := .msc 4) rfl ht,
    (miscUpdate_kept ht).fault.trans hfault, exec_of_rule (i := .mscd p) rfl (res_bind_ok.mpr ⟨u, hu, ht⟩),
    fun A j hl hm => memRead_of_array ((hupdated.array hm).trans (hdecoded.array hl)) j, ?_⟩
  rw [hdigits, hstatus]
  conv_lhs => rw [hupdated.rest, hdecoded.rest]
  rfl

/-- Settles O41: the window opens on the state that the update leaves, whose acquisition and outputs are as before. -/
theorem mscqOpensTheProbeWindow : Obligations.MscqOpensTheProbeWindow := by
  intro s b hb hmisc
  obtain ⟨u, hu, hupdated⟩ := miscUpdate_of_finite hb hmisc
  have hacq : u.acq = s.acq := (congrArg State.acq hupdated.rest :)
  have hout : u.out = s.out := (congrArg State.out hupdated.rest :)
  refine ⟨decodeRom_tag_or_operand (op := 7) (decide_eq_true hb) rfl (by decide) (by omega), u, probeOpen u,
    exec_of_rule (i := .msc b) rfl hu, (miscUpdate_kept hu).fault,
    exec_of_rule (i := .mscq b) rfl (res_map_ok.mpr ⟨u, hu, rfl⟩), ?_, ?_, rfl⟩
  · rw [← hacq]
    rfl
  · rw [← hacq, ← hout]
    rfl

end Sys2Proof.Machine
end

section
/-! PROOF. The probe window closed inside a rotation (43_bcd_decoder.md R217, 42_station_acquisition.md R186 to R192),
and the minute end of MIN1 and MIN2 (R215, R218, 44_clock_and_minute.md R246 to R251). -/

namespace Sys2Proof.Machine

/-! The probe window. -/

/-- Settles O42: below the last probe channel nothing is selected, so the close scores, counts and rotates. -/
theorem pendRotatesTheProbe : Obligations.PendRotatesTheProbe := by
  intro s pair n hp hpair hn ha hb
  let scored := scoredPair s.cfg s.acq.ms (· - 1) pair
  let errors := if pair.a.passes s.cfg s.acq.ms.a || pair.b.passes s.cfg s.acq.ms.b then 0 else min (n + 1) 255
  let closed := s.withAcq (s.acq.probeClosed scored errors)
  have hkeep : endOfRotation closed = .ok closed := endOfRotation_ok.mpr (.inr ⟨hp.ne, rfl⟩)
  have hnext : (s.acq.pchan + 1) % 5 = s.acq.pchan + 1 := Nat.mod_eq_of_lt (by omega)
  have hacq : (rotateProbe closed).acq = { s.acq.probeClosed scored errors with pchan := s.acq.pchan + 1 } :=
    congrArg (fun p => { s.acq.probeClosed scored errors with pchan := p }) hnext
  refine ⟨by decide, rotateProbe closed, exec_pend_of_measurable hpair hn ha hb hkeep, ?_, fun f hf => ?_, ?_, ?_, ?_,
    memRead_congr fun A => by cases A <;> rfl, rfl⟩
  · exact withProbe_chan_same hpair scored
  · exact ⟨withProbe_chan_ne s.acq scored hf, List.getElem?_set_ne hf.symm⟩
  · exact List.getElem?_set_self (List.getElem?_eq_some_iff.mp hn).1
  · rw [hacq]
    rfl
  · exact congrArg (fun p => { s.out with tune := if s.msync then s.acq.dchan else p }) hnext

/-! The time record (60_exceptions.md R271). -/

section
variable {s : State}

theorem readDigit_of_length (hlen : s.dec.digits.length = 9) {p : Nat} (hp : p < 9) :
    readDigit s p = .ok (s.dec.digits.getD p .zeros) := by
  have hin : p < s.dec.digits.length := hlen ▸ hp
  refine readDigit_ok.mpr ⟨hp, ?_⟩
  rw [List.getD_eq_getElem?_getD, List.getElem?_eq_getElem hin]
  rfl

theorem clockFields_eq (hlen : s.dec.digits.length = 9) :
    clockFields s = .ok ⟨s.minuteField, s.hourField, s.dayField, s.yearField⟩ := by
  unfold clockFields
  rw [readDigit_of_length hlen (p := 0) (by decide), readDigit_of_length hlen (p := 1) (by decide),
    readDigit_of_length hlen (p := 2) (by decide), readDigit_of_length hlen (p := 3) (by decide),
    readDigit_of_length hlen (p := 4) (by decide), readDigit_of_length hlen (p := 5) (by decide),
    readDigit_of_length hlen (p := 6) (by decide), readDigit_of_length hlen (p := 7) (by decide),
    readDigit_of_length hlen (p := 8) (by decide)]
  rfl

theorem compareCount_eq (hchan : s.acq.dchan < s.acq.chan.length) (hsel : s.SelLegal) :
    compareCount s = .ok s.compareField := by
  obtain ⟨pair, hread, hcount⟩ := readChan_of_lt hchan
  unfold compareCount State.compareField
  rw [hread]
  cases h : s.sel with
  | none => rfl
  | a => exact congrArg Except.ok (hcount .a)
  | b => exact congrArg Except.ok (hcount .b)
  | illegal => exact absurd h hsel

theorem dut1Of_eq (s : State) : dut1Of s = s.dut1Field := by
  unfold dut1Of State.dut1Field
  cases s.miscBit 0 <;> cases s.miscBit 1 <;> cases s.miscBit 2 <;> rfl

/-- The record of a state whose digits and working channel exist. -/
theorem timeRecord_eq (hlen : s.dec.digits.length = 9) (hchan : s.acq.dchan < s.acq.chan.length) (hsel : s.SelLegal) :
    timeRecord s = .ok (s.recordOf s.insync s.wd.wAbs) := by
  have hdst : 2 * (s.miscBit bitDst1).toNat + (s.miscBit bitDst2).toNat =
      (if s.miscBit 4 then 2 else 0) + (if s.miscBit 5 then 1 else 0) := by
    cases s.miscBit 4 <;> cases s.miscBit 5 <;> rfl
  unfold timeRecord
  rw [clockFields_eq hlen, compareCount_eq hchan hsel, hdst, dut1Of_eq]
  rfl

/-- The station field is its two status bits (10_state.md R40). -/
theorem selCode_of_flags {t : State} (h5 : t.flag 5 = s.flag 5) (h6 : t.flag 6 = s.flag 6) : t.selCode = s.selCode := by
  refine congrArg BitVec.toNat (BitVec.eq_of_getLsbD_eq fun i hi => ?_)
  rw [BitVec.getLsbD_extractLsb', BitVec.getLsbD_extractLsb']
  obtain rfl | rfl : i = 0 ∨ i = 1 := by omega
  · exact congrArg _ h5
  · exact congrArg _ h6

/-- The record reads of the status word the station field and LEAP alone. -/
theorem recordOf_withStatus {w : BitVec 8} (hsel : (s.withStatus w).selCode = s.selCode)
    (hleap : (s.withStatus w).leap = s.leap) (insync : Bool) (wAbs : Nat) :
    (s.withStatus w).recordOf insync wAbs = s.recordOf insync wAbs := by
  unfold State.recordOf State.compareField State.sel
  rw [hsel, hleap]
  rfl

/-! The declarations (44_clock_and_minute.md R247 to R249). -/

/-- Whether a minute end declares INSYNC (R248). -/
def State.synced (s : State) : Bool :=
  (List.range 9).all (fun p => (s.dec.digits.getD p .zeros).locked) && !s.dec.alarm.getLsbD 12 &&
    !s.dec.alarm.getLsbD 13

theorem allLocked_eq (hlen : s.dec.digits.length = 9) :
    allLocked s = (List.range 9).all fun p => (s.dec.digits.getD p .zeros).locked := by
  unfold allLocked
  rw [decide_eq_true hlen, Bool.true_and, Bool.eq_iff_iff, ← hlen]
  simp only [List.all_eq_true, List.mem_range]
  constructor
  · intro h p hp
    rw [List.getD_eq_getElem _ _ hp]
    exact h _ (List.getElem_mem hp)
  · intro h d hd
    obtain ⟨p, hp, rfl⟩ := List.getElem_of_mem hd
    have hlocked := h p hp
    rwa [List.getD_eq_getElem _ _ hp] at hlocked

/-- Two bits of a word are clear where the word masked to them is 0. -/
theorem alarm_bits_clear (w : BitVec 16) :
    ((w >>> 12) &&& 3#16 == 0#16) = (!w.getLsbD 12 && !w.getLsbD 13) := by
  have hmask : ((w >>> 12) &&& 3#16).toNat = w.toNat / 4096 % 4 := by
    rw [BitVec.toNat_and, BitVec.toNat_ushiftRight, Nat.shiftRight_eq_div_pow]
    exact Nat.and_two_pow_sub_one_eq_mod _ 2
  rw [Bool.eq_iff_iff, beq_iff_eq, ← BitVec.toNat_inj, hmask]
  simp only [BitVec.getLsbD, Nat.testBit_eq_decide_div_mod_eq, Bool.and_eq_true, Bool.not_eq_true',
    decide_eq_false_iff_not, BitVec.toNat_ofNat]
  omega

/-- The two declarations write DSYNC and INSYNC alone. -/
theorem declareInsync_declareDsync (hlen : s.dec.digits.length = 9) :
    ∃ w, declareInsync (declareDsync s) = s.withStatus w ∧
      ∀ b, w.getLsbD b = if b = bitInsync then s.synced else (s.flag b || (b == bitDsync && s.dlock)) := by
  obtain ⟨v, hv, hbits⟩ := setFlag_if (f := bitDsync) (by decide) (s.dlock = true) s
  have hsynced : (allLocked s && ((s.dec.alarm >>> 12) &&& 3#16 == 0#16)) = s.synced := by
    rw [allLocked_eq hlen, alarm_bits_clear, State.synced, Bool.and_assoc]
  refine ⟨putBit v bitInsync s.synced, ?_, fun b => ?_⟩
  · rw [declareDsync, hv, ← hsynced]
    rfl
  · rw [getLsbD_putBit v (by decide), hbits, Bool.decide_eq_true]

theorem restartAbs_eq (s : State) :
    restartAbs s = s.withWd { s.wd with wAbs := if s.insync then 0 else s.wd.wAbs } := by
  unfold restartAbs
  split <;> rfl

/-! The minute end (R246). -/

/-- A minute end completes where the digits and the working channel exist, and leaves LEAP to its action. -/
theorem minuteEnd_minuteEnded (hlen : s.dec.digits.length = 9) (hchan : s.acq.dchan < s.acq.chan.length)
    (hsel : s.SelLegal) : ∃ t, minuteEnd s = .ok t ∧ MinuteEnded s t ∧ t.leap = s.leap := by
  obtain ⟨w, hw, hbits⟩ := declareInsync_declareDsync hlen
  have hflag (b : Nat) (hd : b ≠ bitDsync) (hi : b ≠ bitInsync) : (s.withStatus w).flag b = s.flag b := by
    refine (hbits b).trans ?_
    rw [if_neg hi, beq_eq_false_iff_ne.mpr hd, Bool.false_and, Bool.or_false]
  have hcode : (s.withStatus w).selCode = s.selCode := selCode_of_flags (hflag 5 (by decide) (by decide))
    (hflag 6 (by decide) (by decide))
  have hleap : (s.withStatus w).leap = s.leap := hflag bitLeap (by decide) (by decide)
  have hselW : (s.withStatus w).SelLegal := by
    unfold State.SelLegal State.sel
    rw [hcode]
    exact hsel
  let wd : Watchdog := { s.wd with wAbs := if (s.withStatus w).insync then 0 else s.wd.wAbs }
  have hdeclared : restartAbs (declareInsync (declareDsync s)) = (s.withStatus w).withWd wd := by
    rw [hw, restartAbs_eq]
    rfl
  have hrecord : timeRecord ((s.withStatus w).withWd wd) = .ok (s.recordOf (s.withStatus w).insync wd.wAbs) := by
    rw [← recordOf_withStatus hcode hleap]
    exact timeRecord_eq (s := (s.withStatus w).withWd wd) hlen hchan hselW
  rw [← hdeclared] at hrecord
  refine ⟨_, minuteEnd_ok.mpr ⟨_, hrecord, rfl⟩, ?_⟩
  rw [hdeclared]
  exact ⟨{
    dsync := by
      refine (hbits bitDsync).trans ?_
      rw [if_neg (by decide), beq_self_eq_true, Bool.true_and]
      rfl
    insync := (hbits bitInsync).trans (if_pos rfl)
    status := fun b hd hi _ => hflag b hd hi
    wd := rfl
    out := rfl
    dec := rfl
    rest := rfl }, hleap⟩

variable {t : State} (h : MinuteEnded s t)
include h

/-- Clearing LEAP after a minute end leaves what the minute end says. -/
theorem MinuteEnded.clearLeap : MinuteEnded s (setFlag bitLeap false t) := by
  have hflag (b : Nat) (hb : b ≠ bitLeap) : (setFlag bitLeap false t).flag b = t.flag b := by
    rw [flag_setFlag t (by decide), if_neg hb]
  have hinsync : (setFlag bitLeap false t).insync = t.insync := hflag bitInsync (by decide)
  exact {
    dsync := (hflag bitDsync (by decide)).trans h.dsync
    insync := hinsync.trans h.insync
    status := fun b hd hi hl => (hflag b hl).trans (h.status b hd hi hl)
    wd := by rw [hinsync]; exact h.wd
    out := by rw [hinsync]; exact h.out
    dec := h.dec
    rest := by
      conv_lhs => rw [h.rest]
      rfl }

/-- A minute end writes no array. -/
theorem MinuteEnded.array (A : ArrName) : t.array A = s.array A := by
  rw [h.rest, h.dec]
  cases A <;> rfl

end

/-- Settles O44: MIN1 is the minute end where LEAP is clear. -/
theorem min1EndsTheMinute : Obligations.Min1EndsTheMinute := by
  intro s hlen hchan hdchan hsel
  refine ⟨by decide, fun hleap => exec_of_rule (i := .min1) rfl (if_pos hleap), fun hleap => ?_⟩
  obtain ⟨t, ht, hended, hkept⟩ := minuteEnd_minuteEnded hlen (hchan ▸ hdchan) hsel
  exact ⟨t, exec_of_rule (i := .min1) rfl ((if_neg (by simp [hleap])).trans ht), hended, hkept.trans hleap,
    memRead_congr hended.array⟩

/-- Settles O45: MIN2 is the minute end with LEAP cleared after it. -/
theorem min2EndsTheLeapMinute : Obligations.Min2EndsTheLeapMinute := by
  intro s hlen hchan hdchan hsel
  obtain ⟨t, ht, hended, -⟩ := minuteEnd_minuteEnded hlen (hchan ▸ hdchan) hsel
  exact ⟨by decide, _, exec_of_rule (i := .min2) rfl (res_map_ok.mpr ⟨t, ht, rfl⟩), hended.clearLeap,
    flag_setFlag t (by decide) false bitLeap, memRead_congr hended.clearLeap.array⟩

end Sys2Proof.Machine
end

section
/-! PROOF. The measures of a second and its bit (43_bcd_decoder.md R200, R201): the minimum and the width as scans of
the listed cells, and the count of an erasure. -/

namespace Sys2Proof.Machine

/-! The minimum of an array. -/

/-- The scan ends with a value that none of those looked at is below. -/
theorem leastFrom_le {v : F64} {l : List (Nat × F64)} (hv : v.isNaN = false) (hl : ∀ c ∈ l, c.2.isNaN = false) :
    (leastFrom v l).le v = true ∧ ∀ c ∈ l, (leastFrom v l).le c.2 = true := by
  induction l generalizing v with
  | nil => exact ⟨F64.le_refl hv, nofun⟩
  | cons c rest ih =>
    have hc : c.2.isNaN = false := hl c List.mem_cons_self
    have hrest : ∀ d ∈ rest, d.2.isNaN = false := fun d hd => hl d (List.mem_cons_of_mem c hd)
    unfold leastFrom
    split
    · next hlt =>
      obtain ⟨hle, hall⟩ := ih hc hrest
      exact ⟨F64.le_trans hle (F64.le_of_lt hlt), List.forall_mem_cons.mpr ⟨hle, hall⟩⟩
    · next hlt =>
      obtain ⟨hle, hall⟩ := ih hv hrest
      exact ⟨hle, List.forall_mem_cons.mpr ⟨F64.le_trans hle (F64.le_of_not_lt hc hv hlt), hall⟩⟩

section
variable {n : Nat} {a : RealArray} (hn : 0 < n) (h : a.wf n = true)
include hn h

theorem minOver_mem : ∃ i, i < n ∧ a.minOver n = a.get i := by
  have hmem : a.minOver n ∈ (a.profile n).map Prod.snd := by
    unfold RealArray.minOver
    cases hp : a.profile n with
    | nil => exact absurd hp (profile_ne_nil hn h)
    | cons c rest => exact leastFrom_mem c.2 rest
  obtain ⟨c, hc, hval⟩ := List.mem_map.mp hmem
  obtain ⟨-, hlt, hget⟩ := cellsProfile_sound h hc
  exact ⟨c.1, hlt, hval.symm.trans hget⟩

theorem minOver_le (hnan : ∀ i, i < n → (a.get i).isNaN = false) (i : Nat) (hi : i < n) :
    (a.minOver n).le (a.get i) = true := by
  have hcells : ∀ c ∈ a.profile n, c.2.isNaN = false := fun c hc => by
    obtain ⟨-, hlt, hget⟩ := cellsProfile_sound h hc
    rw [hget]
    exact hnan c.1 hlt
  have hleast : ∀ c ∈ a.profile n, (a.minOver n).le c.2 = true := by
    unfold RealArray.minOver
    cases hp : a.profile n with
    | nil => exact absurd hp (profile_ne_nil hn h)
    | cons c rest =>
      rw [hp] at hcells
      exact List.forall_mem_cons.mpr (leastFrom_le (hcells c List.mem_cons_self)
        fun d hd => hcells d (List.mem_cons_of_mem c hd))
  obtain ⟨c, hc, -, hval⟩ : ∃ c ∈ a.profile n, c.1 ≤ i ∧ c.2 = a.get i := cellsProfile_complete h (Nat.zero_le i) hi
  exact hval ▸ hleast c hc

end

/-! The elements that pass a test. -/

theorem cellsWf_length_le {n lo : Nat} {l : List (Nat × F64)} (h : cellsWf n lo l = true) : l.length ≤ n - lo := by
  induction l generalizing lo with
  | nil => exact Nat.zero_le _
  | cons c rest ih =>
    obtain ⟨j, v⟩ := c
    simp only [cellsWf, Bool.and_eq_true, decide_eq_true_eq] at h
    obtain ⟨⟨⟨hlo, hj⟩, -⟩, hrest⟩ := h
    have := ih hrest
    rw [List.length_cons]
    omega

/-- The elements that pass a test are the listed cells that pass and, where +0.0 passes, all that are not listed. -/
theorem countP_cellsRead (test : F64 → Bool) {n lo : Nat} {l : List (Nat × F64)} (h : cellsWf n lo l = true) :
    (List.range' lo (n - lo)).countP (fun i => test (cellsRead l i)) =
      l.countP (fun c => test c.2) + if test .zero then n - lo - l.length else 0 := by
  have hconst (f : Nat → F64) (lo len : Nat) (hf : ∀ i ∈ List.range' lo len, f i = .zero) :
      (List.range' lo len).countP (fun i => test (f i)) = if test .zero then len else 0 := by
    rw [List.countP_congr (q := fun _ => test .zero) fun i hi => by rw [hf i hi]]
    cases test .zero <;> simp
  induction l generalizing lo with
  | nil => simpa using hconst (cellsRead []) lo (n - lo) fun _ _ => rfl
  | cons c rest ih =>
    obtain ⟨j, v⟩ := c
    simp only [cellsWf, Bool.and_eq_true, decide_eq_true_eq] at h
    obtain ⟨⟨⟨hlo, hj⟩, -⟩, hrest⟩ := h
    have hlen := cellsWf_length_le hrest
    have hsplit : List.range' lo (n - lo) = List.range' lo (j - lo) ++ j :: List.range' (j + 1) (n - (j + 1)) := by
      rw [← List.range'_succ, show n - (j + 1) + 1 = n - j by omega]
      have hparts := List.range'_append (s := lo) (m := j - lo) (n := n - j) (step := 1)
      rw [show lo + 1 * (j - lo) = j by omega, show j - lo + (n - j) = n - lo by omega] at hparts
      exact hparts.symm
    have hbefore : (List.range' lo (j - lo)).countP (fun i => test (cellsRead ((j, v) :: rest) i)) =
        if test .zero then j - lo else 0 := by
      refine hconst _ _ _ fun i hi => ?_
      have hij : i < j := by have := List.mem_range'_1.mp hi; omega
      rw [cellsRead, if_neg hij.ne]
      exact cellsRead_below hrest (by omega)
    have hafter : (List.range' (j + 1) (n - (j + 1))).countP (fun i => test (cellsRead ((j, v) :: rest) i)) =
        (List.range' (j + 1) (n - (j + 1))).countP (fun i => test (cellsRead rest i)) := by
      refine List.countP_congr fun i hi => ?_
      have hij : i ≠ j := by have := List.mem_range'_1.mp hi; omega
      rw [cellsRead, if_neg hij]
    have hat : cellsRead ((j, v) :: rest) j = v := if_pos rfl
    rw [hsplit, List.countP_append, List.countP_cons, List.countP_cons, hbefore, hafter, ih hrest, hat,
      List.length_cons]
    cases test .zero
    · simp
    · simp only [if_true]
      omega

/-- The width counts every element from the threshold up. -/
theorem countGe_eq {n : Nat} {a : RealArray} (h : a.wf n = true) (x : F64) :
    a.countGe n x = ((List.range n).filter fun j => x.le (a.get j)).length := by
  rw [← List.countP_eq_length_filter, List.range_eq_range']
  have hcount := countP_cellsRead x.le h
  rw [Nat.sub_zero, List.countP_eq_length_filter (l := a.cells)] at hcount
  exact hcount.symm

/-- Settles O46: the scans of dbuf meet their definitions, and the SNR is its formula. -/
theorem measuresOfASecond : Obligations.MeasuresOfASecond := by
  intro s hwf hnan
  have hpos : 0 < 8000 := by decide
  obtain ⟨hlt, hget⟩ := argmax_mem hpos hwf
  refine ⟨⟨_, hlt, hget⟩, (argmax_max hpos hwf hnan).1, minOver_mem hpos hwf, minOver_le hpos hwf hnan, ?_, rfl⟩
  rw [State.pulseLen, countGe_eq hwf]
  rfl

/-! The bit of a second (R201). -/

theorem ofInt_one : F64.ofInt 1 = Config.one := by decide +kernel
theorem ofInt_minusOne : F64.ofInt (-1) = Config.minusOne := by decide +kernel

/-- An erasure raises the count, saturating, and MODERR above 30; it writes nothing else. -/
theorem countErasure_of_erased {s : State} (h : s.erased = true) :
    ∃ a, countErasure s = s.withDec { s.dec with errcnt := min (s.dec.errcnt + 1) 255, alarm := a } ∧
      ∀ b, a.getLsbD b =
        (s.dec.alarm.getLsbD b || (b == 8 && decide (30 < min (s.dec.errcnt + 1) 255))) := by
  obtain ⟨a, ha, hbits⟩ := raiseAlarm_if (c := 2) (by decide) (Config.maxErr < min (s.dec.errcnt + 1) Config.sat8)
    (s.withDec { s.dec with errcnt := min (s.dec.errcnt + 1) Config.sat8 })
  refine ⟨a, ?_, hbits⟩
  unfold countErasure
  rw [if_pos h]
  exact ha

/-- Settles O47: the two cases of an erasure, with the constants of the metric as integers. -/
theorem bitOfASecond : Obligations.BitOfASecond := by
  intro s erasure n real m
  refine ⟨fun h => ?_, fun h => ⟨?_, ?_⟩⟩
  · obtain ⟨a, ha, hbits⟩ := countErasure_of_erased h
    rw [ha]
    exact ⟨if_pos h, rfl, hbits, rfl⟩
  · have hm : metric s.pulseLen = m := by
      unfold metric
      rw [← ofInt_one, ← ofInt_minusOne]
      rfl
    rw [State.dataBit, show s.erased = false from h, hm]
    rfl
  · rw [countErasure, show s.erased = false from h]
    rfl

end Sys2Proof.Machine
end

section
/-! PROOF. The receiver second (43_bcd_decoder.md R200, R216, R220): the word it fetches, runs and advances past, alone
and in a sample step. -/

namespace Sys2Proof.Machine

section
variable {s t : State} {w : BitVec 8}

/-- An operation that commits without a fault is its rule (60_exceptions.md R260). -/
theorem rule_of_commit {r : Res State} (h : commit s r = .next t) (hf : t.fault = none) : r = .ok t := by
  rcases commit_next.mp h with hok | ⟨f, -, rfl⟩
  · exact hok
  · exact nomatch hf

/-- A receiver second whose word executes without a fault after the count of an erasure is that word, then the
advance. -/
theorem receiverSecond_of_exec (hw : s.prog[s.dec.rsec]? = some w)
    (h : exec (decodeRom w) (countErasure s) = .next t) (hf : t.fault = none) :
    receiverSecond s = .ok (rsecAdvance t) := by
  rw [exec_romAction (decodeRom_isRom w)] at h
  rw [receiverSecond_of_word hw, rule_of_commit h hf]
  rfl

/-- Settles O7: the fetched word runs on the state with the erasure counted. -/
theorem receiverSecondRunsTheFetchedWord : Obligations.ReceiverSecondRunsTheFetchedWord := by
  intro s t w _ hw h hf
  exact commit_next.mpr (.inl (receiverSecond_of_exec hw h hf))

/-! The advance (R216). -/

/-- The update of a channel record writes the acquisition registers alone. -/
theorem updateChan_withAcq {down : Nat → Nat} {st : Station} {pass : Bool} (h : updateChan down st s = .ok (t, pass)) :
    t = s.withAcq t.acq := by
  obtain ⟨_, _, -, -, -, rfl⟩ := updateChan_ok.mp h
  rfl

theorem useBest_dec (s : State) (best : Option (Nat × Station × Nat)) : (useBest s best).dec = s.dec := by
  cases best with
  | none => rfl
  | some c => exact (congrArg State.dec (useBest_selected c.1 c.2.1 c.2.2 s).rest :)

theorem endOfRotation_dec (h : endOfRotation s = .ok t) : t.dec = s.dec := by
  rcases endOfRotation_ok.mp h with ⟨-, best, -, rfl⟩ | ⟨-, rfl⟩
  · exact useBest_dec s best
  · rfl

theorem probeClose_dec (h : probeClose s = .ok t) : t.dec = s.dec := by
  obtain ⟨u, _, v, _, w, x, hu, hv, hw, hx, rfl⟩ := probeClose_ok.mp h
  have hudec : u.dec = s.dec := by rw [updateChan_withAcq hu]; rfl
  have hvdec : v.dec = u.dec := by rw [updateChan_withAcq hv]; rfl
  obtain ⟨_, -, rfl⟩ := channelErrors_ok.mp hw
  exact (endOfRotation_dec hx).trans (hvdec.trans hudec)

theorem minuteEnd_rsec (h : minuteEnd s = .ok t) : t.dec.rsec = s.dec.rsec := by
  obtain ⟨r, -, rfl⟩ := minuteEnd_ok.mp h
  simp [restartErrors, ageAlarm]

theorem decimAction_rsec {p : Nat} (h : decimAction p s = .ok t) : t.dec.rsec = s.dec.rsec := by
  obtain ⟨d, like, -, -, rfl⟩ := decimAction_ok.mp h
  dsimp only
  split_ifs <;> rfl

theorem miscUpdate_rsec {b : Nat} (h : miscUpdate b s = .ok t) : t.dec.rsec = s.dec.rsec := by
  obtain ⟨hb, -, rfl⟩ := miscUpdate_ok.mp h
  exact (congrArg (fun u => u.dec.rsec) (miscDecide_miscUpdated (s := s) hb).rest :)

theorem storeBcd_rsec {i : Nat} {v : F64} (h : storeBcd i v s = .ok t) : t.dec.rsec = s.dec.rsec := by
  obtain ⟨-, rfl⟩ := storeBcd_ok.mp h
  rfl

/-- No ROM action writes the receiver second: it is the event that advances it. -/
theorem romAction_rsec {i : Instr} (h : romAction i s = .ok t) : t.dec.rsec = s.dec.rsec := by
  cases i with
  | idle => cases h; rfl
  | coef i => exact storeBcd_rsec h
  | coefg i => exact storeBcd_rsec h
  | coefz i => exact storeBcd_rsec h
  | decim p => exact decimAction_rsec h
  | msc b => exact miscUpdate_rsec h
  | mscd p =>
    obtain ⟨u, hu, ht⟩ := res_bind_ok.mp h
    exact (miscUpdate_rsec ht).trans (decimAction_rsec hu)
  | mscq b =>
    obtain ⟨u, hu, rfl⟩ := res_map_ok.mp h
    exact (miscUpdate_rsec hu :)
  | pend => exact congrArg Dec.rsec (probeClose_dec h)
  | min1 =>
    change (if s.leap then .ok s else minuteEnd s) = .ok t at h
    split at h
    · cases h; rfl
    · exact minuteEnd_rsec h
  | min2 =>
    obtain ⟨u, hu, rfl⟩ := res_map_ok.mp h
    exact (minuteEnd_rsec hu :)
  | _ => cases h

/-- Settles O48: the action keeps rsec, and the advance reads LEAP after it and keeps it. -/
theorem receiverSecondAdvances : Obligations.ReceiverSecondAdvances := by
  intro s t _ h hf
  obtain ⟨w, u, -, hu, rfl⟩ := receiverSecond_ok.mp (rule_of_commit h hf)
  have hrsec : u.dec.rsec = s.dec.rsec := (romAction_rsec hu).trans (countErasure_rsec s)
  rw [← hrsec]
  rfl

/-! An IDLE word (R202). -/

/-- The count of an erasure writes the error count and the alarm word alone (R201). -/
theorem countErasure_eq (s : State) :
    ∃ n a, countErasure s = s.withDec { s.dec with errcnt := n, alarm := a } := by
  by_cases h : s.erased = true
  · obtain ⟨a, ha, -⟩ := countErasure_of_erased h
    exact ⟨_, a, ha⟩
  · exact ⟨s.dec.errcnt, s.dec.alarm, if_neg h⟩

/-- Settles O49: IDLE leaves the state with the erasure counted to the advance. -/
theorem receiverSecondOnIdle : Obligations.ReceiverSecondOnIdle := by
  intro s hw
  have hsecond : receiverSecond s = .ok (rsecAdvance (countErasure s)) := by
    rw [receiverSecond_of_word hw]
    rfl
  refine ⟨_, commit_next.mpr (.inl hsecond), ?_⟩
  obtain ⟨n, a, h⟩ := countErasure_eq s
  rw [h]
  exact ⟨rfl, memRead_congr fun A => by cases A <;> rfl, rfl⟩

/-! The sample step (70_reset_and_hazards.md R285). -/

/-- `t` is the state `s` after the signal part of a sample step, which leaves the clock and the status word, and of the
decoder and the outputs writes one element of dbuf and the strobe of the time record. -/
structure SignalKept (s t : State) : Prop where
  clock : t.clock = s.clock
  status : t.status = s.status
  out : t.out = { s.out with timerecStrobe := false }
  dec : ∃ e, t.dec = { s.dec with dbuf := s.dec.dbuf.put s.dbufPlace e }

theorem signalStep_signalKept (h : signalStep s = .ok t) : SignalKept s t := by
  obtain ⟨o, bank, u, v, -, hu, hv, ht⟩ := signalStep_ok.mp h
  obtain ⟨-, rfl⟩ := envelopeWrite_ok.mp hu
  obtain ⟨-, -, rfl⟩ := combUpdate_ok.mp ht
  rcases scanAccumulate_ok.mp hv with ⟨-, rfl⟩ | ⟨_, _, _, -, -, -, rfl⟩ <;> exact ⟨rfl, rfl, rfl, o.eData, rfl⟩

/-- A strobe of a core that is not faulted runs the sample step and consumes the cycle. -/
theorem step_of_sampleStep (hreset : s.pins.reset = false) (hstrobe : s.pins.strobe = true) (hf : s.fault = none)
    (h : sampleStep s = .ok t) : step s = .next t.nextCycle := by
  simp [step, currentOp, exec, execSample, hreset, hstrobe, hf, h, commit, finishCycle]

/-- Settles O5: of the events only the receiver second runs, on the word at the kept rsec. -/
theorem stepRunsTheFetchedWord : Obligations.StepRunsTheFetchedWord := by
  intro s u v w hreset hstrobe hf hsignal hwrap hmsync htsec hrsec hw hexec hvf
  have hkept := signalStep_signalKept hsignal
  obtain ⟨e, hdec⟩ := hkept.dec
  have hfetch : (clockStep u).prog[(clockStep u).dec.rsec]? = some w := by
    rw [clockStep_prog, clockStep_dec, (signalStep_kept hsignal).prog, hdec]
    exact hw
  have hheld : (clockStep u).msync = true := by
    rw [State.msync, State.flag, clockStep_status, hkept.status]
    exact hmsync
  have hevents : eventStep (advanceOf u.clock) s.msync s.epoch.tsecStart s.epoch.rsecStart (clockStep u) =
      .ok (rsecAdvance v) :=
    eventStep_ok.mpr ⟨_, _, runIf_ok.mpr (.inr ⟨hwrap, rfl⟩),
      runIf_ok.mpr (.inr ⟨by rw [htsec, Bool.and_false], rfl⟩),
      runIf_ok.mpr (.inl ⟨by rw [hmsync, hheld, hrsec]; rfl, receiverSecond_of_exec hfetch hexec hvf⟩)⟩
  exact step_of_sampleStep hreset hstrobe hf (sampleStep_ok.mpr ⟨u, _, hsignal, hevents, rfl⟩)

end

end Sys2Proof.Machine
end

section
/-! PROOF. A step without minute sync (43_bcd_decoder.md R200, R221, 44_clock_and_minute.md R240): what the raw second
and the raw minute, the only events it can run, leave of the decoder. -/

namespace Sys2Proof.Machine

/-! The raw second up to the raw minute (41_epoch_tracker_fll.md R153 to R161). -/

/-- `t` is the state `s` after rules of the epoch tracker, which of the decoder write the alarm word and of the status
word SSYNC. -/
structure Tracked (s t : State) : Prop where
  out : t.out = s.out
  dec : t.dec = { s.dec with alarm := t.dec.alarm }
  flag : ∀ b, b ≠ bitSsync → t.flag b = s.flag b

section
variable {s t u : State}

theorem Tracked.refl (s : State) : Tracked s s := ⟨rfl, rfl, fun _ _ => rfl⟩

theorem Tracked.trans (h : Tracked s t) (h' : Tracked t u) : Tracked s u where
  out := h'.out.trans h.out
  dec := by
    conv_lhs => rw [h'.dec, h.dec]
  flag b hb := (h'.flag b hb).trans (h.flag b hb)

/-- The same with the later rule first. -/
theorem Tracked.after (h' : Tracked t u) (h : Tracked s t) : Tracked s u := h.trans h'

/-- A rule that leaves the outputs, the decoder and the status word. -/
theorem Tracked.of_kept (hout : t.out = s.out) (hdec : t.dec = s.dec) (hstatus : t.status = s.status) :
    Tracked s t where
  out := hout
  dec := by rw [hdec]
  flag b _ := by rw [State.flag, State.flag, hstatus]

theorem setFlag_ssync_tracked (v : Bool) (s : State) : Tracked s (setFlag bitSsync v s) where
  out := rfl
  dec := rfl
  flag b hb := by rw [flag_setFlag s (by decide), if_neg hb]

theorem dropSecondSync_tracked (s : State) : Tracked s (dropSecondSync s) :=
  (setFlag_ssync_tracked false _).after (.of_kept rfl rfl rfl)

theorem epochUpdate_tracked (h : epochUpdate s = .ok t) : Tracked s t := by
  obtain ⟨best, hist, u, -, -, rfl, ⟨-, rfl⟩ | ⟨-, v, rfl, ⟨-, -, hl⟩ | ⟨-, rfl⟩⟩⟩ := epochUpdate_ok.mp h
  · exact (dropSecondSync_tracked _).after (.of_kept rfl rfl rfl)
  · obtain ⟨_, -, rfl⟩ := latchOffsets_ok.mp hl
    have hflag : Tracked s (setFlag bitSsync true _) := (setFlag_ssync_tracked true _).after (.of_kept rfl rfl rfl)
    exact hflag.trans (.of_kept rfl rfl rfl)
  · exact .of_kept rfl rfl rfl

theorem intervalStep_tracked (h : intervalStep s = .ok t) : Tracked s t := by
  rcases intervalStep_ok.mp h with ⟨-, h⟩ | ⟨-, rfl⟩
  · obtain ⟨u, hu, rfl⟩ := intervalEnd_ok.mp h
    rw [intervalDoubling_eq]
    rcases frequencyUpdate_ok.mp hu with ⟨-, -, rfl⟩ | ⟨-, rfl⟩ <;> exact .of_kept rfl rfl rfl
  · exact .of_kept rfl rfl rfl

theorem syncCheck_tracked (s : State) : Tracked s (syncCheck s) := by
  obtain ⟨a, h, -⟩ := syncCheck_eq s
  rw [h]
  exact ⟨rfl, rfl, fun _ _ => rfl⟩

/-! The raw minute (42_station_acquisition.md R175). -/

/-- `t` is the state `s` after rules that run without minute sync and no watchdog reset: they write no time record, and
of the decoder the alarm word and, where they acquire minute sync, the second numbers. -/
structure Undecoded (s t : State) : Prop where
  timerec : t.out.timerec = s.out.timerec
  dec : t.dec = { s.dec with alarm := t.dec.alarm, rsec := t.dec.rsec, tsec := t.dec.tsec }
  seconds : t.msync = false → t.dec.rsec = s.dec.rsec ∧ t.dec.tsec = s.dec.tsec
  flag : ∀ b ∈ [bitDsync, bitInsync, bitLeap, bitDlock], t.flag b = s.flag b

/-- `t` is the state `s` after a watchdog reset, as far as the decoder goes (60_exceptions.md R266). -/
structure Expired (s t : State) : Prop where
  timerec : t.out.timerec = s.out.timerec
  dec : t.dec = { Dec.atReset with dbuf := s.dec.dbuf }
  status : t.status = 0

theorem Tracked.undecoded (h : Tracked s t) : Undecoded s t where
  timerec := congrArg OutRegs.timerec h.out
  dec := by rw [h.dec]
  seconds _ := by
    rw [h.dec]
    exact ⟨rfl, rfl⟩
  flag b hb := h.flag b (by rintro rfl; revert hb; decide)

theorem Tracked.trans_undecoded (h : Tracked s t) (h' : Undecoded t u) : Undecoded s u where
  timerec := h'.timerec.trans h.undecoded.timerec
  dec := by
    conv_lhs => rw [h'.dec, h.dec]
  seconds hm := by
    obtain ⟨hr, ht⟩ := h'.seconds hm
    rw [hr, ht, h.dec]
    exact ⟨rfl, rfl⟩
  flag b hb := (h'.flag b hb).trans (h.undecoded.flag b hb)

theorem Tracked.trans_expired (h : Tracked s t) (h' : Expired t u) : Expired s u where
  timerec := h'.timerec.trans h.undecoded.timerec
  dec := by rw [h'.dec, h.dec]
  status := h'.status

/-- Acceptance of a station sets the second numbers with MSYNC (R182). -/
theorem acceptStation_undecoded (w : Station) (pos : Nat) (s : State) : Undecoded s (acceptStation w pos s) where
  timerec := rfl
  dec := rfl
  seconds hm := by
    have hset : (acceptStation w pos s).msync = true :=
      (acceptStation_flag w pos s (by decide) (by decide)).trans (if_pos rfl)
    exact absurd (hset.symm.trans hm) (by decide)
  flag b hb := by
    obtain ⟨h5, h6, h0⟩ : b ≠ 5 ∧ b ≠ 6 ∧ b ≠ bitMsync := by revert b; decide
    rw [acceptStation_flag w pos s h5 h6, if_neg h0]

theorem acceptOrAdvance_undecoded (pair : ByStation ChanRec) (s : State) : Undecoded s (acceptOrAdvance pair s) := by
  rcases acceptOrAdvance_cases pair s with ⟨w, -, h⟩ | ⟨-, -, -, h⟩ | ⟨-, -, h⟩ <;> rw [h]
  · exact acceptStation_undecoded w _ s
  · exact ⟨rfl, rfl, fun _ => ⟨rfl, rfl⟩, fun _ _ => rfl⟩
  · exact (Tracked.refl s).undecoded

theorem updateChan_tracked {down : Nat → Nat} {st : Station} {pass : Bool} (h : updateChan down st s = .ok (t, pass)) :
    Tracked s t := by
  rw [updateChan_withAcq h]
  exact .of_kept rfl rfl rfl

theorem acquisition_undecoded (h : acquisition s = .ok t) : Undecoded s t := by
  obtain ⟨u, _, v, _, pair, hu, hv, -, rfl⟩ := acquisition_ok.mp h
  exact ((updateChan_tracked hu).trans (updateChan_tracked hv)).trans_undecoded (acceptOrAdvance_undecoded pair v)

/-- A raw minute without minute sync acquires or not, unless a watchdog expires. -/
theorem rawMinute_unsynced (hm : s.msync = false) (h : rawMinute s = .ok t) : Undecoded s t ∨ Expired s t := by
  rcases rawMinute_ok.mp h with ⟨hm', -⟩ | ⟨-, u, hu, rfl⟩
  · exact absurd (hm.symm.trans hm') (by decide)
  · have hacquired := acquisition_undecoded hu
    rcases watchdogUpdate_cases (scanReset u) with ⟨-, e⟩ | ⟨-, e⟩ <;> rw [e]
    · refine .inl ⟨hacquired.timerec, ?_, hacquired.seconds, hacquired.flag⟩
      exact congrArg (fun d : Dec => { d with alarm := ageWord u.dec.alarm }) hacquired.dec
    · rw [ageAlarm_watchdogReset]
      exact .inr ⟨hacquired.timerec,
        congrArg (fun d : Dec => { Dec.atReset with dbuf := d.dbuf }) hacquired.dec, rfl⟩

/-- A raw second without minute sync: MSYNC is set, and a watchdog expires, only at the end of a raw minute. -/
theorem rawSecond_unsynced (hm : s.msync = false) (h : rawSecond s = .ok t) :
    (Undecoded s t ∧ (t.msync = true → s.clock.mphase = 59)) ∨ (s.clock.mphase = 59 ∧ Expired s t) := by
  obtain ⟨u, v, hu, hv, ht⟩ := rawSecond_ok.mp h
  have htick : Tracked s (s.withClock s.clock.ticked) := .of_kept rfl rfl rfl
  have hrun : Tracked s (syncCheck v) :=
    ((htick.trans (epochUpdate_tracked hu)).trans (intervalStep_tracked hv)).trans (syncCheck_tracked v)
  have hrunm : (syncCheck v).msync = false := (hrun.flag bitMsync (by decide)).trans hm
  rcases ht with ⟨hphase, ht⟩ | ⟨-, rfl⟩
  · have hend : s.clock.mphase = 59 := by omega
    rcases rawMinute_unsynced hrunm ht with hminute | hminute
    · exact .inl ⟨hrun.trans_undecoded hminute, fun _ => hend⟩
    · exact .inr ⟨hend, hrun.trans_expired hminute⟩
  · exact .inl ⟨hrun.undecoded, fun hset => absurd (hrunm.symm.trans hset) (by decide)⟩

/-! The step. -/

/-- What a step without minute sync leaves of the decoder. -/
structure NotDecoded (s t : State) : Prop where
  timerec : t.out.timerec = s.out.timerec
  dbuf : ∀ j, s.dec.dbuf.wf 8000 = true → j ≠ s.dbufPlace → t.dec.dbuf.get j = s.dec.dbuf.get j
  quiet : (advanceOf s.clock).wrapped = false → t.dec = { s.dec with dbuf := t.dec.dbuf } ∧ t.status = s.status
  wrap : (t.dec = { s.dec with dbuf := t.dec.dbuf, alarm := t.dec.alarm, rsec := t.dec.rsec, tsec := t.dec.tsec } ∧
      (t.msync = false → t.dec.rsec = s.dec.rsec ∧ t.dec.tsec = s.dec.tsec) ∧
      (t.msync = true → s.clock.mphase = 59) ∧ ∀ b ∈ [2, 3, 4, 7], t.flag b = s.flag b) ∨
    (s.clock.mphase = 59 ∧ t.dec = { Dec.atReset with dbuf := t.dec.dbuf } ∧ t.status = 0)

/-- A step that writes at most one element of dbuf and no status bit. -/
theorem notDecoded_of_quiet (hm : s.msync = false) (htimerec : t.out.timerec = s.out.timerec)
    (hdec : t.dec = { s.dec with dbuf := t.dec.dbuf }) (hstatus : t.status = s.status)
    (hdbuf : ∀ j, s.dec.dbuf.wf 8000 = true → j ≠ s.dbufPlace → t.dec.dbuf.get j = s.dec.dbuf.get j) :
    NotDecoded s t where
  timerec := htimerec
  dbuf := hdbuf
  quiet _ := ⟨hdec, hstatus⟩
  wrap := by
    have hflag (b : Nat) : t.flag b = s.flag b := by rw [State.flag, State.flag, hstatus]
    refine .inl ⟨?_, fun _ => ?_, fun hset => ?_, fun b _ => hflag b⟩
    · rw [hdec]
    · rw [hdec]
      exact ⟨rfl, rfl⟩
    · exact absurd ((hflag bitMsync).symm.trans hset) (by rw [show s.flag bitMsync = false from hm]; decide)

/-- A step that leaves the outputs, the decoder and the status word. -/
theorem notDecoded_of_untouched (hm : s.msync = false) (hout : t.out = s.out) (hdec : t.dec = s.dec)
    (hstatus : t.status = s.status) : NotDecoded s t :=
  notDecoded_of_quiet hm (by rw [hout]) (by rw [hdec]) hstatus fun _ _ _ => by rw [hdec]

/-- Without minute sync at the start of the step no second runs (R285 steps 7, 8). -/
theorem eventStep_unsynced {a : Advance} {t0 r0 : Nat} (h : eventStep a false t0 r0 s = .ok t) :
    runIf a.wrapped rawSecond s = .ok t := by
  obtain ⟨u, v, hu, hv, ht⟩ := eventStep_ok.mp h
  rw [Bool.false_and, Bool.false_and] at hv ht
  cases hv
  cases ht
  exact hu

theorem SignalKept.dbuf_get (h : SignalKept s u) (j : Nat) (hwf : s.dec.dbuf.wf 8000 = true) (hj : j ≠ s.dbufPlace) :
    u.dec.dbuf.get j = s.dec.dbuf.get j := by
  obtain ⟨e, hdec⟩ := h.dec
  rw [hdec]
  exact get_put_ne hwf hj e

theorem SignalKept.flag_clockStep (h : SignalKept s u) (b : Nat) : (clockStep u).flag b = s.flag b := by
  rw [State.flag, State.flag, clockStep_status, h.status]

theorem SignalKept.timerec (h : SignalKept s u) : u.out.timerec = s.out.timerec := by rw [h.out]

/-- A raw second in a step without minute sync (R285 step 6). -/
theorem rawSecond_notDecoded (hm : s.msync = false) (hwrap : (advanceOf s.clock).wrapped = true)
    (hsignal : SignalKept s u) (h : rawSecond (clockStep u) = .ok t) : NotDecoded s t := by
  obtain ⟨e, hdec⟩ := hsignal.dec
  have hphase : u.clock.mphase = s.clock.mphase := congrArg Clock.mphase hsignal.clock
  have hbusy : (advanceOf s.clock).wrapped ≠ false := by rw [hwrap]; decide
  rcases rawSecond_unsynced ((hsignal.flag_clockStep bitMsync).trans hm) h with ⟨hrun, hacquired⟩ | ⟨hend, hreset⟩
  · have hdbuf : t.dec.dbuf = u.dec.dbuf := (congrArg Dec.dbuf hrun.dec :)
    refine ⟨hrun.timerec.trans hsignal.timerec, fun j hwf hj => ?_, fun hq => absurd hq hbusy,
      .inl ⟨?_, fun hset => ?_, fun hset => hphase.symm.trans (hacquired hset),
        fun b hb => (hrun.flag b hb).trans (hsignal.flag_clockStep b)⟩⟩
    · rw [hdbuf]
      exact hsignal.dbuf_get j hwf hj
    · conv_lhs => rw [hrun.dec]
      rw [hdbuf, clockStep_dec, hdec]
    · obtain ⟨hr, ht⟩ := hrun.seconds hset
      rw [clockStep_dec, hdec] at hr ht
      exact ⟨hr, ht⟩
  · have hdbuf : t.dec.dbuf = u.dec.dbuf := (congrArg Dec.dbuf hreset.dec :)
    refine ⟨hreset.timerec.trans hsignal.timerec, fun j hwf hj => ?_, fun hq => absurd hq hbusy,
      .inr ⟨hphase.symm.trans hend, ?_, hreset.status⟩⟩
    · rw [hdbuf]
      exact hsignal.dbuf_get j hwf hj
    · rw [hdbuf]
      exact hreset.dec

theorem sampleStep_notDecoded (hm : s.msync = false) (h : sampleStep s = .ok t) : NotDecoded s t := by
  obtain ⟨u, v, hu, hv, rfl⟩ := sampleStep_ok.mp h
  have hsignal := signalStep_signalKept hu
  have hevents : NotDecoded s v := by
    rw [hm, hsignal.clock] at hv
    rcases runIf_ok.mp (eventStep_unsynced hv) with ⟨hwrap, hv⟩ | ⟨-, rfl⟩
    · exact rawSecond_notDecoded hm hwrap hsignal hv
    · obtain ⟨e, hdec⟩ := hsignal.dec
      refine notDecoded_of_quiet hm hsignal.timerec ?_ hsignal.status hsignal.dbuf_get
      rw [clockStep_dec, hdec]
  rw [tunerFailure_eq]
  exact { hevents with }

end

/-- Settles O21: a step without a sample step changes no decoder register, and a sample step runs at most a raw
second. -/
theorem noDecodeWithoutMinuteSync : Obligations.NoDecodeWithoutMinuteSync := by
  intro s t hreset hm ht
  have hstep : NotDecoded s t := by
    rcases step_next ht with ⟨-, -, rfl⟩ | ⟨hr, -, -⟩ | ⟨-, -, -, rfl⟩ | ⟨-, -, -, u, hu, rfl⟩ | ⟨-, -, -, f, -, rfl⟩
    · exact notDecoded_of_untouched hm rfl rfl rfl
    · exact absurd (hreset.symm.trans hr) (by decide)
    · exact notDecoded_of_untouched hm rfl rfl rfl
    · exact { sampleStep_notDecoded hm hu with }
    · exact notDecoded_of_untouched hm rfl rfl rfl
  exact ⟨hstep.timerec, hstep.dbuf, hstep.quiet, hstep.wrap⟩

end Sys2Proof.Machine
end

section
/-! PROOF. The carry (44_clock_and_minute.md R244): a digit vector turned by a number of places, one place for each
carry, so that radix carries turn it once around. -/

namespace Sys2Proof.Machine

/-! The likelihoods turned one place up. -/

/-- The place one up from j wraps to 0 at the radix; two places below the radix never meet. -/
theorem succ_mod_ne {r i j : Nat} (hij : i < j) (hj : j < r) : (i + 1) % r ≠ (j + 1) % r := by
  rw [Nat.mod_eq_of_lt (by omega : i + 1 < r)]
  rcases (by omega : j + 1 < r ∨ j + 1 = r) with hlt | heq
  · rw [Nat.mod_eq_of_lt hlt]
    omega
  · rw [heq, Nat.mod_self]
    omega

section
variable {r n : Nat} {old a : RealArray} (hr : 0 < r) (hn : r ≤ n) (hwf : a.wf n = true)
include hr hn hwf

theorem rotateFrom_get {k : Nat} (hk : k ≤ r) {j : Nat} (hj : j < k) :
    (rotateFrom old r k a).get ((j + 1) % r) = old.get j := by
  induction k with
  | zero => exact absurd hj (Nat.not_lt_zero j)
  | succ d ih =>
    rw [rotateFrom, get_put (rotateFrom_wf hr hn d hwf)]
    rcases Nat.lt_succ_iff_lt_or_eq.mp hj with hlt | rfl
    · rw [if_neg (succ_mod_ne hlt (by omega)), ih (by omega) hlt]
    · rw [if_pos rfl]

theorem rotateFrom_get_of_le (k : Nat) {j : Nat} (hj : r ≤ j) : (rotateFrom old r k a).get j = a.get j := by
  induction k with
  | zero => rfl
  | succ d ih =>
    rw [rotateFrom, get_put_ne (rotateFrom_wf hr hn d hwf) ((Nat.mod_lt _ hr).trans_le hj).ne', ih]

end

/-! Carries in a row. -/

/-- `v` is the digit vector `d` of radix r after n carries: the two digits n up and the likelihoods n places up, both
modulo the radix. -/
structure TurnedBy (r n : Nat) (d v : DigitVec) : Prop where
  digit : v.digit = (d.digit + n) % r
  mldigit : v.mldigit = (d.mldigit + n) % r
  phase : v.phase = d.phase
  count : v.count = d.count
  locked : v.locked = d.locked
  wf : v.like.wf 10 = true
  low : ∀ j, j < r → v.like.get ((j + n) % r) = d.like.get j
  high : ∀ j, r ≤ j → v.like.get j = d.like.get j

section
variable {r n : Nat} {d v : DigitVec}

theorem turnedBy_zero (hwf : d.like.wf 10 = true) (hdigit : d.digit < r) (hml : d.mldigit < r) : TurnedBy r 0 d d where
  digit := (Nat.mod_eq_of_lt hdigit).symm
  mldigit := (Nat.mod_eq_of_lt hml).symm
  phase := rfl
  count := rfl
  locked := rfl
  wf := hwf
  low _ hj := congrArg d.like.get (Nat.mod_eq_of_lt hj)
  high _ _ := rfl

/-- One more carry turns by one more place. -/
theorem TurnedBy.carryDigit (h : TurnedBy r n d v) (hr : 0 < r) (hn : r ≤ 10) :
    TurnedBy r (n + 1) d (carryDigit r v) where
  digit := by
    change (v.digit + 1) % r = _
    rw [h.digit, Nat.mod_add_mod, Nat.add_assoc]
  mldigit := by
    change (v.mldigit + 1) % r = _
    rw [h.mldigit, Nat.mod_add_mod, Nat.add_assoc]
  phase := h.phase
  count := h.count
  locked := h.locked
  wf := rotateFrom_wf hr hn r h.wf
  low j hj := by
    rw [← h.low j hj, ← rotateFrom_get hr hn h.wf le_rfl (Nat.mod_lt (j + n) hr), Nat.mod_add_mod, Nat.add_assoc]
    rfl
  high j hj := (rotateFrom_get_of_le hr hn h.wf r hj).trans (h.high j hj)

theorem turnedBy_iterate (hr : 0 < r) (hn : r ≤ 10) (hwf : d.like.wf 10 = true) (hdigit : d.digit < r)
    (hml : d.mldigit < r) (n : Nat) : TurnedBy r n d ((carryDigit r)^[n] d) := by
  induction n with
  | zero => exact turnedBy_zero hwf hdigit hml
  | succ n ih =>
    rw [Function.iterate_succ_apply']
    exact ih.carryDigit hr hn

/-- A full turn restores the vector. -/
theorem TurnedBy.eq_of_radix (h : TurnedBy r r d v) (hwf : d.like.wf 10 = true) (hdigit : d.digit < r)
    (hml : d.mldigit < r) : v = d := by
  have hlike : v.like = d.like := array_ext h.wf hwf fun j => by
    rcases Nat.lt_or_ge j r with hj | hj
    · rw [← h.low j hj, Nat.add_mod_right, Nat.mod_eq_of_lt hj]
    · exact h.high j hj
  have hd : v.digit = d.digit := by rw [h.digit, Nat.add_mod_right, Nat.mod_eq_of_lt hdigit]
  have hm : v.mldigit = d.mldigit := by rw [h.mldigit, Nat.add_mod_right, Nat.mod_eq_of_lt hml]
  obtain ⟨-, -, hp, hc, hl, -, -, -⟩ := h
  cases v
  cases d
  rw [DigitVec.mk.injEq]
  exact ⟨hd, hm, hp, hc, hl, hlike⟩

/-- Of r carries in a row exactly one wraps the digit to 0. -/
theorem countP_wraps {x : Nat} (hx : x < r) : (List.range r).countP (fun n => (x + (n + 1)) % r == 0) = 1 := by
  have hone : (List.range r).count (r - 1 - x) = 1 :=
    List.count_eq_one_of_mem List.nodup_range (List.mem_range.mpr (by omega))
  refine (List.countP_congr fun n hn => ?_).trans hone
  have hlt := List.mem_range.mp hn
  rw [beq_iff_eq, beq_iff_eq]
  rcases Nat.lt_or_ge (x + (n + 1)) r with h | h
  · rw [Nat.mod_eq_of_lt h]
    omega
  · rw [Nat.mod_eq_sub_mod h, Nat.mod_eq_of_lt (by omega)]
    omega

end

/-- A carry into a position that has a vector. -/
theorem carry_of_digit {s : State} {p : Nat} {d : DigitVec} (hp : p < 9) (hd : s.dec.digits[p]? = some d) :
    carry p s = .ok (writeDigit s p (carryDigit (radix p) d), (carryDigit (radix p) d).digit == 0) :=
  carry_ok.mpr ⟨d, readDigit_ok.mpr ⟨hp, hd⟩, rfl, rfl⟩

/-- Settles O56: a carry is one place of the turn, and radix carries are the whole turn. -/
theorem carryTurnsADigit : Obligations.CarryTurnsADigit := by
  refine ⟨fun s p d hp hd => ?_, fun r d hr hn hwf hdigit hml => ?_⟩
  · refine ⟨_, _, carry_of_digit hp hd, ?_, beq_eq_decide .., fun q hq => ?_, rfl⟩
    · exact List.getElem?_set_self (List.getElem?_eq_some_iff.mp hd).1
    · exact List.getElem?_set_ne hq.symm
  · have hturn := turnedBy_iterate hr hn hwf hdigit hml
    have hone : TurnedBy r 1 d (carryDigit r d) := hturn 1
    refine ⟨hone.digit, hone.mldigit, hone.phase, hone.count, hone.locked, hone.wf, hone.low, hone.high,
      (hturn r).eq_of_radix hwf hdigit hml, ?_⟩
    rw [← List.countP_eq_length_filter]
    exact (List.countP_congr fun n _ => by rw [(hturn (n + 1)).digit]).trans (countP_wraps hdigit)

end Sys2Proof.Machine
end

section
/-! PROOF. The clock advance and the transmitter second (44_clock_and_minute.md R240 to R245): the carry chain as one turn
of all the positions it reaches, the new second before it, and the count it makes of the nine digits. -/

namespace Sys2Proof.Machine

/-! Turning a set of positions. -/

/-- The state with the digit vector of every position in P after one carry (R244). -/
def State.turned (s : State) (P : Nat → Bool) : State :=
  s.withDec { s.dec with digits := s.dec.digits.mapIdx fun p d => if P p then carryDigit (radix p) d else d }

/-- Whether a carry into position q wraps its digit (R244). -/
def State.wraps (s : State) (q : Nat) : Bool := (s.digitAt q + 1) % radix q == 0

/-- Whether a carry into position p reaches q: every position from p on below q wraps (R245). -/
def State.reaches (s : State) (p q : Nat) : Bool := decide (p ≤ q) && (List.range' p (q - p)).all s.wraps

theorem carriesInto_eq (s : State) (p : Nat) : s.carriesInto p = (p == 0 || (s.dsync && s.reaches 0 p)) := by
  unfold State.carriesInto State.reaches
  rw [List.range_eq_range', decide_eq_true (Nat.zero_le p), Bool.true_and]
  rfl

section
variable {s t : State} {p q : Nat}

theorem reaches_self : s.reaches p p = true := by simp [State.reaches]

theorem reaches_of_lt (h : q < p) : s.reaches p q = false := by simp [State.reaches, Nat.not_le.mpr h]

/-- A carry reaches beyond a position where it wraps that position and reaches on from the next. -/
theorem reaches_succ (h : p < q) : s.reaches p q = (s.wraps p && s.reaches (p + 1) q) := by
  unfold State.reaches
  rw [show q - p = q - (p + 1) + 1 by omega, List.range'_succ, List.all_cons, decide_eq_true h.le, Bool.true_and,
    decide_eq_true (Nat.succ_le_of_lt h), Bool.true_and]

/-- What a carry reaches follows from the positions it passes. -/
theorem reaches_congr (h : ∀ i, p ≤ i → t.wraps i = s.wraps i) : t.reaches p q = s.reaches p q := by
  unfold State.reaches
  rw [Bool.eq_iff_iff, Bool.and_eq_true, Bool.and_eq_true, List.all_eq_true, List.all_eq_true]
  exact and_congr_right fun _ => forall₂_congr fun i hi => by rw [h i (List.mem_range'_1.mp hi).1]

theorem turned_getElem? (s : State) (P : Nat → Bool) (q : Nat) :
    (s.turned P).dec.digits[q]? = (s.dec.digits[q]?).map fun d => if P q then carryDigit (radix q) d else d :=
  List.getElem?_mapIdx

/-- The digit of a turned position is one up modulo its radix. -/
theorem digitAt_turned (P : Nat → Bool) (hq : q < s.dec.digits.length) :
    (s.turned P).digitAt q = if P q then (s.digitAt q + 1) % radix q else s.digitAt q := by
  unfold State.digitAt
  rw [List.getD_eq_getElem?_getD, List.getD_eq_getElem?_getD, turned_getElem?, List.getElem?_eq_getElem hq]
  cases P q <;> rfl

theorem digitAt_turned_of_false {P : Nat → Bool} (hP : P q = false) : (s.turned P).digitAt q = s.digitAt q := by
  unfold State.digitAt
  rw [List.getD_eq_getElem?_getD, List.getD_eq_getElem?_getD, turned_getElem?, hP]
  cases s.dec.digits[q]? <;> rfl

/-- Only the positions that have a digit vector matter. -/
theorem turned_congr {P Q : Nat → Bool} (h : ∀ q, q < s.dec.digits.length → P q = Q q) : s.turned P = s.turned Q := by
  refine congrArg (fun l => s.withDec { s.dec with digits := l }) (List.mapIdx_eq_mapIdx_iff.mpr fun q hq => ?_)
  rw [h q hq]

theorem turned_none (s : State) : s.turned (fun _ => false) = s := by
  refine congrArg (fun l => s.withDec { s.dec with digits := l }) (List.ext_getElem? fun q => ?_)
  rw [List.getElem?_mapIdx]
  exact Option.map_id_apply

/-- Two turns of positions apart are one turn of both. -/
theorem turned_turned {P Q : Nat → Bool} (h : ∀ q, P q = true → Q q = false) :
    (s.turned P).turned Q = s.turned fun q => P q || Q q := by
  refine congrArg (fun l => s.withDec { s.dec with digits := l }) (List.ext_getElem? fun q => ?_)
  rw [List.getElem?_mapIdx, turned_getElem?, List.getElem?_mapIdx, Option.map_map]
  refine congrArg (fun f => Option.map f _) (funext fun d => ?_)
  by_cases hP : P q = true
  · simp [hP, h q hP]
  · simp [hP]

/-! The carry chain (R245). -/

theorem digitAt_of_getElem? {d : DigitVec} (hd : s.dec.digits[p]? = some d) : s.digitAt p = d.digit := by
  rw [State.digitAt, List.getD_eq_getElem?_getD, hd, Option.getD_some]

/-- A carry turns its position and answers whether it wrapped. -/
theorem carry_eq_turned (hlen : s.dec.digits.length = 9) (hp : p < 9) :
    carry p s = .ok (s.turned (· == p), s.wraps p) := by
  have hin : p < s.dec.digits.length := hlen ▸ hp
  have hd := List.getElem?_eq_getElem hin
  have hset : writeDigit s p (carryDigit (radix p) s.dec.digits[p]) = s.turned (· == p) := by
    refine congrArg (fun l => s.withDec { s.dec with digits := l }) (List.ext_getElem? fun q => ?_)
    rw [List.getElem?_mapIdx]
    by_cases hq : q = p
    · simp [hq, hin]
    · simp [hq, Ne.symm hq]
  rw [carry_of_digit hp hd, hset, State.wraps, digitAt_of_getElem? hd]
  rfl

/-- After a carry into p, the positions reached from the next are those reached before it. -/
theorem turned_then_reached (b : Bool) :
    ((s.turned (· == p)).turned fun q => b && (s.turned (· == p)).reaches (p + 1) q) =
      s.turned fun q => q == p || (b && s.reaches (p + 1) q) := by
  have hreach (q : Nat) : (s.turned (· == p)).reaches (p + 1) q = s.reaches (p + 1) q :=
    reaches_congr fun i hi => by
      have hi' : (i == p) = false := beq_eq_false_iff_ne.mpr (by omega)
      exact congrArg (fun x => (x + 1) % radix i == 0) (digitAt_turned_of_false hi')
  simp only [hreach]
  exact turned_turned fun q hq => by
    rw [reaches_of_lt (by rw [beq_iff_eq.mp hq]; exact Nat.lt_succ_self p), Bool.and_false]

end

/-- A chain of carries from position p to the last turns every position it reaches. -/
theorem carryChain_eq_turned {n p : Nat} (hp : p + n = 9) {s : State} (hlen : s.dec.digits.length = 9) (c : Bool) :
    carryChain (List.range' p n) c s = .ok (s.turned fun q => c && s.dsync && s.reaches p q) := by
  induction n generalizing p s c with
  | zero =>
    have hnone : (s.turned fun q => c && s.dsync && s.reaches p q) = s.turned fun _ => false :=
      turned_congr fun q hq => by rw [reaches_of_lt (by omega), Bool.and_false]
    rw [hnone, turned_none]
    rfl
  | succ n ih =>
    rw [List.range'_succ, carryChain]
    cases hc : c && s.dsync
    · exact congrArg Except.ok (turned_none s).symm
    · rw [if_pos rfl, carry_eq_turned hlen (by omega)]
      refine (ih (by omega) (List.length_mapIdx.trans hlen) _).trans (congrArg Except.ok ?_)
      have hheld : (s.turned (· == p)).dsync = true := (Bool.and_eq_true_iff.mp hc).2
      rw [hheld, turned_then_reached]
      refine turned_congr fun q _ => ?_
      rcases Nat.lt_trichotomy q p with hq | rfl | hq
      · rw [reaches_of_lt hq, reaches_of_lt (by omega), beq_eq_false_iff_ne.mpr hq.ne]
        simp
      · simp [reaches_self]
      · rw [reaches_succ hq, beq_eq_false_iff_ne.mpr hq.ne']
        simp

/-- The clock advance turns the positions a carry goes into. -/
theorem clockAdvance_eq_turned {s : State} (hlen : s.dec.digits.length = 9) :
    clockAdvance s = .ok (s.turned s.carriesInto) := by
  unfold clockAdvance
  rw [carry_eq_turned hlen (by decide)]
  refine (carryChain_eq_turned (p := 1) (n := 8) rfl (List.length_mapIdx.trans hlen) _).trans (congrArg Except.ok ?_)
  rw [turned_then_reached]
  refine turned_congr fun q _ => ?_
  rw [carriesInto_eq]
  rcases Nat.eq_zero_or_pos q with rfl | hq
  · rfl
  · rw [reaches_succ hq, ← Bool.and_assoc, Bool.and_comm s.dsync]
    rfl

/-! The count of the digits (R245). -/

/-- The mixed-radix value of the n digits from position p on, the lowest first. -/
def State.valueFrom (s : State) : Nat → Nat → Nat
  | _, 0 => 0
  | p, n + 1 => s.digitAt p + radix p * s.valueFrom (p + 1) n

/-- The product of the radices of the n positions from p on. -/
def radixProduct : Nat → Nat → Nat
  | _, 0 => 1
  | p, n + 1 => radix p * radixProduct (p + 1) n

theorem clockValue_eq_valueFrom (s : State) : s.clockValue = s.valueFrom 0 9 := rfl

theorem radixProduct_eq : radixProduct 0 9 = 72000000 := by decide

section
variable {s t : State}

theorem valueFrom_congr {n p : Nat} (h : ∀ q, p ≤ q → q < p + n → t.digitAt q = s.digitAt q) :
    t.valueFrom p n = s.valueFrom p n := by
  induction n generalizing p with
  | zero => rfl
  | succ n ih =>
    rw [State.valueFrom, h p le_rfl (by omega), ih fun q hq hlt => h q (by omega) (by omega)]
    rfl

/-- A digit below its radix under digits below theirs. -/
theorem digit_add_lt {d r v m : Nat} (hd : d < r) (hv : v < m) : d + r * v < r * m :=
  calc d + r * v < r + r * v := Nat.add_lt_add_right hd _
    _ = r * (v + 1) := by rw [Nat.mul_succ, Nat.add_comm]
    _ ≤ r * m := Nat.mul_le_mul_left _ hv

theorem valueFrom_lt (h : ∀ q, s.digitAt q < radix q) (p n : Nat) : s.valueFrom p n < radixProduct p n := by
  induction n generalizing p with
  | zero => exact Nat.one_pos
  | succ n ih => exact digit_add_lt (h p) (ih (p + 1))

/-- A carry into position p that turns what it reaches counts the digits from there on up by one. -/
theorem valueFrom_of_reaches (hdigit : ∀ q, s.digitAt q < radix q) {n p : Nat}
    (h : ∀ q, p ≤ q → q < p + n →
      t.digitAt q = if s.reaches p q then (s.digitAt q + 1) % radix q else s.digitAt q) :
    t.valueFrom p n = (s.valueFrom p n + 1) % radixProduct p n := by
  induction n generalizing p with
  | zero => exact (Nat.mod_one _).symm
  | succ n ih =>
    have hp : t.digitAt p = (s.digitAt p + 1) % radix p := by rw [h p le_rfl (by omega), reaches_self, if_pos rfl]
    have hlater {q : Nat} (hq : p + 1 ≤ q) (hlt : q < p + 1 + n) : t.digitAt q =
        if s.wraps p && s.reaches (p + 1) q then (s.digitAt q + 1) % radix q else s.digitAt q := by
      rw [h q (by omega) (by omega), reaches_succ hq]
    rw [State.valueFrom, State.valueFrom, radixProduct, hp]
    cases hw : s.wraps p
    · have hlt : s.digitAt p + 1 < radix p := by
        refine lt_of_le_of_ne (hdigit p) fun heq => beq_eq_false_iff_ne.mp hw ?_
        rw [heq, Nat.mod_self]
      have hkept : t.valueFrom (p + 1) n = s.valueFrom (p + 1) n := valueFrom_congr fun q hq hlt => by
        rw [hlater hq hlt, hw]
        rfl
      rw [hkept, Nat.mod_eq_of_lt hlt, Nat.add_right_comm _ (radix p * _),
        Nat.mod_eq_of_lt (digit_add_lt hlt (valueFrom_lt hdigit (p + 1) n))]
    · have hwrap : s.digitAt p + 1 = radix p :=
        Nat.le_antisymm (hdigit p) (Nat.le_of_dvd (Nat.succ_pos _) (Nat.dvd_of_mod_eq_zero (beq_iff_eq.mp hw)))
      have hcount := ih fun q hq hlt => by rw [hlater hq hlt, hw, Bool.true_and]
      rw [hcount, Nat.add_right_comm, hwrap, Nat.mod_self, Nat.zero_add, ← Nat.mul_mod_mul_left, Nat.mul_succ,
        Nat.add_comm (radix p)]

end

/-- A digit in range, or that of no position, is below its radix (10_state.md R46). -/
theorem digitAt_lt {s : State} (h : s.DigitsInRange) (q : Nat) : s.digitAt q < radix q := by
  rw [State.digitAt, List.getD_eq_getElem?_getD]
  cases hd : s.dec.digits[q]? with
  | none => exact radix_pos q
  | some d => exact (h q d hd).1

/-- Settles O58: with DSYNC the clock advance turns what a carry into the minute units reaches. -/
theorem clockAdvanceCounts : Obligations.ClockAdvanceCounts := by
  intro s hlen hrange hsync
  refine ⟨_, clockAdvance_eq_turned hlen, ?_⟩
  rw [clockValue_eq_valueFrom, clockValue_eq_valueFrom, ← radixProduct_eq]
  refine valueFrom_of_reaches (digitAt_lt hrange) fun q _ hq => ?_
  have hinto : s.carriesInto q = s.reaches 0 q := by
    rw [carriesInto_eq, hsync, Bool.true_and]
    rcases Nat.eq_zero_or_pos q with rfl | hpos
    · rfl
    · rw [beq_eq_false_iff_ne.mpr hpos.ne', Bool.false_or]
  rw [digitAt_turned _ (by omega), hinto]

/-! The transmitter second (R240 to R243). -/

theorem leapDue_eq (s : State) : leapDue s ⟨s.minuteField, s.hourField, s.dayField, s.yearField⟩ = s.leapSet := rfl

/-- LEAP and the transmitter second at the end of a transmitter second (R240 to R243). -/
def State.leapNext (s : State) : Bool := if s.dec.tsec = 59 then s.leap || s.leapSet else s.leap
def State.tsecAfter (s : State) : Nat :=
  if s.dec.tsec = 59 then (if s.leapNext then 60 else 0) else if s.dec.tsec = 60 then 0 else s.dec.tsec + 1

/-- The new transmitter second writes its register, and of the status word LEAP. -/
theorem tsecNext_eq {s : State} (hlen : s.dec.digits.length = 9) :
    ∃ w, tsecNext s = .ok ((setTsec s.tsecAfter s).withStatus w) ∧
      ∀ b, w.getLsbD b = if b = bitLeap then s.leapNext else s.flag b := by
  by_cases h59 : s.dec.tsec = 59
  · obtain ⟨w, hw, hbits⟩ := setFlag_if (f := bitLeap) (by decide) (s.leapSet = true) s
    have hflag (b : Nat) : w.getLsbD b = if b = bitLeap then s.leapNext else s.flag b := by
      rw [hbits, State.leapNext, if_pos h59, Bool.decide_eq_true]
      by_cases hb : b = bitLeap
      · rw [if_pos hb, hb, beq_self_eq_true, Bool.true_and]
        rfl
      · rw [if_neg hb, beq_eq_false_iff_ne.mpr hb, Bool.false_and, Bool.or_false]
    have hleap : (s.withStatus w).leap = s.leapNext := (hflag bitLeap).trans (if_pos rfl)
    refine ⟨w, tsecNext_ok.mpr (.inl ⟨h59, _, clockFields_eq hlen, ?_⟩), hflag⟩
    rw [leapDue_eq, hw, endSecond59, hleap, State.tsecAfter, if_pos h59]
    rfl
  · have hleap : s.leapNext = s.leap := if_neg h59
    refine ⟨s.status, ?_, fun b => ?_⟩
    · by_cases h60 : s.dec.tsec = 60
      · refine tsecNext_ok.mpr (.inr (.inl ⟨h60, ?_⟩))
        rw [State.tsecAfter, if_neg h59, if_pos h60]
        rfl
      · refine tsecNext_ok.mpr (.inr (.inr ⟨h59, h60, ?_⟩))
        rw [State.tsecAfter, if_neg h59, if_neg h60]
        rfl
    · rw [hleap]
      split
      · next hb => rw [hb]; rfl
      · rfl

/-- The transmitter second with the clock advance where it is 0, as one turn. -/
theorem transmitterSecond_eq {s : State} (hlen : s.dec.digits.length = 9) :
    ∃ w, transmitterSecond s = .ok (((setTsec s.tsecAfter s).withStatus w).turned
      fun p => decide (s.tsecAfter = 0 ∧ s.carriesInto p = true)) ∧
      ∀ b, w.getLsbD b = if b = bitLeap then s.leapNext else s.flag b := by
  obtain ⟨w, hw, hbits⟩ := tsecNext_eq hlen
  refine ⟨w, transmitterSecond_ok.mpr ⟨_, hw, ?_⟩, hbits⟩
  by_cases h0 : s.tsecAfter = 0
  · have hinto (p : Nat) : ((setTsec s.tsecAfter s).withStatus w).carriesInto p =
        s.carriesInto p := by
      have hsync : (s.withStatus w).dsync = s.dsync := (hbits bitDsync).trans (if_neg (by decide))
      exact congrArg (fun b => p == 0 || (b && (List.range p).all fun q => (s.digitAt q + 1) % radix q == 0)) hsync
    have hlen' : ((setTsec s.tsecAfter s).withStatus w).dec.digits.length = 9 := hlen
    refine .inl ⟨h0, (clockAdvance_eq_turned hlen').trans (congrArg Except.ok (turned_congr fun p _ => ?_))⟩
    rw [hinto, Bool.eq_iff_iff, decide_eq_true_iff]
    exact (and_iff_right h0).symm
  · refine .inr ⟨h0, ?_⟩
    simp only [h0, false_and, decide_false, turned_none]

/-- Settles O57: TSEC is the new second, the LEAP bit and the turn of the positions carried into. -/
theorem transmitterSecondAdvances : Obligations.TransmitterSecondAdvances := by
  intro s hlen leap next
  obtain ⟨w, hw, hbits⟩ := transmitterSecond_eq hlen
  refine ⟨_, commit_next.mpr (.inl hw), rfl, fun p => ?_, hbits, fun A j hA => memRead_of_array ?_ j, rfl⟩
  · rw [turned_getElem?]
    simp only [decide_eq_true_eq]
    rfl
  · cases A with
    | like p => exact absurd rfl (hA p)
    | _ => rfl

end Sys2Proof.Machine
end

section
/-! PROOF. What clears DSYNC (44_clock_and_minute.md R247, 60_exceptions.md R266): each rule of a sample step holds it, the
watchdog reset apart, after which the step has no transmitter second and no receiver second to run. -/

namespace Sys2Proof.Machine

/-- `t` holds DSYNC if `s` does. -/
def HoldsDsync (s t : State) : Prop := s.dsync = true → t.dsync = true

section
variable {s t u : State}

theorem HoldsDsync.refl (s : State) : HoldsDsync s s := id

theorem HoldsDsync.trans (h : HoldsDsync s t) (h' : HoldsDsync t u) : HoldsDsync s u := h' ∘ h

/-- The same with the later rule first. -/
theorem HoldsDsync.after (h' : HoldsDsync t u) (h : HoldsDsync s t) : HoldsDsync s u := h.trans h'

theorem holdsDsync_of_flag (h : t.flag bitDsync = s.flag bitDsync) : HoldsDsync s t := h.trans

theorem holdsDsync_of_status (h : t.status = s.status) : HoldsDsync s t :=
  holdsDsync_of_flag (congrArg (BitVec.getLsbD · bitDsync) h)

theorem setFlag_holdsDsync {b : Nat} (hb : b < 8) (hne : b ≠ bitDsync) (v : Bool) (s : State) :
    HoldsDsync s (setFlag b v s) :=
  holdsDsync_of_flag (by rw [flag_setFlag s hb, if_neg hne.symm])

theorem setSel_holdsDsync (st : Option Station) (s : State) : HoldsDsync s (setSel st s) :=
  holdsDsync_of_flag (flag_setSel s st (by decide) (by decide))

/-! The ROM actions. -/

theorem storeBcd_holdsDsync {i : Nat} {v : F64} (h : storeBcd i v s = .ok t) : HoldsDsync s t := by
  obtain ⟨-, rfl⟩ := storeBcd_ok.mp h
  exact .refl s

theorem decimAction_holdsDsync {p : Nat} (h : decimAction p s = .ok t) : HoldsDsync s t := by
  obtain ⟨d, like, -, -, rfl⟩ := decimAction_ok.mp h
  dsimp only
  generalize decodeDigit s.cfg (radix p) like d = r
  have hlock : HoldsDsync s (if r.2 = true then setFlag bitDlock true (writeDigit s p r.1) else writeDigit s p r.1) := by
    split
    · exact setFlag_holdsDsync (by decide) (by decide) true (writeDigit s p r.1)
    · exact .refl s
  split <;> exact hlock

theorem miscUpdate_holdsDsync {b : Nat} (h : miscUpdate b s = .ok t) : HoldsDsync s t := by
  obtain ⟨hb, -, rfl⟩ := miscUpdate_ok.mp h
  exact holdsDsync_of_status (congrArg State.status (miscDecide_miscUpdated (s := s) hb).rest :)

theorem useBest_holdsDsync (s : State) (best : Option (Nat × Station × Nat)) : HoldsDsync s (useBest s best) := by
  cases best with
  | none => exact .refl s
  | some c =>
    have h := useBest_selected c.1 c.2.1 c.2.2 s
    by_cases hn : c.2.2 = 0
    · obtain ⟨-, -, -, -, -, hflag⟩ := h.lost hn
      exact holdsDsync_of_flag (hflag _ (by decide) (by decide) (by decide) (by decide))
    · obtain ⟨-, -, -, hflag⟩ := h.chosen hn
      exact holdsDsync_of_flag (hflag _ (by decide) (by decide))

theorem endOfRotation_holdsDsync (h : endOfRotation s = .ok t) : HoldsDsync s t := by
  rcases endOfRotation_ok.mp h with ⟨-, best, -, rfl⟩ | ⟨-, rfl⟩
  · exact useBest_holdsDsync s best
  · exact .refl t

theorem updateChan_holdsDsync {down : Nat → Nat} {st : Station} {pass : Bool}
    (h : updateChan down st s = .ok (t, pass)) : HoldsDsync s t :=
  holdsDsync_of_flag ((updateChan_tracked h).flag _ (by decide))

theorem probeClose_holdsDsync (h : probeClose s = .ok t) : HoldsDsync s t := by
  obtain ⟨u, _, v, _, w, x, hu, hv, hw, hx, rfl⟩ := probeClose_ok.mp h
  obtain ⟨_, -, rfl⟩ := channelErrors_ok.mp hw
  exact ((updateChan_holdsDsync hu).trans (updateChan_holdsDsync hv)).trans (endOfRotation_holdsDsync hx :)

/-- A minute end sets DSYNC or leaves it (R247). -/
theorem minuteEnd_holdsDsync (h : minuteEnd s = .ok t) : HoldsDsync s t := by
  obtain ⟨r, -, rfl⟩ := minuteEnd_ok.mp h
  have hdeclare : HoldsDsync s (declareDsync s) := by
    unfold declareDsync
    split
    · exact fun _ => (flag_setFlag s (by decide) true bitDsync).trans (if_pos rfl)
    · exact .refl s
  have hinsync : HoldsDsync s (declareInsync (declareDsync s)) :=
    (setFlag_holdsDsync (by decide) (by decide) _ _).after hdeclare
  exact hinsync.trans (holdsDsync_of_status (restartAbs_status _))

theorem romAction_holdsDsync {i : Instr} (h : romAction i s = .ok t) : HoldsDsync s t := by
  cases i with
  | idle => cases h; exact .refl s
  | coef i => exact storeBcd_holdsDsync h
  | coefg i => exact storeBcd_holdsDsync h
  | coefz i => exact storeBcd_holdsDsync h
  | decim p => exact decimAction_holdsDsync h
  | msc b => exact miscUpdate_holdsDsync h
  | mscd p =>
    obtain ⟨u, hu, ht⟩ := res_bind_ok.mp h
    exact (decimAction_holdsDsync hu).trans (miscUpdate_holdsDsync ht)
  | mscq b =>
    obtain ⟨u, hu, rfl⟩ := res_map_ok.mp h
    exact (miscUpdate_holdsDsync hu :)
  | pend => exact probeClose_holdsDsync h
  | min1 =>
    change (if s.leap then .ok s else minuteEnd s) = .ok t at h
    split at h
    · cases h; exact .refl s
    · exact minuteEnd_holdsDsync h
  | min2 =>
    obtain ⟨u, hu, rfl⟩ := res_map_ok.mp h
    exact (setFlag_holdsDsync (by decide) (by decide) false u).after (minuteEnd_holdsDsync hu)
  | _ => cases h

/-! The events of a sample step. -/

theorem receiverSecond_holdsDsync (h : receiverSecond s = .ok t) : HoldsDsync s t := by
  obtain ⟨w, u, -, hu, rfl⟩ := receiverSecond_ok.mp h
  obtain ⟨n, a, hcount⟩ := countErasure_eq s
  rw [hcount] at hu
  exact (romAction_holdsDsync hu :)

theorem carry_holdsDsync {p : Nat} {c : Bool} (h : carry p s = .ok (t, c)) : HoldsDsync s t := by
  obtain ⟨d, -, rfl, -⟩ := carry_ok.mp h
  exact .refl s

theorem carryChain_holdsDsync {l : List Nat} {c : Bool} (h : carryChain l c s = .ok t) : HoldsDsync s t := by
  induction l generalizing c s with
  | nil => cases h; exact .refl _
  | cons p rest ih =>
    rcases carryChain_cons_ok.mp h with ⟨-, -, u, c', hu, ht⟩ | ⟨-, rfl⟩
    · exact (carry_holdsDsync hu).trans (ih ht)
    · exact .refl t

theorem tsecNext_holdsDsync (h : tsecNext s = .ok t) : HoldsDsync s t := by
  rcases tsecNext_ok.mp h with ⟨-, c, -, rfl⟩ | ⟨-, rfl⟩ | ⟨-, -, rfl⟩
  · split
    · exact setFlag_holdsDsync (by decide) (by decide) true s
    · exact .refl s
  · exact .refl s
  · exact .refl s

theorem transmitterSecond_holdsDsync (h : transmitterSecond s = .ok t) : HoldsDsync s t := by
  obtain ⟨u, hu, ⟨-, ht⟩ | ⟨-, rfl⟩⟩ := transmitterSecond_ok.mp h
  · obtain ⟨v, c, hv, hw⟩ := clockAdvance_ok.mp ht
    exact ((tsecNext_holdsDsync hu).trans (carry_holdsDsync hv)).trans (carryChain_holdsDsync hw)
  · exact tsecNext_holdsDsync hu

theorem watchdogUpdate_holdsDsync (s : State) :
    HoldsDsync s (watchdogUpdate s) ∨ ∃ u, watchdogUpdate s = watchdogReset u := by
  rcases watchdogUpdate_cases s with ⟨-, e⟩ | ⟨-, e⟩
  · rw [e]
    exact .inl (.refl s)
  · exact .inr ⟨_, e⟩

/-- A raw minute holds DSYNC, or leaves a watchdog reset (60_exceptions.md R265). -/
theorem rawMinute_holdsDsync (h : rawMinute s = .ok t) : HoldsDsync s t ∨ ∃ u, t = watchdogReset u := by
  rcases rawMinute_ok.mp h with ⟨-, rfl⟩ | ⟨-, u, hu, rfl⟩
  · exact watchdogUpdate_holdsDsync s
  · have hacquire : HoldsDsync s (scanReset u) :=
      holdsDsync_of_flag ((acquisition_undecoded hu).flag bitDsync (by decide))
    rcases watchdogUpdate_holdsDsync (scanReset u) with hheld | ⟨v, e⟩
    · exact .inl (hacquire.trans hheld)
    · exact .inr ⟨v, by rw [e, ageAlarm_watchdogReset]⟩

theorem rawSecond_holdsDsync (h : rawSecond s = .ok t) : HoldsDsync s t ∨ ∃ u, t = watchdogReset u := by
  obtain ⟨u, v, hu, hv, ht⟩ := rawSecond_ok.mp h
  have htracked := ((epochUpdate_tracked hu).trans (intervalStep_tracked hv)).trans (syncCheck_tracked v)
  have hrun : HoldsDsync s (syncCheck v) := holdsDsync_of_flag (htracked.flag bitDsync (by decide))
  rcases ht with ⟨-, ht⟩ | ⟨-, rfl⟩
  · exact (rawMinute_holdsDsync ht).imp_left hrun.trans
  · exact .inl hrun

theorem runIf_holdsDsync {c : Bool} {rule : State → Res State} (hrule : ∀ {s t}, rule s = .ok t → HoldsDsync s t)
    (h : runIf c rule s = .ok t) : HoldsDsync s t := by
  rcases runIf_ok.mp h with ⟨-, h⟩ | ⟨-, rfl⟩
  · exact hrule h
  · exact .refl t

/-- Without MSYNC the second events do not run (R240, 43_bcd_decoder.md R200). -/
theorem runIf_of_no_msync {m0 crossed : Bool} {rule : State → Res State} (hm : s.msync = false)
    (h : runIf (m0 && s.msync && crossed) rule s = .ok t) : t = s := by
  rw [hm, Bool.and_false, Bool.false_and] at h
  exact (Except.ok.inj h).symm

theorem eventStep_holdsDsync {a : Advance} {m0 : Bool} {t0 r0 : Nat} (h : eventStep a m0 t0 r0 s = .ok t) :
    HoldsDsync s t ∨ ∃ u, t = watchdogReset u := by
  obtain ⟨x, y, hx, hy, ht⟩ := eventStep_ok.mp h
  have hraw : HoldsDsync s x ∨ ∃ u, x = watchdogReset u := by
    rcases runIf_ok.mp hx with ⟨-, hx⟩ | ⟨-, rfl⟩
    · exact rawSecond_holdsDsync hx
    · exact .inl (.refl x)
  rcases hraw with hheld | ⟨u, rfl⟩
  · have hsecond := hheld.trans (runIf_holdsDsync transmitterSecond_holdsDsync hy)
    exact .inl (hsecond.trans (runIf_holdsDsync receiverSecond_holdsDsync ht))
  · have hm : (watchdogReset u).msync = false := BitVec.getLsbD_zero
    obtain rfl := runIf_of_no_msync hm hy
    exact .inr ⟨u, runIf_of_no_msync hm ht⟩

theorem sampleStep_holdsDsync (h : sampleStep s = .ok t) :
    HoldsDsync s t ∨ ∃ u, t = tunerFailure s.pins.tuneFail (watchdogReset u) := by
  obtain ⟨u, v, hu, hv, rfl⟩ := sampleStep_ok.mp h
  have hsignal : HoldsDsync s (clockStep u) := holdsDsync_of_status (signalStep_signalKept hu).status
  rcases eventStep_holdsDsync hv with hheld | ⟨w, rfl⟩
  · exact .inl ((hsignal.trans hheld).trans (holdsDsync_of_status (tunerFailure_status _ _)))
  · exact .inr ⟨w, rfl⟩

end

/-- Settles O20: only a sample step whose raw minute leaves a watchdog reset can clear DSYNC. -/
theorem onlyAResetClearsDsync : Obligations.OnlyAResetClearsDsync := by
  intro s t ht hset hclear hreset
  have hlost (h : HoldsDsync s t) : False := absurd ((h hset).symm.trans hclear) (by decide)
  rcases step_next ht with ⟨-, -, rfl⟩ | ⟨hr, -, -⟩ | ⟨-, -, -, rfl⟩ | ⟨-, -, -, u, hu, rfl⟩ | ⟨-, -, -, f, -, rfl⟩
  · exact (hlost (.refl s)).elim
  · exact absurd (hreset.symm.trans hr) (by decide)
  · exact (hlost (.refl s)).elim
  · rcases sampleStep_holdsDsync hu with hheld | ⟨v, rfl⟩
    · exact (hlost hheld).elim
    · rw [tunerFailure_eq]
      exact ⟨rfl, rfl, rfl, rfl, rfl, rfl⟩
  · exact (hlost (.refl s)).elim

end Sys2Proof.Machine
end

section
/-! PROOF. The alarm word (60_exceptions.md R262, R263, R272): raising a class writes one bit, ageing moves every bit one
place up inside its nibble, and the quality nibble shows which nibbles are not zero. -/

namespace Sys2Proof.Machine

/-! Raising a class. -/

/-- The bit is written by `or`, so a second time it changes nothing. -/
theorem raiseAlarm_idem (c : Nat) (s : State) : raiseAlarm c (raiseAlarm c s) = raiseAlarm c s := by
  unfold raiseAlarm
  simp only [withDec_dec, withDec_withDec, BitVec.or_assoc, BitVec.or_self]

/-- Settles O59: raising a class is one `or` of its current-minute bit. -/
theorem raisingAnAlarm : Obligations.RaisingAnAlarm := by
  intro s c hc
  refine ⟨fun b => ?_, rfl, raiseAlarm_idem c s⟩
  rw [alarm_raiseAlarm s hc, Bool.or_comm, beq_eq_decide]

/-! Ageing. -/

/-- Ageing moves a bit one place up; the place at the foot of each nibble is left empty. -/
theorem getLsbD_ageWord (w : BitVec 16) {j : Nat} (hj : j < 16) :
    (ageWord w).getLsbD j = (decide (j % 4 ≠ 0) && w.getLsbD (j - 1)) := by
  have hmask : ∀ i : Fin 16, (~~~0x8888#16).getLsbD (i - 1) = (decide (i.val % 4 ≠ 0) || decide (i.val = 0)) := by decide
  rw [ageWord, BitVec.getLsbD_shiftLeft, BitVec.getLsbD_and, hmask ⟨j, hj⟩]
  by_cases h0 : j = 0
  · simp [h0]
  · simp [h0, hj, Bool.and_comm]

/-- The current-minute bit of a class stands `n` places higher after `n` ageings. -/
theorem getLsbD_iterate_ageWord (w : BitVec 16) {c : Nat} (hc : c < 4) :
    ∀ n, n < 4 → (ageWord^[n] w).getLsbD (4 * c + n) = w.getLsbD (4 * c)
  | 0, _ => rfl
  | n + 1, hn => by
    rw [Function.iterate_succ_apply', getLsbD_ageWord _ (by omega), decide_eq_true (by omega), Bool.true_and]
    exact getLsbD_iterate_ageWord w hc n (by omega)

/-- `n` ageings empty the `n` lowest places of every nibble. -/
theorem getLsbD_iterate_ageWord_of_lt (w : BitVec 16) :
    ∀ n j, j < 16 → j % 4 < n → (ageWord^[n] w).getLsbD j = false
  | n + 1, j, hj, hn => by
    rw [Function.iterate_succ_apply', getLsbD_ageWord _ hj]
    by_cases h0 : j % 4 = 0
    · simp [h0]
    · rw [getLsbD_iterate_ageWord_of_lt w n (j - 1) (by omega) (by omega), Bool.and_false]

theorem ageWord_four (w : BitVec 16) : ageWord^[4] w = 0 :=
  BitVec.eq_of_getLsbD_eq fun j hj =>
    (getLsbD_iterate_ageWord_of_lt w 4 j hj (Nat.mod_lt j (by decide))).trans BitVec.getLsbD_zero.symm

/-! The quality nibble. -/

theorem nibbleSet_iff (w : BitVec 16) (c : Nat) : nibbleSet w c = true ↔ (w.toNat / 16 ^ c) % 16 ≠ 0 := by
  have hnibble : ((w >>> (4 * c)) &&& 0xF#16).toNat = w.toNat / 16 ^ c % 16 := by
    rw [BitVec.toNat_and, BitVec.toNat_ushiftRight, Nat.shiftRight_eq_div_pow, Nat.pow_mul]
    exact Nat.and_two_pow_sub_one_eq_mod _ 4
  rw [nibbleSet, bne_iff_ne, ne_eq, ← BitVec.toNat_inj, hnibble]
  rfl

/-- A bit that is set makes its nibble count. -/
theorem nibbleSet_of_bit {w : BitVec 16} {c n : Nat} (hn : n < 4) (h : w.getLsbD (4 * c + n) = true) :
    nibbleSet w c = true := by
  have hbit : (w.toNat / 2 ^ (4 * c) % 2 ^ 4).testBit n = true := by
    rw [Nat.testBit_mod_two_pow, Nat.testBit_div_two_pow, decide_eq_true hn, Bool.true_and, Nat.add_comm n (4 * c)]
    exact h
  rw [Nat.pow_mul] at hbit
  refine (nibbleSet_iff w c).mpr fun hzero => ?_
  change w.toNat / (2 ^ 4) ^ c % 2 ^ 4 = 0 at hzero
  rw [hzero, Nat.zero_testBit] at hbit
  cases hbit

theorem getLsbD_qualityOf (w : BitVec 16) {c : Nat} (hc : c < 4) : (qualityOf w).getLsbD c = nibbleSet w c := by
  have hbits : ∀ a b d e : Bool, ∀ k : Fin 4,
      ((if a then 1#4 else 0#4) ||| (if b then 2#4 else 0#4) ||| (if d then 4#4 else 0#4) |||
        (if e then 8#4 else 0#4)).getLsbD k = [a, b, d, e].get k := by decide
  have h := hbits (nibbleSet w 0) (nibbleSet w 1) (nibbleSet w 2) (nibbleSet w 3) ⟨c, hc⟩
  interval_cases c <;> exact h

/-- Settles O60: the bit of the raised class climbs its nibble and falls off the top at the fourth ageing. -/
theorem alarmMemoryLastsFourMinutes : Obligations.AlarmMemoryLastsFourMinutes := by
  refine ⟨fun w c n hc hset hn => ?_, ageWord_four, fun w c hc => ?_⟩
  · rw [getLsbD_qualityOf _ hc]
    exact nibbleSet_of_bit hn ((getLsbD_iterate_ageWord w hc n hn).trans hset)
  · rw [getLsbD_qualityOf w hc]
    exact nibbleSet_iff w c

end Sys2Proof.Machine
end

section
/-! PROOF. Faults and the watchdog reset (60_exceptions.md R260, R266): a faulting step commits the fault alone, and the
elements that a watchdog reset keeps and those it resets. -/

namespace Sys2Proof.Machine

/-- Settles O9: a completed sample step keeps the fault register, so a step that ends with a fault took it. -/
theorem modelFaultsStopTheCore : Obligations.ModelFaultsStopTheCore := by
  constructor
  · intro s t f hf ht htf
    have hkept (h : t.fault = s.fault) : False := absurd (htf.symm.trans (h.trans hf)) nofun
    rcases step_next ht with ⟨-, -, rfl⟩ | ⟨-, -, rfl⟩ | ⟨-, -, -, rfl⟩ | ⟨-, -, -, u, hu, rfl⟩ | ⟨-, -, -, g, -, rfl⟩
    · exact (hkept rfl).elim
    · cases htf
    · exact (hkept rfl).elim
    · exact (hkept (sampleStep_kept hu).fault).elim
    · cases htf
      rfl
  · intro s t f hf ht
    have hfaulted (h : s.fault = none) : False := absurd (hf.symm.trans h) nofun
    rcases step_next ht with ⟨hr, -, rfl⟩ | ⟨hr, -, rfl⟩ | ⟨hr, -, -, rfl⟩ | ⟨-, -, hnone, -⟩ | ⟨-, -, hnone, -⟩
    · exact .inl ⟨hr, rfl⟩
    · exact .inr ⟨hr, rfl⟩
    · exact .inl ⟨hr, rfl⟩
    · exact (hfaulted hnone).elim
    · exact (hfaulted hnone).elim

/-! The watchdog reset. -/

theorem memRead_of_zeros {t : State} {A : ArrName} {i : Nat} (h : t.array A = some .zeros) (hi : i < A.size) :
    memRead t A i = .ok .zero :=
  memRead_ok.mpr ⟨_, h, hi, (zeros_get i).symm⟩

section
variable (s : State)

/-- The arrays that hold no decoded time are kept (R266). -/
theorem watchdogReset_array {A : ArrName} (hbcd : A ≠ .bcd) (hmiscp : A ≠ .miscp) (hlike : ∀ p, A ≠ .like p) :
    (watchdogReset s).array A = s.array A := by
  cases A with
  | bcd => exact absurd rfl hbcd
  | miscp => exact absurd rfl hmiscp
  | like p => exact absurd rfl (hlike p)
  | _ => rfl

theorem watchdogReset_chan {f : Nat} (hf : f < 5) :
    (watchdogReset s).acq.chan[f]? = some ⟨.zeros, .zeros⟩ :=
  List.getElem?_replicate_of_lt hf

theorem watchdogReset_digits {p : Nat} (hp : p < 9) : (watchdogReset s).dec.digits[p]? = some .zeros :=
  List.getElem?_replicate_of_lt hp

theorem watchdogReset_like {p : Nat} (hp : p < 9) : (watchdogReset s).array (.like p) = some .zeros := by
  change ((watchdogReset s).dec.digits[p]?).map DigitVec.like = _
  rw [watchdogReset_digits s hp]
  rfl

end

/-- Settles O15: the registers by their reset values, the arrays as kept or as zeros. -/
theorem watchdogResetValues : Obligations.WatchdogResetValues := by
  intro s
  refine ⟨watchdogReset s, rfl, rfl, rfl, rfl, ⟨rfl, fun f st hf => ?_⟩, rfl, rfl, rfl, rfl, fun st => ?_,
    rfl, rfl, rfl, rfl, rfl, ⟨rfl, fun p hp => ?_⟩, rfl, rfl, rfl, rfl, rfl, rfl, rfl, fun A i hbcd hmiscp hlike => ?_,
    fun i hi => memRead_of_zeros rfl hi, fun i hi => memRead_of_zeros rfl hi,
    fun p i hp hi => memRead_of_zeros (watchdogReset_like s hp) hi⟩
  · exact ⟨_, watchdogReset_chan s hf, by cases st <;> rfl⟩
  · cases st <;> rfl
  · exact ⟨_, watchdogReset_digits s hp, rfl, rfl, rfl, rfl, rfl⟩
  · rw [memRead, watchdogReset_array s hbcd hmiscp hlike, memRead]

end Sys2Proof.Machine
end

section
/-! PROOF. The tuning-failure report (60_exceptions.md R273): no event of a sample step writes it, and the end of the step
adds the tune_fail input. -/

namespace Sys2Proof.Machine

section
variable {s t : State}

/-! The raw second. The rules up to the raw minute leave the outputs (`Tracked.out`). -/

theorem acceptOrAdvance_tuneErr (pair : ByStation ChanRec) (s : State) :
    (acceptOrAdvance pair s).out.tuneErr = s.out.tuneErr := by
  rcases acceptOrAdvance_cases pair s with ⟨w, -, h⟩ | ⟨-, -, -, h⟩ | ⟨-, -, h⟩ <;> rw [h] <;> rfl

theorem acquisition_tuneErr (h : acquisition s = .ok t) : t.out.tuneErr = s.out.tuneErr := by
  obtain ⟨u, _, v, _, pair, hu, hv, -, rfl⟩ := acquisition_ok.mp h
  rw [acceptOrAdvance_tuneErr, (updateChan_tracked hv).out, (updateChan_tracked hu).out]

theorem watchdogUpdate_tuneErr (s : State) : (watchdogUpdate s).out.tuneErr = s.out.tuneErr := by
  rcases watchdogUpdate_cases s with ⟨-, h⟩ | ⟨-, h⟩ <;> rw [h] <;> rfl

theorem rawMinute_tuneErr (h : rawMinute s = .ok t) : t.out.tuneErr = s.out.tuneErr := by
  rcases rawMinute_ok.mp h with ⟨-, rfl⟩ | ⟨-, u, hu, rfl⟩
  · exact watchdogUpdate_tuneErr s
  · rw [ageAlarm_out, watchdogUpdate_tuneErr, scanReset_out, acquisition_tuneErr hu]

theorem rawSecond_tuneErr (h : rawSecond s = .ok t) : t.out.tuneErr = s.out.tuneErr := by
  obtain ⟨u, v, hu, hv, ht⟩ := rawSecond_ok.mp h
  have hout : (syncCheck v).out = s.out := by
    rw [syncCheck_out, (intervalStep_tracked hv).out, (epochUpdate_tracked hu).out, withClock_out]
  rcases ht with ⟨-, ht⟩ | ⟨-, rfl⟩
  · rw [rawMinute_tuneErr ht, hout]
  · rw [hout]

/-! The transmitter second. -/

theorem carry_out {p : Nat} {c : Bool} (h : carry p s = .ok (t, c)) : t.out = s.out := by
  obtain ⟨d, -, rfl, -⟩ := carry_ok.mp h
  rfl

theorem carryChain_out {l : List Nat} {c : Bool} (h : carryChain l c s = .ok t) : t.out = s.out := by
  induction l generalizing c s with
  | nil => cases h; rfl
  | cons p rest ih =>
    rcases carryChain_cons_ok.mp h with ⟨-, -, u, c', hu, ht⟩ | ⟨-, rfl⟩
    · exact (ih ht).trans (carry_out hu)
    · rfl

theorem tsecNext_out (h : tsecNext s = .ok t) : t.out = s.out := by
  rcases tsecNext_ok.mp h with ⟨-, c, -, rfl⟩ | ⟨-, rfl⟩ | ⟨-, -, rfl⟩
  · split <;> rfl
  · rfl
  · rfl

theorem transmitterSecond_out (h : transmitterSecond s = .ok t) : t.out = s.out := by
  obtain ⟨u, hu, ⟨-, ht⟩ | ⟨-, rfl⟩⟩ := transmitterSecond_ok.mp h
  · obtain ⟨v, c, hv, hw⟩ := clockAdvance_ok.mp ht
    exact (carryChain_out hw).trans ((carry_out hv).trans (tsecNext_out hu))
  · exact tsecNext_out hu

/-! The receiver second: the probe window writes the tuning, a minute end the time record, the other words no output. -/

theorem storeBcd_out {i : Nat} {v : F64} (h : storeBcd i v s = .ok t) : t.out = s.out := by
  obtain ⟨-, rfl⟩ := storeBcd_ok.mp h
  rfl

theorem decimAction_out {p : Nat} (h : decimAction p s = .ok t) : t.out = s.out := by
  obtain ⟨d, like, -, -, rfl⟩ := decimAction_ok.mp h
  dsimp only
  split_ifs <;> rfl

theorem miscUpdate_out {b : Nat} (h : miscUpdate b s = .ok t) : t.out = s.out := by
  obtain ⟨hb, -, rfl⟩ := miscUpdate_ok.mp h
  exact (congrArg State.out (miscDecide_miscUpdated (s := s) hb).rest :)

theorem useBest_out (s : State) (best : Option (Nat × Station × Nat)) : (useBest s best).out = s.out := by
  cases best with
  | none => rfl
  | some c => exact (congrArg State.out (useBest_selected c.1 c.2.1 c.2.2 s).rest :)

theorem endOfRotation_out (h : endOfRotation s = .ok t) : t.out = s.out := by
  rcases endOfRotation_ok.mp h with ⟨-, best, -, rfl⟩ | ⟨-, rfl⟩
  · exact useBest_out s best
  · rfl

theorem probeClose_tuneErr (h : probeClose s = .ok t) : t.out.tuneErr = s.out.tuneErr := by
  obtain ⟨u, _, v, _, w, x, hu, hv, hw, hx, rfl⟩ := probeClose_ok.mp h
  obtain ⟨_, -, rfl⟩ := channelErrors_ok.mp hw
  change x.out.tuneErr = _
  rw [endOfRotation_out hx, withAcq_out, (updateChan_tracked hv).out, (updateChan_tracked hu).out, withAcq_out]

theorem minuteEnd_tuneErr (h : minuteEnd s = .ok t) : t.out.tuneErr = s.out.tuneErr := by
  obtain ⟨r, -, rfl⟩ := minuteEnd_ok.mp h
  rfl

theorem romAction_tuneErr {i : Instr} (h : romAction i s = .ok t) : t.out.tuneErr = s.out.tuneErr := by
  cases i with
  | idle => cases h; rfl
  | coef i => rw [storeBcd_out h]
  | coefg i => rw [storeBcd_out h]
  | coefz i => rw [storeBcd_out h]
  | decim p => rw [decimAction_out h]
  | msc b => rw [miscUpdate_out h]
  | mscd p =>
    obtain ⟨u, hu, ht⟩ := res_bind_ok.mp h
    rw [miscUpdate_out ht, decimAction_out hu]
  | mscq b =>
    obtain ⟨u, hu, rfl⟩ := res_map_ok.mp h
    exact (congrArg OutRegs.tuneErr (miscUpdate_out hu) :)
  | pend => exact probeClose_tuneErr h
  | min1 =>
    change (if s.leap then .ok s else minuteEnd s) = .ok t at h
    split at h
    · cases h; rfl
    · exact minuteEnd_tuneErr h
  | min2 =>
    obtain ⟨u, hu, rfl⟩ := res_map_ok.mp h
    exact (minuteEnd_tuneErr hu :)
  | _ => cases h

theorem receiverSecond_tuneErr (h : receiverSecond s = .ok t) : t.out.tuneErr = s.out.tuneErr := by
  obtain ⟨w, u, -, hu, rfl⟩ := receiverSecond_ok.mp h
  obtain ⟨n, a, hcount⟩ := countErasure_eq s
  rw [rsecAdvance_out, romAction_tuneErr hu, hcount, withDec_out]

/-! The sample step. -/

theorem runIf_tuneErr {c : Bool} {rule : State → Res State}
    (hrule : ∀ {s t}, rule s = .ok t → t.out.tuneErr = s.out.tuneErr) (h : runIf c rule s = .ok t) :
    t.out.tuneErr = s.out.tuneErr := by
  rcases runIf_ok.mp h with ⟨-, h⟩ | ⟨-, rfl⟩
  · exact hrule h
  · rfl

theorem eventStep_tuneErr {a : Advance} {m0 : Bool} {t0 r0 : Nat} (h : eventStep a m0 t0 r0 s = .ok t) :
    t.out.tuneErr = s.out.tuneErr := by
  obtain ⟨u, v, hu, hv, ht⟩ := eventStep_ok.mp h
  have htransmitter := runIf_tuneErr (fun h => congrArg OutRegs.tuneErr (transmitterSecond_out h)) hv
  rw [runIf_tuneErr receiverSecond_tuneErr ht, htransmitter, runIf_tuneErr rawSecond_tuneErr hu]

theorem sampleStep_tuneErr (h : sampleStep s = .ok t) : t.out.tuneErr = (s.out.tuneErr || s.pins.tuneFail) := by
  obtain ⟨u, v, hu, hv, rfl⟩ := sampleStep_ok.mp h
  rw [tunerFailure_eq, withOut_out, eventStep_tuneErr hv, clockStep_out, (signalStep_signalKept hu).out]

end

/-- Settles O22: of the steps without a host reset only a completed sample step writes the outputs. -/
theorem tunerFailureIsSticky : Obligations.TunerFailureIsSticky := by
  intro s t hreset ht
  rcases step_next ht with ⟨-, e, rfl⟩ | ⟨e, -, -⟩ | ⟨-, -, e, rfl⟩ | ⟨-, -, -, u, hu, rfl⟩ | ⟨-, -, -, f, -, rfl⟩
  · exact ⟨id, fun hstrobe => absurd (hstrobe.symm.trans e) (by decide)⟩
  · exact absurd (hreset.symm.trans e) (by decide)
  · exact ⟨id, fun _ hf => absurd hf e⟩
  · have htune : u.nextCycle.out.tuneErr = (s.out.tuneErr || s.pins.tuneFail) := (sampleStep_tuneErr hu :)
    exact ⟨fun hset => by rw [htune, hset, Bool.true_or], fun _ _ _ => htune⟩
  · exact ⟨id, fun _ _ htf => nomatch htf⟩

end Sys2Proof.Machine
end

section
/-! PROOF. The cycle (70_reset_and_hazards.md R280, R285): the operation the input ports ask for, the order of the events
of a sample step, and the state a host reset leaves. -/

namespace Sys2Proof.Machine

section
variable {s : State}

/-! The operation of a cycle. -/

/-- A host reset is served whether or not the strobe is raised with it (R280). -/
theorem currentOp_of_reset (hreset : s.pins.reset = true) : currentOp s = some .reset := if_pos hreset

theorem currentOp_of_strobe (hreset : s.pins.reset = false) (hstrobe : s.pins.strobe = true) :
    currentOp s = some .sample := by
  rw [currentOp, hreset, hstrobe]
  rfl

theorem currentOp_of_quiet (hreset : s.pins.reset = false) (hstrobe : s.pins.strobe = false) : currentOp s = none := by
  rw [currentOp, hreset, hstrobe]
  rfl

/-- A cycle with an operation is that operation, then the consumption of the inputs. -/
theorem step_of_currentOp {i : Instr} (h : currentOp s = some i) : step s = finishCycle (exec i s) := by
  rw [step, h]

theorem step_of_no_currentOp (h : currentOp s = none) : step s = .next s.nextCycle := by
  rw [step, h]

/-- Settles O4: each case of the input ports by the operation it asks for. -/
theorem cycleRunsItsOperation : Obligations.CycleRunsItsOperation := fun _ =>
  ⟨fun hreset => step_of_currentOp (currentOp_of_reset hreset),
    fun hreset hstrobe => step_of_currentOp (currentOp_of_strobe hreset hstrobe),
    fun hreset hstrobe => step_of_no_currentOp (currentOp_of_quiet hreset hstrobe)⟩

/-! The events of a sample step. -/

/-- An event that commits without a fault where its condition holds, and leaves the state elsewhere, is its rule run
under that condition. -/
theorem runIf_of_commit {c : Bool} {rule : State → Res State} {t : State}
    (h : if c then commit s (rule s) = .next t ∧ t.fault = none else t = s) : runIf c rule s = .ok t := by
  cases c with
  | true =>
    obtain ⟨hcommit, hfault⟩ := h
    exact rule_of_commit hcommit hfault
  | false => exact congrArg Except.ok (Eq.symm h)

/-- Settles O6: each event is its rule run under its condition, and the three in turn are the events of the step. -/
theorem sampleStepOrder : Obligations.SampleStepOrder := by
  intro s u v w z hreset hstrobe hfault hsignal hrawsec htsec hrsec
  have hevents : eventStep (advanceOf u.clock) s.msync s.epoch.tsecStart s.epoch.rsecStart (clockStep u) = .ok z :=
    eventStep_ok.mpr ⟨v, w, runIf_of_commit hrawsec, runIf_of_commit htsec, runIf_of_commit hrsec⟩
  exact step_of_sampleStep hreset hstrobe hfault (sampleStep_ok.mpr ⟨u, z, hsignal, hevents, rfl⟩)

end

/-! The host reset. -/

/-- On a valid configuration the host reset completes (R280, R281). -/
theorem exec_reset_of_cfgValid {s : State} (h : cfgValid s.pins.cfg = true) : exec .reset s = .next (hostReset s) :=
  if_pos h

/-- A pair of equal values gives that value for both stations. -/
theorem byStation_get_same {α : Type} (v : α) (st : Station) : (⟨v, v⟩ : ByStation α).get st = v := by
  cases st <;> rfl

theorem chan_atReset {f : Nat} (hf : f < 5) : Acq.atReset.chan[f]? = some ⟨.zeros, .zeros⟩ :=
  List.getElem?_replicate_of_lt hf

theorem digits_atReset {p : Nat} (hp : p < 9) : Dec.atReset.digits[p]? = some .zeros :=
  List.getElem?_replicate_of_lt hp

/-- The host reset leaves no written element in any array (20_memory.md R87). -/
theorem hostReset_array (s : State) {A : ArrName} (hlike : ∀ p, A = .like p → p < 9) :
    (hostReset s).array A = some .zeros := by
  cases A with
  | tI st | tQ st | mI st | mQ st => exact congrArg some (byStation_get_same _ st)
  | like p =>
    change (Dec.atReset.digits[p]?).map DigitVec.like = _
    rw [digits_atReset (hlike p rfl)]
    rfl
  | _ => rfl

/-- Settles O13: the registers by the reset column of their group, the arrays as zeros. -/
theorem hostResetValues : Obligations.HostResetValues := by
  intro s hvalid
  refine ⟨hostReset s, exec_reset_of_cfgValid hvalid, rfl, rfl, rfl, rfl, rfl, rfl, rfl, rfl,
    ⟨rfl, rfl, rfl, rfl, rfl, rfl⟩, ⟨rfl, rfl⟩, ⟨rfl, rfl⟩, fun st => ?sums, ⟨rfl, fun f st hf => ?chan⟩,
    rfl, rfl, rfl, rfl, fun st => byStation_get_same Scan.zeros st, rfl, rfl, rfl, rfl, rfl, ⟨rfl, fun p hp => ?digits⟩,
    rfl, rfl, rfl, rfl, fun A i hlike hi => memRead_of_zeros (hostReset_array s hlike) hi⟩
  case sums =>
    have hsum : (⟨.zero, .zero⟩ : ByStation F64).get st = .zero := byStation_get_same F64.zero st
    exact ⟨hsum, hsum, hsum, hsum⟩
  case chan => exact ⟨_, chan_atReset hf, byStation_get_same ChanRec.zeros st⟩
  case digits => exact ⟨_, digits_atReset hp, rfl, rfl, rfl, rfl, rfl⟩

end Sys2Proof.Machine
end
